-- ==== Sys2Proof/Word.lean ====
section
/-! DEFINITION. The word types of the PPC405 (spec/00_scope.md R8). -/

namespace Sys2Proof

/-- A 32-bit word: a register, an address, an instruction. The manual's bit `b` of a word is Lean's bit `31 - b`
(00_scope.md R15: the manual's bit 0 is the most significant). -/
abbrev Word := BitVec 32

/-- A halfword, 16 bits. -/
abbrev Half := BitVec 16

/-- A byte, the smallest unit of storage. -/
abbrev Byte := BitVec 8

/-- The number of a general purpose register, as an instruction field holds it (00_scope.md R8; 10_state.md R30). -/
abbrev Reg := BitVec 5

/-- The number of an SPR, a DCR or a TBR, with the halves of the field already put back in order
(30_encoding.md R165). -/
abbrev RegNum := BitVec 10

end Sys2Proof
end

