-- ==== Sys2Proof/Syntax.lean ====
section
/-! DEFINITION. The instructions: one constructor per row of spec/opcode_table.json, operands in the assembler's order
(30_encoding.md R176), every field at its own width. -/

namespace Sys2Proof

/-- The instructions of the PPC405 core. A constructor carries the mnemonic's name; `addicDot`, `andiDot`, `andisDot`,
`stwcxDot` are the rows "addic.", "andi.", "andis." and "stwcx.". `rc` is the record bit, `oe` the overflow-enable bit,
`lk` the link bit, `aa` the absolute-address bit (30_encoding.md R162). -/
inductive Instr where
  -- Storage reference (40_storage_reference.md)
  | lbz (rt ra : Reg) (d : Half) -- R203
  | lbzu (rt ra : Reg) (d : Half) -- R204
  | lbzx (rt ra rb : Reg) -- R205
  | lbzux (rt ra rb : Reg) -- R206
  | lhz (rt ra : Reg) (d : Half) -- R207
  | lhzu (rt ra : Reg) (d : Half) -- R208
  | lhzx (rt ra rb : Reg) -- R209
  | lhzux (rt ra rb : Reg) -- R210
  | lha (rt ra : Reg) (d : Half) -- R211
  | lhau (rt ra : Reg) (d : Half) -- R212
  | lhax (rt ra rb : Reg) -- R213
  | lhaux (rt ra rb : Reg) -- R214
  | lwz (rt ra : Reg) (d : Half) -- R215
  | lwzu (rt ra : Reg) (d : Half) -- R216
  | lwzx (rt ra rb : Reg) -- R217
  | lwzux (rt ra rb : Reg) -- R218
  | stb (rs ra : Reg) (d : Half) -- R219
  | stbu (rs ra : Reg) (d : Half) -- R220
  | stbx (rs ra rb : Reg) -- R221
  | stbux (rs ra rb : Reg) -- R222
  | sth (rs ra : Reg) (d : Half) -- R223
  | sthu (rs ra : Reg) (d : Half) -- R224
  | sthx (rs ra rb : Reg) -- R225
  | sthux (rs ra rb : Reg) -- R226
  | stw (rs ra : Reg) (d : Half) -- R227
  | stwu (rs ra : Reg) (d : Half) -- R228
  | stwx (rs ra rb : Reg) -- R229
  | stwux (rs ra rb : Reg) -- R230
  | lhbrx (rt ra rb : Reg) -- R231
  | lwbrx (rt ra rb : Reg) -- R232
  | sthbrx (rs ra rb : Reg) -- R233
  | stwbrx (rs ra rb : Reg) -- R234
  | lmw (rt ra : Reg) (d : Half) -- R235
  | stmw (rs ra : Reg) (d : Half) -- R236
  | lswi (rt ra : Reg) (nb : BitVec 5) -- R237
  | lswx (rt ra rb : Reg) -- R238
  | stswi (rs ra : Reg) (nb : BitVec 5) -- R239
  | stswx (rs ra rb : Reg) -- R240
  | lwarx (rt ra rb : Reg) -- R244
  | stwcxDot (rs ra rb : Reg) -- R245
  -- Arithmetic (41_arithmetic.md)
  | add (rt ra rb : Reg) (oe rc : Bool) -- R261
  | addc (rt ra rb : Reg) (oe rc : Bool) -- R262
  | adde (rt ra rb : Reg) (oe rc : Bool) -- R263
  | addi (rt ra : Reg) (si : Half) -- R264
  | addic (rt ra : Reg) (si : Half) -- R265
  | addicDot (rt ra : Reg) (si : Half) -- R266
  | addis (rt ra : Reg) (si : Half) -- R267
  | addme (rt ra : Reg) (oe rc : Bool) -- R268
  | addze (rt ra : Reg) (oe rc : Bool) -- R269
  | subf (rt ra rb : Reg) (oe rc : Bool) -- R270
  | subfc (rt ra rb : Reg) (oe rc : Bool) -- R271
  | subfe (rt ra rb : Reg) (oe rc : Bool) -- R272
  | subfic (rt ra : Reg) (si : Half) -- R273
  | subfme (rt ra : Reg) (oe rc : Bool) -- R274
  | subfze (rt ra : Reg) (oe rc : Bool) -- R275
  | neg (rt ra : Reg) (oe rc : Bool) -- R276
  | mulli (rt ra : Reg) (si : Half) -- R285
  | mullw (rt ra rb : Reg) (oe rc : Bool) -- R286
  | mulhw (rt ra rb : Reg) (rc : Bool) -- R287
  | mulhwu (rt ra rb : Reg) (rc : Bool) -- R288
  | divw (rt ra rb : Reg) (oe rc : Bool) -- R289
  | divwu (rt ra rb : Reg) (oe rc : Bool) -- R290
  -- Multiply-accumulate (42_mac.md)
  | macchw (rt ra rb : Reg) (oe rc : Bool) -- R303
  | macchws (rt ra rb : Reg) (oe rc : Bool) -- R304
  | macchwsu (rt ra rb : Reg) (oe rc : Bool) -- R305
  | macchwu (rt ra rb : Reg) (oe rc : Bool) -- R306
  | machhw (rt ra rb : Reg) (oe rc : Bool) -- R307
  | machhws (rt ra rb : Reg) (oe rc : Bool) -- R308
  | machhwsu (rt ra rb : Reg) (oe rc : Bool) -- R309
  | machhwu (rt ra rb : Reg) (oe rc : Bool) -- R310
  | maclhw (rt ra rb : Reg) (oe rc : Bool) -- R311
  | maclhws (rt ra rb : Reg) (oe rc : Bool) -- R312
  | maclhwsu (rt ra rb : Reg) (oe rc : Bool) -- R313
  | maclhwu (rt ra rb : Reg) (oe rc : Bool) -- R314
  | nmacchw (rt ra rb : Reg) (oe rc : Bool) -- R315
  | nmacchws (rt ra rb : Reg) (oe rc : Bool) -- R316
  | nmachhw (rt ra rb : Reg) (oe rc : Bool) -- R317
  | nmachhws (rt ra rb : Reg) (oe rc : Bool) -- R318
  | nmaclhw (rt ra rb : Reg) (oe rc : Bool) -- R319
  | nmaclhws (rt ra rb : Reg) (oe rc : Bool) -- R320
  | mulchw (rt ra rb : Reg) (rc : Bool) -- R321
  | mulchwu (rt ra rb : Reg) (rc : Bool) -- R322
  | mulhhw (rt ra rb : Reg) (rc : Bool) -- R323
  | mulhhwu (rt ra rb : Reg) (rc : Bool) -- R324
  | mullhw (rt ra rb : Reg) (rc : Bool) -- R325
  | mullhwu (rt ra rb : Reg) (rc : Bool) -- R326
  -- Logical and compare (43_logical_compare.md)
  | and (ra rs rb : Reg) (rc : Bool) -- R341
  | andc (ra rs rb : Reg) (rc : Bool) -- R342
  | andiDot (ra rs : Reg) (ui : Half) -- R343
  | andisDot (ra rs : Reg) (ui : Half) -- R344
  | cntlzw (ra rs : Reg) (rc : Bool) -- R345
  | eqv (ra rs rb : Reg) (rc : Bool) -- R346
  | extsb (ra rs : Reg) (rc : Bool) -- R347
  | extsh (ra rs : Reg) (rc : Bool) -- R348
  | nand (ra rs rb : Reg) (rc : Bool) -- R349
  | nor (ra rs rb : Reg) (rc : Bool) -- R350
  | or (ra rs rb : Reg) (rc : Bool) -- R351
  | orc (ra rs rb : Reg) (rc : Bool) -- R352
  | ori (ra rs : Reg) (ui : Half) -- R353
  | oris (ra rs : Reg) (ui : Half) -- R354
  | xor (ra rs rb : Reg) (rc : Bool) -- R355
  | xori (ra rs : Reg) (ui : Half) -- R356
  | xoris (ra rs : Reg) (ui : Half) -- R357
  | cmp (bf : BitVec 3) (l : Bool) (ra rb : Reg) -- R361
  | cmpi (bf : BitVec 3) (l : Bool) (ra : Reg) (si : Half) -- R362
  | cmpl (bf : BitVec 3) (l : Bool) (ra rb : Reg) -- R363
  | cmpli (bf : BitVec 3) (l : Bool) (ra : Reg) (ui : Half) -- R364
  -- Branch and condition register (44_branch_crlogical.md)
  | b (li : BitVec 24) (aa lk : Bool) -- R382
  | bclr (bo bi : BitVec 5) (lk : Bool) -- R383
  | bcctr (bo bi : BitVec 5) (lk : Bool) -- R384
  | bc (bo bi : BitVec 5) (bd : BitVec 14) (aa lk : Bool) -- R385
  | crand (bt ba bb : BitVec 5) -- R391
  | crandc (bt ba bb : BitVec 5) -- R392
  | creqv (bt ba bb : BitVec 5) -- R393
  | crnand (bt ba bb : BitVec 5) -- R394
  | crnor (bt ba bb : BitVec 5) -- R395
  | cror (bt ba bb : BitVec 5) -- R396
  | crorc (bt ba bb : BitVec 5) -- R397
  | crxor (bt ba bb : BitVec 5) -- R398
  | mcrf (bf bfa : BitVec 3) -- R399
  -- Rotate and shift (45_rotate_shift.md)
  | rlwimi (ra rs : Reg) (sh mb me : BitVec 5) (rc : Bool) -- R411
  | rlwinm (ra rs : Reg) (sh mb me : BitVec 5) (rc : Bool) -- R412
  | rlwnm (ra rs rb : Reg) (mb me : BitVec 5) (rc : Bool) -- R413
  | slw (ra rs rb : Reg) (rc : Bool) -- R414
  | srw (ra rs rb : Reg) (rc : Bool) -- R415
  | sraw (ra rs rb : Reg) (rc : Bool) -- R416
  | srawi (ra rs : Reg) (sh : BitVec 5) (rc : Bool) -- R417
  -- Cache management (46_cache_management.md)
  | icbi (ra rb : Reg) -- R432
  | icbt (ra rb : Reg) -- R433
  | iccci (ra rb : Reg) -- R434
  | icread (ra rb : Reg) -- R437
  | dcbf (ra rb : Reg) -- R438
  | dcbi (ra rb : Reg) -- R439
  | dcbz (ra rb : Reg) -- R440
  | dcbst (ra rb : Reg) -- R441
  | dcbt (ra rb : Reg) -- R442
  | dcbtst (ra rb : Reg) -- R443
  | dccci (ra rb : Reg) -- R444
  | dcba (ra rb : Reg) -- R446
  | dcread (rt ra rb : Reg) -- R447
  -- Interrupt control and TLB (47_interrupt_control_tlb.md)
  | mfmsr (rt : Reg) -- R461
  | rfi -- R462
  | rfci -- R463
  | mtmsr (rs : Reg) -- R464
  | wrtee (rs : Reg) -- R465
  | wrteei (e : Bool) -- R466
  | tlbsx (rt ra rb : Reg) (rc : Bool) -- R468
  | tlbia -- R469
  | tlbre (rt ra : Reg) (ws : BitVec 5) -- R470
  | tlbwe (rs ra : Reg) (ws : BitVec 5) -- R471
  | tlbsync -- R472
  -- Processor management (48_processor_management.md)
  | eieio -- R491
  | isync -- R492
  | sync -- R493
  | mcrxr (bf : BitVec 3) -- R494
  | mfcr (rt : Reg) -- R495
  | mfdcr (rt : Reg) (dcrn : BitVec 10) -- R496
  | mfspr (rt : Reg) (sprn : BitVec 10) -- R497
  | mftb (rt : Reg) (tbrn : BitVec 10) -- R498
  | mtcrf (fxm : BitVec 8) (rs : Reg) -- R499
  | mtdcr (dcrn : BitVec 10) (rs : Reg) -- R500
  | mtspr (sprn : BitVec 10) (rs : Reg) -- R501
  | sc -- R502
  | tw (tocond : BitVec 5) (ra rb : Reg) -- R503
  | twi (tocond : BitVec 5) (ra : Reg) (si : Half) -- R504
  deriving DecidableEq, Repr

end Sys2Proof
end

