-- ==== Sys2Proof/Decode.lean ====
section
/-! DEFINITION. Decoding an instruction word and encoding an instruction, from the same tables (spec/30_encoding.md
R160-R173; spec/opcode_table.json). -/

namespace Sys2Proof

/-! ### Fields of a word (30_encoding.md R161, R162) -/

/-- Bits 0:5, the primary opcode. -/
def opcdOf (w : Word) : Nat := (w >>> 26).toNat

/-- Bits 6:10. -/
def f1 (w : Word) : BitVec 5 := (w >>> 21).setWidth 5

/-- Bits 11:15. -/
def f2 (w : Word) : BitVec 5 := (w >>> 16).setWidth 5

/-- Bits 16:20. -/
def f3 (w : Word) : BitVec 5 := (w >>> 11).setWidth 5

/-- Bits 21:25. -/
def f4 (w : Word) : BitVec 5 := (w >>> 6).setWidth 5

/-- Bits 26:30. -/
def f5 (w : Word) : BitVec 5 := (w >>> 1).setWidth 5

/-- Bits 16:31. -/
def imm (w : Word) : Half := w.setWidth 16

/-- Bits 21:30, the extended opcode of X, XL and XFX forms; with bit 21 as OE, of XO forms. -/
def xoOf (w : Word) : Nat := ((w >>> 1).setWidth 10 : BitVec 10).toNat

/-- Bit 31: Rc or LK. -/
def rcOf (w : Word) : Bool := w.getLsbD 0

/-- Bit 30: AA. -/
def aaOf (w : Word) : Bool := w.getLsbD 1

/-- Bit 21: OE. -/
def oeOf (w : Word) : Bool := w.getLsbD 10

/-- Bits 6:29: LI. -/
def liOf (w : Word) : BitVec 24 := (w >>> 2).setWidth 24

/-- Bits 16:29: BD. -/
def bdOf (w : Word) : BitVec 14 := (w >>> 2).setWidth 14

/-- BF or BFA: the first three bits of a five-bit place. -/
def bfOf (x : BitVec 5) : BitVec 3 := (x >>> 2).setWidth 3

/-- L: the last bit of a five-bit place. -/
def lOf (x : BitVec 5) : Bool := x.getLsbD 0

/-- An SPR, DCR or TBR number, its halves put back in order (30_encoding.md R165). -/
def numOf (w : Word) : RegNum := ((f3 w).setWidth 10 <<< 5) ||| (f2 w).setWidth 10

/-- FXM: bits 12:19. -/
def fxmOf (w : Word) : BitVec 8 := (w >>> 12).setWidth 8

/-! ### Building a word -/

/-- BF and L in a five-bit place, the bit between reserved. -/
def bfl (bf : BitVec 3) (l : Bool) : BitVec 5 := (bf.setWidth 5 <<< 2) ||| (BitVec.ofBool l).setWidth 5

/-- BF or BFA in a five-bit place, the two bits after it reserved. -/
def bf2 (bf : BitVec 3) : BitVec 5 := bf.setWidth 5 <<< 2

/-- E of `wrteei` in a five-bit place, the four bits after it reserved. -/
def eBit (e : Bool) : BitVec 5 := (BitVec.ofBool e).setWidth 5 <<< 4

/-- The low and the high half of a register number. -/
def numLo (n : RegNum) : BitVec 5 := n.setWidth 5
def numHi (n : RegNum) : BitVec 5 := (n >>> 5).setWidth 5

/-- The two places of FXM, a reserved bit before and after it. -/
def fxmHi (m : BitVec 8) : BitVec 5 := (m >>> 4).setWidth 5
def fxmLo (m : BitVec 8) : BitVec 5 := (m.setWidth 5 <<< 1)

/-- A field whose last bit stands `n` bits above the end of the word. -/
def place {k : Nat} (x : BitVec k) (n : Nat) : Word := x.setWidth 32 <<< n

/-- A one-bit field. -/
def placeBit (b : Bool) (n : Nat) : Word := place (BitVec.ofBool b) n

/-- D-form. -/
def packD (op : BitVec 6) (a b : BitVec 5) (d : Half) : Word := place op 26 ||| place a 21 ||| place b 16 ||| place d 0

/-- X, XL and XFX forms. -/
def packX (op : BitVec 6) (a b c : BitVec 5) (xo : BitVec 10) (rc : Bool) : Word :=
  place op 26 ||| place a 21 ||| place b 16 ||| place c 11 ||| place xo 1 ||| placeBit rc 0

/-- XO-form. -/
def packXO (op : BitVec 6) (a b c : BitVec 5) (oe : Bool) (xo : BitVec 9) (rc : Bool) : Word :=
  place op 26 ||| place a 21 ||| place b 16 ||| place c 11 ||| placeBit oe 10 ||| place xo 1 ||| placeBit rc 0

/-- M-form. -/
def packM (op : BitVec 6) (a b c d e : BitVec 5) (rc : Bool) : Word :=
  place op 26 ||| place a 21 ||| place b 16 ||| place c 11 ||| place d 6 ||| place e 1 ||| placeBit rc 0

/-- I-form. -/
def packI (op : BitVec 6) (li : BitVec 24) (aa lk : Bool) : Word :=
  place op 26 ||| place li 2 ||| placeBit aa 1 ||| placeBit lk 0

/-- B-form. -/
def packB (op : BitVec 6) (bo bi : BitVec 5) (bd : BitVec 14) (aa lk : Bool) : Word :=
  place op 26 ||| place bo 21 ||| place bi 16 ||| place bd 2 ||| placeBit aa 1 ||| placeBit lk 0

/-! ### The opcode maps -/

/-- Opcode 4 (30_encoding.md R169). XO-form instructions answer at both values of OE. -/
def decode4 (w : Word) : Option Instr :=
  match xoOf w with
  | 8 => some (.mulhhwu (f1 w) (f2 w) (f3 w) (rcOf w))
  | 12 | 524 => some (.machhwu (f1 w) (f2 w) (f3 w) (oeOf w) (rcOf w))
  | 40 => some (.mulhhw (f1 w) (f2 w) (f3 w) (rcOf w))
  | 44 | 556 => some (.machhw (f1 w) (f2 w) (f3 w) (oeOf w) (rcOf w))
  | 46 | 558 => some (.nmachhw (f1 w) (f2 w) (f3 w) (oeOf w) (rcOf w))
  | 76 | 588 => some (.machhwsu (f1 w) (f2 w) (f3 w) (oeOf w) (rcOf w))
  | 108 | 620 => some (.machhws (f1 w) (f2 w) (f3 w) (oeOf w) (rcOf w))
  | 110 | 622 => some (.nmachhws (f1 w) (f2 w) (f3 w) (oeOf w) (rcOf w))
  | 136 => some (.mulchwu (f1 w) (f2 w) (f3 w) (rcOf w))
  | 140 | 652 => some (.macchwu (f1 w) (f2 w) (f3 w) (oeOf w) (rcOf w))
  | 168 => some (.mulchw (f1 w) (f2 w) (f3 w) (rcOf w))
  | 172 | 684 => some (.macchw (f1 w) (f2 w) (f3 w) (oeOf w) (rcOf w))
  | 174 | 686 => some (.nmacchw (f1 w) (f2 w) (f3 w) (oeOf w) (rcOf w))
  | 204 | 716 => some (.macchwsu (f1 w) (f2 w) (f3 w) (oeOf w) (rcOf w))
  | 236 | 748 => some (.macchws (f1 w) (f2 w) (f3 w) (oeOf w) (rcOf w))
  | 238 | 750 => some (.nmacchws (f1 w) (f2 w) (f3 w) (oeOf w) (rcOf w))
  | 392 => some (.mullhwu (f1 w) (f2 w) (f3 w) (rcOf w))
  | 396 | 908 => some (.maclhwu (f1 w) (f2 w) (f3 w) (oeOf w) (rcOf w))
  | 424 => some (.mullhw (f1 w) (f2 w) (f3 w) (rcOf w))
  | 428 | 940 => some (.maclhw (f1 w) (f2 w) (f3 w) (oeOf w) (rcOf w))
  | 430 | 942 => some (.nmaclhw (f1 w) (f2 w) (f3 w) (oeOf w) (rcOf w))
  | 460 | 972 => some (.maclhwsu (f1 w) (f2 w) (f3 w) (oeOf w) (rcOf w))
  | 492 | 1004 => some (.maclhws (f1 w) (f2 w) (f3 w) (oeOf w) (rcOf w))
  | 494 | 1006 => some (.nmaclhws (f1 w) (f2 w) (f3 w) (oeOf w) (rcOf w))
  | _ => none

/-- Opcode 19 (30_encoding.md R167). -/
def decode19 (w : Word) : Option Instr :=
  match xoOf w with
  | 0 => some (.mcrf (bfOf (f1 w)) (bfOf (f2 w)))
  | 16 => some (.bclr (f1 w) (f2 w) (rcOf w))
  | 33 => some (.crnor (f1 w) (f2 w) (f3 w))
  | 50 => some .rfi
  | 51 => some .rfci
  | 129 => some (.crandc (f1 w) (f2 w) (f3 w))
  | 150 => some .isync
  | 193 => some (.crxor (f1 w) (f2 w) (f3 w))
  | 225 => some (.crnand (f1 w) (f2 w) (f3 w))
  | 257 => some (.crand (f1 w) (f2 w) (f3 w))
  | 289 => some (.creqv (f1 w) (f2 w) (f3 w))
  | 417 => some (.crorc (f1 w) (f2 w) (f3 w))
  | 449 => some (.cror (f1 w) (f2 w) (f3 w))
  | 528 => some (.bcctr (f1 w) (f2 w) (rcOf w))
  | _ => none

/-- Opcode 31 (30_encoding.md R168). XO-form instructions answer at both values of OE. -/
def decode31 (w : Word) : Option Instr :=
  match xoOf w with
  | 0 => some (.cmp (bfOf (f1 w)) (lOf (f1 w)) (f2 w) (f3 w))
  | 4 => some (.tw (f1 w) (f2 w) (f3 w))
  | 8 | 520 => some (.subfc (f1 w) (f2 w) (f3 w) (oeOf w) (rcOf w))
  | 10 | 522 => some (.addc (f1 w) (f2 w) (f3 w) (oeOf w) (rcOf w))
  | 11 | 523 => some (.mulhwu (f1 w) (f2 w) (f3 w) (rcOf w))
  | 19 => some (.mfcr (f1 w))
  | 20 => some (.lwarx (f1 w) (f2 w) (f3 w))
  | 23 => some (.lwzx (f1 w) (f2 w) (f3 w))
  | 24 => some (.slw (f2 w) (f1 w) (f3 w) (rcOf w))
  | 26 => some (.cntlzw (f2 w) (f1 w) (rcOf w))
  | 28 => some (.and (f2 w) (f1 w) (f3 w) (rcOf w))
  | 32 => some (.cmpl (bfOf (f1 w)) (lOf (f1 w)) (f2 w) (f3 w))
  | 40 | 552 => some (.subf (f1 w) (f2 w) (f3 w) (oeOf w) (rcOf w))
  | 54 => some (.dcbst (f2 w) (f3 w))
  | 55 => some (.lwzux (f1 w) (f2 w) (f3 w))
  | 60 => some (.andc (f2 w) (f1 w) (f3 w) (rcOf w))
  | 75 | 587 => some (.mulhw (f1 w) (f2 w) (f3 w) (rcOf w))
  | 83 => some (.mfmsr (f1 w))
  | 86 => some (.dcbf (f2 w) (f3 w))
  | 87 => some (.lbzx (f1 w) (f2 w) (f3 w))
  | 104 | 616 => some (.neg (f1 w) (f2 w) (oeOf w) (rcOf w))
  | 119 => some (.lbzux (f1 w) (f2 w) (f3 w))
  | 124 => some (.nor (f2 w) (f1 w) (f3 w) (rcOf w))
  | 131 => some (.wrtee (f1 w))
  | 136 | 648 => some (.subfe (f1 w) (f2 w) (f3 w) (oeOf w) (rcOf w))
  | 138 | 650 => some (.adde (f1 w) (f2 w) (f3 w) (oeOf w) (rcOf w))
  | 144 => some (.mtcrf (fxmOf w) (f1 w))
  | 146 => some (.mtmsr (f1 w))
  | 150 => some (.stwcxDot (f1 w) (f2 w) (f3 w))
  | 151 => some (.stwx (f1 w) (f2 w) (f3 w))
  | 163 => some (.wrteei ((f3 w).getLsbD 4))
  | 183 => some (.stwux (f1 w) (f2 w) (f3 w))
  | 200 | 712 => some (.subfze (f1 w) (f2 w) (oeOf w) (rcOf w))
  | 202 | 714 => some (.addze (f1 w) (f2 w) (oeOf w) (rcOf w))
  | 215 => some (.stbx (f1 w) (f2 w) (f3 w))
  | 232 | 744 => some (.subfme (f1 w) (f2 w) (oeOf w) (rcOf w))
  | 234 | 746 => some (.addme (f1 w) (f2 w) (oeOf w) (rcOf w))
  | 235 | 747 => some (.mullw (f1 w) (f2 w) (f3 w) (oeOf w) (rcOf w))
  | 246 => some (.dcbtst (f2 w) (f3 w))
  | 247 => some (.stbux (f1 w) (f2 w) (f3 w))
  | 262 => some (.icbt (f2 w) (f3 w))
  | 266 | 778 => some (.add (f1 w) (f2 w) (f3 w) (oeOf w) (rcOf w))
  | 278 => some (.dcbt (f2 w) (f3 w))
  | 279 => some (.lhzx (f1 w) (f2 w) (f3 w))
  | 284 => some (.eqv (f2 w) (f1 w) (f3 w) (rcOf w))
  | 311 => some (.lhzux (f1 w) (f2 w) (f3 w))
  | 316 => some (.xor (f2 w) (f1 w) (f3 w) (rcOf w))
  | 323 => some (.mfdcr (f1 w) (numOf w))
  | 339 => some (.mfspr (f1 w) (numOf w))
  | 343 => some (.lhax (f1 w) (f2 w) (f3 w))
  | 370 => some .tlbia
  | 371 => some (.mftb (f1 w) (numOf w))
  | 375 => some (.lhaux (f1 w) (f2 w) (f3 w))
  | 407 => some (.sthx (f1 w) (f2 w) (f3 w))
  | 412 => some (.orc (f2 w) (f1 w) (f3 w) (rcOf w))
  | 439 => some (.sthux (f1 w) (f2 w) (f3 w))
  | 444 => some (.or (f2 w) (f1 w) (f3 w) (rcOf w))
  | 451 => some (.mtdcr (numOf w) (f1 w))
  | 454 => some (.dccci (f2 w) (f3 w))
  | 459 | 971 => some (.divwu (f1 w) (f2 w) (f3 w) (oeOf w) (rcOf w))
  | 467 => some (.mtspr (numOf w) (f1 w))
  | 470 => some (.dcbi (f2 w) (f3 w))
  | 476 => some (.nand (f2 w) (f1 w) (f3 w) (rcOf w))
  | 486 => some (.dcread (f1 w) (f2 w) (f3 w))
  | 491 | 1003 => some (.divw (f1 w) (f2 w) (f3 w) (oeOf w) (rcOf w))
  | 512 => some (.mcrxr (bfOf (f1 w)))
  | 533 => some (.lswx (f1 w) (f2 w) (f3 w))
  | 534 => some (.lwbrx (f1 w) (f2 w) (f3 w))
  | 536 => some (.srw (f2 w) (f1 w) (f3 w) (rcOf w))
  | 566 => some .tlbsync
  | 597 => some (.lswi (f1 w) (f2 w) (f3 w))
  | 598 => some .sync
  | 661 => some (.stswx (f1 w) (f2 w) (f3 w))
  | 662 => some (.stwbrx (f1 w) (f2 w) (f3 w))
  | 725 => some (.stswi (f1 w) (f2 w) (f3 w))
  | 758 => some (.dcba (f2 w) (f3 w))
  | 790 => some (.lhbrx (f1 w) (f2 w) (f3 w))
  | 792 => some (.sraw (f2 w) (f1 w) (f3 w) (rcOf w))
  | 824 => some (.srawi (f2 w) (f1 w) (f3 w) (rcOf w))
  | 854 => some .eieio
  | 914 => some (.tlbsx (f1 w) (f2 w) (f3 w) (rcOf w))
  | 918 => some (.sthbrx (f1 w) (f2 w) (f3 w))
  | 922 => some (.extsh (f2 w) (f1 w) (rcOf w))
  | 946 => some (.tlbre (f1 w) (f2 w) (f3 w))
  | 954 => some (.extsb (f2 w) (f1 w) (rcOf w))
  | 966 => some (.iccci (f2 w) (f3 w))
  | 978 => some (.tlbwe (f1 w) (f2 w) (f3 w))
  | 982 => some (.icbi (f2 w) (f3 w))
  | 998 => some (.icread (f2 w) (f3 w))
  | 1014 => some (.dcbz (f2 w) (f3 w))
  | _ => none

/-- The instruction a word's opcodes name, reserved bits ignored; none where no row of the table matches
(30_encoding.md R166, R170). -/
def decodeFields (w : Word) : Option Instr :=
  match opcdOf w with
  | 4 => decode4 w
  | 19 => decode19 w
  | 31 => decode31 w
  | 17 => if w.getLsbD 1 then some .sc else none
  | 3 => some (.twi (f1 w) (f2 w) (imm w))
  | 7 => some (.mulli (f1 w) (f2 w) (imm w))
  | 8 => some (.subfic (f1 w) (f2 w) (imm w))
  | 10 => some (.cmpli (bfOf (f1 w)) (lOf (f1 w)) (f2 w) (imm w))
  | 11 => some (.cmpi (bfOf (f1 w)) (lOf (f1 w)) (f2 w) (imm w))
  | 12 => some (.addic (f1 w) (f2 w) (imm w))
  | 13 => some (.addicDot (f1 w) (f2 w) (imm w))
  | 14 => some (.addi (f1 w) (f2 w) (imm w))
  | 15 => some (.addis (f1 w) (f2 w) (imm w))
  | 16 => some (.bc (f1 w) (f2 w) (bdOf w) (aaOf w) (rcOf w))
  | 18 => some (.b (liOf w) (aaOf w) (rcOf w))
  | 20 => some (.rlwimi (f2 w) (f1 w) (f3 w) (f4 w) (f5 w) (rcOf w))
  | 21 => some (.rlwinm (f2 w) (f1 w) (f3 w) (f4 w) (f5 w) (rcOf w))
  | 23 => some (.rlwnm (f2 w) (f1 w) (f3 w) (f4 w) (f5 w) (rcOf w))
  | 24 => some (.ori (f2 w) (f1 w) (imm w))
  | 25 => some (.oris (f2 w) (f1 w) (imm w))
  | 26 => some (.xori (f2 w) (f1 w) (imm w))
  | 27 => some (.xoris (f2 w) (f1 w) (imm w))
  | 28 => some (.andiDot (f2 w) (f1 w) (imm w))
  | 29 => some (.andisDot (f2 w) (f1 w) (imm w))
  | 32 => some (.lwz (f1 w) (f2 w) (imm w))
  | 33 => some (.lwzu (f1 w) (f2 w) (imm w))
  | 34 => some (.lbz (f1 w) (f2 w) (imm w))
  | 35 => some (.lbzu (f1 w) (f2 w) (imm w))
  | 36 => some (.stw (f1 w) (f2 w) (imm w))
  | 37 => some (.stwu (f1 w) (f2 w) (imm w))
  | 38 => some (.stb (f1 w) (f2 w) (imm w))
  | 39 => some (.stbu (f1 w) (f2 w) (imm w))
  | 40 => some (.lhz (f1 w) (f2 w) (imm w))
  | 41 => some (.lhzu (f1 w) (f2 w) (imm w))
  | 42 => some (.lha (f1 w) (f2 w) (imm w))
  | 43 => some (.lhau (f1 w) (f2 w) (imm w))
  | 44 => some (.sth (f1 w) (f2 w) (imm w))
  | 45 => some (.sthu (f1 w) (f2 w) (imm w))
  | 46 => some (.lmw (f1 w) (f2 w) (imm w))
  | 47 => some (.stmw (f1 w) (f2 w) (imm w))
  | _ => none

/-! ### Encoding -/

/-- The word of an instruction, reserved bits zero. -/
def encode : Instr → Word
  | .lbz rt ra d => packD 34 rt ra d
  | .lbzu rt ra d => packD 35 rt ra d
  | .lbzx rt ra rb => packX 31 rt ra rb 87 false
  | .lbzux rt ra rb => packX 31 rt ra rb 119 false
  | .lhz rt ra d => packD 40 rt ra d
  | .lhzu rt ra d => packD 41 rt ra d
  | .lhzx rt ra rb => packX 31 rt ra rb 279 false
  | .lhzux rt ra rb => packX 31 rt ra rb 311 false
  | .lha rt ra d => packD 42 rt ra d
  | .lhau rt ra d => packD 43 rt ra d
  | .lhax rt ra rb => packX 31 rt ra rb 343 false
  | .lhaux rt ra rb => packX 31 rt ra rb 375 false
  | .lwz rt ra d => packD 32 rt ra d
  | .lwzu rt ra d => packD 33 rt ra d
  | .lwzx rt ra rb => packX 31 rt ra rb 23 false
  | .lwzux rt ra rb => packX 31 rt ra rb 55 false
  | .stb rs ra d => packD 38 rs ra d
  | .stbu rs ra d => packD 39 rs ra d
  | .stbx rs ra rb => packX 31 rs ra rb 215 false
  | .stbux rs ra rb => packX 31 rs ra rb 247 false
  | .sth rs ra d => packD 44 rs ra d
  | .sthu rs ra d => packD 45 rs ra d
  | .sthx rs ra rb => packX 31 rs ra rb 407 false
  | .sthux rs ra rb => packX 31 rs ra rb 439 false
  | .stw rs ra d => packD 36 rs ra d
  | .stwu rs ra d => packD 37 rs ra d
  | .stwx rs ra rb => packX 31 rs ra rb 151 false
  | .stwux rs ra rb => packX 31 rs ra rb 183 false
  | .lhbrx rt ra rb => packX 31 rt ra rb 790 false
  | .lwbrx rt ra rb => packX 31 rt ra rb 534 false
  | .sthbrx rs ra rb => packX 31 rs ra rb 918 false
  | .stwbrx rs ra rb => packX 31 rs ra rb 662 false
  | .lmw rt ra d => packD 46 rt ra d
  | .stmw rs ra d => packD 47 rs ra d
  | .lswi rt ra nb => packX 31 rt ra nb 597 false
  | .lswx rt ra rb => packX 31 rt ra rb 533 false
  | .stswi rs ra nb => packX 31 rs ra nb 725 false
  | .stswx rs ra rb => packX 31 rs ra rb 661 false
  | .lwarx rt ra rb => packX 31 rt ra rb 20 false
  | .stwcxDot rs ra rb => packX 31 rs ra rb 150 true
  | .add rt ra rb oe rc => packXO 31 rt ra rb oe 266 rc
  | .addc rt ra rb oe rc => packXO 31 rt ra rb oe 10 rc
  | .adde rt ra rb oe rc => packXO 31 rt ra rb oe 138 rc
  | .addi rt ra si => packD 14 rt ra si
  | .addic rt ra si => packD 12 rt ra si
  | .addicDot rt ra si => packD 13 rt ra si
  | .addis rt ra si => packD 15 rt ra si
  | .addme rt ra oe rc => packXO 31 rt ra 0 oe 234 rc
  | .addze rt ra oe rc => packXO 31 rt ra 0 oe 202 rc
  | .subf rt ra rb oe rc => packXO 31 rt ra rb oe 40 rc
  | .subfc rt ra rb oe rc => packXO 31 rt ra rb oe 8 rc
  | .subfe rt ra rb oe rc => packXO 31 rt ra rb oe 136 rc
  | .subfic rt ra si => packD 8 rt ra si
  | .subfme rt ra oe rc => packXO 31 rt ra 0 oe 232 rc
  | .subfze rt ra oe rc => packXO 31 rt ra 0 oe 200 rc
  | .neg rt ra oe rc => packXO 31 rt ra 0 oe 104 rc
  | .mulli rt ra si => packD 7 rt ra si
  | .mullw rt ra rb oe rc => packXO 31 rt ra rb oe 235 rc
  | .mulhw rt ra rb rc => packXO 31 rt ra rb false 75 rc
  | .mulhwu rt ra rb rc => packXO 31 rt ra rb false 11 rc
  | .divw rt ra rb oe rc => packXO 31 rt ra rb oe 491 rc
  | .divwu rt ra rb oe rc => packXO 31 rt ra rb oe 459 rc
  | .macchw rt ra rb oe rc => packXO 4 rt ra rb oe 172 rc
  | .macchws rt ra rb oe rc => packXO 4 rt ra rb oe 236 rc
  | .macchwsu rt ra rb oe rc => packXO 4 rt ra rb oe 204 rc
  | .macchwu rt ra rb oe rc => packXO 4 rt ra rb oe 140 rc
  | .machhw rt ra rb oe rc => packXO 4 rt ra rb oe 44 rc
  | .machhws rt ra rb oe rc => packXO 4 rt ra rb oe 108 rc
  | .machhwsu rt ra rb oe rc => packXO 4 rt ra rb oe 76 rc
  | .machhwu rt ra rb oe rc => packXO 4 rt ra rb oe 12 rc
  | .maclhw rt ra rb oe rc => packXO 4 rt ra rb oe 428 rc
  | .maclhws rt ra rb oe rc => packXO 4 rt ra rb oe 492 rc
  | .maclhwsu rt ra rb oe rc => packXO 4 rt ra rb oe 460 rc
  | .maclhwu rt ra rb oe rc => packXO 4 rt ra rb oe 396 rc
  | .nmacchw rt ra rb oe rc => packXO 4 rt ra rb oe 174 rc
  | .nmacchws rt ra rb oe rc => packXO 4 rt ra rb oe 238 rc
  | .nmachhw rt ra rb oe rc => packXO 4 rt ra rb oe 46 rc
  | .nmachhws rt ra rb oe rc => packXO 4 rt ra rb oe 110 rc
  | .nmaclhw rt ra rb oe rc => packXO 4 rt ra rb oe 430 rc
  | .nmaclhws rt ra rb oe rc => packXO 4 rt ra rb oe 494 rc
  | .mulchw rt ra rb rc => packX 4 rt ra rb 168 rc
  | .mulchwu rt ra rb rc => packX 4 rt ra rb 136 rc
  | .mulhhw rt ra rb rc => packX 4 rt ra rb 40 rc
  | .mulhhwu rt ra rb rc => packX 4 rt ra rb 8 rc
  | .mullhw rt ra rb rc => packX 4 rt ra rb 424 rc
  | .mullhwu rt ra rb rc => packX 4 rt ra rb 392 rc
  | .and ra rs rb rc => packX 31 rs ra rb 28 rc
  | .andc ra rs rb rc => packX 31 rs ra rb 60 rc
  | .andiDot ra rs ui => packD 28 rs ra ui
  | .andisDot ra rs ui => packD 29 rs ra ui
  | .cntlzw ra rs rc => packX 31 rs ra 0 26 rc
  | .eqv ra rs rb rc => packX 31 rs ra rb 284 rc
  | .extsb ra rs rc => packX 31 rs ra 0 954 rc
  | .extsh ra rs rc => packX 31 rs ra 0 922 rc
  | .nand ra rs rb rc => packX 31 rs ra rb 476 rc
  | .nor ra rs rb rc => packX 31 rs ra rb 124 rc
  | .or ra rs rb rc => packX 31 rs ra rb 444 rc
  | .orc ra rs rb rc => packX 31 rs ra rb 412 rc
  | .ori ra rs ui => packD 24 rs ra ui
  | .oris ra rs ui => packD 25 rs ra ui
  | .xor ra rs rb rc => packX 31 rs ra rb 316 rc
  | .xori ra rs ui => packD 26 rs ra ui
  | .xoris ra rs ui => packD 27 rs ra ui
  | .cmp bf l ra rb => packX 31 (bfl bf l) ra rb 0 false
  | .cmpi bf l ra si => packD 11 (bfl bf l) ra si
  | .cmpl bf l ra rb => packX 31 (bfl bf l) ra rb 32 false
  | .cmpli bf l ra ui => packD 10 (bfl bf l) ra ui
  | .b li aa lk => packI 18 li aa lk
  | .bclr bo bi lk => packX 19 bo bi 0 16 lk
  | .bcctr bo bi lk => packX 19 bo bi 0 528 lk
  | .bc bo bi bd aa lk => packB 16 bo bi bd aa lk
  | .crand bt ba bb => packX 19 bt ba bb 257 false
  | .crandc bt ba bb => packX 19 bt ba bb 129 false
  | .creqv bt ba bb => packX 19 bt ba bb 289 false
  | .crnand bt ba bb => packX 19 bt ba bb 225 false
  | .crnor bt ba bb => packX 19 bt ba bb 33 false
  | .cror bt ba bb => packX 19 bt ba bb 449 false
  | .crorc bt ba bb => packX 19 bt ba bb 417 false
  | .crxor bt ba bb => packX 19 bt ba bb 193 false
  | .mcrf bf bfa => packX 19 (bf2 bf) (bf2 bfa) 0 0 false
  | .rlwimi ra rs sh mb me rc => packM 20 rs ra sh mb me rc
  | .rlwinm ra rs sh mb me rc => packM 21 rs ra sh mb me rc
  | .rlwnm ra rs rb mb me rc => packM 23 rs ra rb mb me rc
  | .slw ra rs rb rc => packX 31 rs ra rb 24 rc
  | .srw ra rs rb rc => packX 31 rs ra rb 536 rc
  | .sraw ra rs rb rc => packX 31 rs ra rb 792 rc
  | .srawi ra rs sh rc => packX 31 rs ra sh 824 rc
  | .icbi ra rb => packX 31 0 ra rb 982 false
  | .icbt ra rb => packX 31 0 ra rb 262 false
  | .iccci ra rb => packX 31 0 ra rb 966 false
  | .icread ra rb => packX 31 0 ra rb 998 false
  | .dcbf ra rb => packX 31 0 ra rb 86 false
  | .dcbi ra rb => packX 31 0 ra rb 470 false
  | .dcbz ra rb => packX 31 0 ra rb 1014 false
  | .dcbst ra rb => packX 31 0 ra rb 54 false
  | .dcbt ra rb => packX 31 0 ra rb 278 false
  | .dcbtst ra rb => packX 31 0 ra rb 246 false
  | .dccci ra rb => packX 31 0 ra rb 454 false
  | .dcba ra rb => packX 31 0 ra rb 758 false
  | .dcread rt ra rb => packX 31 rt ra rb 486 false
  | .mfmsr rt => packX 31 rt 0 0 83 false
  | .rfi => packX 19 0 0 0 50 false
  | .rfci => packX 19 0 0 0 51 false
  | .mtmsr rs => packX 31 rs 0 0 146 false
  | .wrtee rs => packX 31 rs 0 0 131 false
  | .wrteei e => packX 31 0 0 (eBit e) 163 false
  | .tlbsx rt ra rb rc => packX 31 rt ra rb 914 rc
  | .tlbia => packX 31 0 0 0 370 false
  | .tlbre rt ra ws => packX 31 rt ra ws 946 false
  | .tlbwe rs ra ws => packX 31 rs ra ws 978 false
  | .tlbsync => packX 31 0 0 0 566 false
  | .eieio => packX 31 0 0 0 854 false
  | .isync => packX 19 0 0 0 150 false
  | .sync => packX 31 0 0 0 598 false
  | .mcrxr bf => packX 31 (bf2 bf) 0 0 512 false
  | .mfcr rt => packX 31 rt 0 0 19 false
  | .mfdcr rt dcrn => packX 31 rt (numLo dcrn) (numHi dcrn) 323 false
  | .mfspr rt sprn => packX 31 rt (numLo sprn) (numHi sprn) 339 false
  | .mftb rt tbrn => packX 31 rt (numLo tbrn) (numHi tbrn) 371 false
  | .mtcrf fxm rs => packX 31 rs (fxmHi fxm) (fxmLo fxm) 144 false
  | .mtdcr dcrn rs => packX 31 rs (numLo dcrn) (numHi dcrn) 451 false
  | .mtspr sprn rs => packX 31 rs (numLo sprn) (numHi sprn) 467 false
  | .sc => 0x44000002
  | .tw tocond ra rb => packX 31 tocond ra rb 4 false
  | .twi tocond ra si => packD 3 tocond ra si

/-! ### Decoding -/

/-- Why a word is no instruction of the model. -/
inductive DecodeError where
  /-- It matches no row of the opcode table: an illegal instruction (30_encoding.md R171). -/
  | illegal
  /-- It matches a row but has a reserved bit set (30_encoding.md R172). -/
  | reservedBits
  deriving DecidableEq, Repr

/-- The instruction of a word. A reserved bit is set exactly when the instruction's own word is another. -/
def decode (w : Word) : Except DecodeError Instr :=
  match decodeFields w with
  | none => .error .illegal
  | some i => if encode i = w then .ok i else .error .reservedBits

/-- The instruction of four bytes in big-endian order, the first at the lowest address (20_memory.md R103, R106). -/
def decodeBytes (b0 b1 b2 b3 : Byte) : Except DecodeError Instr := decode (b0 ++ b1 ++ b2 ++ b3)

/-- The bytes of a word as big-endian storage holds it. -/
def bytesOfWord (w : Word) : Byte × Byte × Byte × Byte :=
  ((w >>> 24).setWidth 8, (w >>> 16).setWidth 8, (w >>> 8).setWidth 8, w.setWidth 8)

/-- The instruction the decoder reads from a word whose bits are `w`, bits from `nbits` up zero. -/
def decodeTableWord (nbits w : Nat) : Option Instr :=
  let (b0, b1, b2, b3) := bytesOfWord (BitVec.ofNat 32 (w % 2 ^ nbits))
  match decodeBytes b0 b1 b2 b3 with
  | .ok i => some i
  | .error _ => none

end Sys2Proof
end

