-- ==== Sys2Proof/Config.lean ====
section
/-! DEFINITION. What an implementation fixes, and the free values. An opaque constant has no body: no proof can
learn what it is, so what is proved holds for every value of it. -/

namespace Sys2Proof.Machine

/-- What the platform puts at an address that is not plain storage (00_scope.md R14; 60_exceptions.md R531). -/
inductive RegionKind where
  /-- Nothing answers: a bus error. -/
  | unbacked
  /-- A device register window: reads give free bytes, writes reach no memory (00_scope.md R20 (5); 92 D10). -/
  | device
  deriving DecidableEq, Repr

/-- One range of MEM_MAP that is not plain storage: the real addresses `first` to `first + count - 1`. -/
structure Region where
  first : Nat
  count : Nat
  kind  : RegionKind
  deriving DecidableEq, Repr

end Sys2Proof.Machine

namespace Sys2Proof.Config

/-- The free words: the n-th word whose value the spec leaves open (93_implementation_defined.md, treatment
"any value"). The machine's field `draws` counts which comes next. Log entry 9. -/
opaque freeWord : Nat → Word

/-- The free bytes, counted by `draws`. Log entry 9. -/
opaque freeByte : Nat → Byte

/-- The free yes-or-no choices ("draw" in 93_implementation_defined.md), counted by `draws`. Log entry 9. -/
opaque freeFlag : Nat → Bool

/-- PVR_VALUE (00_scope.md R10; 92_eei_decisions.md D8): the spec gives no value. Log entry 13. -/
opaque pvrValue : Word

/-- WRTEE_LATENCY (60_exceptions.md R554; 92_eei_decisions.md D31): the spec gives no value. Log entry 28. -/
opaque wrteeLatency : Nat

/-- DCR_SPACE, what a read returns: of the register's number and what it holds (00_scope.md R13). Log entry 6. -/
opaque dcrRead : RegNum → Word → Word

/-- DCR_SPACE, what a register holds after it is read: of its number and what it held (00_scope.md R13). Log entry 6. -/
opaque dcrAfterRead : RegNum → Word → Word

/-- DCR_SPACE, what a register holds after a write: of its number, what it held and the word written (00_scope.md R13).
Log entry 6. -/
opaque dcrWrite : RegNum → Word → Word → Word

/-- DCR_SPACE, the memory map after a write: of the register's number, the word written and the map before (20_memory.md
R128; 70_reset_and_hazards.md R621). Log entry 6. -/
opaque dcrMap : RegNum → Word → List Machine.Region → List Machine.Region

/-- Congruence classes of the instruction cache: the PPC405B3's 16KB array, ICACHE_KB × 16 (00_scope.md R9; 92 D4).
Log entry 14. -/
abbrev icacheSets : Nat := 256

/-- Congruence classes of the data cache: the PPC405B3's 8KB array, DCACHE_KB × 16 (00_scope.md R9; 92 D4).
Log entry 14. -/
abbrev dcacheSets : Nat := 128

end Sys2Proof.Config
end

