-- ==== Sys2Proof/Machine/State.lean ====
section
/-! DEFINITION. The state of the PPC405 core as plain data, the ways a step can stop, and the machine after reset
(spec/10_state.md). -/

namespace Sys2Proof.Machine

/-! ### Stops -/

/-- Why the machine is stuck: the spec gives it no next step. -/
inductive Fault where
  /-- Raised by a step from the state in which a word whose fetch met a bus error was to execute while MSR[ME] = 0:
  that step set ESR[MCI], and "the model is stuck at that point" (60_exceptions.md R532, 93 U26, U35). Safe: nothing
  is claimed of what follows. -/
  | instructionMachineCheck
  /-- Raised by `mtspr` to CCR0 that changes U0XE outside the sequences of 70_reset_and_hazards.md R628, which
  "can cause errant operation, including a processor hang" (93 U4: stuck). Safe: nothing is claimed of what
  follows. -/
  | ccr0Hang
  deriving DecidableEq, Repr

/-- Why the model gives no meaning. Each is safe: the model says nothing of what the hardware would do. -/
inductive Refusal where
  /-- Raised by an arm of `exec` whose instruction has no meaning yet; safe. -/
  | notModelled (mnemonic : String)
  /-- Raised by the step on a word that matches a row but has a reserved bit set (30_encoding.md R172); safe. -/
  | reservedInstructionBits
  /-- Raised by a load or store with update whose RA is forbidden (30_encoding.md R173 (a), (b)); safe. -/
  | invalidUpdateForm
  /-- Raised by `lmw` whose RA would be loaded (30_encoding.md R173 (c)); safe. -/
  | invalidMultipleForm
  /-- Raised by `lswi` and `lswx` whose address registers would be loaded (30_encoding.md R173 (d)); safe. -/
  | invalidStringForm
  /-- Raised by conditional branches whose BO has a z bit set, and by `bcctr` that would decrement the CTR
  (30_encoding.md R173 (e), (f)); safe. -/
  | invalidBranchOptions
  /-- Raised by compares with L = 1 (30_encoding.md R173 (g)); safe. -/
  | invalidCompareLength
  /-- Raised by `tlbre` and `tlbwe` with WS above 1 (30_encoding.md R173 (i)); safe. -/
  | invalidTlbWordSelect
  /-- Raised by `mfspr` and `mtspr` with a number no register has in that direction (48 R506); safe. -/
  | sprNotImplemented
  /-- Raised by `mftb` with a number other than 268, 269 (30_encoding.md R173 (h)); safe. -/
  | tbrNotImplemented
  /-- Raised by `mfdcr` and `mtdcr` with a number that no device of the platform has (48 R496, R500); safe. -/
  | dcrNotImplemented
  /-- Raised by a translation or a `tlbsx` for which two valid TLB entries match (20_memory.md R114); safe. -/
  | tlbMultipleMatch
  /-- Raised by an access whose storage is both write-through and caching inhibited (20_memory.md R122; 93 U9);
  safe. -/
  | writeThroughInhibited
  /-- Raised by `mtspr` to DBCR0 or DBCR1 that enables a debug mode or event (60_exceptions.md R583); safe. -/
  | debugEnabled
  deriving DecidableEq, Repr

/-! ### Registers -/

/-- The special purpose registers the machine stores (10_state.md R54). PVR is a constant of Config and TBL, TBU are
the halves of the time base, so none of these three is listed. -/
inductive Spr where
  | xer | lr | ctr
  | srr0 | srr1 | srr2 | srr3
  | usprg0
  | sprg0 | sprg1 | sprg2 | sprg3 | sprg4 | sprg5 | sprg6 | sprg7
  | zpr | pid | ccr0
  | iac1 | iac2 | iac3 | iac4 | dvc1 | dvc2 | dac1 | dac2
  | sgr | dcwr | sler | su0r | dccr | iccr
  | dbcr0 | dbcr1 | dbsr
  | icdbdr | esr | dear | evpr
  | tsr | tcr | pit
  deriving DecidableEq, Repr

/-- The place of a register in the state's vector of special purpose registers. -/
def Spr.index : Spr → Fin 43
  | .xer => 0 | .lr => 1 | .ctr => 2
  | .srr0 => 3 | .srr1 => 4 | .srr2 => 5 | .srr3 => 6
  | .usprg0 => 7
  | .sprg0 => 8 | .sprg1 => 9 | .sprg2 => 10 | .sprg3 => 11
  | .sprg4 => 12 | .sprg5 => 13 | .sprg6 => 14 | .sprg7 => 15
  | .zpr => 16 | .pid => 17 | .ccr0 => 18
  | .iac1 => 19 | .iac2 => 20 | .iac3 => 21 | .iac4 => 22
  | .dvc1 => 23 | .dvc2 => 24 | .dac1 => 25 | .dac2 => 26
  | .sgr => 27 | .dcwr => 28 | .sler => 29 | .su0r => 30 | .dccr => 31 | .iccr => 32
  | .dbcr0 => 33 | .dbcr1 => 34 | .dbsr => 35
  | .icdbdr => 36 | .esr => 37 | .dear => 38 | .evpr => 39
  | .tsr => 40 | .tcr => 41 | .pit => 42

/-- The kinds of reset (10_state.md R80; 70_reset_and_hazards.md R600). -/
inductive ResetKind where
  | core | chip | system
  deriving DecidableEq, Repr

/-- The two-bit code of a reset in TCR[WRC], TSR[WRS], DBCR0[RST] and DBSR[MRR] (10_state.md R59, R60, R67, R70). -/
def ResetKind.code : ResetKind → BitVec 2
  | .core => 1
  | .chip => 2
  | .system => 3

/-! ### Storage -/

/-- Memory: the bytes that differ from what an unlisted address reads as, by rising real address. -/
abbrev Memory := List Host.Cell

/-- One byte of a bus write: its real address, what memory held there before and the byte written. -/
structure Overwrite where
  addr : Nat
  old  : Byte
  new  : Byte
  deriving DecidableEq, Repr

/-- A TLB entry, field by field as `tlbre` and `tlbwe` move it (10_state.md R71). -/
structure TlbEntry where
  epn  : BitVec 22
  size : BitVec 3
  v    : Bool
  e    : Bool
  u0   : Bool
  tid  : Byte
  rpn  : BitVec 22
  ex   : Bool
  wr   : Bool
  zsel : BitVec 4
  w    : Bool
  i    : Bool
  m    : Bool
  g    : Bool
  deriving DecidableEq, Repr

/-- The TLB entry of zeros. -/
def TlbEntry.zero : TlbEntry :=
  ⟨0, 0, false, false, false, 0, 0, false, false, 0, false, false, false, false⟩

/-- One way of an instruction cache congruence class: real address bits 0:21 as tag and eight instruction words,
always big endian (20_memory.md R106, R130; 10_state.md R66). -/
structure IWay where
  valid : Bool
  tag   : BitVec 22
  words : Vector Word 8
  deriving DecidableEq, Repr

/-- An instruction cache congruence class. `lru` is the bit ICDBDR shows: false, way A is least recently used; true,
way B is (10_state.md R66). -/
structure ISet where
  a   : IWay
  b   : IWay
  lru : Bool
  deriving DecidableEq, Repr

/-- One way of a data cache congruence class: real address bits 0:19 as tag, a dirty bit and 32 bytes (10_state.md R77;
46_cache_management.md R445). -/
structure DWay where
  valid : Bool
  dirty : Bool
  tag   : BitVec 20
  bytes : Vector Byte 32
  deriving DecidableEq, Repr

/-- A data cache congruence class; `lru` as in `ISet`. -/
structure DSet where
  a   : DWay
  b   : DWay
  lru : Bool
  deriving DecidableEq, Repr

/-- The way nothing has filled. -/
def IWay.empty : IWay := ⟨false, 0, Vector.replicate 8 0⟩

/-- The congruence class nothing has filled: what an unlisted class of the instruction cache is. -/
def ISet.empty : ISet := ⟨.empty, .empty, false⟩

/-- The way nothing has filled. -/
def DWay.empty : DWay := ⟨false, false, 0, Vector.replicate 32 0⟩

/-- The congruence class nothing has filled: what an unlisted class of the data cache is. -/
def DSet.empty : DSet := ⟨.empty, .empty, false⟩

/-- The DCU fill buffer holding eight words of non-cachable data: the block's number (real address / 32) and its bytes
(20_memory.md R138). -/
structure FillBuffer where
  block : Nat
  bytes : Vector Byte 32
  deriving DecidableEq, Repr

/-! ### Fetching -/

/-- What a fetch found. A fault is raised only when the word is about to execute (20_memory.md R117, R141). -/
inductive FetchResult where
  | word (w : Word)
  | busError
  | tlbMiss
  /-- An access the page denies; `zone`: because its zone field is 00 in user mode (60_exceptions.md R534). -/
  | denied (zone : Bool)
  | refused (r : Refusal)
  deriving DecidableEq, Repr

/-- The context an instruction fetch goes by: translation, protection, attributes, mode, the content of the instruction
cache and the memory map (20_memory.md R102, R127; 70_reset_and_hazards.md R621). -/
structure FetchContext where
  msr    : Word
  pid    : Word
  zpr    : Word
  iccr   : Word
  sgr    : Word
  su0r   : Word
  sler   : Word
  tlb    : Vector TlbEntry 64
  icache : List (Nat × ISet)
  memMap : List Region
  deriving DecidableEq, Repr

/-- A word the fetcher has read ahead, with the mode it was fetched in (10_state.md R75; 70_reset_and_hazards.md R620). -/
structure Fetched where
  addr   : Word
  user   : Bool
  result : FetchResult
  deriving DecidableEq, Repr

/-! ### The outside world -/

/-- What the outside does before one step (00_scope.md R20, agents 2 to 6; log entry 7). -/
structure Input where
  /-- How many timer ticks pass (60_exceptions.md R570). -/
  ticks : Nat
  /-- The level of the critical interrupt input (60_exceptions.md R555). -/
  criticalLine : Bool
  /-- The level of the non-critical interrupt input (60_exceptions.md R555). -/
  externalLine : Bool
  /-- Bytes that other bus masters write to memory before the step, in order (20_memory.md R136). -/
  busWrites : List Host.Cell
  /-- What they write between the bytes of a misaligned, multiple or string access of this step: after the first byte,
  after the second and so on (20_memory.md R113). -/
  between : List (List Host.Cell)
  /-- Device control registers that devices change, among those the platform has (00_scope.md R13, R20 (5)). -/
  dcrWrites : List (RegNum × Word)
  /-- How many of the core's newest bus writes have not reached memory yet (20_memory.md R123, R128, R131). -/
  inFlight : Nat
  /-- A reset from outside (70_reset_and_hazards.md R600). -/
  reset : Option ResetKind
  /-- The paths the fetcher reads ahead along, each the word at the program counter and at most 19 words past it: at every
  word, whether it goes on in the predicted direction of a branch there or in the other (20_memory.md R120;
  70_reset_and_hazards.md R624). -/
  readAhead : List (List Bool)
  /-- Whether the instruction is fetched now, 0, or is the n-th newest word read ahead from its address
  (70_reset_and_hazards.md R620). -/
  useAhead : Nat
  /-- Whether an interrupt that `wrtee` or `wrteei` has just enabled waits one more boundary (60_exceptions.md R554). -/
  deferEE : Bool
  /-- Which context a fetch in a context-change window goes by: the current one, 0, or the n-th newest of the old ones
  (70_reset_and_hazards.md R621, R625). -/
  oldContext : Nat
  deriving DecidableEq, Repr

/-! ### The state -/

/-- The state of the machine. INVENTORY.md gives the rule that names each field and its reset value. -/
structure State where
  /-- GPR 0 to GPR 31 (10_state.md R30). -/
  gprs : Vector Word 32
  /-- The program counter (10_state.md R32). -/
  pc : Word
  /-- The condition register (10_state.md R35). -/
  cr : Word
  /-- The machine state register (10_state.md R50). -/
  msr : Word
  /-- The special purpose registers, by `Spr.index` (10_state.md R54). -/
  sprs : Vector Word 43
  /-- The time base, TBU then TBL (10_state.md R53). -/
  tb : BitVec 64
  /-- PIT_RELOAD: the last value written to the PIT (10_state.md R61). -/
  pitReload : Word
  /-- RESERVE (10_state.md R74). -/
  reserve : Bool
  /-- The unified TLB (10_state.md R71). -/
  tlb : Vector TlbEntry 64
  /-- Memory by real address. -/
  mem : Memory
  /-- The instruction cache: the congruence classes that differ from `ISet.empty`, by rising index. -/
  icache : List (Nat × ISet)
  /-- The data cache: the congruence classes that differ from `DSet.empty`, by rising index. -/
  dcache : List (Nat × DSet)
  /-- The DCU fill buffer, when it holds non-cachable data (20_memory.md R138). -/
  fillBuffer : Option FillBuffer
  /-- Bus writes of the core that may not have arrived yet, newest first, those to devices and to addresses where nothing
  answers among them; `mem` has those to plain storage done, as the program's own loads see it (20_memory.md R123, R128,
  R131; 70_reset_and_hazards.md R622). -/
  unsettled : List (List Overwrite)
  /-- What other bus masters will still write between the bytes of this step's access (20_memory.md R113). -/
  between : List (List Host.Cell)
  /-- The fetched-ahead set, newest first (10_state.md R75; 70_reset_and_hazards.md R620). -/
  ahead : List Fetched
  /-- Where the fetcher waited at a `bclr` or `bcctr` for an instruction ahead of it that updates the LR or the CTR: the
  addresses from the program counter to that branch (70_reset_and_hazards.md R624). -/
  waited : List (List Word)
  /-- The fetch contexts before each context change since the last context synchronisation, newest first: what the
  instruction queue and the instruction shadow TLB may still go by (10_state.md R75, R78; 70_reset_and_hazards.md R621,
  R625). -/
  oldContexts : List FetchContext
  /-- The mode the executing instruction was fetched in, when that is not MSR[PR]'s to say (70_reset_and_hazards.md
  R621). -/
  fetchedUser : Option Bool
  /-- The critical interrupt input (10_state.md R79). -/
  criticalLine : Bool
  /-- The non-critical interrupt input (10_state.md R79). -/
  externalLine : Bool
  /-- A data-side bus error whose machine check has not been taken (60_exceptions.md R531). -/
  busError : Bool
  /-- No load, store or data cache operation since the last `sync` or `eieio` (70_reset_and_hazards.md R628). -/
  drained : Bool
  /-- A line fill that `icbt` started and no context synchronisation and no `sync` follows yet (46 R433;
  70_reset_and_hazards.md R628). -/
  icbtPending : Bool
  /-- Boundaries that an interrupt enabled by `wrtee` or `wrteei` may still wait (60_exceptions.md R554). -/
  eeWindow : Nat
  /-- An `icread` has been made that no context synchronisation follows yet (70_reset_and_hazards.md R626). -/
  icdbdrPending : Bool
  /-- ICDBDR holds tag information, whose format has reserved bits (10_state.md R66). -/
  icdbdrTag : Bool
  /-- A word whose fetch met a bus error was to execute with MSR[ME] = 0: there is no next step but by a reset
  (60_exceptions.md R532). -/
  stuck : Bool
  /-- The platform's device control registers, by number (00_scope.md R13). -/
  dcrs : List (RegNum × Word)
  /-- The platform's memory map: what is not plain storage (00_scope.md R14). -/
  memMap : List Region
  /-- What the outside will do before each coming step; an empty list is a quiet outside world. -/
  inputs : List Input
  /-- Which free value is read next. -/
  draws : Nat
  deriving DecidableEq, Repr

/-- The special purpose registers after power-on: the defined ones of 10_state.md R81 and R82, zero elsewhere (log
entries 1 and 12), DBSR[MRR] = system (log entry 11). -/
def resetSprs : Vector Word 43 :=
  (((Vector.replicate 43 0).set Spr.sgr.index 0xFFFFFFFF).set Spr.ccr0.index 0x00700000).set Spr.dbsr.index 0x00000300

/-- The machine right after power-on reset (10_state.md R80-R85; 70_reset_and_hazards.md R602). Memory lists nothing and
no program is loaded (log entry 8). -/
def State.reset : State where
  gprs := Vector.replicate 32 0
  pc := 0xFFFFFFFC
  cr := 0
  msr := 0
  sprs := resetSprs
  tb := 0
  pitReload := 0
  reserve := false
  tlb := Vector.replicate 64 TlbEntry.zero
  mem := []
  icache := []
  dcache := []
  fillBuffer := none
  unsettled := []
  between := []
  ahead := []
  waited := []
  oldContexts := []
  fetchedUser := none
  criticalLine := false
  externalLine := false
  busError := false
  drained := true
  icbtPending := false
  eeWindow := 0
  icdbdrPending := false
  icdbdrTag := false
  stuck := false
  dcrs := []
  memMap := []
  inputs := []
  draws := 0

end Sys2Proof.Machine
end

