-- ==== Sys2Proof/Machine/Memory.lean ====
section
/-! DEFINITION. Sparse maps in one canonical form (rising keys, no entry equal to what an unlisted key reads as), and
memory and the cache arrays as such maps (spec/20_memory.md R100). -/

namespace Sys2Proof.Machine

/-- What a sparse map holds at `k`; `d` where nothing is listed. -/
def sparseGet {β : Type} (d : β) : List (Nat × β) → Nat → β
  | [], _ => d
  | (j, v) :: t, k => if j = k then v else sparseGet d t k

/-- The map without an entry for `k`. -/
def sparseErase {β : Type} : List (Nat × β) → Nat → List (Nat × β)
  | [], _ => []
  | (j, v) :: t, k => if j = k then sparseErase t k else (j, v) :: sparseErase t k

/-- The map with `(k, v)` put before the first larger key. -/
def sparseInsert {β : Type} (k : Nat) (v : β) : List (Nat × β) → List (Nat × β)
  | [] => [(k, v)]
  | (j, u) :: t => if k < j then (k, v) :: (j, u) :: t else (j, u) :: sparseInsert k v t

/-- The map that holds `v` at `k` and is otherwise unchanged; writing the default removes the entry. -/
def sparsePut {β : Type} [DecidableEq β] (d : β) (m : List (Nat × β)) (k : Nat) (v : β) : List (Nat × β) :=
  if v = d then sparseErase m k else sparseInsert k v (sparseErase m k)

/-- The keys rise strictly, from above `lo` where one is given. -/
def keysRise {β : Type} : Option Nat → List (Nat × β) → Bool
  | _, [] => true
  | none, (k, _) :: t => keysRise (some k) t
  | some lo, (k, _) :: t => decide (lo < k) && keysRise (some k) t

/-- The canonical form of a sparse map: keys rise, stay below `bound`, and no entry equals the default. -/
def sparseWf {β : Type} [DecidableEq β] (d : β) (bound : Nat) (m : List (Nat × β)) : Bool :=
  keysRise none m && m.all (fun e => decide (e.1 < bound) && decide (e.2 ≠ d))

/-! ### Memory -/

/-- What a byte of memory that nothing has written reads as. DESIGN CHOICE, not safe: log entry 4. -/
def unwrittenByte : Byte := 0

/-- The byte at a real address. -/
def memGet (m : Memory) (ra : Nat) : Byte := sparseGet unwrittenByte m ra

/-- Memory with one byte written, in canonical form. -/
def memPut (m : Memory) (ra : Nat) (b : Byte) : Memory := sparsePut unwrittenByte m ra b

/-- Memory is in canonical form, inside the 4GB address space. -/
def Memory.wf (m : Memory) : Bool := sparseWf unwrittenByte (2 ^ 32) m

/-- The 32 bytes of a block (its number is the real address / 32). -/
def memBlock (m : Memory) (block : Nat) : Vector Byte 32 :=
  ⟨⟨(List.range 32).map fun i => memGet m (32 * block + i)⟩, by simp⟩

/-- Memory with bytes written one after the other from a real address up. -/
def memPutList : Memory → Nat → List Byte → Memory
  | m, _, [] => m
  | m, ra, b :: bs => memPutList (memPut m ra b) (ra + 1) bs

/-- Memory with bytes written at their addresses, one after the other. -/
def memPutAll : Memory → List Host.Cell → Memory
  | m, [] => m
  | m, (a, b) :: cs => memPutAll (memPut m a b) cs

/-- Memory after bus masters wrote these bytes, in order; addresses are taken modulo 2^32 (20_memory.md R136). -/
def memPutCells : Memory → List Host.Cell → Memory
  | m, [] => m
  | m, (a, b) :: cs => memPutCells (memPut m (a % 2 ^ 32) b) cs

/-- Memory as it was before a bus write. -/
def undoWrite (m : Memory) (w : List Overwrite) : Memory := memPutAll m (w.map fun o => (o.addr, o.old))

/-- Memory as it was before these bus writes, the newest first. -/
def undoWrites : Memory → List (List Overwrite) → Memory
  | m, [] => m
  | m, w :: ws => undoWrites (undoWrite m w) ws

/-- A bus write without the bytes that another bus master has written since: those have arrived. -/
def dropOverwritten (cells : List Host.Cell) (w : List Overwrite) : List Overwrite :=
  w.filter fun o => cells.all fun c => c.1 % 2 ^ 32 != o.addr

/-- The bytes of a bus write that another bus master has written since. -/
def overwritten (cells : List Host.Cell) (w : List Overwrite) : List Overwrite :=
  w.filter fun o => cells.any fun c => c.1 % 2 ^ 32 == o.addr

/-! ### The cache arrays -/

/-- The congruence class at an index of the data cache. -/
def dsetGet (c : List (Nat × DSet)) (i : Nat) : DSet := sparseGet DSet.empty c i

/-- The data cache with one congruence class replaced. -/
def dsetPut (c : List (Nat × DSet)) (i : Nat) (x : DSet) : List (Nat × DSet) := sparsePut DSet.empty c i x

/-- The congruence class at an index of the instruction cache. -/
def isetGet (c : List (Nat × ISet)) (i : Nat) : ISet := sparseGet ISet.empty c i

/-- The instruction cache with one congruence class replaced. -/
def isetPut (c : List (Nat × ISet)) (i : Nat) (x : ISet) : List (Nat × ISet) := sparsePut ISet.empty c i x

end Sys2Proof.Machine
end

