-- ==== Sys2Proof/Machine/Bits.lean ====
section
/-! DEFINITION. Bits and fields by the manual's numbering, extensions, byte order (spec/00_scope.md R15-R18). -/

namespace Sys2Proof.Machine

/-- Bit `b` of a word in the manual's numbering, 0 the most significant (00_scope.md R15). -/
def bitAt (w : Word) (b : Nat) : Bool := w.getLsbD (31 - b)

/-- The word with only bit `b` set, in the manual's numbering. -/
def bitMask (b : Nat) : Word := (1#32) <<< (31 - b)

/-- `w` with bit `b` set to `v`, in the manual's numbering. -/
def withBit (w : Word) (b : Nat) (v : Bool) : Word :=
  if v then w ||| bitMask b else w &&& ~~~(bitMask b)

/-- The word that is `bitMask b` or zero. -/
def flagAt (b : Nat) (v : Bool) : Word := if v then bitMask b else 0

/-- The `n` bits of `w` that end at bit `c` in the manual's numbering: `w[c-n+1 : c]`. -/
def fieldTo (w : Word) (c n : Nat) : BitVec n := (w >>> (31 - c)).setWidth n

/-- sext_32 of a 16-bit immediate (30_encoding.md R163). -/
def sext16 (x : Half) : Word := x.signExtend 32

/-- zext_32 of a 16-bit immediate (30_encoding.md R163). -/
def zext16 (x : Half) : Word := x.setWidth 32

/-- A 16-bit immediate shifted left 16: `x || 0x0000` (30_encoding.md R163). -/
def shifted16 (x : Half) : Word := x ++ (0 : Half)

/-- sext_32 of `LI || 0b00` (30_encoding.md R163). -/
def dispLI (li : BitVec 24) : Word := (li ++ (0 : BitVec 2)).signExtend 32

/-- sext_32 of `BD || 0b00` (30_encoding.md R163). -/
def dispBD (bd : BitVec 14) : Word := (bd ++ (0 : BitVec 2)).signExtend 32

/-- A word with its two low bits zero: an instruction address taken from a register (10_state.md R32). -/
def alignPc (w : Word) : Word := w &&& 0xFFFFFFFC

/-- Byte `i` of a word, 0 the most significant: `w[8i : 8i+7]`. -/
def byteOf (w : Word) (i : Nat) : Byte := (w >>> (24 - 8 * i)).setWidth 8

/-- The four bytes of a word, most significant first (20_memory.md R103). -/
def wordBytes (w : Word) : List Byte := [byteOf w 0, byteOf w 1, byteOf w 2, byteOf w 3]

/-- The two bytes of a word's low halfword, more significant first (20_memory.md R103). -/
def halfBytes (w : Word) : List Byte := [byteOf w 2, byteOf w 3]

/-- The word whose low bytes are these, most significant first; zero above them. -/
def wordOf (bs : List Byte) : Word :=
  bs.foldl (fun acc b => (acc <<< 8) ||| b.setWidth 32) 0

/-- The word's low halfword, sign extended. -/
def signExtendHalf (w : Word) : Word := (w.setWidth 16 : Half).signExtend 32

/-- The word's low byte, sign extended. -/
def signExtendByte (w : Word) : Word := (w.setWidth 8 : Byte).signExtend 32

end Sys2Proof.Machine
end

