-- ==== Sys2Proof/Machine/Ops.lean ====
section
/-! DEFINITION. The named operations over registers; taking an interrupt and returning from one; reset
(spec/10_state.md, spec/60_exceptions.md, spec/70_reset_and_hazards.md). -/

namespace Sys2Proof.Machine

/-- The outcome of an instruction and of a step. -/
abbrev Result := Host.Outcome State Fault Refusal

/-! ### Registers -/

/-- The bits of a special purpose register the machine stores; the others are reserved and have no storage
(00_scope.md R22; 10_state.md R38, R56, R57, R59, R60, R62, R65, R67, R69, R70). -/
def Spr.mask : Spr → Word
  | .xer => 0xE000007F
  | .esr => 0x8FCC8000
  | .evpr => 0xFFFF0000
  | .tcr => 0xFFC00000
  | .tsr => 0xFC000000
  | .ccr0 => 0x03F30F11
  | .pid => 0x000000FF
  | .dbcr0 => 0xFFFFC001
  | .dbcr1 => 0xFFCFFF00
  | .dbsr => 0xFFFC0300
  | .lr | .ctr | .srr0 | .srr1 | .srr2 | .srr3 | .usprg0
  | .sprg0 | .sprg1 | .sprg2 | .sprg3 | .sprg4 | .sprg5 | .sprg6 | .sprg7
  | .zpr | .iac1 | .iac2 | .iac3 | .iac4 | .dvc1 | .dvc2 | .dac1 | .dac2
  | .sgr | .dcwr | .sler | .su0r | .dccr | .iccr | .icdbdr | .dear | .pit => 0xFFFFFFFF

/-- The bits of the MSR the machine stores (10_state.md R50). -/
def msrMask : Word := 0x020EFF30

/-- The content of a general purpose register (10_state.md R30). -/
def State.gpr (s : State) (r : Reg) : Word := s.gprs[r.toNat]'r.isLt

/-- The state with a general purpose register written (10_state.md R30). -/
def State.setGpr (s : State) (r : Reg) (v : Word) : State :=
  { s with gprs := s.gprs.set r.toNat v r.isLt }

/-- `(RA|0)`: the constant 0 when the field is 0, else the register (30_encoding.md R164). -/
def State.gprOrZero (s : State) (r : Reg) : Word := if r = 0 then 0 else s.gpr r

/-- The stored content of a special purpose register; reserved bits are 0. -/
def State.spr (s : State) (r : Spr) : Word := s.sprs[r.index]

/-- The state with a special purpose register written; reserved bits keep no value (00_scope.md R22 (a), (c)). -/
def State.setSpr (s : State) (r : Spr) (v : Word) : State :=
  { s with sprs := s.sprs.set r.index (v &&& r.mask) }

/-- The state with the MSR written; reserved bits keep no value (00_scope.md R22). -/
def State.setMsr (s : State) (v : Word) : State := { s with msr := v &&& msrMask }

/-- The state with the program counter moved. -/
def State.setPc (s : State) (a : Word) : State := { s with pc := a }

/-- The state at the next sequential instruction: NIA = CIA + 4, modulo 2^32 (10_state.md R32, R33). -/
def State.advance (s : State) : State := { s with pc := s.pc + 4 }

/-- The state one free value later (log entry 9). -/
def State.drawn (s : State) : State := { s with draws := s.draws + 1 }

/-- The next free word. -/
def State.freshWord (s : State) : Word := Config.freeWord s.draws

/-- The next free choice. -/
def State.freshFlag (s : State) : Bool := Config.freeFlag s.draws

/-- Thirty-two free bytes: those of the next free draw. -/
def State.freshBlock (s : State) : Vector Byte 32 :=
  ⟨⟨(List.range 32).map fun i => Config.freeByte (32 * s.draws + i)⟩, by simp⟩

/-- What a read of a register with reserved bits gives: its stored bits, a free value in the reserved ones (00_scope.md
R22 (b)). -/
def State.readMasked (s : State) (v mask : Word) : Word :=
  if mask = 0xFFFFFFFF then v else (v &&& mask) ||| (s.freshWord &&& ~~~mask)

/-- The state after such a read. -/
def State.afterMasked (s : State) (mask : Word) : State :=
  if mask = 0xFFFFFFFF then s else s.drawn

/-! ### MSR bits (10_state.md R50) -/

def State.msrWE (s : State) : Bool := bitAt s.msr 13
def State.msrCE (s : State) : Bool := bitAt s.msr 14
def State.msrEE (s : State) : Bool := bitAt s.msr 16
def State.msrPR (s : State) : Bool := bitAt s.msr 17
def State.msrME (s : State) : Bool := bitAt s.msr 19
def State.msrDE (s : State) : Bool := bitAt s.msr 22
def State.msrIR (s : State) : Bool := bitAt s.msr 26
def State.msrDR (s : State) : Bool := bitAt s.msr 27

/-- The mode the executing instruction is decoded in: MSR[PR], or the mode a prefetched instruction was fetched in
(20_memory.md R127; 70_reset_and_hazards.md R621; 60_exceptions.md R538). -/
def State.userMode (s : State) : Bool := s.fetchedUser.getD s.msrPR

/-! ### Condition register (10_state.md R35) -/

/-- CR field `f`: CR[4f : 4f+3]. -/
def crField (cr : Word) (f : BitVec 3) : BitVec 4 := (cr >>> (28 - 4 * f.toNat)).setWidth 4

/-- `cr` with field `f` replaced. -/
def withCrField (cr : Word) (f : BitVec 3) (v : BitVec 4) : Word :=
  (cr &&& ~~~((0xF : Word) <<< (28 - 4 * f.toNat))) ||| (v.setWidth 32 <<< (28 - 4 * f.toNat))

/-- The state with a CR field written. -/
def State.setCrField (s : State) (f : BitVec 3) (v : BitVec 4) : State := { s with cr := withCrField s.cr f v }

/-! ### Context synchronisation (20_memory.md R125; 70_reset_and_hazards.md R620, R625) -/

/-- What a context synchronising operation does beyond its own effect: prefetched words and stale translations are
discarded, the `wrtee` interval ends (60_exceptions.md R554), the fills of `icbt` are complete (46 R433) and ICDBDR is
settled (70_reset_and_hazards.md R626). -/
def State.contextSync (s : State) : State :=
  { s with ahead := [], waited := [], oldContexts := [], fetchedUser := none, eeWindow := 0, icbtPending := false,
           icdbdrPending := false }

/-- The context an instruction fetch goes by now. -/
def State.fetchContext (s : State) : FetchContext :=
  ⟨s.msr, s.spr .pid, s.spr .zpr, s.spr .iccr, s.spr .sgr, s.spr .su0r, s.spr .sler, s.tlb, s.icache, s.memMap⟩

/-- A context-change window opens, or a further change falls into it: what fetches went by so far is remembered until
the next context synchronisation (20_memory.md R127; 70_reset_and_hazards.md R621). -/
def State.openWindow (s : State) : State := { s with oldContexts := s.fetchContext :: s.oldContexts }

/-! ### Interrupts (60_exceptions.md R520-R525) -/

/-- The sixteen interrupts (60_exceptions.md R521). -/
inductive Interrupt where
  | criticalInput | machineCheck | dataStorage | instructionStorage | external | alignment | program
  | fpuUnavailable | systemCall | apuUnavailable | pit | fit | watchdog | dataTlbMiss | instructionTlbMiss | debug
  deriving DecidableEq, Repr

/-- The class of an interrupt: which pair of registers it saves into and which MSR bits survive it. -/
inductive InterruptClass where
  | nonCritical | critical | machineCheck
  deriving DecidableEq, Repr

/-- The vector offsets (60_exceptions.md R521). -/
def Interrupt.offset : Interrupt → Word
  | .criticalInput => 0x0100
  | .machineCheck => 0x0200
  | .dataStorage => 0x0300
  | .instructionStorage => 0x0400
  | .external => 0x0500
  | .alignment => 0x0600
  | .program => 0x0700
  | .fpuUnavailable => 0x0800
  | .systemCall => 0x0C00
  | .apuUnavailable => 0x0F20
  | .pit => 0x1000
  | .fit => 0x1010
  | .watchdog => 0x1020
  | .dataTlbMiss => 0x1100
  | .instructionTlbMiss => 0x1200
  | .debug => 0x2000

/-- The classes (60_exceptions.md R521, R522). -/
def Interrupt.kind : Interrupt → InterruptClass
  | .criticalInput | .watchdog | .debug => .critical
  | .machineCheck => .machineCheck
  | .dataStorage | .instructionStorage | .external | .alignment | .program | .fpuUnavailable | .systemCall
  | .apuUnavailable | .pit | .fit | .dataTlbMiss | .instructionTlbMiss => .nonCritical

/-- The MSR bits an entry keeps: CE, ME and DE; ME; none (60_exceptions.md R525). -/
def InterruptClass.keptMsr : InterruptClass → Word
  | .nonCritical => 0x00021200
  | .critical => 0x00001000
  | .machineCheck => 0

/-- The save registers: the return address into SRR0 or SRR2, the MSR into SRR1 or SRR3, its reserved bits free
(60_exceptions.md R522; 00_scope.md R22 (b); log entry 10). -/
def State.saveContext (s : State) (c : InterruptClass) (ret : Word) : State :=
  let image := s.readMasked s.msr msrMask
  match c with
  | .nonCritical => ((s.afterMasked msrMask).setSpr .srr0 ret).setSpr .srr1 image
  | .critical | .machineCheck => ((s.afterMasked msrMask).setSpr .srr2 ret).setSpr .srr3 image

/-- The address of an interrupt's first handler instruction: `EVPR[0:15] || offset` (60_exceptions.md R521). DESIGN CHOICE
(log entry 29), not safe: the EVPR of now, also between a `mtspr` to it and the next context synchronisation, where
70_reset_and_hazards.md R621 and 48 R501 do not say which EVPR an interrupt goes by. -/
def State.vector (s : State) (k : Interrupt) : Word := (s.spr .evpr &&& 0xFFFF0000) ||| k.offset

/-- Taking an interrupt with return address `ret`: save, mask, go to the vector, synchronise (60_exceptions.md R523). -/
def takeInterrupt (k : Interrupt) (ret : Word) (s : State) : State :=
  (((s.saveContext k.kind ret).setMsr (s.msr &&& k.kind.keptMsr)).setPc (s.vector k)).contextSync

/-! ### Exceptions -/

/-- The causes of a Program interrupt that can occur without an FPU or an APU (60_exceptions.md R537-R541). -/
inductive ProgramCause where
  | illegal | privileged | trap
  deriving DecidableEq, Repr

/-- The ESR bit of a Program interrupt: PIL, PPR, PTR (10_state.md R57). -/
def ProgramCause.syndrome : ProgramCause → Word
  | .illegal => 0x08000000
  | .privileged => 0x04000000
  | .trap => 0x02000000

/-- A synchronous exception, with what its entry records. -/
inductive Exc where
  /-- 60_exceptions.md R533. -/
  | dataStorage (ea : Word) (store zone u0 : Bool)
  /-- 60_exceptions.md R545. -/
  | dataTlbMiss (ea : Word) (store : Bool)
  /-- 60_exceptions.md R536. -/
  | alignment (ea : Word)
  /-- 60_exceptions.md R537. -/
  | program (c : ProgramCause)
  /-- 60_exceptions.md R543. -/
  | systemCall
  /-- 60_exceptions.md R534. -/
  | instructionStorage (zone : Bool)
  /-- 60_exceptions.md R546. -/
  | instructionTlbMiss
  /-- 60_exceptions.md R532, with MSR[ME] = 1. -/
  | instructionMachineCheck
  deriving DecidableEq, Repr

/-- ESR rewritten by an interrupt: MCI kept, every other bit as the cause says (60_exceptions.md R593). -/
def State.setSyndrome (s : State) (w : Word) : State := s.setSpr .esr ((s.spr .esr &&& 0x80000000) ||| w)

/-- Taking a synchronous exception: ESR and DEAR as its rule says, then the entry with the address of the causing
instruction, or for `sc` of the one after it (60_exceptions.md R593). -/
def takeException (e : Exc) (s : State) : State :=
  match e with
  | .dataStorage ea store zone u0 =>
      takeInterrupt .dataStorage s.pc
        ((s.setSpr .dear ea).setSyndrome (flagAt 8 store ||| flagAt 9 zone ||| flagAt 16 u0))
  | .dataTlbMiss ea store => takeInterrupt .dataTlbMiss s.pc ((s.setSpr .dear ea).setSyndrome (flagAt 8 store))
  | .alignment ea => takeInterrupt .alignment s.pc (s.setSpr .dear ea)
  | .program c => takeInterrupt .program s.pc (s.setSyndrome c.syndrome)
  | .systemCall => takeInterrupt .systemCall (s.pc + 4) s
  | .instructionStorage zone => takeInterrupt .instructionStorage s.pc (s.setSyndrome (flagAt 9 zone))
  | .instructionTlbMiss => takeInterrupt .instructionTlbMiss s.pc s
  | .instructionMachineCheck => takeInterrupt .machineCheck s.pc (s.setSpr .esr (s.spr .esr ||| 0x80000000))

/-- Returning from an interrupt: MSR and pc from a pair of save registers, then synchronise (47 R462, R463). -/
def returnFrom (addr msr : Word) (s : State) : State := ((s.setMsr msr).setPc (alignPc addr)).contextSync

/-! ### Stopping an instruction -/

/-- Why an instruction ends before its effect. -/
inductive Stop where
  | exc (e : Exc)
  | refuse (r : Refusal)
  deriving DecidableEq, Repr

/-- The outcome of an instruction that stops before its effect, in the state the instruction found. -/
def stopWith (s : State) : Stop → Result
  | .exc e => .next (takeException e s)
  | .refuse r => .refused r

/-- An instruction that runs to its end. -/
def done (s : State) : Result := .next s.advance

/-- A privileged instruction: the Program interrupt in user mode, before any other check (60_exceptions.md R538). -/
def privileged (s : State) (k : Result) : Result :=
  if s.userMode then .next (takeException (.program .privileged) s) else k

/-- An instruction whose form the manual forbids is refused (30_encoding.md R173). -/
def validForm (ok : Bool) (r : Refusal) (k : Result) : Result := if ok then k else .refused r

/-! ### Reset (70_reset_and_hazards.md R600-R602) -/

/-- A two-bit field of TCR[WRC] or DBCR0[RST] as a kind of reset. -/
def resetKindOf (c : BitVec 2) : Option ResetKind :=
  if c = 1 then some .core else if c = 2 then some .chip else if c = 3 then some .system else none

/-- A reset during a run: the registers the spec defines get their reset values, everything the spec leaves undefined
keeps what it held (log entry 11), the lines of both cache arrays too: a non-cachable access may still be answered by one
(log entry 16), though 70_reset_and_hazards.md R602 calls the arrays harmless while ICCR = DCCR = 0. `wrs` is the new TSR[WRS] (10_state.md R60, R81, R82, R84). -/
def resetFrom (k : ResetKind) (wrs : BitVec 2) (s : State) : State :=
  let s := { s with
    pc := 0xFFFFFFFC, msr := 0, fillBuffer := none, unsettled := [], between := [], ahead := [], waited := [],
    oldContexts := [], fetchedUser := none, busError := false, drained := true, icbtPending := false, eeWindow := 0,
    icdbdrPending := false, stuck := false }
  let s := (((s.setSpr .esr 0).setSpr .iccr 0).setSpr .dccr 0).setSpr .sgr 0xFFFFFFFF
  let s := (((s.setSpr .sler 0).setSpr .su0r 0).setSpr .dcwr 0).setSpr .ccr0 0x00700000
  let s := (s.setSpr .dbcr1 0).setSpr .dbcr0 (s.spr .dbcr0 &&& 0x4FFFFFFF)
  let s := s.setSpr .tcr (s.spr .tcr &&& 0xCFFFFFFF)
  let s := s.setSpr .tsr ((s.spr .tsr &&& 0xCFFFFFFF) ||| (wrs.setWidth 32 <<< 28))
  s.setSpr .dbsr ((s.spr .dbsr &&& 0xFFFFFCFF) ||| (k.code.setWidth 32 <<< 8))

end Sys2Proof.Machine
end

