-- ==== Sys2Proof/Machine/Translate.lean ====
section
/-! DEFINITION. Address translation, storage attributes and access control (spec/20_memory.md R101, R102, R114-R121). -/

namespace Sys2Proof.Machine

/-- The storage attributes of an access (20_memory.md R101). -/
structure Attrs where
  w  : Bool
  i  : Bool
  m  : Bool
  g  : Bool
  u0 : Bool
  e  : Bool
  deriving DecidableEq, Repr

/-- What an effective address maps to, with what its page allows. In real mode there is no page and everything is
allowed (20_memory.md R119). -/
structure Page where
  ra         : Word
  attrs      : Attrs
  translated : Bool
  ex         : Bool
  wr         : Bool
  zone       : BitVec 2
  deriving DecidableEq, Repr

/-- What looking an effective address up gives. -/
inductive Lookup where
  | miss
  | multiple
  | page (p : Page)
  deriving DecidableEq, Repr

/-! ### The TLB (20_memory.md R114) -/

/-- The bits of an effective address inside a page of this size: page sizes are 1KB × 4^SIZE (10_state.md R71). -/
def pageOffsetMask (size : BitVec 3) : Word := (1#32 <<< (10 + 2 * size.toNat)) - 1

/-- Entry `t` translates `ea` for process `pid` (20_memory.md R114). -/
def tlbMatches (pid : Byte) (ea : Word) (t : TlbEntry) : Bool :=
  t.v && (t.tid == 0 || t.tid == pid) &&
    ((t.epn ++ (0 : BitVec 10)) &&& ~~~(pageOffsetMask t.size) == (ea &&& ~~~(pageOffsetMask t.size)))

/-- The real address entry `t` gives `ea`: `RPN[0:k-1] || ea[k:31]` (20_memory.md R114). -/
def tlbRealAddress (t : TlbEntry) (ea : Word) : Word :=
  ((t.rpn ++ (0 : BitVec 10)) &&& ~~~(pageOffsetMask t.size)) ||| (ea &&& pageOffsetMask t.size)

/-- The entries that translate `ea`, with their indices. -/
def tlbHits (tlb : Vector TlbEntry 64) (pid : Word) (ea : Word) : List (TlbEntry × Nat) :=
  tlb.toList.zipIdx.filter fun e => tlbMatches (pid.setWidth 8) ea e.1

/-- The zone field an entry selects: `ZPR[2 × ZSEL : 2 × ZSEL + 1]` (20_memory.md R116). -/
def zoneField (zpr : Word) (zsel : BitVec 4) : BitVec 2 := (zpr >>> (30 - 2 * zsel.toNat)).setWidth 2

/-- Translation through the TLB. -/
def tlbLookup (tlb : Vector TlbEntry 64) (pid zpr ea : Word) : Lookup :=
  match tlbHits tlb pid ea with
  | [] => .miss
  | [(t, _)] => .page ⟨tlbRealAddress t ea, ⟨t.w, t.i, t.m, t.g, t.u0, t.e⟩, true, t.ex, t.wr, zoneField zpr t.zsel⟩
  | _ => .multiple

/-! ### Lookup by kind of access (20_memory.md R102) -/

/-- The number of the 128MB region of an address: `ea[0:4]` (10_state.md R63). -/
def regionOf (ea : Word) : Nat := (ea >>> 27).toNat

/-- A data address looked up under MSR[DR]. -/
def lookupData (s : State) (ea : Word) : Lookup :=
  if s.msrDR then tlbLookup s.tlb (s.spr .pid) (s.spr .zpr) ea
  else
    let n := regionOf ea
    .page ⟨ea, ⟨bitAt (s.spr .dcwr) n, !bitAt (s.spr .dccr) n, false, bitAt (s.spr .sgr) n, bitAt (s.spr .su0r) n,
      bitAt (s.spr .sler) n⟩, false, true, true, 0⟩

/-- A fetch address looked up under the IR bit of a fetch context. -/
def lookupFetch (c : FetchContext) (ea : Word) : Lookup :=
  if bitAt c.msr 26 then tlbLookup c.tlb c.pid c.zpr ea
  else
    let n := regionOf ea
    .page ⟨ea, ⟨false, !bitAt c.iccr n, false, bitAt c.sgr n, bitAt c.su0r n, bitAt c.sler n⟩, false, true, true, 0⟩

/-! ### Access control (20_memory.md R115, R116) -/

/-- A zone fault: user mode and zone field 00. -/
def Page.zoneDenied (p : Page) (user : Bool) : Bool := p.translated && user && p.zone == 0

/-- The zone field overrides EX and WR: 11 in both modes, 10 in supervisor mode. -/
def Page.fullAccess (p : Page) (user : Bool) : Bool := p.zone == 3 || (p.zone == 2 && !user)

/-- A store the page denies. -/
def Page.writeDenied (p : Page) (user : Bool) : Bool := p.translated && !(p.wr || p.fullAccess user)

/-- A fetch the page denies: EX = 0, or guarded storage with translation on. -/
def Page.fetchDenied (p : Page) (user : Bool) : Bool :=
  p.translated && (!(p.ex || p.fullAccess user) || p.attrs.g)

/-- The U0 exception: a store to U0 storage while CCR0[U0XE] = 1, in either mode (20_memory.md R121;
60_exceptions.md R533 (c)). -/
def State.u0Denied (s : State) (p : Page) : Bool := bitAt (s.spr .ccr0) 14 && p.attrs.u0

/-- A data access located and checked: the page, or why it stops (20_memory.md R117; 60_exceptions.md R533, R545). -/
def locate (s : State) (ea : Word) (store : Bool) : Except Stop Page :=
  match lookupData s ea with
  | .miss => .error (.exc (.dataTlbMiss ea store))
  | .multiple => .error (.refuse .tlbMultipleMatch)
  | .page p =>
    if p.zoneDenied s.msrPR then .error (.exc (.dataStorage ea store true false))
    else if store && p.writeDenied s.msrPR then .error (.exc (.dataStorage ea store false false))
    else if store && s.u0Denied p then .error (.exc (.dataStorage ea store false true))
    else .ok p

end Sys2Proof.Machine
end

