-- ==== Sys2Proof/Machine/Cache.lean ====
section
/-! DEFINITION. The cache arrays, the DCU fill buffer and the bus: exact two-way LRU arrays of the PPC405B3's sizes, the
refinement that 20_memory.md R130 allows (log entries 14, 15). A block is named by its real address divided by 32. -/

namespace Sys2Proof.Machine

/-! ### The bus (00_scope.md R14; 60_exceptions.md R531) -/

/-- The number of the block of a real address (20_memory.md R112). -/
def blockOf (ra : Word) : Nat := ra.toNat / 32

/-- The place of a real address inside its block. -/
def offsetOf (ra : Word) : Fin 32 := ⟨ra.toNat % 32, Nat.mod_lt _ (by decide)⟩

/-- What the platform says of a real address: none is plain storage. -/
def regionAt : List Region → Nat → Option RegionKind
  | [], _ => none
  | r :: rs, ra => if r.first ≤ ra ∧ ra < r.first + r.count then some r.kind else regionAt rs ra

/-- Plain storage answers at this real address. -/
def isPlain (map : List Region) (ra : Nat) : Bool := (regionAt map ra).isNone

/-- Nothing answers at this real address. -/
def isUnbacked (map : List Region) (ra : Nat) : Bool := regionAt map ra == some .unbacked

/-- The real addresses of a block. -/
def blockAddrs (block : Nat) : List Nat := (List.range 32).map fun i => 32 * block + i

/-- The byte the bus gives at a real address: memory's in plain storage, else the free byte of that place in its block
(20_memory.md R141; 00_scope.md R20 (5); log entry 5). -/
def busByte (map : List Region) (m : Memory) (draws ra : Nat) : Byte :=
  if isPlain map ra then memGet m ra else Config.freeByte (32 * draws + ra % 32)

/-- Nothing answers at some address of a block. -/
def blockErrs (map : List Region) (block : Nat) : Bool := (blockAddrs block).any (isUnbacked map)

/-- The 32 bytes the bus gives of a block: all free where nothing answers at some address of it (20_memory.md R141;
93 U20). -/
def busBlock (map : List Region) (m : Memory) (draws block : Nat) : Vector Byte 32 :=
  ⟨⟨(List.range 32).map fun i =>
    if blockErrs map block then Config.freeByte (32 * draws + i) else busByte map m draws (32 * block + i)⟩, by simp⟩

/-- The state after bytes were read over the bus: an error is reported where nothing answers (60_exceptions.md R531). -/
def State.afterRead (s : State) (ras : List Nat) : State :=
  if ras.all (isPlain s.memMap) then s
  else { s.drawn with busError := s.busError || ras.any (isUnbacked s.memMap) }

/-- Bytes read over the bus. -/
def State.busRead (s : State) (ras : List Nat) : List Byte × State :=
  (ras.map (busByte s.memMap s.mem s.draws), s.afterRead ras)

/-- A block read over the bus. -/
def State.busReadBlock (s : State) (block : Nat) : Vector Byte 32 × State :=
  (busBlock s.memMap s.mem s.draws block, s.afterRead (blockAddrs block))

/-- Bytes written over the bus by the core in one access: those of plain storage change memory. All of them are under way
until they arrive (20_memory.md R128, R131). -/
def State.busWrite (s : State) (cells : List Host.Cell) : State :=
  { s with
    mem := memPutAll s.mem (cells.filter fun c => isPlain s.memMap c.1)
    unsettled := (cells.map fun c => ⟨c.1, memGet s.mem c.1, c.2⟩) :: s.unsettled }

/-- Bus writes of the core arrive: an error is reported where nothing answers (60_exceptions.md R531). -/
def State.arrived (s : State) (ws : List (List Overwrite)) : State :=
  { s with busError := s.busError || ws.any fun w => w.any fun o => isUnbacked s.memMap o.addr }

/-- Bytes as cells from a real address up. -/
def cellsFrom : Nat → List Byte → List Host.Cell
  | _, [] => []
  | ra, b :: bs => (ra, b) :: cellsFrom (ra + 1) bs

/-- A block written over the bus. -/
def State.busWriteBlock (s : State) (block : Nat) (bs : Vector Byte 32) : State :=
  s.busWrite (cellsFrom (32 * block) bs.toList)

/-- Memory as the bus has it now: without the writes of the core that have not arrived (20_memory.md R131). -/
def State.busMem (s : State) : Memory := undoWrites s.mem s.unsettled

/-- What other bus masters write (20_memory.md R136). What the core wrote to the same bytes before has arrived then (log
entry 40). -/
def State.busMasters (s : State) (cells : List Host.Cell) : State :=
  { s.arrived (s.unsettled.map (overwritten cells)) with
    mem := memPutCells s.mem cells, unsettled := s.unsettled.map (dropOverwritten cells) }

/-- A write that has not arrived, done again under the present memory map. -/
def State.redo (s : State) (w : List Overwrite) : State := s.busWrite (w.map fun o => (o.addr, o.new))

/-- The memory map replaced. The writes that have not arrived meet the new map, the oldest first (20_memory.md R128;
93 U6). DESIGN CHOICE (log entry 40), not safe: a load and a line fill have gone by the old map, and none that stands before
the `mtdcr` still meets the new one. -/
def State.remap (s : State) (map : List Region) : State :=
  s.unsettled.foldr (fun w t => t.redo w) { s with mem := s.busMem, memMap := map, unsettled := [] }

/-! ### The data cache array (10_state.md R77; 20_memory.md R130, R135, R140) -/

/-- The congruence class of a block. -/
def dIndex (block : Nat) : Nat := block % Config.dcacheSets

/-- The tag of a block. -/
def dTag (block : Nat) : BitVec 20 := BitVec.ofNat 20 (block / Config.dcacheSets)

/-- The block a valid way of class `i` holds. -/
def DWay.block (w : DWay) (i : Nat) : Nat := w.tag.toNat * Config.dcacheSets + i

/-- The way holds the block with this tag. -/
def DWay.holds (w : DWay) (tag : BitVec 20) : Bool := w.valid && w.tag == tag

/-- The two ways. -/
inductive Way where
  | a | b
  deriving DecidableEq, Repr

/-- A way of a congruence class. -/
def DSet.way (x : DSet) : Way → DWay
  | .a => x.a
  | .b => x.b

/-- The class with a way replaced. -/
def DSet.setWay (x : DSet) (k : Way) (w : DWay) : DSet :=
  match k with
  | .a => { x with a := w }
  | .b => { x with b := w }

/-- The class after a way was used: the other one is least recently used. -/
def DSet.touch (x : DSet) (k : Way) : DSet :=
  match k with
  | .a => { x with lru := true }
  | .b => { x with lru := false }

/-- The way a fill replaces. -/
def DSet.victim (x : DSet) : Way := if x.lru then .b else .a

/-- The way that holds a tag. -/
def DSet.find (x : DSet) (tag : BitVec 20) : Option Way :=
  if x.a.holds tag then some .a else if x.b.holds tag then some .b else none

/-- The congruence class of a block. -/
def State.dset (s : State) (block : Nat) : DSet := dsetGet s.dcache (dIndex block)

/-- The state with the congruence class of a block replaced. -/
def State.setDset (s : State) (block : Nat) (x : DSet) : State :=
  { s with dcache := dsetPut s.dcache (dIndex block) x }

/-- The way of its class that holds a block. -/
def State.dFind (s : State) (block : Nat) : Option Way := (s.dset block).find (dTag block)

/-- The line that holds a block. -/
def State.dLine (s : State) (block : Nat) : Option DWay := (s.dFind block).map (s.dset block).way

/-- The byte the program sees at a real address: the data cache's where it holds the block, else memory's (20_memory.md
R123). -/
def State.dataByte (s : State) (ra : Word) : Byte :=
  match s.dLine (blockOf ra) with
  | some w => w.bytes[offsetOf ra]
  | none => memGet s.mem ra.toNat

/-- A modified line is written to memory; the line itself does not change. -/
def State.writeBack (s : State) (i : Nat) (w : DWay) : State :=
  if w.valid && w.dirty then s.busWriteBlock (w.block i) w.bytes else s

/-- A line is established for a block in the least recently used way, whose modified content goes to memory first
(20_memory.md R139, R140). -/
def State.dEstablish (s : State) (block : Nat) (bytes : Vector Byte 32) (dirty : Bool) : State :=
  let x := s.dset block
  let k := x.victim
  let s' := s.writeBack (dIndex block) (x.way k)
  s'.setDset block ((x.setWay k ⟨true, dirty, dTag block, bytes⟩).touch k)

/-- A line fill (20_memory.md R140, R141). DESIGN CHOICE (log entry 15), not safe: every line fill, a store's and a touch's
too, requires the fill buffer and ends what it holds, where 20_memory.md R138 names loads that require it. -/
def State.dFill (s : State) (block : Nat) : State :=
  let (bs, s') := s.busReadBlock block
  { s'.dEstablish block bs false with fillBuffer := none }

/-- Bytes of a line that holds the block, and the class touched. -/
def State.dHitRead (s : State) (block : Nat) (k : Way) (ras : List Word) : List Byte × State :=
  (ras.map fun ra => ((s.dset block).way k).bytes[offsetOf ra], s.setDset block ((s.dset block).touch k))

/-- The bytes of a line with some replaced. -/
def setBytes (bs : Vector Byte 32) : List (Word × Byte) → Vector Byte 32
  | [] => bs
  | (ra, b) :: cs => setBytes (bs.set (offsetOf ra) b) cs

/-- Bytes stored into a line that holds the block; `dirty` marks it modified. -/
def State.dHitWrite (s : State) (block : Nat) (k : Way) (cells : List (Word × Byte)) (dirty : Bool) : State :=
  let x := s.dset block
  let w := x.way k
  s.setDset block ((x.setWay k { w with bytes := setBytes w.bytes cells, dirty := w.dirty || dirty }).touch k)

/-- The line of a block is made invalid, nothing written back. -/
def State.dInvalidate (s : State) (block : Nat) : State :=
  match s.dFind block with
  | some k => s.setDset block ((s.dset block).setWay k { (s.dset block).way k with valid := false })
  | none => s

/-- A modified line of a block goes to memory and is made invalid; its D bit stays as it was (46_cache_management.md
R438). -/
def State.dFlush (s : State) (block : Nat) : State :=
  match s.dFind block with
  | some k =>
    let w := (s.dset block).way k
    (s.writeBack (dIndex block) w).setDset block ((s.dset block).setWay k { w with valid := false })
  | none => s

/-- A modified line of a block goes to memory and is no longer modified (46_cache_management.md R441). DESIGN CHOICE
(log entry 15), not safe: it is no use of the way, whose place in the LRU order stays. -/
def State.dClean (s : State) (block : Nat) : State :=
  match s.dFind block with
  | some k =>
    let w := (s.dset block).way k
    if w.dirty then (s.writeBack (dIndex block) w).setDset block ((s.dset block).setWay k { w with dirty := false })
    else s
  | none => s

/-! ### The fill buffer (20_memory.md R138) -/

/-- What the fill buffer holds of a block. -/
def State.fillBufferFor (s : State) (block : Nat) : Option (Vector Byte 32) :=
  match s.fillBuffer with
  | some f => if f.block = block then some f.bytes else none
  | none => none

/-- The fill buffer loses what it holds of a block. -/
def State.dropFillBuffer (s : State) (block : Nat) : State :=
  match s.fillBuffer with
  | some f => if f.block = block then { s with fillBuffer := none } else s
  | none => s

/-- Bytes of one block loaded past the cache array. `keep`: the storage lets the DCU keep the line in the fill buffer, as
CCR0[LWL] asks (20_memory.md R138). DESIGN CHOICE (log entry 15), not safe: what the fill buffer holds answers also after
CCR0[LWL] is cleared, until one of the events of R138; and a load that takes its own bytes alone, without a line (guarded
storage, or CCR0[LWL] = 0), does not require the fill buffer, which keeps what it holds. -/
def State.bypassRead (s : State) (block : Nat) (ras : List Word) (keep : Bool) : List Byte × State :=
  match (if keep then s.fillBufferFor block else none) with
  | some bs => (ras.map fun ra => bs[offsetOf ra], s)
  | none =>
    if keep && bitAt (s.spr .ccr0) 6 then
      let (bs, s') := s.busReadBlock block
      (ras.map fun ra => bs[offsetOf ra], { s' with fillBuffer := some ⟨block, bs⟩ })
    else s.busRead (ras.map BitVec.toNat)

/-- Bytes of one block stored past the cache array. -/
def State.bypassWrite (s : State) (block : Nat) (cells : List (Word × Byte)) : State :=
  (s.busWrite (cells.map fun c => (c.1.toNat, c.2))).dropFillBuffer block

/-! ### Loads and stores inside one block (20_memory.md R113) -/

/-- Bytes of one block and one set of attributes loaded as one access, by the memory map of now: DESIGN CHOICE (log entry
40), not safe, as at `State.remap`. Storage now non-cachable whose line is in the array
(20_memory.md R137) is a free choice, made once, between the line and memory (93 U10; log entry 16). -/
def State.loadTogether (s : State) (t : Attrs) (block : Nat) (ras : List Word) : List Byte × State :=
  match s.dFind block, t.i with
  | some k, false => s.dHitRead block k ras
  | some k, true =>
    if s.freshFlag then s.drawn.dHitRead block k ras else s.drawn.bypassRead block ras (!t.g)
  | none, true => s.bypassRead block ras (!t.g)
  | none, false =>
    if bitAt (s.spr .ccr0) 7 then s.bypassRead block ras true
    else
      let s' := s.dFill block
      match s'.dLine block with
      | some w => (ras.map fun ra => w.bytes[offsetOf ra], s')
      | none => (ras.map fun _ => 0, s')

/-- Some of these real addresses have nothing that answers. -/
def State.anyUnbacked (s : State) (ras : List Word) : Bool := ras.any fun ra => isUnbacked s.memMap ra.toNat

/-- The same where an address may have nothing that answers: an error is reported, cached or not, and the bytes are free
(60_exceptions.md R531; log entry 21). -/
def State.load (s : State) (t : Attrs) (block : Nat) (ras : List Word) : List Byte × State :=
  let (bs, s') := s.loadTogether t block ras
  if s.anyUnbacked ras then
    (ras.map fun ra => Config.freeByte (32 * s'.draws + (offsetOf ra).val), { s'.drawn with busError := true })
  else (bs, s')

/-- Bytes stored into the line that holds their block: write-back marks the line modified, write-through writes memory as
well (20_memory.md R135). -/
def State.storeHit (s : State) (block : Nat) (k : Way) (w : Bool) (cells : List (Word × Byte)) : State :=
  let s' := s.dHitWrite block k cells (!w && !cells.isEmpty)
  if w then s'.busWrite (cells.map fun c => (c.1.toNat, c.2)) else s'

/-- Bytes of one block and one set of attributes stored as one access; a store also ends what the fill buffer holds of
the block (20_memory.md R135, R138, R139). The line fill of a miss is made at once, by the memory map of now: DESIGN CHOICE
(log entry 40), not safe, as at `State.remap`. Storage now non-cachable whose line is in the array is a free choice, made
once (93 U10; log entry 16). -/
def State.storeTogether (s : State) (t : Attrs) (block : Nat) (cells : List (Word × Byte)) : State :=
  match s.dFind block, t.i with
  | some k, false => (s.storeHit block k t.w cells).dropFillBuffer block
  | some k, true =>
    if s.freshFlag then (s.drawn.storeHit block k false cells).dropFillBuffer block
    else s.drawn.bypassWrite block cells
  | none, true => s.bypassWrite block cells
  | none, false =>
    if bitAt (s.spr .ccr0) 8 then s.bypassWrite block cells
    else
      let s' := s.dFill block
      match s'.dFind block with
      | some k => (s'.storeHit block k t.w cells).dropFillBuffer block
      | none => s'

/-- The same where an address may have nothing that answers: its byte is stored nowhere, cached or not, and its write,
under way until it arrives, reports the error then (60_exceptions.md R531; 20_memory.md R128; log entries 21, 40). The line
fill of a miss that errs reports its own error at once (20_memory.md R141). -/
def State.store (s : State) (t : Attrs) (block : Nat) (cells : List (Word × Byte)) : State :=
  if s.anyUnbacked (cells.map (·.1)) then
    let lost := cells.filter fun c => isUnbacked s.memMap c.1.toNat
    let kept := cells.filter fun c => !isUnbacked s.memMap c.1.toNat
    (s.storeTogether t block kept).busWrite (lost.map fun c => (c.1.toNat, c.2))
  else s.storeTogether t block cells

/-! ### The instruction cache array (10_state.md R76; 20_memory.md R106, R130, R133, R134) -/

/-- The congruence class of an effective address: EA[19:26] (46_cache_management.md R437). -/
def iIndex (ea : Word) : Nat := (ea.toNat / 32) % Config.icacheSets

/-- The tag of a real address: RA[0:21]. -/
def iTag (ra : Word) : BitVec 22 := (ra >>> 10).setWidth 22

/-- Which of the eight words of its line an address names. -/
def iWord (ea : Word) : Fin 8 := ⟨(ea.toNat / 4) % 8, Nat.mod_lt _ (by decide)⟩

/-- The way holds the line with this tag. -/
def IWay.holds (w : IWay) (tag : BitVec 22) : Bool := w.valid && w.tag == tag

/-- A way of a congruence class. -/
def ISet.way (x : ISet) : Way → IWay
  | .a => x.a
  | .b => x.b

/-- The class with a way replaced. -/
def ISet.setWay (x : ISet) (k : Way) (w : IWay) : ISet :=
  match k with
  | .a => { x with a := w }
  | .b => { x with b := w }

/-- The class after a way was used. -/
def ISet.touch (x : ISet) (k : Way) : ISet :=
  match k with
  | .a => { x with lru := true }
  | .b => { x with lru := false }

/-- The way a fill replaces. -/
def ISet.victim (x : ISet) : Way := if x.lru then .b else .a

/-- The way that holds a tag. -/
def ISet.find (x : ISet) (tag : BitVec 22) : Option Way :=
  if x.a.holds tag then some .a else if x.b.holds tag then some .b else none

/-- The class with every line of this tag invalid. -/
def ISet.drop (x : ISet) (tag : BitVec 22) : ISet :=
  { x with
    a := if x.a.holds tag then { x.a with valid := false } else x.a
    b := if x.b.holds tag then { x.b with valid := false } else x.b }

/-- The class with both ways invalid. -/
def ISet.invalid (x : ISet) : ISet := { x with a := { x.a with valid := false }, b := { x.b with valid := false } }

/-- An instruction word from four bytes at rising addresses, by the byte order of their storage (20_memory.md R106). -/
def instructionWord (e : Bool) (b0 b1 b2 b3 : Byte) : Word :=
  if e then b3 ++ b2 ++ b1 ++ b0 else b0 ++ b1 ++ b2 ++ b3

/-- The instruction word memory holds at a word-aligned real address. -/
def memWord (m : Memory) (e : Bool) (ra : Nat) : Word :=
  instructionWord e (memGet m ra) (memGet m (ra + 1)) (memGet m (ra + 2)) (memGet m (ra + 3))

/-- The instruction word the bus gives at a word-aligned real address. -/
def busWord (map : List Region) (m : Memory) (draws : Nat) (e : Bool) (ra : Nat) : Word :=
  instructionWord e (busByte map m draws ra) (busByte map m draws (ra + 1)) (busByte map m draws (ra + 2))
    (busByte map m draws (ra + 3))

/-- The eight instruction words of a block, as the array stores them (20_memory.md R106). -/
def busLine (map : List Region) (m : Memory) (draws : Nat) (e : Bool) (block : Nat) : Vector Word 8 :=
  ⟨⟨(List.range 8).map fun i => busWord map m draws e (32 * block + 4 * i)⟩, by simp⟩

/-- The state with the congruence class of an effective address replaced. -/
def State.setIset (s : State) (i : Nat) (x : ISet) : State := { s with icache := isetPut s.icache i x }

/-- The state after the fetcher read these real addresses over the bus under a memory map: a fetch error is no data-side
error, and what a device gives is free (20_memory.md R141; log entry 5). -/
def State.afterFetch (s : State) (map : List Region) (ras : List Nat) : State :=
  if ras.all (isPlain map) then s else s.drawn

/-- A line fill of the instruction cache: the line of the block of `ra`, indexed by `ea`. Where nothing answers at some
address of the block, the line is not written to the array (20_memory.md R133, R134). -/
def State.iFill (s : State) (map : List Region) (ea ra : Word) (e : Bool) : State :=
  let x := isetGet s.icache (iIndex ea)
  let k := x.victim
  let line := busLine map s.busMem s.draws e (blockOf ra)
  let s' := s.afterFetch map (blockAddrs (blockOf ra))
  if blockErrs map (blockOf ra) then s'
  else s'.setIset (iIndex ea) ((x.setWay k ⟨true, iTag ra, line⟩).touch k)

/-- The instruction cache with every line invalid. -/
def iInvalidateAll : List (Nat × ISet) → List (Nat × ISet) → List (Nat × ISet)
  | c, [] => c
  | c, (i, x) :: t => iInvalidateAll (isetPut c i x.invalid) t

/-- The instruction cache without a real block in the classes that pick out: every class the block can sit in has the
low five index bits of the block (20_memory.md R134). -/
def iDropAll (tag : BitVec 22) (low : Nat) : List (Nat × ISet) → List (Nat × ISet) → List (Nat × ISet)
  | c, [] => c
  | c, (i, x) :: t => iDropAll tag low (if i % 32 = low then isetPut c i (x.drop tag) else c) t

end Sys2Proof.Machine
end

