-- ==== Sys2Proof/Machine/Forms.lean ====
section
/-! DEFINITION. The instruction forms the manual forbids, as tests on operands (spec/30_encoding.md R173), and the tables
of register numbers (spec/10_state.md R53, R54). -/

namespace Sys2Proof.Machine

/-- A load with update: RA is neither 0 nor RT (30_encoding.md R173 (a)). -/
def loadUpdateOk (rt ra : Reg) : Bool := ra != 0 && ra != rt

/-- A store with update: RA is not 0 (30_encoding.md R173 (b)). -/
def storeUpdateOk (ra : Reg) : Bool := ra != 0

/-- `lmw`: RA is below RT (30_encoding.md R173 (c); 40 R235). -/
def loadMultipleOk (rt ra : Reg) : Bool := ra.ult rt

/-- The byte count of `lswi` and `stswi`: NB, 0 meaning 32 (30_encoding.md R162; 40 R237). -/
def stringCount (nb : BitVec 5) : Nat := if nb = 0 then 32 else nb.toNat

/-- Register `r` is among those a string of `n` bytes fills from `rt` up, 31 wrapping to 0 (40 R242). -/
def inStringRange (rt r : Reg) (n : Nat) : Bool := decide ((r - rt).toNat < (n + 3) / 4)

/-- A string load does not overwrite its base register; RA = 0 names no register but with RT = 0 is forbidden
(30_encoding.md R173 (d); 40 R237). -/
def stringBaseOk (rt ra : Reg) (n : Nat) : Bool := if ra = 0 then rt != 0 else !inStringRange rt ra n

/-- `lswx` overwrites neither of its address registers (30_encoding.md R173 (d); 40 R238). DESIGN CHOICE (log entry 25), not
safe: with RA = 0 a range that wraps onto register 0 is allowed unless RT = 0, as 40 R237 says of `lswi`; R173 (d) and R238 do
not repeat that for `lswx`. -/
def stringIndexedOk (rt ra rb : Reg) (n : Nat) : Bool := stringBaseOk rt ra n && !inStringRange rt rb n

/-- BO has no z bit set (44 R381, Table 2-7; 30_encoding.md R173 (f)). -/
def branchOptionsOk (bo : BitVec 5) : Bool :=
  if bo.getLsbD 4 then !bo.getLsbD 3 && (!bo.getLsbD 2 || (!bo.getLsbD 1 && !bo.getLsbD 0))
  else !bo.getLsbD 2 || !bo.getLsbD 1

/-- `bcctr` does not decrement the CTR (30_encoding.md R173 (e)). -/
def branchCtrOk (bo : BitVec 5) : Bool := branchOptionsOk bo && bo.getLsbD 2

/-- A compare of 32-bit operands: L = 0 (30_encoding.md R173 (g)). -/
def compareOk (l : Bool) : Bool := !l

/-- `tlbre` and `tlbwe`: WS is 0 or 1 (30_encoding.md R173 (i)). -/
def tlbWordOk (ws : BitVec 5) : Bool := ws == 0 || ws == 1

/-- A TBR number: 268 or 269 (10_state.md R53; 30_encoding.md R173 (h)). -/
def tbrOk (n : RegNum) : Bool := n == 268 || n == 269

/-- The SPR number is privileged: bit 0x010 (10_state.md R54; 30_encoding.md R165). -/
def sprPrivileged (n : RegNum) : Bool := n.getLsbD 4

/-! ### SPR numbers (10_state.md R54; 48 R506) -/

/-- What an SPR number names to `mfspr`: a stored register or the PVR (10_state.md R54; 48 R506). -/
inductive SprSource where
  | reg (r : Spr)
  | pvr
  deriving DecidableEq, Repr

/-- What an SPR number names to `mtspr`: a stored register or a half of the time base (10_state.md R54; 48 R506). -/
inductive SprTarget where
  | reg (r : Spr)
  | tbl
  | tbu
  deriving DecidableEq, Repr

/-- The numbers that read and write one register (10_state.md R54). -/
def sprBoth (n : Nat) : Option Spr :=
  match n with
  | 0x001 => some .xer | 0x008 => some .lr | 0x009 => some .ctr
  | 0x01A => some .srr0 | 0x01B => some .srr1 | 0x3DE => some .srr2 | 0x3DF => some .srr3
  | 0x100 => some .usprg0
  | 0x110 => some .sprg0 | 0x111 => some .sprg1 | 0x112 => some .sprg2 | 0x113 => some .sprg3
  | 0x114 => some .sprg4 | 0x115 => some .sprg5 | 0x116 => some .sprg6 | 0x117 => some .sprg7
  | 0x3B0 => some .zpr | 0x3B1 => some .pid | 0x3B3 => some .ccr0
  | 0x3B4 => some .iac3 | 0x3B5 => some .iac4 | 0x3F4 => some .iac1 | 0x3F5 => some .iac2
  | 0x3B6 => some .dvc1 | 0x3B7 => some .dvc2 | 0x3F6 => some .dac1 | 0x3F7 => some .dac2
  | 0x3B9 => some .sgr | 0x3BA => some .dcwr | 0x3BB => some .sler | 0x3BC => some .su0r
  | 0x3FA => some .dccr | 0x3FB => some .iccr
  | 0x3BD => some .dbcr1 | 0x3F0 => some .dbsr | 0x3F2 => some .dbcr0
  | 0x3D4 => some .esr | 0x3D5 => some .dear | 0x3D6 => some .evpr
  | 0x3D8 => some .tsr | 0x3DA => some .tcr | 0x3DB => some .pit
  | _ => none

/-- What `mfspr` reads at a number: the shared ones, SPRG4 to SPRG7 at their user numbers, PVR and ICDBDR. -/
def sprSource (n : RegNum) : Option SprSource :=
  match n.toNat with
  | 0x104 => some (.reg .sprg4) | 0x105 => some (.reg .sprg5)
  | 0x106 => some (.reg .sprg6) | 0x107 => some (.reg .sprg7)
  | 0x11F => some .pvr
  | 0x3D3 => some (.reg .icdbdr)
  | k => (sprBoth k).map .reg

/-- What `mtspr` writes at a number: the shared ones and the halves of the time base. -/
def sprTarget (n : RegNum) : Option SprTarget :=
  match n.toNat with
  | 0x11C => some .tbl
  | 0x11D => some .tbu
  | k => (sprBoth k).map .reg

end Sys2Proof.Machine
end

