-- ==== Sys2Proof/Machine/Operands.lean ====
section
/-! DEFINITION. Operand forms: effective addresses, masks, halfwords, branch conditions (spec/30_encoding.md R163, R164;
40 R201; 42 R302; 44 R380, R381; 45 R410). -/

namespace Sys2Proof.Machine

/-- The effective address of a D-form access: `(RA|0) + sext_16(D)` (40 R201). -/
def State.eaD (s : State) (ra : Reg) (d : Half) : Word := s.gprOrZero ra + sext16 d

/-- The effective address of an X-form access: `(RA|0) + GPR[RB]` (40 R201). -/
def State.eaX (s : State) (ra rb : Reg) : Word := s.gprOrZero ra + s.gpr rb

/-- The effective address of a D-form access with update: `GPR[RA] + sext_16(D)` (40 R201). -/
def State.eaDU (s : State) (ra : Reg) (d : Half) : Word := s.gpr ra + sext16 d

/-- The effective address of an X-form access with update: `GPR[RA] + GPR[RB]` (40 R201). -/
def State.eaXU (s : State) (ra rb : Reg) : Word := s.gpr ra + s.gpr rb

/-- The address is not word aligned (20_memory.md R111). -/
def misaligned (ea : Word) : Bool := ea &&& 3 != 0

/-- The high halfword of a word: bits 0:15. -/
def highHalf (w : Word) : Half := (w >>> 16).setWidth 16

/-- The low halfword of a word: bits 16:31. -/
def lowHalf (w : Word) : Half := w.setWidth 16

/-- The shift amount of `slw`, `srw`, `sraw`: the low six bits of a register, 0 to 63 (45 R414-R416). -/
def shiftAmount (w : Word) : Nat := w.toNat % 64

/-- MASK(MB, ME): ones from MB through ME, wrapping if MB > ME (00_scope.md R17; 45 R410). -/
def rotateMask (mb me : BitVec 5) : Word :=
  let fromMb : Word := 0xFFFFFFFF >>> mb.toNat
  let toMe : Word := 0xFFFFFFFF <<< (31 - me.toNat)
  if mb ≤ me then fromMb &&& toMe else fromMb ||| toMe

/-- The CTR after a conditional branch: decremented when BO[2] = 0 (44 R381). -/
def branchCtr (bo : BitVec 5) (ctr : Word) : Word := if bo.getLsbD 2 then ctr else ctr - 1

/-- The CTR test of a conditional branch, on the CTR after the decrement (44 R381). -/
def ctrOk (bo : BitVec 5) (ctr : Word) : Bool := bo.getLsbD 2 || ((ctr != 0) == !bo.getLsbD 1)

/-- The CR test of a conditional branch (44 R381). -/
def condOk (bo bi : BitVec 5) (cr : Word) : Bool := bo.getLsbD 4 || bitAt cr bi.toNat == bo.getLsbD 3

/-- The conditions of `tw` and `twi`: bits of TO for signed less, signed greater, equal, unsigned less, unsigned greater
(48 R503). -/
def trapHolds (tocond : BitVec 5) (a b : Word) : Bool :=
  (tocond.getLsbD 4 && a.slt b) || (tocond.getLsbD 3 && b.slt a) || (tocond.getLsbD 2 && a == b) ||
    (tocond.getLsbD 1 && a.ult b) || (tocond.getLsbD 0 && b.ult a)

end Sys2Proof.Machine
end

