-- ==== Sys2Proof/Machine/Fetch.lean ====
section
/-! DEFINITION. Fetching an instruction word, and reading ahead (spec/20_memory.md R106, R120, R131, R133; spec/60_exceptions.md
R532, R534, R546; spec/70_reset_and_hazards.md R620-R625). -/

namespace Sys2Proof.Machine

/-! ### One fetch -/

/-- The word an instruction cache holds for an effective address and its real address. -/
def cachedWord (c : List (Nat × ISet)) (ea ra : Word) : Option Word :=
  ((isetGet c (iIndex ea)).find (iTag ra)).map fun k => ((isetGet c (iIndex ea)).way k).words[iWord ea]

/-- The way of the array that holds a fetched word becomes the most recently used of its class. -/
def State.iUse (s : State) (ea ra : Word) : State :=
  match (isetGet s.icache (iIndex ea)).find (iTag ra) with
  | some k => s.setIset (iIndex ea) ((isetGet s.icache (iIndex ea)).touch k)
  | none => s

/-- A word fetched over the bus: what has arrived in memory, or a bus error where nothing answers (20_memory.md R131,
R141). -/
def State.fetchBus (s : State) (map : List Region) (p : Page) : FetchResult × State :=
  let ras := (List.range 4).map fun i => p.ra.toNat + i
  if ras.any (isUnbacked map) then (.busError, s)
  else (.word (busWord map s.busMem s.draws p.attrs.e p.ra.toNat), s.afterFetch map ras)

/-- A fetch past the checks: from a line of the instruction cache, by a line fill, or over the bus. A line of the context's
cache answers also where the array has lost it since (70_reset_and_hazards.md R621). A non-cachable fetch whose line is in
the array is a free choice between the two (70_reset_and_hazards.md R630; log entry 16). DESIGN CHOICE (log entry 15), not
safe: answered by the line, an inhibited fetch is no use of the way, whose place in the LRU order stays; and a line filled
under another byte order answers with the words as they were converted then, where 93 U22 draws between the old and the new
decoding until the line is invalidated (20_memory.md R142; 70_reset_and_hazards.md R631). CCR0[FWOA] lets a miss allocate
nothing (10_state.md R62); DESIGN CHOICE (log entry 29), not safe: it is the CCR0 of now that does, also where the fetch goes
by an old context, of which 48 R501 and 70_reset_and_hazards.md R621 do not say which CCR0 governs it. The free choice
between a line and memory is there after a reset in a run too: DESIGN CHOICE (log entry 16), safe. -/
def State.fetchPage (s : State) (c : FetchContext) (ea : Word) (p : Page) : FetchResult × State :=
  match (cachedWord c.icache ea p.ra).or (cachedWord s.icache ea p.ra), p.attrs.i with
  | some w, false => (.word w, s.iUse ea p.ra)
  | some w, true => if s.freshFlag then (.word w, s.drawn) else s.drawn.fetchBus c.memMap p
  | none, true => s.fetchBus c.memMap p
  | none, false =>
    if bitAt (s.spr .ccr0) 23 then s.fetchBus c.memMap p
    else ((s.fetchBus c.memMap p).1, s.iFill c.memMap ea p.ra p.attrs.e)

/-- A fetch of the word at `ea` under a context, with its checks (20_memory.md R102, R115-R117, R122). -/
def State.fetchAt (s : State) (c : FetchContext) (ea : Word) : FetchResult × State :=
  match lookupFetch c ea with
  | .miss => (.tlbMiss, s)
  | .multiple => (.refused .tlbMultipleMatch, s)
  | .page p =>
    if p.zoneDenied (bitAt c.msr 17) then (.denied true, s)
    else if p.fetchDenied (bitAt c.msr 17) then (.denied false, s)
    else if p.attrs.w && p.attrs.i then (.refused .writeThroughInhibited, s)
    else s.fetchPage c ea p

/-- The n-th newest old context of a context-change window. -/
def State.oldContextAt (s : State) : Nat → Option FetchContext
  | 0 => none
  | n + 1 => s.oldContexts[n]?

/-- The context a fetch goes by: the current one, or in a context-change window an old one where the outside asks for it
(70_reset_and_hazards.md R621). -/
def State.chosenContext (s : State) (n : Nat) : FetchContext := (s.oldContextAt n).getD s.fetchContext

/-! ### Reading ahead -/

/-- The static prediction: taken if `(BO[0] ∧ BO[2]) ∨ s`, reversed by BO[4] (44 R387). -/
def predictTaken (bo : BitVec 5) (neg : Bool) : Bool := ((bo.getLsbD 4 && bo.getLsbD 2) || neg) != bo.getLsbD 0

/-- A conditional branch that the fetcher follows to its target: one that is always taken, whose sequential address is not
read, or one in the direction asked for (70_reset_and_hazards.md R624). DESIGN CHOICE (log entry 29), not safe: a BO with a
z bit set, refused only when the branch is to run (30_encoding.md R173), is read by the same formula. -/
def followsTarget (bo : BitVec 5) (neg predicted : Bool) : Bool :=
  (bo.getLsbD 4 && bo.getLsbD 2) || predictTaken bo neg == predicted

/-- The address the fetcher goes on to after an instruction at `a`, in the predicted direction or in the other
(20_memory.md R120; 70_reset_and_hazards.md R623, R624). -/
def State.onward (s : State) (a : Word) (i : Option Instr) (predicted : Bool) : Word :=
  match i with
  | some (.b li aa _) => (if aa then 0 else a) + dispLI li
  | some (.bc bo _ bd aa _) => if followsTarget bo bd.msb predicted then (if aa then 0 else a) + dispBD bd else a + 4
  | some (.bclr bo _ _) => if followsTarget bo false predicted then alignPc (s.spr .lr) else a + 4
  | some (.bcctr bo _ _) => if followsTarget bo false predicted then alignPc (s.spr .ctr) else a + 4
  | _ => a + 4

/-- Queued instructions past which the fetcher does not use the link register: those that write it, a move from it, and
traps (48 R503; 70_reset_and_hazards.md R623, R624). -/
def holdsLr (i : Option Instr) : Bool :=
  match i with
  | some (.b _ _ lk) | some (.bc _ _ _ _ lk) | some (.bclr _ _ lk) | some (.bcctr _ _ lk) => lk
  | some (.mtspr n _) => sprTarget n == some (.reg .lr)
  | some (.mfspr _ n) => sprSource n == some (.reg .lr)
  | some (.tw _ _ _) | some (.twi _ _ _) => true
  | _ => false

/-- The same for the count register, which branches with BO[2] = 0 write. -/
def holdsCtr (i : Option Instr) : Bool :=
  match i with
  | some (.bc bo _ _ _ _) | some (.bclr bo _ _) => !bo.getLsbD 2
  | some (.mtspr n _) => sprTarget n == some (.reg .ctr)
  | some (.mfspr _ n) => sprSource n == some (.reg .ctr)
  | some (.tw _ _ _) | some (.twi _ _ _) => true
  | _ => false

/-- A branch to a register that an instruction ahead of it holds. -/
def mustWait (i : Option Instr) (lr ctr : Bool) : Bool :=
  match i with
  | some (.bclr _ _ _) => lr
  | some (.bcctr _ _ _) => ctr
  | _ => false

/-- A branch to a register. -/
def isRegisterBranch (i : Option Instr) : Bool := mustWait i true true

/-- Guarded storage is not read ahead (20_memory.md R120; 70_reset_and_hazards.md R624). -/
def mayPrefetch (c : FetchContext) (ea : Word) : Bool :=
  match lookupFetch c ea with
  | .page p => !p.attrs.g
  | _ => true

/-- A word read ahead joins the set. One in guarded storage is not read; what stands there only says where the path goes on
(70_reset_and_hazards.md R624). -/
def State.fetchAhead (s : State) (c : FetchContext) (a : Word) : FetchResult × State :=
  let (r, s') := s.fetchAt c a
  (r, if mayPrefetch c a then { s' with ahead := ⟨a, bitAt c.msr 17, r⟩ :: s'.ahead } else s)

/-- The instruction by which the fetcher knows a word on a path. DESIGN CHOICE (log entry 29), not safe: a word with a reserved
bit set and an invalid form, such as `bcctr` with BO[2] = 0, are refused only when they are to run (30_encoding.md R172,
R173), and steer the path as the instruction their opcodes name. -/
def FetchResult.instr : FetchResult → Option Instr
  | .word w => decodeFields w
  | _ => none

/-- A path read ahead from `a`, at most `room` words, one for each element: whether to go on in the predicted direction.
`past`: the path up to here, newest first; `lr` and `ctr`: an instruction on it holds the register. At a branch that waits
the path ends; once the wait is over, at most five words follow that branch, as long as the machine is on its way there
(70_reset_and_hazards.md R620, R623, R624). -/
def readPath (c : FetchContext) : List Bool → Nat → Word → List Word → Bool → Bool → State → State
  | d :: ds, room + 1, a, past, lr, ctr, s =>
    let (r, s') := s.fetchAhead c a
    let i := r.instr
    let path := (a :: past).reverse
    if mustWait i lr ctr then { s' with waited := path :: s'.waited }
    else
      readPath c ds (if isRegisterBranch i && s'.waited.contains path then min 5 room else room) (s'.onward a i d)
        (a :: past) (lr || holdsLr i) (ctr || holdsCtr i) s'
  | _, _, _, _, _, _, s => s

/-- What the fetcher reads ahead before a step: each path the word at the program counter and at most 19 words past it
(20_memory.md R120; 70_reset_and_hazards.md R624). -/
def State.readAhead (s : State) (c : FetchContext) (paths : List (List Bool)) : State :=
  paths.foldl (fun t p => readPath c p 20 t.pc [] false false t) s

/-! ### The next instruction -/

/-- A fetch made now. In a context-change window the old context also says in which mode the word was fetched. -/
def State.fetchNow (s : State) (n : Nat) : FetchResult × State :=
  { s with fetchedUser := (s.oldContextAt n).map fun (c : FetchContext) => bitAt c.msr 17 }.fetchAt (s.chosenContext n) s.pc

/-- The words read ahead from the program counter, newest first. -/
def State.aheadHere (s : State) : List Fetched := s.ahead.filter fun f => f.addr == s.pc

/-- The word at the program counter: fetched now, or one that was read ahead from there (70_reset_and_hazards.md R620). -/
def State.fetchNext (s : State) (use n : Nat) : FetchResult × State :=
  match use with
  | 0 => s.fetchNow n
  | k + 1 =>
    match s.aheadHere[k]? with
    | some f => (f.result, { s with fetchedUser := some f.user })
    | none => s.fetchNow n

/-- What is left of the way to a branch when the instruction at `pc` runs: nothing if the branch is that instruction, or if
the way does not start there, so that the machine has left it. -/
def wayOn (pc : Word) : List Word → Option (List Word)
  | a :: b :: l => if a = pc then some (b :: l) else none
  | _ => none

/-- The instruction at the program counter runs: each wait of the fetcher is one instruction nearer to its branch, or over
(70_reset_and_hazards.md R624). -/
def State.resolve (s : State) : State := { s with waited := s.waited.filterMap (wayOn s.pc) }

end Sys2Proof.Machine
end

