-- ==== Sys2Proof/Machine/Flags.lean ====
section
/-! DEFINITION. The condition register's results, XER's carry and overflow, and the arithmetic helpers that compute them
(spec/10_state.md R38-R44; 00_scope.md R19; 41 R260; 42 R302). -/

namespace Sys2Proof.Machine

/-! ### XER (10_state.md R38-R41) -/

def State.xerSO (s : State) : Bool := bitAt (s.spr .xer) 0
def State.xerOV (s : State) : Bool := bitAt (s.spr .xer) 1
def State.xerCA (s : State) : Bool := bitAt (s.spr .xer) 2

/-- XER[TBC], the byte count of `lswx` and `stswx`. -/
def State.xerTBC (s : State) : Nat := ((s.spr .xer).setWidth 7 : BitVec 7).toNat

/-- XER after an instruction with OE = `oe` found overflow `ov`: OV assigned, SO sticky (10_state.md R39, R40; 41
R260). -/
def overflowXer (oe ov : Bool) (xer : Word) : Word :=
  if oe then withBit (withBit xer 1 ov) 0 (bitAt xer 0 || ov) else xer

/-- XER after a carrying instruction (10_state.md R41). -/
def carryXer (ca : Option Bool) (xer : Word) : Word :=
  match ca with
  | some c => withBit xer 2 c
  | none => xer

/-! ### Condition fields (10_state.md R42, R43) -/

/-- A condition field from its four bits: LT, GT, EQ, SO. -/
def condField (lt gt eq so : Bool) : BitVec 4 :=
  BitVec.ofBool lt ++ BitVec.ofBool gt ++ BitVec.ofBool eq ++ BitVec.ofBool so

/-- The result of an arithmetic (signed) compare (10_state.md R42). -/
def signedCompare (a b : Word) (so : Bool) : BitVec 4 := condField (a.slt b) (b.slt a) (a == b) so

/-- The result of a logical (unsigned) compare (10_state.md R42). -/
def unsignedCompare (a b : Word) (so : Bool) : BitVec 4 := condField (a.ult b) (b.ult a) (a == b) so

/-- CR after the record form of an instruction whose result is `v`: CR0 compares `v` with 0 and copies SO (00_scope.md
R19; 10_state.md R43). -/
def recordCr (rc : Bool) (v : Word) (so : Bool) (cr : Word) : Word :=
  if rc then withCrField cr 0 (signedCompare v 0 so) else cr

/-- The state after an instruction wrote result `v` to a register: XER by overflow and carry, then CR0 from the updated
SO, in the order of 41 R260. -/
def State.writeResult (s : State) (rt : Reg) (v : Word) (oe ov : Bool) (ca : Option Bool) (rc : Bool) : State :=
  let xer := carryXer ca (overflowXer oe ov (s.spr .xer))
  let s' := if oe || ca.isSome then (s.setGpr rt v).setSpr .xer xer else s.setGpr rt v
  { s' with cr := recordCr rc v (bitAt xer 0) s.cr }

/-- The state after a record instruction that leaves XER alone wrote `v`. -/
def State.writeLogical (s : State) (ra : Reg) (v : Word) (rc : Bool) : State :=
  { s.setGpr ra v with cr := recordCr rc v s.xerSO s.cr }

/-! ### Addition (41 R260) -/

/-- AddC's three answers. -/
structure Sum where
  r  : Word
  ca : Bool
  ov : Bool
  deriving DecidableEq, Repr

/-- AddC(a, b, c): the 32-bit sum, the carry out of bit 0 and the overflow. -/
def addC (a b : Word) (c : Bool) : Sum :=
  let t := a.toNat + b.toNat + c.toNat
  let r := BitVec.ofNat 32 t
  ⟨r, decide (2 ^ 32 ≤ t), a.msb == b.msb && r.msb != a.msb⟩

/-! ### Multiplication and division (41 R282-R290) -/

/-- An integer does not fit a signed word. -/
def outsideSigned (t : Int) : Bool := decide (t < -2 ^ 31) || decide (2 ^ 31 ≤ t)

/-- The quotient of `divw` is not defined (41 R289). -/
def divwUndefined (a b : Word) : Bool := b == 0 || (a == 0x80000000 && b == 0xFFFFFFFF)

/-- The quotient of `divwu` is not defined (41 R290). -/
def divwuUndefined (b : Word) : Bool := b == 0

/-- The state after a division whose quotient is not defined: RT a free word, OV and SO set by an o form, CR0's first
three bits free in a record form (41 R289, R290; 93 U13; log entry 9). -/
def State.writeUndefinedQuotient (s : State) (rt : Reg) (oe rc : Bool) : State :=
  let xer := overflowXer oe true (s.spr .xer)
  let s0 := s.drawn.setGpr rt s.freshWord
  let s' := if oe then s0.setSpr .xer xer else s0
  if rc then
    let f : BitVec 4 := (s.drawn.freshWord.setWidth 3 : BitVec 3) ++ BitVec.ofBool (bitAt xer 0)
    { s'.drawn with cr := withCrField s.cr 0 f }
  else s'

/-! ### Multiply-accumulate (42 R301, R302) -/

/-- The exact accumulation: plus or minus the product, plus the accumulator. -/
def macSum (a b acc : Int) (neg : Bool) : Int := (if neg then -(a * b) else a * b) + acc

/-- The accumulation overflows. -/
def macOverflow (unsig : Bool) (t : Int) : Bool := if unsig then decide (2 ^ 32 ≤ t) else outsideSigned t

/-- The accumulated word: modulo 2^32, or clamped by a saturating form that overflows. -/
def macResult (sat unsig : Bool) (t : Int) : Word :=
  if sat && macOverflow unsig t then
    if unsig then 0xFFFFFFFF else if 0 < t then 0x7FFFFFFF else 0x80000000
  else BitVec.ofInt 32 t

end Sys2Proof.Machine
end

