-- ==== Sys2Proof/Machine/Timers.lean ====
section
/-! DEFINITION. The time base, the PIT, the FIT and the watchdog (spec/60_exceptions.md R570-R575). -/

namespace Sys2Proof.Machine

/-- TBL and TBU, the halves of the time base (10_state.md R53). -/
def State.tbl (s : State) : Word := s.tb.setWidth 32
def State.tbu (s : State) : Word := (s.tb >>> 32).setWidth 32

/-- The TBL bit the FIT watches: TCR[FP] (60_exceptions.md R572). -/
def fitBit (tcr : Word) : Nat := 23 - 4 * (fieldTo tcr 7 2).toNat

/-- The TBL bit the watchdog watches: TCR[WP] (60_exceptions.md R573). -/
def watchdogBit (tcr : Word) : Nat := 15 - 4 * (fieldTo tcr 1 2).toNat

/-- A bit goes from 0 to 1. -/
def rises (b : Nat) (old new : Word) : Bool := !bitAt old b && bitAt new b

/-- TSR with a status bit set. -/
def State.setTsrBit (s : State) (b : Nat) : State := s.setSpr .tsr (s.spr .tsr ||| bitMask b)

/-- A watchdog time-out: arm, then interrupt, then reset (60_exceptions.md R573). -/
def watchdogTimeOut (s : State) : State :=
  if !bitAt (s.spr .tsr) 0 then s.setTsrBit 0
  else if !bitAt (s.spr .tsr) 1 then s.setTsrBit 1
  else
    match resetKindOf (fieldTo (s.spr .tcr) 3 2) with
    | some k => resetFrom k (fieldTo (s.spr .tcr) 3 2) s
    | none => s

/-- What a change of TBL from `old` to `new` sets off: the FIT, then the watchdog (60_exceptions.md R572, R573). -/
def tbEvents (old new : Word) (s : State) : State :=
  let s' := if rises (fitBit (s.spr .tcr)) old new then s.setTsrBit 5 else s
  if rises (watchdogBit (s.spr .tcr)) old new then watchdogTimeOut s' else s'

/-- One decrement of the PIT; at a count of 1 the status bit is set and, with auto-reload, the count restarts
(60_exceptions.md R571). -/
def pitStep (s : State) : State :=
  if s.spr .pit = 0 then s
  else if s.spr .pit = 1 then
    (s.setTsrBit 4).setSpr .pit (if bitAt (s.spr .tcr) 9 then s.pitReload else 0)
  else s.setSpr .pit (s.spr .pit - 1)

/-- The timers stand still: DBCR0[FT] while a debug event is recorded (60_exceptions.md R574). -/
def State.timersFrozen (s : State) : Bool := bitAt (s.spr .dbcr0) 31 && (s.spr .dbsr &&& 0xFFFC0000) != 0

/-- One timer tick (60_exceptions.md R570). -/
def tick (s : State) : State :=
  if s.timersFrozen then s
  else
    let s' := { s with tb := s.tb + 1 }
    tbEvents s.tbl s'.tbl (pitStep s')

/-- Several ticks. -/
def ticks : Nat → State → State
  | 0, s => s
  | n + 1, s => ticks n (tick s)

/-- Writing TBL: the low half of the time base; a watched bit that rises counts (60_exceptions.md R572; 48 R505). -/
def writeTbl (v : Word) (s : State) : State :=
  tbEvents s.tbl v { s with tb := s.tbu ++ v }

/-- Writing TBU: the high half of the time base (48 R505). -/
def writeTbu (v : Word) (s : State) : State := { s with tb := v ++ s.tbl }

end Sys2Proof.Machine
end

