-- ==== Sys2Proof/Machine/Processor.lean ====
section
/-! DEFINITION. Processor management instructions (spec/48_processor_management.md). -/

namespace Sys2Proof.Machine

/-! ### Synchronization -/

/-- Every earlier storage access is complete: what the core wrote has arrived, the fills of `icbt` are done; the fill
buffer no longer answers (20_memory.md R124, R138; 70_reset_and_hazards.md R628). -/
def State.complete (s : State) : State :=
  { s.arrived s.unsettled with fillBuffer := none, unsettled := [], drained := true, icbtPending := false }

/-- `eieio`: as `sync` (48 R491). -/
def execEieio (s : State) : Result := done s.complete

/-- `isync`: prefetched instructions are discarded (48 R492). -/
def execIsync (s : State) : Result := done s.contextSync

/-- `sync`: every earlier storage access completes first (48 R493). -/
def execSync (s : State) : Result := done s.complete

/-! ### Moves to and from the CR -/

/-- `mcrxr`: SO, OV, CA and 0 into field BF, the three bits cleared (48 R494). -/
def execMcrxr (bf : BitVec 3) (s : State) : Result :=
  done ((s.setCrField bf (condField s.xerSO s.xerOV s.xerCA false)).setSpr .xer (s.spr .xer &&& 0x1FFFFFFF))

/-- `mfcr`: RT gets the CR (48 R495). -/
def execMfcr (rt : Reg) (s : State) : Result := done (s.setGpr rt s.cr)

/-- The word mask of an FXM: four ones for each selected field (48 R499). -/
def fieldMask (fxm : BitVec 8) : Word :=
  (List.range 8).foldl (fun m f => if fxm.getLsbD (7 - f) then m ||| ((0xF : Word) <<< (28 - 4 * f)) else m) 0

/-- `mtcrf`: the CR fields FXM selects get those of RS (48 R499). -/
def execMtcrf (fxm : BitVec 8) (rs : Reg) (s : State) : Result :=
  done { s with cr := (s.gpr rs &&& fieldMask fxm) ||| (s.cr &&& ~~~(fieldMask fxm)) }

/-! ### Special purpose registers -/

/-- A user-mode access to a privileged number traps first, implemented or not (48 R506 (a)). -/
def sprAccess (n : RegNum) (s : State) (k : Result) : Result :=
  if s.userMode && sprPrivileged n then .next (takeException (.program .privileged) s) else k

/-- The bits of a special purpose register that are not reserved: those of ICDBDR go by what it holds (10_state.md
R66). -/
def State.readMask (s : State) (r : Spr) : Word := if r = .icdbdr && s.icdbdrTag then 0xFFFFFC11 else r.mask

/-- RT gets a special purpose register. Reserved bits are free (00_scope.md R22), and ICDBDR is a free word between an
`icread` and the next context synchronisation (70_reset_and_hazards.md R626; 93 U18; log entry 34). -/
def State.readSpr (s : State) (rt : Reg) (r : Spr) : State :=
  if r = .icdbdr && s.icdbdrPending then s.drawn.setGpr rt s.freshWord
  else (s.afterMasked (s.readMask r)).setGpr rt (s.readMasked (s.spr r) (s.readMask r))

/-- `mfspr` (48 R497, R506). -/
def execMfspr (rt : Reg) (sprn : RegNum) (s : State) : Result :=
  sprAccess sprn s
    (match sprSource sprn with
     | some (.reg r) => done (s.readSpr rt r)
     | some .pvr => done (s.setGpr rt Config.pvrValue)
     | none => .refused .sprNotImplemented)

/-- A register whose change opens a context-change window (70_reset_and_hazards.md R621). -/
def Spr.isContext : Spr → Bool
  | .pid | .zpr | .iccr | .dccr | .dcwr | .sgr | .sler | .su0r | .ccr0 | .evpr | .dbcr0 | .dbcr1
  | .iac1 | .iac2 | .iac3 | .iac4 | .dac1 | .dac2 | .dvc1 | .dvc2 => true
  | .xer | .lr | .ctr | .srr0 | .srr1 | .srr2 | .srr3 | .usprg0
  | .sprg0 | .sprg1 | .sprg2 | .sprg3 | .sprg4 | .sprg5 | .sprg6 | .sprg7
  | .dbsr | .icdbdr | .esr | .dear | .tsr | .tcr | .pit => false

/-- What a register holds after `mtspr` of `v` to it: TSR and DBSR are cleared by ones, TCR[WRC] only rises (48 R505). -/
def Spr.written (r : Spr) (old v : Word) : Word :=
  match r with
  | .tsr | .dbsr => old &&& ~~~v
  | .tcr => v ||| (old &&& 0x30000000)
  | _ => v

/-- `mtspr` to a stored register: the context window, the register, and PIT_RELOAD with the PIT (48 R505; 10_state.md
R61). -/
def State.writeSpr (s : State) (r : Spr) (v : Word) : State :=
  let s0 := if r.isContext then s.openWindow else s
  let s1 := s0.setSpr r (r.written (s.spr r) v)
  if r = .pit then { s1 with pitReload := v } else s1

/-- A CCR0 write that changes U0XE while interrupts are on or the cache units may be transferring (70_reset_and_hazards.md
R628; log entry 23). -/
def State.ccr0Errant (s : State) (v : Word) : Bool :=
  (bitAt (s.spr .ccr0) 14 != bitAt v 14) && !(!s.msrCE && !s.msrEE && s.drained && !s.icbtPending)

/-- A DBCR0 write that enables a debug mode, EDM or IDM, or a debug event, IC, BT, EDE, TDE, IA1 to IA4, IA12 or IA34
(60_exceptions.md R582, R583 (b)). IA12X, IA34X, IA12T and IA34T qualify a range and enable nothing (log entry 24). -/
def dbcr0Enables (v : Word) : Bool := v &&& 0xCFEE0000 != 0

/-- A DBCR1 write that enables a compare (60_exceptions.md R583 (b)). -/
def dbcr1Enables (v : Word) : Bool := v &&& Spr.mask .dbcr1 != 0

/-- `mtspr` to a stored register, with what is special to CCR0, DBCR0 and DBCR1: the hang of R628, the refusal of R583
and the reset request of R600. -/
def mtsprReg (r : Spr) (v : Word) (s : State) : Result :=
  match r with
  | .ccr0 => if s.ccr0Errant v then .fault .ccr0Hang else done (s.writeSpr .ccr0 v)
  | .dbcr0 =>
    if dbcr0Enables v then .refused .debugEnabled
    else
      match resetKindOf (fieldTo v 3 2) with
      | some k => .next (resetFrom k 0 s)
      | none => done (s.writeSpr .dbcr0 v)
  | .dbcr1 => if dbcr1Enables v then .refused .debugEnabled else done (s.writeSpr .dbcr1 v)
  | r => done (s.writeSpr r v)

/-- `mtspr` (48 R501, R505, R506). A write of TBL can set off the FIT and the watchdog, a reset among them
(60_exceptions.md R572). -/
def execMtspr (sprn : RegNum) (rs : Reg) (s : State) : Result :=
  sprAccess sprn s
    (match sprTarget sprn with
     | some (.reg r) => mtsprReg r (s.gpr rs) s
     | some .tbl => .next (writeTbl (s.gpr rs) s.advance)
     | some .tbu => done (writeTbu (s.gpr rs) s)
     | none => .refused .sprNotImplemented)

/-! ### The time base -/

/-- `mftb`: RT gets TBL or TBU, in either mode (48 R498). DESIGN CHOICE (log entry 25), safe: another number is refused in
either mode; that 93 U24 puts the privileged Program interrupt first, for a number with bit 0x010 in user mode, is read of
`mfspr` and `mtspr` alone, since R498 gives `mftb` no exception. -/
def execMftb (rt : Reg) (tbrn : RegNum) (s : State) : Result :=
  validForm (tbrOk tbrn) .tbrNotImplemented (done (s.setGpr rt (if tbrn = 268 then s.tbl else s.tbu)))

/-! ### Device control registers -/

/-- What the platform's DCR space holds at a number (00_scope.md R13; log entry 6). -/
def dcrGet : List (RegNum × Word) → RegNum → Option Word
  | [], _ => none
  | (m, v) :: t, n => if m = n then some v else dcrGet t n

/-- The platform's DCR space with the register at a number written. -/
def dcrPut : List (RegNum × Word) → RegNum → Word → List (RegNum × Word)
  | [], _, _ => []
  | (m, u) :: t, n, v => if m = n then (m, v) :: dcrPut t n v else (m, u) :: dcrPut t n v

/-- The platform's DCR space after devices changed registers, in order (00_scope.md R20 (5)). -/
def dcrPutAll : List (RegNum × Word) → List (RegNum × Word) → List (RegNum × Word)
  | d, [] => d
  | d, (n, v) :: t => dcrPutAll (dcrPut d n v) t

/-- `mfdcr`: what a read gives and what the register then holds is the platform's (48 R496; 00_scope.md R13). -/
def execMfdcr (rt : Reg) (dcrn : RegNum) (s : State) : Result :=
  privileged s
    (match dcrGet s.dcrs dcrn with
     | some v =>
       done ({ s with dcrs := dcrPut s.dcrs dcrn (Config.dcrAfterRead dcrn v) }.setGpr rt (Config.dcrRead dcrn v))
     | none => .refused .dcrNotImplemented)

/-- `mtdcr`: what the register then holds is the platform's, and so is a change of the memory map, which is a context
change (48 R500; 00_scope.md R13; 20_memory.md R128; 70_reset_and_hazards.md R621). -/
def execMtdcr (dcrn : RegNum) (rs : Reg) (s : State) : Result :=
  privileged s
    (match dcrGet s.dcrs dcrn with
     | some v =>
       done ({ s.openWindow with dcrs := dcrPut s.dcrs dcrn (Config.dcrWrite dcrn v (s.gpr rs)) }.remap
         (Config.dcrMap dcrn (s.gpr rs) s.memMap))
     | none => .refused .dcrNotImplemented)

/-! ### System call and traps -/

/-- `sc` (48 R502). -/
def execSc (s : State) : Result := .next (takeException .systemCall s)

/-- A trap: the Program interrupt where the condition holds (48 R503). -/
def trapIf (c : Bool) (s : State) : Result :=
  if c then .next (takeException (.program .trap) s) else done s

/-- `tw` (48 R503). -/
def execTw (tocond : BitVec 5) (ra rb : Reg) (s : State) : Result :=
  trapIf (trapHolds tocond (s.gpr ra) (s.gpr rb)) s

/-- `twi` (48 R504). -/
def execTwi (tocond : BitVec 5) (ra : Reg) (si : Half) (s : State) : Result :=
  trapIf (trapHolds tocond (s.gpr ra) (sext16 si)) s

end Sys2Proof.Machine
end

