-- ==== Sys2Proof/Machine/Boundary.lean ====
section
/-! DEFINITION. Between two instructions: what the outside did, and which pending interrupt is taken
(spec/60_exceptions.md R550-R555). -/

namespace Sys2Proof.Machine

/-- Nothing happens outside; the interrupt lines keep their levels. -/
def State.quiet (s : State) : Input :=
  ⟨0, s.criticalLine, s.externalLine, [], [], [], 0, none, [], 0, false, 0⟩

/-- What the outside does before this step. -/
def State.nextInput (s : State) : Input := s.inputs.headD s.quiet

/-- The core's bus writes but for the newest `n` have arrived. -/
def State.settle (s : State) (n : Nat) : State :=
  { s.arrived (s.unsettled.drop n) with unsettled := s.unsettled.take n }

/-- A reset from outside. -/
def resetIf (k : Option ResetKind) (s : State) : State :=
  match k with
  | some k => resetFrom k 0 s
  | none => s

/-- What bus masters and devices do: writes of the core arrive, others write, device control registers and the interrupt
lines change (00_scope.md R20 (5); 20_memory.md R131, R136). -/
def applyDevices (i : Input) (s : State) : State :=
  { (s.settle i.inFlight).busMasters i.busWrites with
    inputs := s.inputs.tail, dcrs := dcrPutAll s.dcrs i.dcrWrites,
    criticalLine := i.criticalLine, externalLine := i.externalLine }

/-- The state after the outside has acted: bus masters and devices, ticks, a reset, reading ahead (00_scope.md R20). -/
def applyInput (i : Input) (s : State) : State :=
  let t := { resetIf i.reset (ticks i.ticks (applyDevices i s)) with between := i.between }
  t.readAhead (t.chosenContext i.oldContext) i.readAhead

/-- The interrupt taken at this boundary, highest priority first: data machine check, debug, critical input, watchdog,
external, FIT, PIT (60_exceptions.md R551, R552). `defer` lets one that `wrtee` enabled wait (60_exceptions.md R554). DESIGN CHOICE (log entry 29), not safe: a data machine check goes
by the MSR[ME] of now, in a context-change window too. -/
def pendingInterrupt (s : State) (defer : Bool) : Option Interrupt :=
  if s.busError && s.msrME then some .machineCheck
  else if (s.spr .dbsr &&& 0xFFFC0000) != 0 && s.msrDE && bitAt (s.spr .dbcr0) 1 then some .debug
  else if s.criticalLine && s.msrCE then some .criticalInput
  else if bitAt (s.spr .tsr) 1 && s.msrCE && bitAt (s.spr .tcr) 4 then some .watchdog
  else if s.msrEE && !(defer && decide (0 < s.eeWindow)) then
    if s.externalLine then some .external
    else if bitAt (s.spr .tsr) 5 && bitAt (s.spr .tcr) 8 then some .fit
    else if bitAt (s.spr .tsr) 4 && bitAt (s.spr .tcr) 5 then some .pit
    else none
  else none

/-- A boundary passes: a bus error with MSR[ME] = 0 is not remembered (60_exceptions.md R531), and the `wrtee` interval
is one shorter. -/
def State.passBoundary (s : State) : State := { s with busError := false, eeWindow := s.eeWindow - 1 }

end Sys2Proof.Machine
end

