-- ==== Sys2Proof/Machine/Arith.lean ====
section
/-! DEFINITION. Arithmetic instructions (spec/41_arithmetic.md). -/

namespace Sys2Proof.Machine

/-! ### Shapes -/

/-- An addition written to RT; `carries`: the instruction assigns XER[CA] (41 R260). -/
def sumInto (s : State) (rt : Reg) (t : Sum) (oe : Bool) (carries : Bool) (rc : Bool) : Result :=
  done (s.writeResult rt t.r oe t.ov (if carries then some t.ca else none) rc)

/-! ### Add -/

/-- `add`: add (41 R261). -/
def execAdd (rt ra rb : Reg) (oe rc : Bool) (s : State) : Result :=
  sumInto s rt (addC (s.gpr ra) (s.gpr rb) false) oe false rc

/-- `addc`: add carrying (41 R262). -/
def execAddc (rt ra rb : Reg) (oe rc : Bool) (s : State) : Result :=
  sumInto s rt (addC (s.gpr ra) (s.gpr rb) false) oe true rc

/-- `adde`: add extended (41 R263). -/
def execAdde (rt ra rb : Reg) (oe rc : Bool) (s : State) : Result :=
  sumInto s rt (addC (s.gpr ra) (s.gpr rb) s.xerCA) oe true rc

/-- `addi`: add immediate (41 R264). -/
def execAddi (rt ra : Reg) (si : Half) (s : State) : Result :=
  done (s.setGpr rt (s.gprOrZero ra + sext16 si))

/-- `addic`: add immediate carrying (41 R265). -/
def execAddic (rt ra : Reg) (si : Half) (s : State) : Result :=
  sumInto s rt (addC (s.gpr ra) (sext16 si) false) false true false

/-- `addic.`: add immediate carrying and record (41 R266). -/
def execAddicDot (rt ra : Reg) (si : Half) (s : State) : Result :=
  sumInto s rt (addC (s.gpr ra) (sext16 si) false) false true true

/-- `addis`: add immediate shifted (41 R267). -/
def execAddis (rt ra : Reg) (si : Half) (s : State) : Result :=
  done (s.setGpr rt (s.gprOrZero ra + shifted16 si))

/-- `addme`: add to minus one extended (41 R268). -/
def execAddme (rt ra : Reg) (oe rc : Bool) (s : State) : Result :=
  sumInto s rt (addC (s.gpr ra) 0xFFFFFFFF s.xerCA) oe true rc

/-- `addze`: add to zero extended (41 R269). -/
def execAddze (rt ra : Reg) (oe rc : Bool) (s : State) : Result :=
  sumInto s rt (addC (s.gpr ra) 0 s.xerCA) oe true rc

/-! ### Subtract, negate -/

/-- `subf`: subtract from (41 R270). -/
def execSubf (rt ra rb : Reg) (oe rc : Bool) (s : State) : Result :=
  sumInto s rt (addC (~~~s.gpr ra) (s.gpr rb) true) oe false rc

/-- `subfc`: subtract from carrying (41 R271). -/
def execSubfc (rt ra rb : Reg) (oe rc : Bool) (s : State) : Result :=
  sumInto s rt (addC (~~~s.gpr ra) (s.gpr rb) true) oe true rc

/-- `subfe`: subtract from extended (41 R272). -/
def execSubfe (rt ra rb : Reg) (oe rc : Bool) (s : State) : Result :=
  sumInto s rt (addC (~~~s.gpr ra) (s.gpr rb) s.xerCA) oe true rc

/-- `subfic`: subtract from immediate carrying (41 R273). -/
def execSubfic (rt ra : Reg) (si : Half) (s : State) : Result :=
  sumInto s rt (addC (~~~s.gpr ra) (sext16 si) true) false true false

/-- `subfme`: subtract from minus one extended (41 R274). -/
def execSubfme (rt ra : Reg) (oe rc : Bool) (s : State) : Result :=
  sumInto s rt (addC (~~~s.gpr ra) 0xFFFFFFFF s.xerCA) oe true rc

/-- `subfze`: subtract from zero extended (41 R275). -/
def execSubfze (rt ra : Reg) (oe rc : Bool) (s : State) : Result :=
  sumInto s rt (addC (~~~s.gpr ra) 0 s.xerCA) oe true rc

/-- `neg`: negate (41 R276). -/
def execNeg (rt ra : Reg) (oe rc : Bool) (s : State) : Result :=
  sumInto s rt (addC (~~~s.gpr ra) 0 true) oe false rc

/-! ### Multiply -/

/-- `mulli`: multiply low immediate (41 R285). -/
def execMulli (rt ra : Reg) (si : Half) (s : State) : Result :=
  done (s.setGpr rt (BitVec.ofInt 32 ((s.gpr ra).toInt * (sext16 si).toInt)))

/-- `mullw`: multiply low word; overflow: the signed product does not fit (41 R286). -/
def execMullw (rt ra rb : Reg) (oe rc : Bool) (s : State) : Result :=
  let p := (s.gpr ra).toInt * (s.gpr rb).toInt
  done (s.writeResult rt (BitVec.ofInt 32 p) oe (outsideSigned p) none rc)

/-- `mulhw`: multiply high word (41 R287). -/
def execMulhw (rt ra rb : Reg) (rc : Bool) (s : State) : Result :=
  done (s.writeLogical rt (BitVec.ofInt 32 ((s.gpr ra).toInt * (s.gpr rb).toInt / 2 ^ 32)) rc)

/-- `mulhwu`: multiply high word unsigned (41 R288). -/
def execMulhwu (rt ra rb : Reg) (rc : Bool) (s : State) : Result :=
  done (s.writeLogical rt (BitVec.ofNat 32 ((s.gpr ra).toNat * (s.gpr rb).toNat / 2 ^ 32)) rc)

/-! ### Divide -/

/-- `divw`: divide word; truncation toward zero (41 R289). -/
def execDivw (rt ra rb : Reg) (oe rc : Bool) (s : State) : Result :=
  if divwUndefined (s.gpr ra) (s.gpr rb) then done (s.writeUndefinedQuotient rt oe rc)
  else done (s.writeResult rt (BitVec.ofInt 32 ((s.gpr ra).toInt.tdiv (s.gpr rb).toInt)) oe false none rc)

/-- `divwu`: divide word unsigned (41 R290). -/
def execDivwu (rt ra rb : Reg) (oe rc : Bool) (s : State) : Result :=
  if divwuUndefined (s.gpr rb) then done (s.writeUndefinedQuotient rt oe rc)
  else done (s.writeResult rt (BitVec.ofNat 32 ((s.gpr ra).toNat / (s.gpr rb).toNat)) oe false none rc)

end Sys2Proof.Machine
end

