-- ==== Sys2Proof/Machine/Branch.lean ====
section
/-! DEFINITION. Branches and condition register logic (spec/44_branch_crlogical.md). -/

namespace Sys2Proof.Machine

/-! ### Branch -/

/-- LR gets the address of the next instruction when LK = 1, taken or not (44 R386). -/
def State.link (s : State) (lk : Bool) : State := if lk then s.setSpr .lr (s.pc + 4) else s

/-- The end of a branch: the link register, then the program counter at the target or the next instruction. -/
def branchTo (s : State) (lk taken : Bool) (target : Word) : Result :=
  .next ((s.link lk).setPc (if taken then target else s.pc + 4))

/-- The base of a relative or absolute target (44 R380). -/
def State.branchBase (s : State) (aa : Bool) : Word := if aa then 0 else s.pc

/-- BranchCond(BO, BI): both tests, the CTR's on its decremented value (44 R381). -/
def State.branchCond (s : State) (bo bi : BitVec 5) : Bool :=
  ctrOk bo (branchCtr bo (s.spr .ctr)) && condOk bo bi s.cr

/-- The CTR decremented when BO[2] = 0, whether or not the branch is taken (44 R381). -/
def State.countDown (s : State) (bo : BitVec 5) : State :=
  if bo.getLsbD 2 then s else s.setSpr .ctr (s.spr .ctr - 1)

/-- `b`: branch (44 R382). -/
def execB (li : BitVec 24) (aa lk : Bool) (s : State) : Result :=
  branchTo s lk true (s.branchBase aa + dispLI li)

/-- `bc`: branch conditional (44 R385). -/
def execBc (bo bi : BitVec 5) (bd : BitVec 14) (aa lk : Bool) (s : State) : Result :=
  validForm (branchOptionsOk bo) .invalidBranchOptions
    (branchTo (s.countDown bo) lk (s.branchCond bo bi) (s.branchBase aa + dispBD bd))

/-- `bclr`: branch conditional to link register; the target is read before LR is written (44 R383). -/
def execBclr (bo bi : BitVec 5) (lk : Bool) (s : State) : Result :=
  validForm (branchOptionsOk bo) .invalidBranchOptions
    (branchTo (s.countDown bo) lk (s.branchCond bo bi) (alignPc (s.spr .lr)))

/-- `bcctr`: branch conditional to count register (44 R384). -/
def execBcctr (bo bi : BitVec 5) (lk : Bool) (s : State) : Result :=
  validForm (branchCtrOk bo) .invalidBranchOptions
    (branchTo s lk (condOk bo bi s.cr) (alignPc (s.spr .ctr)))

/-! ### Condition register logic -/

/-- A CR bit written from two others (44 R390). -/
def crLogic (s : State) (bt ba bb : BitVec 5) (f : Bool → Bool → Bool) : Result :=
  done { s with cr := withBit s.cr bt.toNat (f (bitAt s.cr ba.toNat) (bitAt s.cr bb.toNat)) }

/-- `crand`: CR bit BT from bits BA and BB (44 R391). -/
def execCrand (bt ba bb : BitVec 5) (s : State) : Result :=
  crLogic s bt ba bb fun a b => a && b

/-- `crandc`: CR bit BT from bits BA and BB (44 R392). -/
def execCrandc (bt ba bb : BitVec 5) (s : State) : Result :=
  crLogic s bt ba bb fun a b => a && !b

/-- `creqv`: CR bit BT from bits BA and BB (44 R393). -/
def execCreqv (bt ba bb : BitVec 5) (s : State) : Result :=
  crLogic s bt ba bb fun a b => a == b

/-- `crnand`: CR bit BT from bits BA and BB (44 R394). -/
def execCrnand (bt ba bb : BitVec 5) (s : State) : Result :=
  crLogic s bt ba bb fun a b => !(a && b)

/-- `crnor`: CR bit BT from bits BA and BB (44 R395). -/
def execCrnor (bt ba bb : BitVec 5) (s : State) : Result :=
  crLogic s bt ba bb fun a b => !(a || b)

/-- `cror`: CR bit BT from bits BA and BB (44 R396). -/
def execCror (bt ba bb : BitVec 5) (s : State) : Result :=
  crLogic s bt ba bb fun a b => a || b

/-- `crorc`: CR bit BT from bits BA and BB (44 R397). -/
def execCrorc (bt ba bb : BitVec 5) (s : State) : Result :=
  crLogic s bt ba bb fun a b => a || !b

/-- `crxor`: CR bit BT from bits BA and BB (44 R398). -/
def execCrxor (bt ba bb : BitVec 5) (s : State) : Result :=
  crLogic s bt ba bb fun a b => a != b

/-- `mcrf`: CR field BFA copied to field BF (44 R399). -/
def execMcrf (bf bfa : BitVec 3) (s : State) : Result :=
  done (s.setCrField bf (crField s.cr bfa))

end Sys2Proof.Machine
end

