-- ==== Sys2Proof/Machine/Access.lean ====
section
/-! DEFINITION. Data accesses: every byte located and checked first, then moved through the caches, by the byte order of
the first byte's storage (spec/20_memory.md R105, R107, R113; spec/40_storage_reference.md R202, R241, R242). -/

namespace Sys2Proof.Machine

/-- One byte of an access, located. -/
structure PByte where
  ra    : Word
  attrs : Attrs
  deriving DecidableEq, Repr

/-- The bytes from `ea` up, each located and checked; the first that fails decides (40 R241; 60 R533). -/
def locateBytes (s : State) (store : Bool) : Nat → Word → Except Stop (List PByte)
  | 0, _ => .ok []
  | n + 1, ea =>
    match locate s ea store with
    | .error e => .error e
    | .ok p =>
      match locateBytes s store n (ea + 1) with
      | .error e => .error e
      | .ok ps => .ok (⟨p.ra, p.attrs⟩ :: ps)

/-- Some byte lies in storage both write-through and caching inhibited (20_memory.md R122; 93 U9). -/
def anyWriteThroughInhibited (ps : List PByte) : Bool := ps.any fun p => p.attrs.w && p.attrs.i

/-- The bytes of an access of `n` bytes at `ea`, or why it stops. -/
def access (s : State) (ea : Word) (n : Nat) (store : Bool) : Except Stop (List PByte) :=
  match locateBytes s store n ea with
  | .error e => .error e
  | .ok ps =>
    if anyWriteThroughInhibited ps then .error (.refuse .writeThroughInhibited) else .ok ps

/-- Between two bytes of a misaligned, multiple or string access other bus masters may write (20_memory.md R113). -/
def State.interleave (s : State) : State :=
  match s.between with
  | [] => s
  | cells :: rest => { s.busMasters cells with between := rest }

/-- Located bytes loaded one after the other (20_memory.md R113). -/
def State.loadBytes : State → List PByte → List Byte × State
  | s, [] => ([], s)
  | s, p :: ps =>
    let (b, s1) := s.load p.attrs (blockOf p.ra) [p.ra]
    let (bs, s2) := s1.interleave.loadBytes ps
    (b ++ bs, s2)

/-- Located bytes stored one after the other (20_memory.md R113). -/
def State.storeBytes : State → List PByte → List Byte → State
  | s, p :: ps, b :: bs => (s.store p.attrs (blockOf p.ra) [(p.ra, b)]).interleave.storeBytes ps bs
  | s, _, _ => s

/-- Located bytes that move as one indivisible access: an aligned byte, halfword or word, which lies in one block of one
page or region (20_memory.md R113; 92 D25). -/
def indivisible : List PByte → Bool
  | [] => false
  | p :: ps => p.ra.toNat % (ps.length + 1) == 0 &&
      ps.all fun q => q.attrs == p.attrs && blockOf q.ra == blockOf p.ra

/-- The located bytes of a scalar loaded, together where they are aligned. -/
def State.loadScalar (s : State) (ps : List PByte) : List Byte × State :=
  match ps with
  | [] => ([], s)
  | p :: _ => if indivisible ps then s.load p.attrs (blockOf p.ra) (ps.map (·.ra)) else s.loadBytes ps

/-- The located bytes of a scalar stored, together where they are aligned. -/
def State.storeScalar (s : State) (ps : List PByte) (bs : List Byte) : State :=
  match ps with
  | [] => s
  | p :: _ =>
    if indivisible ps then s.store p.attrs (blockOf p.ra) ((ps.map (·.ra)).zip bs) else s.storeBytes ps bs

/-- A storage access has been made since the last `sync` (70_reset_and_hazards.md R628). -/
def State.busy (s : State) : State := { s with drained := false }

/-- The byte order of an item: that of its first byte's storage (20_memory.md R107). -/
def firstE : List PByte → Bool
  | p :: _ => p.attrs.e
  | [] => false

/-- An item's bytes from address order to significance order, and back (20_memory.md R105). -/
def ordered (e : Bool) (bs : List Byte) : List Byte := if e then bs.reverse else bs

/-- An item loaded: its value, zero extended to a word (20_memory.md R107). -/
def State.loadItem (s : State) (ps : List PByte) : Word × State :=
  let (bs, s') := s.loadScalar ps
  (wordOf (ordered (firstE ps) bs), s')

/-- An item stored: its bytes given most significant first (20_memory.md R107). -/
def State.storeItem (s : State) (ps : List PByte) (bs : List Byte) : State :=
  s.storeScalar ps (ordered (firstE ps) bs)

/-- MemRead(ea, n), for an instruction that goes on with the value (20_memory.md R107). -/
def withLoad (s : State) (ea : Word) (n : Nat) (k : Word → State → Result) : Result :=
  match access s ea n false with
  | .error e => stopWith s e
  | .ok ps => k (s.loadItem ps).1 (s.loadItem ps).2.busy

/-- MemWrite(ea, n, v), for an instruction that goes on; `bs` are v's bytes, most significant first (20_memory.md
R107). -/
def withStore (s : State) (ea : Word) (bs : List Byte) (k : State → Result) : Result :=
  match access s ea bs.length true with
  | .error e => stopWith s e
  | .ok ps => k (s.storeItem ps bs).busy

/-! ### Multiple and string (40 R235-R242) -/

/-- `k` words loaded into registers from `r` up, byte by byte, each by its own byte order (20_memory.md R109, R113). -/
def State.loadWords : State → Nat → Reg → List PByte → State
  | s, 0, _, _ => s
  | s, k + 1, r, ps =>
    let (bs, s') := s.loadBytes (ps.take 4)
    (s'.setGpr r (wordOf (ordered (firstE ps) bs))).loadWords k (r + 1) (ps.drop 4)

/-- `k` words stored from registers from `r` up, byte by byte, each by its own byte order (20_memory.md R109, R113). -/
def State.storeWords : State → Nat → Reg → List PByte → State
  | s, 0, _, _ => s
  | s, k + 1, r, ps =>
    (s.storeBytes (ps.take 4) (ordered (firstE ps) (wordBytes (s.gpr r)))).storeWords k (r + 1) (ps.drop 4)

/-- Bytes put into registers from `r` up, four to a register, the last one filled with zeros (40 R242). -/
def State.fillRegisters : State → Nat → Reg → List Byte → State
  | s, 0, _, _ => s
  | s, k + 1, r, bs =>
    (s.setGpr r (wordOf ((bs.take 4) ++ List.replicate (4 - bs.length) 0))).fillRegisters k (r + 1) (bs.drop 4)

/-- The first `n` bytes of the registers from `r` up, most significant byte of each first (40 R242). -/
def State.registerBytes (s : State) (r : Reg) (n : Nat) : List Byte :=
  (List.range n).map fun i => byteOf (s.gpr (r + BitVec.ofNat 5 (i / 4))) (i % 4)

/-- How many registers `n` string bytes take. -/
def stringRegisters (n : Nat) : Nat := (n + 3) / 4

/-- LoadString(RT, EA, n), all bytes checked first; bytes are not reordered (40 R241, R242; 20_memory.md R109). -/
def loadString (s : State) (rt : Reg) (ea : Word) (n : Nat) : Result :=
  match access s ea n false with
  | .error e => stopWith s e
  | .ok ps => done ((s.loadBytes ps).2.fillRegisters (stringRegisters n) rt (s.loadBytes ps).1).busy

/-- StoreString(RS, EA, n), all bytes checked first (40 R241, R242; 20_memory.md R109). -/
def storeString (s : State) (rs : Reg) (ea : Word) (n : Nat) : Result :=
  match access s ea n true with
  | .error e => stopWith s e
  | .ok ps => done (s.storeBytes ps (s.registerBytes rs n)).busy

end Sys2Proof.Machine
end

