-- ==== Sys2Proof/Machine/CacheOps.lean ====
section
/-! DEFINITION. Cache management instructions (spec/46_cache_management.md), with the exceptions of its R431 table. -/

namespace Sys2Proof.Machine

/-! ### Shapes -/

/-- A cache instruction that raises the Data TLB miss: `dccci`, `dcread`, `iccci`, `icread`, `icbt` (46 R431). -/
def missOnly (s : State) (ea : Word) (store : Bool) (k : Page → Result) : Result :=
  match lookupData s ea with
  | .miss => .next (takeException (.dataTlbMiss ea store) s)
  | .multiple => .refused .tlbMultipleMatch
  | .page p => k p

/-- A cache instruction that raises every data exception of a load or a store (46 R431). -/
def withBlock (s : State) (ea : Word) (store : Bool) (k : Page → Result) : Result :=
  match locate s ea store with
  | .error e => stopWith s e
  | .ok p => k p

/-- A cache instruction that is no operation where a load or a store would raise an exception (46 R431). -/
def ifAllowed (s : State) (ea : Word) (store : Bool) (k : Page → Result) : Result :=
  match locate s ea store with
  | .error (.exc _) => done s
  | .error (.refuse r) => .refused r
  | .ok p => k p

/-- The way CCR0[CWS] selects (46 R435). -/
def State.debugWay (s : State) : Way := if bitAt (s.spr .ccr0) 31 then .b else .a

/-- CCR0[CIS]: the tag instead of the data (46 R435). -/
def State.debugTag (s : State) : Bool := bitAt (s.spr .ccr0) 27

/-! ### Instruction cache -/

/-- The instruction cache without a real block: certainly in the class the effective address indexes; in the other
classes that may hold the block under a synonym, by free choice (20_memory.md R134; 46 R432; log entry 17). -/
def State.iDropBlock (s : State) (ea ra : Word) : State :=
  let s' := s.setIset (iIndex ea) ((isetGet s.icache (iIndex ea)).drop (iTag ra))
  if s.freshFlag then { s'.drawn with icache := iDropAll (iTag ra) (blockOf ra % 32) s'.icache s'.icache }
  else s'.drawn

/-- `icbi`: instruction cache block invalidate, a context change (46 R432; 70_reset_and_hazards.md R621). -/
def execIcbi (ra rb : Reg) (s : State) : Result :=
  withBlock s (s.eaX ra rb) false fun p => done (s.openWindow.iDropBlock (s.eaX ra rb) p.ra)

/-- The line fill of `icbt`, which the next context synchronisation waits for (46 R433; 70_reset_and_hazards.md R628).
DESIGN CHOICE (log entry 15), not safe: for a block in the array it is no use of its way, whose place in the LRU order
stays. DESIGN CHOICE (log entry 40), not safe: the fill, which R433 calls asynchronous, reads what has arrived in memory by
now, and a write that arrives before the next synchronisation is not in the line. -/
def State.iTouch (s : State) (ea : Word) (p : Page) : State :=
  if ((isetGet s.icache (iIndex ea)).find (iTag p.ra)).isSome then s
  else { s.iFill s.memMap ea p.ra p.attrs.e with icbtPending := true }

/-- `icbt`: instruction cache block touch (46 R433). A zone fault makes it no operation (46 R431). -/
def execIcbt (ra rb : Reg) (s : State) : Result :=
  privileged s
    (missOnly s (s.eaX ra rb) false fun p =>
      if p.zoneDenied s.msrPR || p.attrs.i then done s else done (s.iTouch (s.eaX ra rb) p))

/-- `iccci`: the whole instruction cache array invalid, whatever the address; a context change (46 R434;
70_reset_and_hazards.md R621). -/
def execIccci (ra rb : Reg) (s : State) : Result :=
  privileged s
    (missOnly s (s.eaX ra rb) false fun _ => done { s.openWindow with icache := iInvalidateAll s.icache s.icache })

/-- A tag entry as `icread` puts it into ICDBDR: TAG, V, LRU, the bits between 0 (10_state.md R66; 46 R437). -/
def iTagWord (x : ISet) (k : Way) : Word :=
  ((x.way k).tag ++ (0 : BitVec 10)) ||| flagAt 27 (x.way k).valid ||| flagAt 31 x.lru

/-- `icread`: a tag entry or a word of the line CCR0[CWS] selects goes into ICDBDR (46 R437). -/
def execIcread (ra rb : Reg) (s : State) : Result :=
  let ea := s.eaX ra rb
  let x := isetGet s.icache (iIndex ea)
  let v := if s.debugTag then iTagWord x s.debugWay else (x.way s.debugWay).words[iWord ea]
  privileged s (missOnly s ea false fun _ => done { s.setSpr .icdbdr v with icdbdrPending := true, icdbdrTag := s.debugTag })

/-! ### Data cache -/

/-- `dcbf`: a modified line goes to memory, the line is made invalid (46 R438). -/
def execDcbf (ra rb : Reg) (s : State) : Result :=
  withBlock s (s.eaX ra rb) false fun p => done (s.dFlush (blockOf p.ra)).busy

/-- `dcbi`: the line is made invalid, nothing written back (46 R439; 20_memory.md R138). -/
def execDcbi (ra rb : Reg) (s : State) : Result :=
  privileged s
    (withBlock s (s.eaX ra rb) true fun p => done ((s.dInvalidate (blockOf p.ra)).dropFillBuffer (blockOf p.ra)))

/-- The line of `dcbz`: zeros, but a free byte where nothing answers, since a store has no effect there
(60_exceptions.md R531). -/
def zeroLine (map : List Region) (draws block : Nat) : Vector Byte 32 :=
  ⟨⟨(List.range 32).map fun i =>
    if isUnbacked map (32 * block + i) then Config.freeByte (32 * draws + i) else 0⟩, by simp⟩

/-- The line of `dcbz`, modified: in place where the block is cached, established where it is not (46 R440). -/
def State.dZeroLine (s : State) (block : Nat) : State :=
  match s.dFind block with
  | some k =>
    let x := s.dset block
    s.setDset block ((x.setWay k { x.way k with bytes := zeroLine s.memMap s.draws block, dirty := true }).touch k)
  | none => s.dEstablish block (zeroLine s.memMap s.draws block) true

/-- The block becomes zeros; where nothing answers, a write under way reports the error when it arrives (46 R440;
60_exceptions.md R531; log entries 21, 40). -/
def State.dZero (s : State) (block : Nat) : State :=
  let s' := (s.dZeroLine block).dropFillBuffer block
  if blockErrs s.memMap block then
    s'.drawn.busWrite (((blockAddrs block).filter (isUnbacked s.memMap)).map fun ra => (ra, 0))
  else s'

/-- `dcbz`: the block becomes zeros; an alignment interrupt in storage that is non-cachable or write-through, after the
access checks of a store (46 R440; 60_exceptions.md R536). In non-cachable storage whose line is in the array it is a free
choice between the line and that interrupt (20_memory.md R137; 93 U10; log entry 16). -/
def execDcbz (ra rb : Reg) (s : State) : Result :=
  withBlock s (s.eaX ra rb) true fun p =>
    if p.attrs.w then .next (takeException (.alignment (s.eaX ra rb)) s)
    else if p.attrs.i then
      if (s.dFind (blockOf p.ra)).isSome && s.freshFlag then done (s.drawn.dZero (blockOf p.ra)).busy
      else .next (takeException (.alignment (s.eaX ra rb)) s.drawn)
    else done (s.dZero (blockOf p.ra)).busy

/-- `dcbst`: a modified line goes to memory and stays, no longer modified (46 R441). -/
def execDcbst (ra rb : Reg) (s : State) : Result :=
  withBlock s (s.eaX ra rb) false fun p => done (s.dClean (blockOf p.ra)).busy

/-- The line fill of `dcbt` and `dcbtst`: only cachable storage whose block is not in the array (46 R442). DESIGN CHOICE
(log entry 15), not safe: for a block in the array it is no use of its way, whose place in the LRU order stays. -/
def dataTouch (s : State) (ea : Word) : Result :=
  ifAllowed s ea false fun p =>
    if p.attrs.i || (s.dFind (blockOf p.ra)).isSome then done s else done (s.dFill (blockOf p.ra)).busy

/-- `dcbt`: data cache block touch (46 R442). -/
def execDcbt (ra rb : Reg) (s : State) : Result := dataTouch s (s.eaX ra rb)

/-- `dcbtst`: data cache block touch for store, as `dcbt` (46 R443). -/
def execDcbtst (ra rb : Reg) (s : State) : Result := dataTouch s (s.eaX ra rb)

/-- Both ways of a class made invalid, nothing written back. -/
def DSet.invalid (x : DSet) : DSet := { x with a := { x.a with valid := false }, b := { x.b with valid := false } }

/-- A fill buffer whose block lies in class `i` is dropped. -/
def State.dropFillBufferClass (s : State) (i : Nat) : State :=
  match s.fillBuffer with
  | some f => if dIndex f.block = i then { s with fillBuffer := none } else s
  | none => s

/-- Both ways of the class of a block made invalid, nothing written back. -/
def State.dInvalidateClass (s : State) (i : Nat) : State :=
  { s with dcache := dsetPut s.dcache i (dsetGet s.dcache i).invalid }.dropFillBufferClass i

/-- `dccci`: both ways of the class EA[20:26] made invalid (46 R444). On a page that denies a store it is a free choice
between that and the Data Storage interrupt, which 60_exceptions.md R533 (b) gives it and the table of 46 R431 does not.
DESIGN CHOICE (log entry 19). What the fill buffer holds of the block addressed is lost (20_memory.md R138); DESIGN CHOICE (log
entry 15), not safe: of another block of the class as well. DESIGN CHOICE (log entry 19), not safe: no U0 exception, of which
the table, which treats it as a store, says nothing (60_exceptions.md R533 (c)). -/
def execDccci (ra rb : Reg) (s : State) : Result :=
  let ea := s.eaX ra rb
  privileged s
    (missOnly s ea true fun p =>
      let invalidated := fun t : State => done ((t.dInvalidateClass (dIndex (blockOf ea))).dropFillBuffer (blockOf p.ra))
      if p.writeDenied s.msrPR then
        if s.freshFlag then .next (takeException (.dataStorage ea true false false) s.drawn)
        else invalidated s.drawn
      else invalidated s)

/-- The line of `dcba`: a cached block keeps its data and is marked modified; another is established modified with free
bytes (46 R446; 93 U16; log entry 35). -/
def State.dAllocate (s : State) (block : Nat) : State :=
  match s.dFind block with
  | some k => s.setDset block (((s.dset block).setWay k { (s.dset block).way k with dirty := true }).touch k)
  | none => s.drawn.dEstablish block s.freshBlock true

/-- `dcba`: data cache block allocate; no operation where it would fault and in storage that is non-cachable or
write-through (46 R446). -/
def execDcba (ra rb : Reg) (s : State) : Result :=
  ifAllowed s (s.eaX ra rb) true fun p =>
    if p.attrs.i || p.attrs.w then done s
    else done ((s.dAllocate (blockOf p.ra)).dropFillBuffer (blockOf p.ra)).busy

/-- The bits of a tag word that are not reserved (46 R445). -/
def dTagMask : Word := 0xFFFFF031

/-- A tag entry as `dcread` returns it: TAG, D, V, LRU (46 R445). -/
def dTagWord (x : DSet) (k : Way) : Word :=
  ((x.way k).tag ++ (0 : BitVec 12)) ||| flagAt 26 (x.way k).dirty ||| flagAt 27 (x.way k).valid ||| flagAt 31 x.lru

/-- Word `n` of a line, as the array holds it (46 R447). -/
def lineWord (w : DWay) (n : Fin 8) : Word :=
  wordOf (((w.bytes.toList).drop (4 * n.val)).take 4)

/-- `dcread`: a tag entry or a word of the line CCR0[CWS] selects; the alignment
interrupt comes after a Data TLB miss (46 R447; 60_exceptions.md R527, R536; log entry 18). -/
def execDcread (rt ra rb : Reg) (s : State) : Result :=
  let ea := s.eaX ra rb
  let x := dsetGet s.dcache (dIndex (blockOf ea))
  privileged s
    (missOnly s ea false fun _ =>
      if misaligned ea then .next (takeException (.alignment ea) s)
      else if s.debugTag then done ((s.afterMasked dTagMask).setGpr rt (s.readMasked (dTagWord x s.debugWay) dTagMask))
      else done (s.setGpr rt (lineWord (x.way s.debugWay) (iWord ea))))

end Sys2Proof.Machine
end

