-- ==== Sys2Proof/Machine/Logical.lean ====
section
/-! DEFINITION. Logical and compare instructions (spec/43_logical_compare.md). -/

namespace Sys2Proof.Machine

/-! ### Logical -/

/-- The number of zero bits before the first one, from the most significant bit down (43 R345). -/
def leadingZeros (w : Word) : Nat := ((List.range 32).takeWhile fun n => !bitAt w n).length

/-- `and`: AND (43 R341). -/
def execAnd (ra rs rb : Reg) (rc : Bool) (s : State) : Result :=
  done (s.writeLogical ra (s.gpr rs &&& s.gpr rb) rc)

/-- `andc`: AND with complement (43 R342). -/
def execAndc (ra rs rb : Reg) (rc : Bool) (s : State) : Result :=
  done (s.writeLogical ra (s.gpr rs &&& ~~~s.gpr rb) rc)

/-- `nor`: NOR (43 R350). -/
def execNor (ra rs rb : Reg) (rc : Bool) (s : State) : Result :=
  done (s.writeLogical ra (~~~(s.gpr rs ||| s.gpr rb)) rc)

/-- `eqv`: equivalent (43 R346). -/
def execEqv (ra rs rb : Reg) (rc : Bool) (s : State) : Result :=
  done (s.writeLogical ra (~~~(s.gpr rs ^^^ s.gpr rb)) rc)

/-- `nand`: NAND (43 R349). -/
def execNand (ra rs rb : Reg) (rc : Bool) (s : State) : Result :=
  done (s.writeLogical ra (~~~(s.gpr rs &&& s.gpr rb)) rc)

/-- `or`: OR (43 R351). -/
def execOr (ra rs rb : Reg) (rc : Bool) (s : State) : Result :=
  done (s.writeLogical ra (s.gpr rs ||| s.gpr rb) rc)

/-- `orc`: OR with complement (43 R352). -/
def execOrc (ra rs rb : Reg) (rc : Bool) (s : State) : Result :=
  done (s.writeLogical ra (s.gpr rs ||| ~~~s.gpr rb) rc)

/-- `xor`: XOR (43 R355). -/
def execXor (ra rs rb : Reg) (rc : Bool) (s : State) : Result :=
  done (s.writeLogical ra (s.gpr rs ^^^ s.gpr rb) rc)

/-- `andi.`: AND immediate, always recording (43 R343). -/
def execAndiDot (ra rs : Reg) (ui : Half) (s : State) : Result :=
  done (s.writeLogical ra (s.gpr rs &&& zext16 ui) true)

/-- `andis.`: AND immediate shifted, always recording (43 R344). -/
def execAndisDot (ra rs : Reg) (ui : Half) (s : State) : Result :=
  done (s.writeLogical ra (s.gpr rs &&& shifted16 ui) true)

/-- `ori`: OR immediate (43 R353). -/
def execOri (ra rs : Reg) (ui : Half) (s : State) : Result :=
  done (s.setGpr ra (s.gpr rs ||| zext16 ui))

/-- `oris`: OR immediate shifted (43 R354). -/
def execOris (ra rs : Reg) (ui : Half) (s : State) : Result :=
  done (s.setGpr ra (s.gpr rs ||| shifted16 ui))

/-- `xori`: XOR immediate (43 R356). -/
def execXori (ra rs : Reg) (ui : Half) (s : State) : Result :=
  done (s.setGpr ra (s.gpr rs ^^^ zext16 ui))

/-- `xoris`: XOR immediate shifted (43 R357). -/
def execXoris (ra rs : Reg) (ui : Half) (s : State) : Result :=
  done (s.setGpr ra (s.gpr rs ^^^ shifted16 ui))

/-- `cntlzw`: count leading zeros word (43 R345). -/
def execCntlzw (ra rs : Reg) (rc : Bool) (s : State) : Result :=
  done (s.writeLogical ra (BitVec.ofNat 32 (leadingZeros (s.gpr rs))) rc)

/-- `extsb`: extend sign byte (43 R347). -/
def execExtsb (ra rs : Reg) (rc : Bool) (s : State) : Result :=
  done (s.writeLogical ra (signExtendByte (s.gpr rs)) rc)

/-- `extsh`: extend sign halfword (43 R348). -/
def execExtsh (ra rs : Reg) (rc : Bool) (s : State) : Result :=
  done (s.writeLogical ra (signExtendHalf (s.gpr rs)) rc)

/-! ### Compare -/

/-- A compare result into field BF; L = 1 is not a form of this core (43 R360; 30_encoding.md R173 (g)). -/
def compareInto (s : State) (bf : BitVec 3) (l : Bool) (f : BitVec 4) : Result :=
  validForm (compareOk l) .invalidCompareLength (done (s.setCrField bf f))

/-- `cmp`: compare (43 R361). -/
def execCmp (bf : BitVec 3) (l : Bool) (ra rb : Reg) (s : State) : Result :=
  compareInto s bf l (signedCompare (s.gpr ra) (s.gpr rb) s.xerSO)

/-- `cmpi`: compare immediate (43 R362). -/
def execCmpi (bf : BitVec 3) (l : Bool) (ra : Reg) (si : Half) (s : State) : Result :=
  compareInto s bf l (signedCompare (s.gpr ra) (sext16 si) s.xerSO)

/-- `cmpl`: compare logical (43 R363). -/
def execCmpl (bf : BitVec 3) (l : Bool) (ra rb : Reg) (s : State) : Result :=
  compareInto s bf l (unsignedCompare (s.gpr ra) (s.gpr rb) s.xerSO)

/-- `cmpli`: compare logical immediate (43 R364). -/
def execCmpli (bf : BitVec 3) (l : Bool) (ra : Reg) (ui : Half) (s : State) : Result :=
  compareInto s bf l (unsignedCompare (s.gpr ra) (zext16 ui) s.xerSO)

end Sys2Proof.Machine
end

