-- ==== Sys2Proof/Machine/Mac.lean ====
section
/-! DEFINITION. Multiply-accumulate and multiply-halfword instructions (spec/42_mac.md). -/

namespace Sys2Proof.Machine

/-! ### Shapes -/

/-- MAC on two signed halfwords (42 R302). -/
def macSigned (s : State) (rt : Reg) (a b : Half) (neg sat oe rc : Bool) : Result :=
  let t := macSum a.toInt b.toInt (s.gpr rt).toInt neg
  done (s.writeResult rt (macResult sat false t) oe (macOverflow false t) none rc)

/-- MAC on two unsigned halfwords (42 R302). -/
def macUnsigned (s : State) (rt : Reg) (a b : Half) (sat oe rc : Bool) : Result :=
  let t := macSum a.toNat b.toNat (s.gpr rt).toNat false
  done (s.writeResult rt (macResult sat true t) oe (macOverflow true t) none rc)

/-- The product of two signed halfwords (42 R300). -/
def mulSigned (s : State) (rt : Reg) (a b : Half) (rc : Bool) : Result :=
  done (s.writeLogical rt (BitVec.ofInt 32 (a.toInt * b.toInt)) rc)

/-- The product of two unsigned halfwords (42 R300). -/
def mulUnsigned (s : State) (rt : Reg) (a b : Half) (rc : Bool) : Result :=
  done (s.writeLogical rt (BitVec.ofNat 32 (a.toNat * b.toNat)) rc)

/-- `macchw`: multiply accumulate cross halfword to word modulo signed (42 R303). -/
def execMacchw (rt ra rb : Reg) (oe rc : Bool) (s : State) : Result :=
  macSigned s rt (lowHalf (s.gpr ra)) (highHalf (s.gpr rb)) false false oe rc

/-- `macchws`: multiply accumulate cross halfword to word saturate signed (42 R304). -/
def execMacchws (rt ra rb : Reg) (oe rc : Bool) (s : State) : Result :=
  macSigned s rt (lowHalf (s.gpr ra)) (highHalf (s.gpr rb)) false true oe rc

/-- `macchwsu`: multiply accumulate cross halfword to word saturate unsigned (42 R305). -/
def execMacchwsu (rt ra rb : Reg) (oe rc : Bool) (s : State) : Result :=
  macUnsigned s rt (lowHalf (s.gpr ra)) (highHalf (s.gpr rb)) true oe rc

/-- `macchwu`: multiply accumulate cross halfword to word modulo unsigned (42 R306). -/
def execMacchwu (rt ra rb : Reg) (oe rc : Bool) (s : State) : Result :=
  macUnsigned s rt (lowHalf (s.gpr ra)) (highHalf (s.gpr rb)) false oe rc

/-- `machhw`: multiply accumulate high halfword to word modulo signed (42 R307). -/
def execMachhw (rt ra rb : Reg) (oe rc : Bool) (s : State) : Result :=
  macSigned s rt (highHalf (s.gpr ra)) (highHalf (s.gpr rb)) false false oe rc

/-- `machhws`: multiply accumulate high halfword to word saturate signed (42 R308). -/
def execMachhws (rt ra rb : Reg) (oe rc : Bool) (s : State) : Result :=
  macSigned s rt (highHalf (s.gpr ra)) (highHalf (s.gpr rb)) false true oe rc

/-- `machhwsu`: multiply accumulate high halfword to word saturate unsigned (42 R309). -/
def execMachhwsu (rt ra rb : Reg) (oe rc : Bool) (s : State) : Result :=
  macUnsigned s rt (highHalf (s.gpr ra)) (highHalf (s.gpr rb)) true oe rc

/-- `machhwu`: multiply accumulate high halfword to word modulo unsigned (42 R310). -/
def execMachhwu (rt ra rb : Reg) (oe rc : Bool) (s : State) : Result :=
  macUnsigned s rt (highHalf (s.gpr ra)) (highHalf (s.gpr rb)) false oe rc

/-- `maclhw`: multiply accumulate low halfword to word modulo signed (42 R311). -/
def execMaclhw (rt ra rb : Reg) (oe rc : Bool) (s : State) : Result :=
  macSigned s rt (lowHalf (s.gpr ra)) (lowHalf (s.gpr rb)) false false oe rc

/-- `maclhws`: multiply accumulate low halfword to word saturate signed (42 R312). -/
def execMaclhws (rt ra rb : Reg) (oe rc : Bool) (s : State) : Result :=
  macSigned s rt (lowHalf (s.gpr ra)) (lowHalf (s.gpr rb)) false true oe rc

/-- `maclhwsu`: multiply accumulate low halfword to word saturate unsigned (42 R313). -/
def execMaclhwsu (rt ra rb : Reg) (oe rc : Bool) (s : State) : Result :=
  macUnsigned s rt (lowHalf (s.gpr ra)) (lowHalf (s.gpr rb)) true oe rc

/-- `maclhwu`: multiply accumulate low halfword to word modulo unsigned (42 R314). -/
def execMaclhwu (rt ra rb : Reg) (oe rc : Bool) (s : State) : Result :=
  macUnsigned s rt (lowHalf (s.gpr ra)) (lowHalf (s.gpr rb)) false oe rc

/-- `nmacchw`: negative multiply accumulate cross halfword to word modulo signed (42 R315). -/
def execNmacchw (rt ra rb : Reg) (oe rc : Bool) (s : State) : Result :=
  macSigned s rt (lowHalf (s.gpr ra)) (highHalf (s.gpr rb)) true false oe rc

/-- `nmacchws`: negative multiply accumulate cross halfword to word saturate signed (42 R316). -/
def execNmacchws (rt ra rb : Reg) (oe rc : Bool) (s : State) : Result :=
  macSigned s rt (lowHalf (s.gpr ra)) (highHalf (s.gpr rb)) true true oe rc

/-- `nmachhw`: negative multiply accumulate high halfword to word modulo signed (42 R317). -/
def execNmachhw (rt ra rb : Reg) (oe rc : Bool) (s : State) : Result :=
  macSigned s rt (highHalf (s.gpr ra)) (highHalf (s.gpr rb)) true false oe rc

/-- `nmachhws`: negative multiply accumulate high halfword to word saturate signed (42 R318). -/
def execNmachhws (rt ra rb : Reg) (oe rc : Bool) (s : State) : Result :=
  macSigned s rt (highHalf (s.gpr ra)) (highHalf (s.gpr rb)) true true oe rc

/-- `nmaclhw`: negative multiply accumulate low halfword to word modulo signed (42 R319). -/
def execNmaclhw (rt ra rb : Reg) (oe rc : Bool) (s : State) : Result :=
  macSigned s rt (lowHalf (s.gpr ra)) (lowHalf (s.gpr rb)) true false oe rc

/-- `nmaclhws`: negative multiply accumulate low halfword to word saturate signed (42 R320). -/
def execNmaclhws (rt ra rb : Reg) (oe rc : Bool) (s : State) : Result :=
  macSigned s rt (lowHalf (s.gpr ra)) (lowHalf (s.gpr rb)) true true oe rc

/-- `mulchw`: multiply cross halfword to word signed (42 R321). -/
def execMulchw (rt ra rb : Reg) (rc : Bool) (s : State) : Result :=
  mulSigned s rt (lowHalf (s.gpr ra)) (highHalf (s.gpr rb)) rc

/-- `mulchwu`: multiply cross halfword to word unsigned (42 R322). -/
def execMulchwu (rt ra rb : Reg) (rc : Bool) (s : State) : Result :=
  mulUnsigned s rt (lowHalf (s.gpr ra)) (highHalf (s.gpr rb)) rc

/-- `mulhhw`: multiply high halfword to word signed (42 R323). -/
def execMulhhw (rt ra rb : Reg) (rc : Bool) (s : State) : Result :=
  mulSigned s rt (highHalf (s.gpr ra)) (highHalf (s.gpr rb)) rc

/-- `mulhhwu`: multiply high halfword to word unsigned (42 R324). -/
def execMulhhwu (rt ra rb : Reg) (rc : Bool) (s : State) : Result :=
  mulUnsigned s rt (highHalf (s.gpr ra)) (highHalf (s.gpr rb)) rc

/-- `mullhw`: multiply low halfword to word signed (42 R325). -/
def execMullhw (rt ra rb : Reg) (rc : Bool) (s : State) : Result :=
  mulSigned s rt (lowHalf (s.gpr ra)) (lowHalf (s.gpr rb)) rc

/-- `mullhwu`: multiply low halfword to word unsigned (42 R326). -/
def execMullhwu (rt ra rb : Reg) (rc : Bool) (s : State) : Result :=
  mulUnsigned s rt (lowHalf (s.gpr ra)) (lowHalf (s.gpr rb)) rc

end Sys2Proof.Machine
end

