-- ==== Sys2Proof/Machine/Rotate.lean ====
section
/-! DEFINITION. Rotate and shift instructions (spec/45_rotate_shift.md). -/

namespace Sys2Proof.Machine

/-- A word shifted right by `n`, copies of its sign shifted in (45 R416). -/
def shiftAlgebraic (w : Word) (n : Nat) : Word := w.sshiftRight n

/-- The carry of an algebraic right shift: the source is negative and a one is shifted out (45 R416). -/
def shiftCarry (w : Word) (n : Nat) : Bool := w.msb && decide (w.toNat % 2 ^ n ≠ 0)

/-- `rlwimi`: rotate left word immediate then mask insert (45 R411). -/
def execRlwimi (ra rs : Reg) (sh mb me : BitVec 5) (rc : Bool) (s : State) : Result :=
  let m := rotateMask mb me
  done (s.writeLogical ra (((s.gpr rs).rotateLeft sh.toNat &&& m) ||| (s.gpr ra &&& ~~~m)) rc)

/-- `rlwinm`: rotate left word immediate then AND with mask (45 R412). -/
def execRlwinm (ra rs : Reg) (sh mb me : BitVec 5) (rc : Bool) (s : State) : Result :=
  done (s.writeLogical ra ((s.gpr rs).rotateLeft sh.toNat &&& rotateMask mb me) rc)

/-- `rlwnm`: rotate left word then AND with mask (45 R413). -/
def execRlwnm (ra rs rb : Reg) (mb me : BitVec 5) (rc : Bool) (s : State) : Result :=
  done (s.writeLogical ra ((s.gpr rs).rotateLeft ((s.gpr rb).toNat % 32) &&& rotateMask mb me) rc)

/-- `slw`: shift left word (45 R414). -/
def execSlw (ra rs rb : Reg) (rc : Bool) (s : State) : Result :=
  done (s.writeLogical ra (s.gpr rs <<< shiftAmount (s.gpr rb)) rc)

/-- `srw`: shift right word (45 R415). -/
def execSrw (ra rs rb : Reg) (rc : Bool) (s : State) : Result :=
  done (s.writeLogical ra (s.gpr rs >>> shiftAmount (s.gpr rb)) rc)

/-- `sraw`: shift right algebraic word (45 R416). -/
def execSraw (ra rs rb : Reg) (rc : Bool) (s : State) : Result :=
  let n := shiftAmount (s.gpr rb)
  done (s.writeResult ra (shiftAlgebraic (s.gpr rs) n) false false (some (shiftCarry (s.gpr rs) n)) rc)

/-- `srawi`: shift right algebraic word immediate (45 R417). -/
def execSrawi (ra rs : Reg) (sh : BitVec 5) (rc : Bool) (s : State) : Result :=
  let n := sh.toNat
  done (s.writeResult ra (shiftAlgebraic (s.gpr rs) n) false false (some (shiftCarry (s.gpr rs) n)) rc)

end Sys2Proof.Machine
end

