-- ==== Sys2Proof/Machine/Storage.lean ====
section
/-! DEFINITION. Storage reference instructions (spec/40_storage_reference.md). -/

namespace Sys2Proof.Machine

/-! ### Shapes -/

/-- A load into RT of `n` bytes at `ea`, the value adjusted by `f`. -/
def loadInto (s : State) (rt : Reg) (ea : Word) (n : Nat) (f : Word → Word) : Result :=
  withLoad s ea n fun v s' => done (s'.setGpr rt (f v))

/-- A load with update: RT, then RA gets the effective address (40 R201). DESIGN CHOICE (log entry 21), not safe: RA is
updated also where the access meets a data-side bus error, whose machine check is asynchronous and leaves the access
complete (60_exceptions.md R531; 92 D16). -/
def loadUpdate (s : State) (rt ra : Reg) (ea : Word) (n : Nat) (f : Word → Word) : Result :=
  validForm (loadUpdateOk rt ra) .invalidUpdateForm
    (withLoad s ea n fun v s' => done ((s'.setGpr rt (f v)).setGpr ra ea))

/-- A store of bytes, most significant first, at `ea`. -/
def storeAt (s : State) (ea : Word) (bs : List Byte) : Result := withStore s ea bs done

/-- A store with update: RA gets the effective address (40 R201). DESIGN CHOICE (log entry 21), not safe: RA is updated also
where the access meets a data-side bus error, as at `loadUpdate`. -/
def storeUpdate (s : State) (ra : Reg) (ea : Word) (bs : List Byte) : Result :=
  validForm (storeUpdateOk ra) .invalidUpdateForm (withStore s ea bs fun s' => done (s'.setGpr ra ea))

/-- The two low bytes exchanged, zero above: `h[8:15] || h[0:7]` (40 R231). -/
def reverseHalf (v : Word) : Word := wordOf [byteOf v 3, byteOf v 2]

/-- The four bytes in reverse (40 R232). -/
def reverseWord (v : Word) : Word := wordOf (wordBytes v).reverse

/-! ### Loads -/

/-- `lbz`: load byte and zero (40 R203). -/
def execLbz (rt ra : Reg) (d : Half) (s : State) : Result :=
  loadInto s rt (s.eaD ra d) 1 id

/-- `lbzu`: load byte and zero with update (40 R204). -/
def execLbzu (rt ra : Reg) (d : Half) (s : State) : Result :=
  loadUpdate s rt ra (s.eaDU ra d) 1 id

/-- `lbzx`: load byte and zero indexed (40 R205). -/
def execLbzx (rt ra rb : Reg) (s : State) : Result :=
  loadInto s rt (s.eaX ra rb) 1 id

/-- `lbzux`: load byte and zero with update indexed (40 R206). -/
def execLbzux (rt ra rb : Reg) (s : State) : Result :=
  loadUpdate s rt ra (s.eaXU ra rb) 1 id

/-- `lhz`: load halfword and zero (40 R207). -/
def execLhz (rt ra : Reg) (d : Half) (s : State) : Result :=
  loadInto s rt (s.eaD ra d) 2 id

/-- `lhzu`: load halfword and zero with update (40 R208). -/
def execLhzu (rt ra : Reg) (d : Half) (s : State) : Result :=
  loadUpdate s rt ra (s.eaDU ra d) 2 id

/-- `lhzx`: load halfword and zero indexed (40 R209). -/
def execLhzx (rt ra rb : Reg) (s : State) : Result :=
  loadInto s rt (s.eaX ra rb) 2 id

/-- `lhzux`: load halfword and zero with update indexed (40 R210). -/
def execLhzux (rt ra rb : Reg) (s : State) : Result :=
  loadUpdate s rt ra (s.eaXU ra rb) 2 id

/-- `lha`: load halfword algebraic (40 R211). -/
def execLha (rt ra : Reg) (d : Half) (s : State) : Result :=
  loadInto s rt (s.eaD ra d) 2 signExtendHalf

/-- `lhau`: load halfword algebraic with update (40 R212). -/
def execLhau (rt ra : Reg) (d : Half) (s : State) : Result :=
  loadUpdate s rt ra (s.eaDU ra d) 2 signExtendHalf

/-- `lhax`: load halfword algebraic indexed (40 R213). -/
def execLhax (rt ra rb : Reg) (s : State) : Result :=
  loadInto s rt (s.eaX ra rb) 2 signExtendHalf

/-- `lhaux`: load halfword algebraic with update indexed (40 R214). -/
def execLhaux (rt ra rb : Reg) (s : State) : Result :=
  loadUpdate s rt ra (s.eaXU ra rb) 2 signExtendHalf

/-- `lwz`: load word and zero (40 R215). -/
def execLwz (rt ra : Reg) (d : Half) (s : State) : Result :=
  loadInto s rt (s.eaD ra d) 4 id

/-- `lwzu`: load word and zero with update (40 R216). -/
def execLwzu (rt ra : Reg) (d : Half) (s : State) : Result :=
  loadUpdate s rt ra (s.eaDU ra d) 4 id

/-- `lwzx`: load word and zero indexed (40 R217). -/
def execLwzx (rt ra rb : Reg) (s : State) : Result :=
  loadInto s rt (s.eaX ra rb) 4 id

/-- `lwzux`: load word and zero with update indexed (40 R218). -/
def execLwzux (rt ra rb : Reg) (s : State) : Result :=
  loadUpdate s rt ra (s.eaXU ra rb) 4 id

/-! ### Stores -/

/-- `stb`: store byte (40 R219). -/
def execStb (rs ra : Reg) (d : Half) (s : State) : Result :=
  storeAt s (s.eaD ra d) [byteOf (s.gpr rs) 3]

/-- `stbu`: store byte with update (40 R220). -/
def execStbu (rs ra : Reg) (d : Half) (s : State) : Result :=
  storeUpdate s ra (s.eaDU ra d) [byteOf (s.gpr rs) 3]

/-- `stbx`: store byte indexed (40 R221). -/
def execStbx (rs ra rb : Reg) (s : State) : Result :=
  storeAt s (s.eaX ra rb) [byteOf (s.gpr rs) 3]

/-- `stbux`: store byte with update indexed (40 R222). -/
def execStbux (rs ra rb : Reg) (s : State) : Result :=
  storeUpdate s ra (s.eaXU ra rb) [byteOf (s.gpr rs) 3]

/-- `sth`: store halfword (40 R223). -/
def execSth (rs ra : Reg) (d : Half) (s : State) : Result :=
  storeAt s (s.eaD ra d) (halfBytes (s.gpr rs))

/-- `sthu`: store halfword with update (40 R224). -/
def execSthu (rs ra : Reg) (d : Half) (s : State) : Result :=
  storeUpdate s ra (s.eaDU ra d) (halfBytes (s.gpr rs))

/-- `sthx`: store halfword indexed (40 R225). -/
def execSthx (rs ra rb : Reg) (s : State) : Result :=
  storeAt s (s.eaX ra rb) (halfBytes (s.gpr rs))

/-- `sthux`: store halfword with update indexed (40 R226). -/
def execSthux (rs ra rb : Reg) (s : State) : Result :=
  storeUpdate s ra (s.eaXU ra rb) (halfBytes (s.gpr rs))

/-- `stw`: store word (40 R227). -/
def execStw (rs ra : Reg) (d : Half) (s : State) : Result :=
  storeAt s (s.eaD ra d) (wordBytes (s.gpr rs))

/-- `stwu`: store word with update (40 R228). -/
def execStwu (rs ra : Reg) (d : Half) (s : State) : Result :=
  storeUpdate s ra (s.eaDU ra d) (wordBytes (s.gpr rs))

/-- `stwx`: store word indexed (40 R229). -/
def execStwx (rs ra rb : Reg) (s : State) : Result :=
  storeAt s (s.eaX ra rb) (wordBytes (s.gpr rs))

/-- `stwux`: store word with update indexed (40 R230). -/
def execStwux (rs ra rb : Reg) (s : State) : Result :=
  storeUpdate s ra (s.eaXU ra rb) (wordBytes (s.gpr rs))

/-! ### Byte-reverse -/

/-- `lhbrx`: load halfword byte-reverse indexed (40 R231). -/
def execLhbrx (rt ra rb : Reg) (s : State) : Result :=
  loadInto s rt (s.eaX ra rb) 2 reverseHalf

/-- `lwbrx`: load word byte-reverse indexed (40 R232). -/
def execLwbrx (rt ra rb : Reg) (s : State) : Result :=
  loadInto s rt (s.eaX ra rb) 4 reverseWord

/-- `sthbrx`: store halfword byte-reverse indexed (40 R233). -/
def execSthbrx (rs ra rb : Reg) (s : State) : Result :=
  storeAt s (s.eaX ra rb) (halfBytes (s.gpr rs)).reverse

/-- `stwbrx`: store word byte-reverse indexed (40 R234). -/
def execStwbrx (rs ra rb : Reg) (s : State) : Result :=
  storeAt s (s.eaX ra rb) (wordBytes (s.gpr rs)).reverse

/-! ### Multiple and string -/

/-- `lmw`: load multiple word, RT to 31 (40 R235). -/
def execLmw (rt ra : Reg) (d : Half) (s : State) : Result :=
  validForm (loadMultipleOk rt ra) .invalidMultipleForm
    (match access s (s.eaD ra d) (4 * (32 - rt.toNat)) false with
     | .error e => stopWith s e
     | .ok ps => done (s.loadWords (32 - rt.toNat) rt ps).busy)

/-- `stmw`: store multiple word, RS to 31 (40 R236). -/
def execStmw (rs ra : Reg) (d : Half) (s : State) : Result :=
  match access s (s.eaD ra d) (4 * (32 - rs.toNat)) true with
  | .error e => stopWith s e
  | .ok ps => done (s.storeWords (32 - rs.toNat) rs ps).busy

/-- `lswi`: load string word immediate (40 R237). -/
def execLswi (rt ra : Reg) (nb : BitVec 5) (s : State) : Result :=
  validForm (stringBaseOk rt ra (stringCount nb)) .invalidStringForm
    (loadString s rt (s.gprOrZero ra) (stringCount nb))

/-- `lswx`: load string word indexed, the count from XER[TBC]; of no bytes, RT gets a free word (93 U12; log entry 33) (40 R238). -/
def execLswx (rt ra rb : Reg) (s : State) : Result :=
  validForm (stringIndexedOk rt ra rb s.xerTBC) .invalidStringForm
    (if s.xerTBC = 0 then done (s.drawn.setGpr rt s.freshWord) else loadString s rt (s.eaX ra rb) s.xerTBC)

/-- `stswi`: store string word immediate (40 R239). -/
def execStswi (rs ra : Reg) (nb : BitVec 5) (s : State) : Result :=
  storeString s rs (s.gprOrZero ra) (stringCount nb)

/-- `stswx`: store string word indexed, the count from XER[TBC]; of no bytes, nothing (40 R240). -/
def execStswx (rs ra rb : Reg) (s : State) : Result :=
  if s.xerTBC = 0 then done s else storeString s rs (s.eaX ra rb) s.xerTBC

/-! ### Reservation (40 R244-R246) -/

/-- A load of a word that must be aligned and is not: what its access checks raise, else the alignment interrupt
(60_exceptions.md R527, R536; 92 D24). -/
def alignmentAfterChecks (s : State) (ea : Word) : Result :=
  match access s ea 4 false with
  | .error e => stopWith s e
  | .ok _ => .next (takeException (.alignment ea) s)

/-- `lwarx`: load word and reserve indexed; the alignment interrupt comes after the access checks (40 R244; 60_exceptions.md
R527, R536; log entry 18). DEDUCED (log entry 21), not safe: RESERVE is set also where the word meets a bus error, whose
machine check is asynchronous and leaves the load complete (60_exceptions.md R531; 92 D16). -/
def execLwarx (rt ra rb : Reg) (s : State) : Result :=
  if misaligned (s.eaX ra rb) then alignmentAfterChecks s (s.eaX ra rb)
  else withLoad s (s.eaX ra rb) 4 fun v s' => done { s'.setGpr rt v with reserve := true }

/-- CR0 after `stwcx.`: `0b00 || stored || XER[SO]` (40 R245). -/
def State.setStored (s : State) (stored : Bool) : State :=
  { s with reserve := false, cr := withCrField s.cr 0 (condField false false stored s.xerSO) }

/-- `stwcx.`: store word conditional indexed; alignment first, whether or not the reservation is held (40 R245; 92 D28;
log entry 18). DESIGN CHOICE (log entry 21), not safe: where the store meets a data-side bus error and so has no effect,
CR0[EQ] is set and the reservation cleared all the same (60_exceptions.md R531; 92 D16). -/
def execStwcxDot (rs ra rb : Reg) (s : State) : Result :=
  if misaligned (s.eaX ra rb) then .next (takeException (.alignment (s.eaX ra rb)) s)
  else if s.reserve then
    withStore s (s.eaX ra rb) (wordBytes (s.gpr rs)) fun s' => done (s'.setStored true)
  else done (s.setStored false)

end Sys2Proof.Machine
end

