-- ==== Sys2Proof/Machine/System.lean ====
section
/-! DEFINITION. Interrupt control and TLB instructions (spec/47_interrupt_control_tlb.md). -/

namespace Sys2Proof.Machine

/-! ### Interrupt control -/

/-- `mfmsr`: RT gets the MSR; reserved bits are free (47 R461). -/
def execMfmsr (rt : Reg) (s : State) : Result :=
  privileged s (done ((s.afterMasked msrMask).setGpr rt (s.readMasked s.msr msrMask)))

/-- `mtmsr`: the MSR gets RS; a context-change window opens and interrupts are sampled at the next boundary (47 R464;
60_exceptions.md R553). -/
def execMtmsr (rs : Reg) (s : State) : Result :=
  privileged s (done { (s.openWindow.setMsr (s.gpr rs)) with eeWindow := 0 })

/-- `rfi`: MSR from SRR1, pc from SRR0 (47 R462). -/
def execRfi (s : State) : Result := privileged s (.next (returnFrom (s.spr .srr0) (s.spr .srr1) s))

/-- `rfci`: MSR from SRR3, pc from SRR2 (47 R463). -/
def execRfci (s : State) : Result := privileged s (.next (returnFrom (s.spr .srr2) (s.spr .srr3) s))

/-- MSR[EE] written by `wrtee` or `wrteei`: an interrupt newly enabled may wait up to WRTEE_LATENCY boundaries
(60_exceptions.md R554). -/
def State.writeEE (s : State) (v : Bool) : State :=
  { s.setMsr (withBit s.msr 16 v) with
    eeWindow := if v then (if s.msrEE then s.eeWindow else Config.wrteeLatency) else 0 }

/-- `wrtee`: MSR[EE] gets bit 16 of RS (47 R465). -/
def execWrtee (rs : Reg) (s : State) : Result := privileged s (done (s.writeEE (bitAt (s.gpr rs) 16)))

/-- `wrteei`: MSR[EE] gets E (47 R466). -/
def execWrteei (e : Bool) (s : State) : Result := privileged s (done (s.writeEE e))

/-! ### The TLB -/

/-- The TLB index a register names: its low six bits (47 R470). -/
def tlbIndex (w : Word) : Fin 64 := ⟨w.toNat % 64, Nat.mod_lt _ (by decide)⟩

/-- TLBHI: EPN, SIZE, V, E, U0, zeros (47 R470). -/
def tlbHi (t : TlbEntry) : Word :=
  (t.epn ++ t.size ++ (0 : BitVec 7)) ||| flagAt 25 t.v ||| flagAt 26 t.e ||| flagAt 27 t.u0

/-- TLBLO: RPN, EX, WR, ZSEL, W, I, M, G (47 R470). -/
def tlbLo (t : TlbEntry) : Word :=
  (t.rpn ++ (0 : BitVec 2) ++ t.zsel ++ (0 : BitVec 4)) ||| flagAt 22 t.ex ||| flagAt 23 t.wr ||| flagAt 28 t.w |||
    flagAt 29 t.i ||| flagAt 30 t.m ||| flagAt 31 t.g

/-- An entry with the tag word written, its TID from the PID (47 R471). -/
def TlbEntry.withHi (t : TlbEntry) (w pid : Word) : TlbEntry :=
  { t with epn := fieldTo w 21 22, size := fieldTo w 24 3, v := bitAt w 25, e := bitAt w 26, u0 := bitAt w 27,
           tid := pid.setWidth 8 }

/-- An entry with the data word written (47 R471). -/
def TlbEntry.withLo (t : TlbEntry) (w : Word) : TlbEntry :=
  { t with rpn := fieldTo w 21 22, ex := bitAt w 22, wr := bitAt w 23, zsel := fieldTo w 27 4, w := bitAt w 28,
           i := bitAt w 29, m := bitAt w 30, g := bitAt w 31 }

/-- CR0 after `tlbsx.`: `0b00 || found || XER[SO]` (47 R468). -/
def State.setFound (s : State) (rc found : Bool) : State :=
  if rc then { s with cr := withCrField s.cr 0 (condField false false found s.xerSO) } else s

/-- `tlbsx`: the index of the entry that translates EA under the PID; a free word where none does (47 R468; 93 U17; log
entry 9). -/
def execTlbsx (rt ra rb : Reg) (rc : Bool) (s : State) : Result :=
  privileged s
    (match tlbHits s.tlb (s.spr .pid) (s.eaX ra rb) with
     | [] => done ((s.drawn.setGpr rt s.freshWord).setFound rc false)
     | [(_, i)] => done ((s.setGpr rt (BitVec.ofNat 32 i)).setFound rc true)
     | _ => .refused .tlbMultipleMatch)

/-- The TLB with every entry's V cleared. -/
def tlbInvalid (tlb : Vector TlbEntry 64) : Vector TlbEntry 64 :=
  ⟨⟨tlb.toList.map fun t => { t with v := false }⟩, by simp⟩

/-- `tlbia`: every entry's V is cleared (47 R469). -/
def execTlbia (s : State) : Result := privileged s (done { s.openWindow with tlb := tlbInvalid s.tlb })

/-- `tlbre`: a word of an entry; the tag word also moves the TID into the PID (47 R470). -/
def execTlbre (rt ra : Reg) (ws : BitVec 5) (s : State) : Result :=
  let t := s.tlb[tlbIndex (s.gpr ra)]
  privileged s
    (validForm (tlbWordOk ws) .invalidTlbWordSelect
      (if ws = 0 then done ((s.openWindow.setGpr rt (tlbHi t)).setSpr .pid (t.tid.setWidth 32))
       else done (s.setGpr rt (tlbLo t))))

/-- `tlbwe`: a word of an entry written (47 R471). -/
def execTlbwe (rs ra : Reg) (ws : BitVec 5) (s : State) : Result :=
  let i := tlbIndex (s.gpr ra)
  let t := s.tlb[i]
  privileged s
    (validForm (tlbWordOk ws) .invalidTlbWordSelect
      (done { s.openWindow with
        tlb := s.tlb.set i (if ws = 0 then t.withHi (s.gpr rs) (s.spr .pid) else t.withLo (s.gpr rs)) }))

/-- `tlbsync`: no operation (47 R472). -/
def execTlbsync (s : State) : Result := privileged s (done s)

end Sys2Proof.Machine
end

