-- ==== Sys2Proof/Machine/Dispatch.lean ====
section
/-! DEFINITION. The meaning of each instruction, one arm per constructor. -/

namespace Sys2Proof.Machine

/-- The meaning of an instruction in a state: one definition per instruction. -/
def exec (i : Instr) (s : State) : Host.Outcome State Fault Refusal :=
  match i with
  -- Storage reference (40_storage_reference.md)
  | .lbz rt ra d => Sys2Proof.Machine.execLbz rt ra d s
  | .lbzu rt ra d => Sys2Proof.Machine.execLbzu rt ra d s
  | .lbzx rt ra rb => Sys2Proof.Machine.execLbzx rt ra rb s
  | .lbzux rt ra rb => Sys2Proof.Machine.execLbzux rt ra rb s
  | .lhz rt ra d => Sys2Proof.Machine.execLhz rt ra d s
  | .lhzu rt ra d => Sys2Proof.Machine.execLhzu rt ra d s
  | .lhzx rt ra rb => Sys2Proof.Machine.execLhzx rt ra rb s
  | .lhzux rt ra rb => Sys2Proof.Machine.execLhzux rt ra rb s
  | .lha rt ra d => Sys2Proof.Machine.execLha rt ra d s
  | .lhau rt ra d => Sys2Proof.Machine.execLhau rt ra d s
  | .lhax rt ra rb => Sys2Proof.Machine.execLhax rt ra rb s
  | .lhaux rt ra rb => Sys2Proof.Machine.execLhaux rt ra rb s
  | .lwz rt ra d => Sys2Proof.Machine.execLwz rt ra d s
  | .lwzu rt ra d => Sys2Proof.Machine.execLwzu rt ra d s
  | .lwzx rt ra rb => Sys2Proof.Machine.execLwzx rt ra rb s
  | .lwzux rt ra rb => Sys2Proof.Machine.execLwzux rt ra rb s
  | .stb rs ra d => Sys2Proof.Machine.execStb rs ra d s
  | .stbu rs ra d => Sys2Proof.Machine.execStbu rs ra d s
  | .stbx rs ra rb => Sys2Proof.Machine.execStbx rs ra rb s
  | .stbux rs ra rb => Sys2Proof.Machine.execStbux rs ra rb s
  | .sth rs ra d => Sys2Proof.Machine.execSth rs ra d s
  | .sthu rs ra d => Sys2Proof.Machine.execSthu rs ra d s
  | .sthx rs ra rb => Sys2Proof.Machine.execSthx rs ra rb s
  | .sthux rs ra rb => Sys2Proof.Machine.execSthux rs ra rb s
  | .stw rs ra d => Sys2Proof.Machine.execStw rs ra d s
  | .stwu rs ra d => Sys2Proof.Machine.execStwu rs ra d s
  | .stwx rs ra rb => Sys2Proof.Machine.execStwx rs ra rb s
  | .stwux rs ra rb => Sys2Proof.Machine.execStwux rs ra rb s
  | .lhbrx rt ra rb => Sys2Proof.Machine.execLhbrx rt ra rb s
  | .lwbrx rt ra rb => Sys2Proof.Machine.execLwbrx rt ra rb s
  | .sthbrx rs ra rb => Sys2Proof.Machine.execSthbrx rs ra rb s
  | .stwbrx rs ra rb => Sys2Proof.Machine.execStwbrx rs ra rb s
  | .lmw rt ra d => Sys2Proof.Machine.execLmw rt ra d s
  | .stmw rs ra d => Sys2Proof.Machine.execStmw rs ra d s
  | .lswi rt ra nb => Sys2Proof.Machine.execLswi rt ra nb s
  | .lswx rt ra rb => Sys2Proof.Machine.execLswx rt ra rb s
  | .stswi rs ra nb => Sys2Proof.Machine.execStswi rs ra nb s
  | .stswx rs ra rb => Sys2Proof.Machine.execStswx rs ra rb s
  | .lwarx rt ra rb => Sys2Proof.Machine.execLwarx rt ra rb s
  | .stwcxDot rs ra rb => Sys2Proof.Machine.execStwcxDot rs ra rb s
  -- Arithmetic (41_arithmetic.md)
  | .add rt ra rb oe rc => Sys2Proof.Machine.execAdd rt ra rb oe rc s
  | .addc rt ra rb oe rc => Sys2Proof.Machine.execAddc rt ra rb oe rc s
  | .adde rt ra rb oe rc => Sys2Proof.Machine.execAdde rt ra rb oe rc s
  | .addi rt ra si => Sys2Proof.Machine.execAddi rt ra si s
  | .addic rt ra si => Sys2Proof.Machine.execAddic rt ra si s
  | .addicDot rt ra si => Sys2Proof.Machine.execAddicDot rt ra si s
  | .addis rt ra si => Sys2Proof.Machine.execAddis rt ra si s
  | .addme rt ra oe rc => Sys2Proof.Machine.execAddme rt ra oe rc s
  | .addze rt ra oe rc => Sys2Proof.Machine.execAddze rt ra oe rc s
  | .subf rt ra rb oe rc => Sys2Proof.Machine.execSubf rt ra rb oe rc s
  | .subfc rt ra rb oe rc => Sys2Proof.Machine.execSubfc rt ra rb oe rc s
  | .subfe rt ra rb oe rc => Sys2Proof.Machine.execSubfe rt ra rb oe rc s
  | .subfic rt ra si => Sys2Proof.Machine.execSubfic rt ra si s
  | .subfme rt ra oe rc => Sys2Proof.Machine.execSubfme rt ra oe rc s
  | .subfze rt ra oe rc => Sys2Proof.Machine.execSubfze rt ra oe rc s
  | .neg rt ra oe rc => Sys2Proof.Machine.execNeg rt ra oe rc s
  | .mulli rt ra si => Sys2Proof.Machine.execMulli rt ra si s
  | .mullw rt ra rb oe rc => Sys2Proof.Machine.execMullw rt ra rb oe rc s
  | .mulhw rt ra rb rc => Sys2Proof.Machine.execMulhw rt ra rb rc s
  | .mulhwu rt ra rb rc => Sys2Proof.Machine.execMulhwu rt ra rb rc s
  | .divw rt ra rb oe rc => Sys2Proof.Machine.execDivw rt ra rb oe rc s
  | .divwu rt ra rb oe rc => Sys2Proof.Machine.execDivwu rt ra rb oe rc s
  -- Multiply-accumulate (42_mac.md)
  | .macchw rt ra rb oe rc => Sys2Proof.Machine.execMacchw rt ra rb oe rc s
  | .macchws rt ra rb oe rc => Sys2Proof.Machine.execMacchws rt ra rb oe rc s
  | .macchwsu rt ra rb oe rc => Sys2Proof.Machine.execMacchwsu rt ra rb oe rc s
  | .macchwu rt ra rb oe rc => Sys2Proof.Machine.execMacchwu rt ra rb oe rc s
  | .machhw rt ra rb oe rc => Sys2Proof.Machine.execMachhw rt ra rb oe rc s
  | .machhws rt ra rb oe rc => Sys2Proof.Machine.execMachhws rt ra rb oe rc s
  | .machhwsu rt ra rb oe rc => Sys2Proof.Machine.execMachhwsu rt ra rb oe rc s
  | .machhwu rt ra rb oe rc => Sys2Proof.Machine.execMachhwu rt ra rb oe rc s
  | .maclhw rt ra rb oe rc => Sys2Proof.Machine.execMaclhw rt ra rb oe rc s
  | .maclhws rt ra rb oe rc => Sys2Proof.Machine.execMaclhws rt ra rb oe rc s
  | .maclhwsu rt ra rb oe rc => Sys2Proof.Machine.execMaclhwsu rt ra rb oe rc s
  | .maclhwu rt ra rb oe rc => Sys2Proof.Machine.execMaclhwu rt ra rb oe rc s
  | .nmacchw rt ra rb oe rc => Sys2Proof.Machine.execNmacchw rt ra rb oe rc s
  | .nmacchws rt ra rb oe rc => Sys2Proof.Machine.execNmacchws rt ra rb oe rc s
  | .nmachhw rt ra rb oe rc => Sys2Proof.Machine.execNmachhw rt ra rb oe rc s
  | .nmachhws rt ra rb oe rc => Sys2Proof.Machine.execNmachhws rt ra rb oe rc s
  | .nmaclhw rt ra rb oe rc => Sys2Proof.Machine.execNmaclhw rt ra rb oe rc s
  | .nmaclhws rt ra rb oe rc => Sys2Proof.Machine.execNmaclhws rt ra rb oe rc s
  | .mulchw rt ra rb rc => Sys2Proof.Machine.execMulchw rt ra rb rc s
  | .mulchwu rt ra rb rc => Sys2Proof.Machine.execMulchwu rt ra rb rc s
  | .mulhhw rt ra rb rc => Sys2Proof.Machine.execMulhhw rt ra rb rc s
  | .mulhhwu rt ra rb rc => Sys2Proof.Machine.execMulhhwu rt ra rb rc s
  | .mullhw rt ra rb rc => Sys2Proof.Machine.execMullhw rt ra rb rc s
  | .mullhwu rt ra rb rc => Sys2Proof.Machine.execMullhwu rt ra rb rc s
  -- Logical and compare (43_logical_compare.md)
  | .and ra rs rb rc => Sys2Proof.Machine.execAnd ra rs rb rc s
  | .andc ra rs rb rc => Sys2Proof.Machine.execAndc ra rs rb rc s
  | .andiDot ra rs ui => Sys2Proof.Machine.execAndiDot ra rs ui s
  | .andisDot ra rs ui => Sys2Proof.Machine.execAndisDot ra rs ui s
  | .cntlzw ra rs rc => Sys2Proof.Machine.execCntlzw ra rs rc s
  | .eqv ra rs rb rc => Sys2Proof.Machine.execEqv ra rs rb rc s
  | .extsb ra rs rc => Sys2Proof.Machine.execExtsb ra rs rc s
  | .extsh ra rs rc => Sys2Proof.Machine.execExtsh ra rs rc s
  | .nand ra rs rb rc => Sys2Proof.Machine.execNand ra rs rb rc s
  | .nor ra rs rb rc => Sys2Proof.Machine.execNor ra rs rb rc s
  | .or ra rs rb rc => Sys2Proof.Machine.execOr ra rs rb rc s
  | .orc ra rs rb rc => Sys2Proof.Machine.execOrc ra rs rb rc s
  | .ori ra rs ui => Sys2Proof.Machine.execOri ra rs ui s
  | .oris ra rs ui => Sys2Proof.Machine.execOris ra rs ui s
  | .xor ra rs rb rc => Sys2Proof.Machine.execXor ra rs rb rc s
  | .xori ra rs ui => Sys2Proof.Machine.execXori ra rs ui s
  | .xoris ra rs ui => Sys2Proof.Machine.execXoris ra rs ui s
  | .cmp bf l ra rb => Sys2Proof.Machine.execCmp bf l ra rb s
  | .cmpi bf l ra si => Sys2Proof.Machine.execCmpi bf l ra si s
  | .cmpl bf l ra rb => Sys2Proof.Machine.execCmpl bf l ra rb s
  | .cmpli bf l ra ui => Sys2Proof.Machine.execCmpli bf l ra ui s
  -- Branch and condition register (44_branch_crlogical.md)
  | .b li aa lk => Sys2Proof.Machine.execB li aa lk s
  | .bclr bo bi lk => Sys2Proof.Machine.execBclr bo bi lk s
  | .bcctr bo bi lk => Sys2Proof.Machine.execBcctr bo bi lk s
  | .bc bo bi bd aa lk => Sys2Proof.Machine.execBc bo bi bd aa lk s
  | .crand bt ba bb => Sys2Proof.Machine.execCrand bt ba bb s
  | .crandc bt ba bb => Sys2Proof.Machine.execCrandc bt ba bb s
  | .creqv bt ba bb => Sys2Proof.Machine.execCreqv bt ba bb s
  | .crnand bt ba bb => Sys2Proof.Machine.execCrnand bt ba bb s
  | .crnor bt ba bb => Sys2Proof.Machine.execCrnor bt ba bb s
  | .cror bt ba bb => Sys2Proof.Machine.execCror bt ba bb s
  | .crorc bt ba bb => Sys2Proof.Machine.execCrorc bt ba bb s
  | .crxor bt ba bb => Sys2Proof.Machine.execCrxor bt ba bb s
  | .mcrf bf bfa => Sys2Proof.Machine.execMcrf bf bfa s
  -- Rotate and shift (45_rotate_shift.md)
  | .rlwimi ra rs sh mb me rc => Sys2Proof.Machine.execRlwimi ra rs sh mb me rc s
  | .rlwinm ra rs sh mb me rc => Sys2Proof.Machine.execRlwinm ra rs sh mb me rc s
  | .rlwnm ra rs rb mb me rc => Sys2Proof.Machine.execRlwnm ra rs rb mb me rc s
  | .slw ra rs rb rc => Sys2Proof.Machine.execSlw ra rs rb rc s
  | .srw ra rs rb rc => Sys2Proof.Machine.execSrw ra rs rb rc s
  | .sraw ra rs rb rc => Sys2Proof.Machine.execSraw ra rs rb rc s
  | .srawi ra rs sh rc => Sys2Proof.Machine.execSrawi ra rs sh rc s
  -- Cache management (46_cache_management.md)
  | .icbi ra rb => Sys2Proof.Machine.execIcbi ra rb s
  | .icbt ra rb => Sys2Proof.Machine.execIcbt ra rb s
  | .iccci ra rb => Sys2Proof.Machine.execIccci ra rb s
  | .icread ra rb => Sys2Proof.Machine.execIcread ra rb s
  | .dcbf ra rb => Sys2Proof.Machine.execDcbf ra rb s
  | .dcbi ra rb => Sys2Proof.Machine.execDcbi ra rb s
  | .dcbz ra rb => Sys2Proof.Machine.execDcbz ra rb s
  | .dcbst ra rb => Sys2Proof.Machine.execDcbst ra rb s
  | .dcbt ra rb => Sys2Proof.Machine.execDcbt ra rb s
  | .dcbtst ra rb => Sys2Proof.Machine.execDcbtst ra rb s
  | .dccci ra rb => Sys2Proof.Machine.execDccci ra rb s
  | .dcba ra rb => Sys2Proof.Machine.execDcba ra rb s
  | .dcread rt ra rb => Sys2Proof.Machine.execDcread rt ra rb s
  -- Interrupt control and TLB (47_interrupt_control_tlb.md)
  | .mfmsr rt => Sys2Proof.Machine.execMfmsr rt s
  | .rfi => Sys2Proof.Machine.execRfi s
  | .rfci => Sys2Proof.Machine.execRfci s
  | .mtmsr rs => Sys2Proof.Machine.execMtmsr rs s
  | .wrtee rs => Sys2Proof.Machine.execWrtee rs s
  | .wrteei e => Sys2Proof.Machine.execWrteei e s
  | .tlbsx rt ra rb rc => Sys2Proof.Machine.execTlbsx rt ra rb rc s
  | .tlbia => Sys2Proof.Machine.execTlbia s
  | .tlbre rt ra ws => Sys2Proof.Machine.execTlbre rt ra ws s
  | .tlbwe rs ra ws => Sys2Proof.Machine.execTlbwe rs ra ws s
  | .tlbsync => Sys2Proof.Machine.execTlbsync s
  -- Processor management (48_processor_management.md)
  | .eieio => Sys2Proof.Machine.execEieio s
  | .isync => Sys2Proof.Machine.execIsync s
  | .sync => Sys2Proof.Machine.execSync s
  | .mcrxr bf => Sys2Proof.Machine.execMcrxr bf s
  | .mfcr rt => Sys2Proof.Machine.execMfcr rt s
  | .mfdcr rt dcrn => Sys2Proof.Machine.execMfdcr rt dcrn s
  | .mfspr rt sprn => Sys2Proof.Machine.execMfspr rt sprn s
  | .mftb rt tbrn => Sys2Proof.Machine.execMftb rt tbrn s
  | .mtcrf fxm rs => Sys2Proof.Machine.execMtcrf fxm rs s
  | .mtdcr dcrn rs => Sys2Proof.Machine.execMtdcr dcrn rs s
  | .mtspr sprn rs => Sys2Proof.Machine.execMtspr sprn rs s
  | .sc => Sys2Proof.Machine.execSc s
  | .tw tocond ra rb => Sys2Proof.Machine.execTw tocond ra rb s
  | .twi tocond ra si => Sys2Proof.Machine.execTwi tocond ra si s

end Sys2Proof.Machine
end

