-- ==== Sys2Proof/Machine/Step.lean ====
section
/-! DEFINITION. One step of the machine: the outside acts, then an interrupt is taken, or the wait state holds, or the next
instruction runs (spec/60_exceptions.md R550, R585; spec/00_scope.md R20, R21). -/

namespace Sys2Proof.Machine

/-- A word whose fetch met a bus error is to execute: the machine check, or with MSR[ME] = 0 a machine that is stuck;
ESR[MCI] is set either way (60_exceptions.md R532). DESIGN CHOICE (log entry 29), not safe: the MSR[ME] of now decides, also
between a `mtmsr` that changes it and the next context synchronisation (70_reset_and_hazards.md R621). -/
def instructionBusError (s : State) : State :=
  if s.msrME then takeException .instructionMachineCheck s
  else { s.setSpr .esr (s.spr .esr ||| 0x80000000) with stuck := true }

/-- What becomes of a fetched word: it runs, or its fetch or its bits raise an exception, or it is refused. -/
def runFetched (r : FetchResult) (s : State) : Host.Outcome State Fault Refusal :=
  match r with
  | .word w =>
    match decode w with
    | .ok i => exec i s
    | .error .illegal => .next (takeException (.program .illegal) s)
    | .error .reservedBits => .refused .reservedInstructionBits
  | .busError => .next (instructionBusError s)
  | .tlbMiss => .next (takeException .instructionTlbMiss s)
  | .denied zone => .next (takeException (.instructionStorage zone) s)
  | .refused r => .refused r

/-- The next instruction is fetched and run. -/
def runNext (use n : Nat) (s : State) : Host.Outcome State Fault Refusal :=
  runFetched (s.fetchNext use n).1 (s.fetchNext use n).2.resolve

/-- The step after the outside has acted. -/
def boundary (i : Input) (s : State) : Host.Outcome State Fault Refusal :=
  if s.stuck then .fault .instructionMachineCheck
  else
    match pendingInterrupt s i.deferEE with
    | some k => .next (takeInterrupt k s.pc s.passBoundary)
    | none => if s.msrWE then .next s.passBoundary else runNext i.useAhead i.oldContext s.passBoundary

/-- One step. -/
def step (s : State) : Host.Outcome State Fault Refusal := boundary s.nextInput (applyInput s.nextInput s)

/-- Where the next instruction is fetched from: its real address and its byte order; the address itself where nothing
translates it. -/
def State.fetchPlace (s : State) : Word × Bool :=
  match lookupFetch s.fetchContext s.pc with
  | .page p => (p.ra, p.attrs.e)
  | _ => (s.pc, false)

/-- The state with an instruction stored where the step fetches its next one: its four bytes in memory in the byte order
of that storage, no cached line, no word read ahead and no write that has not arrived in their way, the machine not stuck
(log entry 8). -/
def State.withFetchWord (s : State) (nbits w : Nat) : State :=
  let (ra, e) := s.fetchPlace
  let (b0, b1, b2, b3) := bytesOfWord (BitVec.ofNat 32 (w % 2 ^ nbits))
  let s' := { s with
    mem := memPutList s.mem ra.toNat (if e then [b3, b2, b1, b0] else [b0, b1, b2, b3]),
    unsettled := [], ahead := [], stuck := false }
  s'.setIset (iIndex s.pc) ((isetGet s.icache (iIndex s.pc)).drop (iTag ra))

end Sys2Proof.Machine
end

