-- ==== Sys2Proof/Safety.lean ====
section
/-! DEFINITION. What the statements speak of: the invariant of the machine's states, plain storage, and what an
instruction leaves unchanged. -/

namespace Sys2Proof.Machine

/-- A step from here answers no fault (60_exceptions.md R532; 70_reset_and_hazards.md R628). -/
def State.unstuck (s : State) : Prop := ∀ f, step s ≠ .fault f

/-! ### The invariant -/

/-- A data cache class does not hold one block in both ways. -/
def DSet.distinct (x : DSet) : Prop := ¬(x.a.valid = true ∧ x.b.valid = true ∧ x.a.tag = x.b.tag)

/-- An instruction cache class does not hold one line in both ways. -/
def ISet.distinct (x : ISet) : Prop := ¬(x.a.valid = true ∧ x.b.valid = true ∧ x.a.tag = x.b.tag)

/-- What every state of the machine keeps. -/
structure State.Inv (s : State) : Prop where
  /-- The program counter is word aligned (10_state.md R32). -/
  pc_aligned : s.pc &&& 3 = 0
  /-- Reserved MSR bits have no storage (00_scope.md R22). -/
  msr_reserved : s.msr &&& ~~~msrMask = 0
  /-- Reserved bits of special purpose registers have no storage (00_scope.md R22). -/
  spr_reserved : ∀ r, s.spr r &&& ~~~(Spr.mask r) = 0
  /-- Memory is in canonical form. -/
  mem_wf : s.mem.wf = true
  /-- The data cache is in canonical form. -/
  dcache_wf : sparseWf DSet.empty Config.dcacheSets s.dcache = true
  /-- The instruction cache is in canonical form. -/
  icache_wf : sparseWf ISet.empty Config.icacheSets s.icache = true
  /-- No block is in both ways of its data cache class. -/
  dcache_distinct : ∀ i, (dsetGet s.dcache i).distinct
  /-- No line is in both ways of its instruction cache class. -/
  icache_distinct : ∀ i, (isetGet s.icache i).distinct
  /-- Bus writes that have not arrived lie in the address space. -/
  unsettled_bound : ∀ w ∈ s.unsettled, ∀ o ∈ w, o.addr < 2 ^ 32
  /-- Words are read ahead from word-aligned addresses (10_state.md R32). -/
  ahead_aligned : ∀ f ∈ s.ahead, f.addr &&& 3 = 0

/-! ### Plain storage -/

/-- Data storage is coherent for an access: every address is plain memory; no bus master writes between the bytes of the
access; the fill buffer and the unmodified lines hold what memory holds; no block is in two ways. Bus masters, changed
attributes and the errors of 20_memory.md R137 can break each of these. -/
structure State.coherent (s : State) : Prop where
  plain : ∀ ra, regionAt s.memMap ra = none
  quiet : s.between = []
  fillBuffer : ∀ f, s.fillBuffer = some f → f.bytes = memBlock s.mem f.block
  clean : ∀ ra w, s.dLine (blockOf ra) = some w → w.dirty = false → w.bytes = memBlock s.mem (blockOf ra)
  distinct : ∀ i, (dsetGet s.dcache i).distinct

/-- The bytes of an access are all cachable, or all caching inhibited and not in the data cache: not the programming
error of 20_memory.md R137, nor a straddle of storage of both kinds. -/
def settled (s : State) (ps : List PByte) : Prop :=
  (∀ p ∈ ps, p.attrs.i = false) ∨ ∀ p ∈ ps, p.attrs.i = true ∧ s.dFind (blockOf p.ra) = none

/-- The value of the item at located bytes, by the byte order of the first byte's storage (20_memory.md R107). -/
def itemAt (s : State) (ps : List PByte) : Word := wordOf (ordered (firstE ps) (ps.map fun p => s.dataByte p.ra))

/-- After a store, located bytes hold `bs` and every byte elsewhere is as before. Where the bytes of an access fall on one
real byte twice (two pages mapped to one), nothing is said of their values. -/
structure Stored (s t : State) (ps : List PByte) (bs : List Byte) : Prop where
  written : (ps.map (·.ra)).Nodup → ps.map (fun p => t.dataByte p.ra) = bs
  elsewhere : ∀ ra, ra ∉ ps.map (·.ra) → t.dataByte ra = s.dataByte ra

/-! ### Completion -/

/-- An outcome is a next state of which `P` holds. -/
def Completes (r : Host.Outcome State Fault Refusal) (P : State → Prop) : Prop := ∃ t, r = .next t ∧ P t

/-! ### Frames -/

/-- What an instruction of the integer unit leaves alone: everything but the general registers, the program counter, CR,
the special purpose registers and the free values. Memory is said byte by byte. -/
structure KeepsSystem (s t : State) : Prop where
  msr : t.msr = s.msr
  tb : t.tb = s.tb
  pitReload : t.pitReload = s.pitReload
  reserve : t.reserve = s.reserve
  tlb : t.tlb = s.tlb
  dcrs : t.dcrs = s.dcrs
  memMap : t.memMap = s.memMap
  icache : t.icache = s.icache
  bytes : ∀ ra, t.dataByte ra = s.dataByte ra

/-- What a storage access leaves alone besides memory, the data cache and the reservation. -/
structure KeepsControl (s t : State) : Prop where
  msr : t.msr = s.msr
  tb : t.tb = s.tb
  pitReload : t.pitReload = s.pitReload
  tlb : t.tlb = s.tlb
  dcrs : t.dcrs = s.dcrs
  memMap : t.memMap = s.memMap
  icache : t.icache = s.icache
  sprs : ∀ r, t.spr r = s.spr r

/-- What an integer instruction with result register `rt` leaves alone: every other general register, CR fields 1 to 7,
XER[TBC], the other special purpose registers, the rest of the machine. -/
structure OnlyInteger (s t : State) (rt : Reg) : Prop where
  others : ∀ r, r ≠ rt → t.gpr r = s.gpr r
  next : t.pc = s.pc + 4
  fields : ∀ f, f ≠ 0 → crField t.cr f = crField s.cr f
  count : t.xerTBC = s.xerTBC
  sprs : ∀ r, r ≠ .xer → t.spr r = s.spr r
  system : KeepsSystem s t

/-- An integer result: RT gets `v`; SO, OV and CA as `oe`, `ov` and `ca` say; CR0 compares `v` with 0 and copies the
updated SO where `rc` asks (10_state.md R39-R43); nothing else changes. -/
structure WritesResult (s t : State) (rt : Reg) (v : Word) (oe ov : Bool) (ca : Option Bool) (rc : Bool) : Prop where
  result : t.gpr rt = v
  so : t.xerSO = (s.xerSO || (oe && ov))
  overflow : t.xerOV = if oe then ov else s.xerOV
  carry : t.xerCA = ca.getD s.xerCA
  cr0 : crField t.cr 0 =
    if rc then condField (decide (v.toInt < 0)) (decide (0 < v.toInt)) (decide (v = 0)) t.xerSO else crField s.cr 0
  rest : OnlyInteger s t rt

/-- Only the general register `rt` and the program counter change: `rt` gets `v`, the next instruction follows. -/
structure WritesGpr (s t : State) (rt : Reg) (v : Word) : Prop where
  result : t.gpr rt = v
  others : ∀ r, r ≠ rt → t.gpr r = s.gpr r
  next : t.pc = s.pc + 4
  cr : t.cr = s.cr
  sprs : ∀ r, t.spr r = s.spr r
  system : KeepsSystem s t

/-- Only the condition register changes, besides the program counter, which moves to the next instruction. -/
structure WritesCr (s t : State) (cr : Word) : Prop where
  cr : t.cr = cr
  gprs : ∀ r, t.gpr r = s.gpr r
  next : t.pc = s.pc + 4
  sprs : ∀ r, t.spr r = s.spr r
  system : KeepsSystem s t

/-- Nothing a program can see changes but the program counter. -/
structure OnlyAdvances (s t : State) : Prop where
  gprs : ∀ r, t.gpr r = s.gpr r
  next : t.pc = s.pc + 4
  cr : t.cr = s.cr
  sprs : ∀ r, t.spr r = s.spr r
  system : KeepsSystem s t

/-- A branch: the target where taken, the next instruction where not; LR gets the address after the branch where `lk`
asks; CTR as given; nothing else changes (44 R381-R386). -/
structure Branches (s t : State) (lk : Bool) (ctr pc : Word) : Prop where
  pc : t.pc = pc
  lr : t.spr .lr = if lk then s.pc + 4 else s.spr .lr
  ctr : t.spr .ctr = ctr
  sprs : ∀ r, r ≠ .lr → r ≠ .ctr → t.spr r = s.spr r
  gprs : ∀ r, t.gpr r = s.gpr r
  cr : t.cr = s.cr
  system : KeepsSystem s t

/-- What a storage access leaves alone: every general register but those named, the special purpose and control registers;
the next instruction follows. -/
structure KeepsForAccess (s t : State) (changed : List Reg) : Prop where
  gprs : ∀ r, r ∉ changed → t.gpr r = s.gpr r
  next : t.pc = s.pc + 4
  control : KeepsControl s t

/-- A load of one item into RT, adjusted by `f`, after which RESERVE is `reserve`; where storage is coherent the value is
the item's and no byte changes. -/
structure Loads (s t : State) (rt : Reg) (changed : List Reg) (ps : List PByte) (f : Word → Word) (reserve : Bool) :
    Prop where
  value : s.coherent → settled s ps → t.gpr rt = f (itemAt s ps)
  bytes : s.coherent → settled s ps → ∀ ra, t.dataByte ra = s.dataByte ra
  cr : t.cr = s.cr
  reserve : t.reserve = reserve
  rest : KeepsForAccess s t changed

/-- A store of one item, its bytes `bs` given most significant first. -/
structure Stores (s t : State) (changed : List Reg) (ps : List PByte) (bs : List Byte) : Prop where
  stored : s.coherent → settled s ps → Stored s t ps (ordered (firstE ps) bs)
  cr : t.cr = s.cr
  reserve : t.reserve = s.reserve
  rest : KeepsForAccess s t changed

/-- What an instruction cache operation leaves alone: everything but the instruction cache, the program counter and the
free values. -/
structure OnlyICache (s t : State) : Prop where
  gprs : ∀ r, t.gpr r = s.gpr r
  next : t.pc = s.pc + 4
  cr : t.cr = s.cr
  msr : t.msr = s.msr
  sprs : ∀ r, t.spr r = s.spr r
  tb : t.tb = s.tb
  pitReload : t.pitReload = s.pitReload
  reserve : t.reserve = s.reserve
  tlb : t.tlb = s.tlb
  dcrs : t.dcrs = s.dcrs
  memMap : t.memMap = s.memMap
  mem : t.mem = s.mem
  dcache : t.dcache = s.dcache
  fillBuffer : t.fillBuffer = s.fillBuffer
  bytes : ∀ ra, t.dataByte ra = s.dataByte ra

/-- What a move to the MSR, the TLB, the DCRs or an SPR leaves alone besides its own target. -/
structure KeepsBytesAndGprs (s t : State) : Prop where
  gprs : ∀ r, t.gpr r = s.gpr r
  cr : t.cr = s.cr
  reserve : t.reserve = s.reserve
  icache : t.icache = s.icache
  bytes : ∀ ra, t.dataByte ra = s.dataByte ra

/-- An interrupt of the non-critical class is entered with return address `ret`: SRR0, SRR1, the MSR, the vector; ESR and
DEAR as given; everything else as it was (60_exceptions.md R523, R524). The MSR's reserved bits are free in SRR1
(00_scope.md R22). -/
structure EntersNonCritical (s t : State) (offset ret esr dear : Word) : Prop where
  pc : t.pc = (s.spr .evpr &&& 0xFFFF0000) ||| offset
  srr0 : t.spr .srr0 = ret
  srr1 : t.spr .srr1 &&& msrMask = s.msr &&& msrMask
  msr : t.msr = s.msr &&& 0x00021200
  esr : t.spr .esr = esr
  dear : t.spr .dear = dear
  sprs : ∀ r, r ≠ .srr0 → r ≠ .srr1 → r ≠ .esr → r ≠ .dear → t.spr r = s.spr r
  gprs : ∀ r, t.gpr r = s.gpr r
  cr : t.cr = s.cr
  reserve : t.reserve = s.reserve
  tlb : t.tlb = s.tlb
  tb : t.tb = s.tb
  pitReload : t.pitReload = s.pitReload
  dcrs : t.dcrs = s.dcrs
  memMap : t.memMap = s.memMap
  icache : t.icache = s.icache
  fillBuffer : t.fillBuffer = s.fillBuffer
  bytes : ∀ ra, t.dataByte ra = s.dataByte ra
  refetch : t.ahead = []

/-- ESR[MCI], which an entry that rewrites the ESR keeps (60_exceptions.md R593). -/
def State.keptSyndrome (s : State) : Word := s.spr .esr &&& 0x80000000

/-! ### Privilege -/

/-- The privileged instructions: always, or by their SPR number (30_encoding.md R174; 60_exceptions.md R538). -/
def privilegedInstr : Instr → Bool
  | .mfmsr _ | .mtmsr _ | .wrtee _ | .wrteei _ | .rfi | .rfci | .mfdcr _ _ | .mtdcr _ _ => true
  | .tlbsx _ _ _ _ | .tlbia | .tlbre _ _ _ | .tlbwe _ _ _ | .tlbsync => true
  | .icbt _ _ | .iccci _ _ | .icread _ _ | .dcbi _ _ | .dccci _ _ | .dcread _ _ _ => true
  | .mfspr _ n | .mtspr n _ => sprPrivileged n
  | _ => false

end Sys2Proof.Machine
end

