-- ==== Sys2Proof/WellFormed.lean ====
section
/-! DEFINITION. Which instructions are well formed: none of the invalid forms of spec/30_encoding.md R173. -/

namespace Sys2Proof

open Sys2Proof.Machine

/-- The instruction is not an invalid form (30_encoding.md R173). `lswx` depends on XER[TBC] as well, which its meaning
tests; here only the operands count. The privilege of an SPR number is no matter of form. -/
def Instr.wf : Instr → Bool
  | .lbz _ _ _ => true
  | .lbzu rt ra _ => loadUpdateOk rt ra
  | .lbzx _ _ _ => true
  | .lbzux rt ra _ => loadUpdateOk rt ra
  | .lhz _ _ _ => true
  | .lhzu rt ra _ => loadUpdateOk rt ra
  | .lhzx _ _ _ => true
  | .lhzux rt ra _ => loadUpdateOk rt ra
  | .lha _ _ _ => true
  | .lhau rt ra _ => loadUpdateOk rt ra
  | .lhax _ _ _ => true
  | .lhaux rt ra _ => loadUpdateOk rt ra
  | .lwz _ _ _ => true
  | .lwzu rt ra _ => loadUpdateOk rt ra
  | .lwzx _ _ _ => true
  | .lwzux rt ra _ => loadUpdateOk rt ra
  | .stb _ _ _ => true
  | .stbu _ ra _ => storeUpdateOk ra
  | .stbx _ _ _ => true
  | .stbux _ ra _ => storeUpdateOk ra
  | .sth _ _ _ => true
  | .sthu _ ra _ => storeUpdateOk ra
  | .sthx _ _ _ => true
  | .sthux _ ra _ => storeUpdateOk ra
  | .stw _ _ _ => true
  | .stwu _ ra _ => storeUpdateOk ra
  | .stwx _ _ _ => true
  | .stwux _ ra _ => storeUpdateOk ra
  | .lhbrx _ _ _ => true
  | .lwbrx _ _ _ => true
  | .sthbrx _ _ _ => true
  | .stwbrx _ _ _ => true
  | .lmw rt ra _ => loadMultipleOk rt ra
  | .stmw _ _ _ => true
  | .lswi rt ra nb => stringBaseOk rt ra (stringCount nb)
  | .lswx rt ra _ => stringBaseOk rt ra 0
  | .stswi _ _ _ => true
  | .stswx _ _ _ => true
  | .lwarx _ _ _ => true
  | .stwcxDot _ _ _ => true
  | .add _ _ _ _ _ => true
  | .addc _ _ _ _ _ => true
  | .adde _ _ _ _ _ => true
  | .addi _ _ _ => true
  | .addic _ _ _ => true
  | .addicDot _ _ _ => true
  | .addis _ _ _ => true
  | .addme _ _ _ _ => true
  | .addze _ _ _ _ => true
  | .subf _ _ _ _ _ => true
  | .subfc _ _ _ _ _ => true
  | .subfe _ _ _ _ _ => true
  | .subfic _ _ _ => true
  | .subfme _ _ _ _ => true
  | .subfze _ _ _ _ => true
  | .neg _ _ _ _ => true
  | .mulli _ _ _ => true
  | .mullw _ _ _ _ _ => true
  | .mulhw _ _ _ _ => true
  | .mulhwu _ _ _ _ => true
  | .divw _ _ _ _ _ => true
  | .divwu _ _ _ _ _ => true
  | .macchw _ _ _ _ _ => true
  | .macchws _ _ _ _ _ => true
  | .macchwsu _ _ _ _ _ => true
  | .macchwu _ _ _ _ _ => true
  | .machhw _ _ _ _ _ => true
  | .machhws _ _ _ _ _ => true
  | .machhwsu _ _ _ _ _ => true
  | .machhwu _ _ _ _ _ => true
  | .maclhw _ _ _ _ _ => true
  | .maclhws _ _ _ _ _ => true
  | .maclhwsu _ _ _ _ _ => true
  | .maclhwu _ _ _ _ _ => true
  | .nmacchw _ _ _ _ _ => true
  | .nmacchws _ _ _ _ _ => true
  | .nmachhw _ _ _ _ _ => true
  | .nmachhws _ _ _ _ _ => true
  | .nmaclhw _ _ _ _ _ => true
  | .nmaclhws _ _ _ _ _ => true
  | .mulchw _ _ _ _ => true
  | .mulchwu _ _ _ _ => true
  | .mulhhw _ _ _ _ => true
  | .mulhhwu _ _ _ _ => true
  | .mullhw _ _ _ _ => true
  | .mullhwu _ _ _ _ => true
  | .and _ _ _ _ => true
  | .andc _ _ _ _ => true
  | .andiDot _ _ _ => true
  | .andisDot _ _ _ => true
  | .cntlzw _ _ _ => true
  | .eqv _ _ _ _ => true
  | .extsb _ _ _ => true
  | .extsh _ _ _ => true
  | .nand _ _ _ _ => true
  | .nor _ _ _ _ => true
  | .or _ _ _ _ => true
  | .orc _ _ _ _ => true
  | .ori _ _ _ => true
  | .oris _ _ _ => true
  | .xor _ _ _ _ => true
  | .xori _ _ _ => true
  | .xoris _ _ _ => true
  | .cmp _ l _ _ => compareOk l
  | .cmpi _ l _ _ => compareOk l
  | .cmpl _ l _ _ => compareOk l
  | .cmpli _ l _ _ => compareOk l
  | .b _ _ _ => true
  | .bclr bo _ _ => branchOptionsOk bo
  | .bcctr bo _ _ => branchCtrOk bo
  | .bc bo _ _ _ _ => branchOptionsOk bo
  | .crand _ _ _ => true
  | .crandc _ _ _ => true
  | .creqv _ _ _ => true
  | .crnand _ _ _ => true
  | .crnor _ _ _ => true
  | .cror _ _ _ => true
  | .crorc _ _ _ => true
  | .crxor _ _ _ => true
  | .mcrf _ _ => true
  | .rlwimi _ _ _ _ _ _ => true
  | .rlwinm _ _ _ _ _ _ => true
  | .rlwnm _ _ _ _ _ _ => true
  | .slw _ _ _ _ => true
  | .srw _ _ _ _ => true
  | .sraw _ _ _ _ => true
  | .srawi _ _ _ _ => true
  | .icbi _ _ => true
  | .icbt _ _ => true
  | .iccci _ _ => true
  | .icread _ _ => true
  | .dcbf _ _ => true
  | .dcbi _ _ => true
  | .dcbz _ _ => true
  | .dcbst _ _ => true
  | .dcbt _ _ => true
  | .dcbtst _ _ => true
  | .dccci _ _ => true
  | .dcba _ _ => true
  | .dcread _ _ _ => true
  | .mfmsr _ => true
  | .rfi => true
  | .rfci => true
  | .mtmsr _ => true
  | .wrtee _ => true
  | .wrteei _ => true
  | .tlbsx _ _ _ _ => true
  | .tlbia => true
  | .tlbre _ _ ws => tlbWordOk ws
  | .tlbwe _ _ ws => tlbWordOk ws
  | .tlbsync => true
  | .eieio => true
  | .isync => true
  | .sync => true
  | .mcrxr _ => true
  | .mfcr _ => true
  | .mfdcr _ _ => true
  | .mfspr _ sprn => (sprSource sprn).isSome
  | .mftb _ tbrn => tbrOk tbrn
  | .mtcrf _ _ => true
  | .mtdcr _ _ => true
  | .mtspr sprn _ => (sprTarget sprn).isSome
  | .sc => true
  | .tw _ _ _ => true
  | .twi _ _ _ => true

end Sys2Proof
end

