-- ==== Sys2Proof/Certificates/Slice0/Obligations.lean ====
section
/-! DEFINITION. The statements for the provers. A statement whose docstring says "stated" formalises the numbered rule
it names; the others are read from the rules they name by inference. -/

open Sys2Proof Sys2Proof.Machine

/-! ### Encoding -/

/-- Words written out in the spec's examples decode to the instructions they are given for. -/
def Obligations.DecodeSampleWords : Prop :=
  decodeTableWord 32 0x88640005 = some (.lbz 3 4 5) ∧ decodeTableWord 32 0x7CE72214 = some (.add 7 7 4 false false) ∧
  decodeTableWord 32 0x10642D59 = some (.macchw 3 4 5 true true) ∧
  decodeTableWord 32 0x7C832878 = some (.andc 3 4 5 false) ∧ decodeTableWord 32 0x4200FFF8 = some (.bc 16 0 0x3FFE false false) ∧
  decodeTableWord 32 0x5464C23E = some (.rlwinm 4 3 24 8 31 false) ∧ decodeTableWord 32 0x7C002FEC = some (.dcbz 0 5) ∧
  decodeTableWord 32 0x7C640F64 = some (.tlbre 3 4 1) ∧ decodeTableWord 32 0x7CBA02A6 = some (.mfspr 5 26)

/-- Decoding and encoding are inverse: a word decodes to an instruction exactly when it is that instruction's own word,
for every instruction and every operand at every value its fields admit. -/
def Obligations.DecodeEncode : Prop := ∀ (w : Word) (i : Instr), decode w = .ok i ↔ encode i = w

/-- A word that matches no row raises the Program interrupt of an illegal instruction: ESR[PIL] set, MCI kept, SRR0
the word's own address (30_encoding.md R171; 60_exceptions.md R539). A word with a reserved bit set is refused (R172).
The refusal is the spec's own decision D27 (log entry 25). -/
def Obligations.UndecodableWords : Prop :=
  ∀ s w,
    (decode w = .error .illegal → Completes (runFetched (.word w) s) fun t =>
      EntersNonCritical s t 0x0700 s.pc (s.keptSyndrome ||| 0x08000000) (s.spr .dear)) ∧
    (decode w = .error .reservedBits → runFetched (.word w) s = .refused .reservedInstructionBits)

/-! ### Entries of the TLB (20_memory.md R114 to R116) -/

/-- Entry `k`, and no other, translates an address for the present process. -/
def onlyEntry (s : State) (ea : Word) (k : Fin 64) : Prop :=
  tlbMatches ((s.spr .pid).setWidth 8) ea s.tlb[k] = true ∧
    ∀ j : Fin 64, j ≠ k → tlbMatches ((s.spr .pid).setWidth 8) ea s.tlb[j] = false

/-- No entry translates an address for the present process. -/
def noEntry (s : State) (ea : Word) : Prop :=
  ∀ k : Fin 64, tlbMatches ((s.spr .pid).setWidth 8) ea s.tlb[k] = false

/-- The zone of an entry gives user mode no access. -/
def zoneDenies (s : State) (e : TlbEntry) : Prop := s.msrPR = true ∧ zoneField (s.spr .zpr) e.zsel = 0

/-- The zone of an entry overrides its EX and WR. -/
def zoneAllows (s : State) (e : TlbEntry) : Prop :=
  zoneField (s.spr .zpr) e.zsel = 3 ∨ (zoneField (s.spr .zpr) e.zsel = 2 ∧ s.msrPR = false)

/-! ### The step -/

/-- A step in which the outside is quiet and the next instruction runs: nothing is pending once every bus write of the
core has arrived, the core neither waits nor is stuck. -/
structure RunsNext (s : State) : Prop where
  inputs : s.inputs = []
  free : s.stuck = false
  nothing : pendingInterrupt (s.settle 0) false = none
  awake : s.msrWE = false

/-- The state a quiet step starts its instruction from: what the core wrote has arrived, a boundary has passed. -/
def quietBoundary (s : State) : State := { s.passBoundary with unsettled := [], between := [] }

/-- The fetch of a quiet step changes nothing an instruction reads but what the fetcher keeps and the instruction cache. -/
structure FetchedFrom (s u : State) : Prop where
  gprs : u.gprs = s.gprs
  pc : u.pc = s.pc
  cr : u.cr = s.cr
  msr : u.msr = s.msr
  sprs : u.sprs = s.sprs
  tb : u.tb = s.tb
  pitReload : u.pitReload = s.pitReload
  reserve : u.reserve = s.reserve
  tlb : u.tlb = s.tlb
  mem : u.mem = s.mem
  dcache : u.dcache = s.dcache
  fillBuffer : u.fillBuffer = s.fillBuffer
  dcrs : u.dcrs = s.dcrs
  memMap : u.memMap = s.memMap

/-- A step runs the decoded instruction: where the outside is quiet, nothing is pending and the core does not wait, and
the fetch of the word at the program counter gives a word that decodes, the step is exec of the decoded instruction, from
the state the fetch left. -/
def Obligations.StepRunsDecoded : Prop :=
  ∀ s i w, RunsNext s → ((quietBoundary s).fetchNow 0).1 = .word w → decode w = .ok i →
    step s = exec i ((quietBoundary s).fetchNow 0).2.resolve ∧
    FetchedFrom s ((quietBoundary s).fetchNow 0).2.resolve

/-- The instruction at the program counter is fetched from the real address `ra`, in storage of these attributes: in real
mode from itself, by ICCR and SLER; translated by the one entry that matches, where its zone and its EX allow it and it is
not guarded (20_memory.md R102, R114 to R116, R119). -/
def FetchesFrom (s : State) (ra : Word) (inhibited little : Bool) : Prop :=
  (s.msrIR = false ∧ ra = s.pc ∧ inhibited = !bitAt (s.spr .iccr) (s.pc.toNat / 2 ^ 27) ∧
    little = bitAt (s.spr .sler) (s.pc.toNat / 2 ^ 27)) ∨
  (s.msrIR = true ∧ ∃ k : Fin 64, onlyEntry s s.pc k ∧ ra = tlbRealAddress s.tlb[k] s.pc ∧ inhibited = s.tlb[k].i ∧
    little = s.tlb[k].e ∧ ¬zoneDenies s s.tlb[k] ∧ (s.tlb[k].ex = true ∨ zoneAllows s s.tlb[k]) ∧ s.tlb[k].g = false ∧
    (s.tlb[k].w && s.tlb[k].i) = false)

/-- The word a quiet step fetches, in real mode and translated: where the array holds the line and the storage is
cachable, the line's word; where it does not, the word memory holds at the real address, in the byte order of its
storage. A cachable miss then brings the whole line in; an inhibited one, and any under CCR0[FWOA], changes nothing
(20_memory.md R102, R106, R114, R119, R133; 10_state.md R62). The exact array is the refinement R130 allows (log
entry 15). -/
def Obligations.StepFetches : Prop :=
  ∀ s ra inhibited little i, RunsNext s → FetchesFrom s ra inhibited little →
    let held := fun t : State => (isetGet t.icache (iIndex s.pc)).find (iTag ra)
    let words := fun (t : State) k => ((isetGet t.icache (iIndex s.pc)).way k).words
    (∀ k, held s = some k → inhibited = false → decode (words s k)[iWord s.pc] = .ok i →
      ∃ u, step s = exec i u ∧ FetchedFrom s u ∧ u.fetchedUser = none) ∧
    (held s = none → (∀ j < 4, regionAt s.memMap (ra.toNat + j) = none) →
      decode (memWord s.mem little ra.toNat) = .ok i →
      ((inhibited = true ∨ bitAt (s.spr .ccr0) 23 = true) →
        step s = exec i { quietBoundary s with fetchedUser := none, waited := s.waited.filterMap (wayOn s.pc) }) ∧
      (inhibited = false → bitAt (s.spr .ccr0) 23 = false → (∀ a, regionAt s.memMap a = none) →
        ∃ u k, step s = exec i u ∧ FetchedFrom s u ∧ u.fetchedUser = none ∧ held u = some k ∧
          ∀ j : Fin 8, (words u k)[j] = memWord s.mem little (32 * blockOf ra + 4 * j)))

/-! ### Arithmetic (41_arithmetic.md) -/

/-- An instruction adds `a`, `b` and a carry: the sum modulo 2^32, the carry out where it carries, overflow where the
signed sum does not fit. -/
def addsInto (s : State) (i : Instr) (rt : Reg) (a b : Word) (c oe carries rc : Bool) : Prop :=
  Completes (exec i s) fun t =>
    WritesResult s t rt (a + b + if c then 1 else 0) oe (outsideSigned (a.toInt + b.toInt + if c then 1 else 0))
      (if carries then some (decide (2 ^ 32 ≤ a.toNat + b.toNat + c.toNat)) else none) rc

/-- The adding instructions. -/
def Obligations.AddResults : Prop :=
  ∀ s rt ra rb oe rc si,
    addsInto s (.add rt ra rb oe rc) rt (s.gpr ra) (s.gpr rb) false oe false rc ∧
    addsInto s (.addc rt ra rb oe rc) rt (s.gpr ra) (s.gpr rb) false oe true rc ∧
    addsInto s (.adde rt ra rb oe rc) rt (s.gpr ra) (s.gpr rb) s.xerCA oe true rc ∧
    addsInto s (.addic rt ra si) rt (s.gpr ra) (sext16 si) false false true false ∧
    addsInto s (.addicDot rt ra si) rt (s.gpr ra) (sext16 si) false false true true ∧
    addsInto s (.addme rt ra oe rc) rt (s.gpr ra) 0xFFFFFFFF s.xerCA oe true rc ∧
    addsInto s (.addze rt ra oe rc) rt (s.gpr ra) 0 s.xerCA oe true rc

/-- An instruction subtracts `a` from `b`: CA is set exactly when no borrow occurs (R279). -/
def subtractsInto (s : State) (i : Instr) (rt : Reg) (a b : Word) (oe carries rc : Bool) : Prop :=
  Completes (exec i s) fun t =>
    WritesResult s t rt (b - a) oe (outsideSigned (b.toInt - a.toInt))
      (if carries then some (decide (a.toNat ≤ b.toNat)) else none) rc

/-- The subtracting instructions; the extended ones add the complement and the carry. -/
def Obligations.SubtractResults : Prop :=
  ∀ s rt ra rb oe rc si,
    subtractsInto s (.subf rt ra rb oe rc) rt (s.gpr ra) (s.gpr rb) oe false rc ∧
    subtractsInto s (.subfc rt ra rb oe rc) rt (s.gpr ra) (s.gpr rb) oe true rc ∧
    subtractsInto s (.subfic rt ra si) rt (s.gpr ra) (sext16 si) false true false ∧
    subtractsInto s (.neg rt ra oe rc) rt (s.gpr ra) 0 oe false rc ∧
    addsInto s (.subfe rt ra rb oe rc) rt (~~~s.gpr ra) (s.gpr rb) s.xerCA oe true rc ∧
    addsInto s (.subfme rt ra oe rc) rt (~~~s.gpr ra) 0xFFFFFFFF s.xerCA oe true rc ∧
    addsInto s (.subfze rt ra oe rc) rt (~~~s.gpr ra) 0 s.xerCA oe true rc

/-- The immediate instructions without flags write their register and nothing else; RA = 0 is the constant 0 in `addi`
and `addis` only. -/
def Obligations.ImmediateResults : Prop :=
  ∀ s rt ra si,
    Completes (exec (.addi rt ra si) s) (fun t => WritesGpr s t rt ((if ra = 0 then 0 else s.gpr ra) + sext16 si)) ∧
    Completes (exec (.addis rt ra si) s) (fun t => WritesGpr s t rt ((if ra = 0 then 0 else s.gpr ra) + (sext16 si <<< 16))) ∧
    Completes (exec (.mulli rt ra si) s) (fun t => WritesGpr s t rt (s.gpr ra * sext16 si)) ∧
    Completes (exec (.ori rt ra si) s) (fun t => WritesGpr s t rt (s.gpr ra ||| si.setWidth 32)) ∧
    Completes (exec (.oris rt ra si) s) (fun t => WritesGpr s t rt (s.gpr ra ||| si.setWidth 32 <<< 16)) ∧
    Completes (exec (.xori rt ra si) s) (fun t => WritesGpr s t rt (s.gpr ra ^^^ si.setWidth 32)) ∧
    Completes (exec (.xoris rt ra si) s) (fun t => WritesGpr s t rt (s.gpr ra ^^^ si.setWidth 32 <<< 16))

/-- The multiplies: the low word, overflow where the signed product does not fit; the high word of the signed and of the
unsigned 64-bit product. -/
def Obligations.MultiplyResults : Prop :=
  ∀ s rt ra rb oe rc,
    Completes (exec (.mullw rt ra rb oe rc) s) (fun t =>
      WritesResult s t rt (s.gpr ra * s.gpr rb) oe (outsideSigned ((s.gpr ra).toInt * (s.gpr rb).toInt)) none rc) ∧
    Completes (exec (.mulhw rt ra rb rc) s) (fun t =>
      WritesResult s t rt (((s.gpr ra).signExtend 64 * (s.gpr rb).signExtend 64).extractLsb' 32 32) false false none rc) ∧
    Completes (exec (.mulhwu rt ra rb rc) s) (fun t =>
      WritesResult s t rt (((s.gpr ra).setWidth 64 * (s.gpr rb).setWidth 64).extractLsb' 32 32) false false none rc)

/-- After a division whose quotient is not defined: RT holds any value, an o form sets OV and SO, a record form leaves
any value in CR0's first three bits and SO in the fourth. -/
structure DividesUndefined (s t : State) (rt : Reg) (oe rc : Bool) : Prop where
  so : t.xerSO = (s.xerSO || oe)
  overflow : t.xerOV = (oe || s.xerOV)
  carry : t.xerCA = s.xerCA
  summary : rc = true → (crField t.cr 0).getLsbD 0 = t.xerSO
  cr0 : rc = false → crField t.cr 0 = crField s.cr 0
  rest : OnlyInteger s t rt

/-- The divides: the quotient truncated toward zero, the remainder having the dividend's sign (R283). Division by zero,
and of the most negative number by -1, runs and raises nothing (R289, R290). -/
def Obligations.DivideResults : Prop :=
  ∀ s rt ra rb oe rc,
    let a := s.gpr ra
    let b := s.gpr rb
    let undef := b = 0 ∨ (a = 0x80000000 ∧ b = 0xFFFFFFFF)
    (¬undef → ∃ (q : Word) (m : Int),
      Completes (exec (.divw rt ra rb oe rc) s) (fun t => WritesResult s t rt q oe false none rc) ∧
      a.toInt = q.toInt * b.toInt + m ∧ |m| < |b.toInt| ∧ (m ≠ 0 → (m < 0 ↔ a.toInt < 0))) ∧
    (undef → Completes (exec (.divw rt ra rb oe rc) s) fun t => DividesUndefined s t rt oe rc) ∧
    (b ≠ 0 → ∃ (q : Word) (m : Nat),
      Completes (exec (.divwu rt ra rb oe rc) s) (fun t => WritesResult s t rt q oe false none rc) ∧
      a.toNat = q.toNat * b.toNat + m ∧ m < b.toNat) ∧
    (b = 0 → Completes (exec (.divwu rt ra rb oe rc) s) fun t => DividesUndefined s t rt oe rc)

/-- OE of an instruction that has it. -/
def overflowEnabled : Instr → Bool
  | .add _ _ _ oe _ | .addc _ _ _ oe _ | .adde _ _ _ oe _ | .addme _ _ oe _ | .addze _ _ oe _ => oe
  | .subf _ _ _ oe _ | .subfc _ _ _ oe _ | .subfe _ _ _ oe _ | .subfme _ _ oe _ | .subfze _ _ oe _ => oe
  | .neg _ _ oe _ | .mullw _ _ _ oe _ | .divw _ _ _ oe _ | .divwu _ _ _ oe _ => oe
  | .macchw _ _ _ oe _ | .macchws _ _ _ oe _ | .macchwsu _ _ _ oe _ | .macchwu _ _ _ oe _ => oe
  | .machhw _ _ _ oe _ | .machhws _ _ _ oe _ | .machhwsu _ _ _ oe _ | .machhwu _ _ _ oe _ => oe
  | .maclhw _ _ _ oe _ | .maclhws _ _ _ oe _ | .maclhwsu _ _ _ oe _ | .maclhwu _ _ _ oe _ => oe
  | .nmacchw _ _ _ oe _ | .nmacchws _ _ _ oe _ | .nmachhw _ _ _ oe _ | .nmachhws _ _ _ oe _ => oe
  | .nmaclhw _ _ _ oe _ | .nmaclhws _ _ _ oe _ => oe
  | _ => false

/-- TBL's bit that TCR[WP] selects rises when TBL becomes `new`: a watchdog time-out (60_exceptions.md R573). -/
def watchdogRises (s : State) (new : Word) : Prop :=
  bitAt (s.tb.setWidth 32) (15 - 4 * (fieldTo (s.spr .tcr) 1 2).toNat) = false ∧
    bitAt new (15 - 4 * (fieldTo (s.spr .tcr) 1 2).toNat) = true

/-- An instruction that resets the machine: `mtspr` with a reset request in DBCR0[RST], or to TBL where it is the
watchdog's last time-out (60_exceptions.md R573; 70_reset_and_hazards.md R600). -/
def resetsMachine (s : State) (i : Instr) : Prop :=
  (∃ rs, i = .mtspr 0x3F2 rs ∧ fieldTo (s.gpr rs) 3 2 ≠ 0) ∨
  ∃ rs, i = .mtspr 0x11C rs ∧ watchdogRises s (s.gpr rs) ∧ bitAt (s.spr .tsr) 0 = true ∧ bitAt (s.spr .tsr) 1 = true ∧
    fieldTo (s.spr .tcr) 3 2 ≠ 0

/-- Stated, R40: XER[SO] is sticky. An instruction that completes leaves SO as it was, or as set by its o form's overflow,
unless it is `mtspr` to the XER, which sets SO and OV to bits 0 and 1 of its source, or `mcrxr`, which clears them. Nothing
is said of an instruction that resets the machine: the XER is undefined after a reset (70_reset_and_hazards.md R602). -/
def Obligations.SummaryOverflow : Prop :=
  ∀ i s t, exec i s = .next t → ¬resetsMachine s i →
    ((∀ bf, i ≠ .mcrxr bf) → (∀ rs, i ≠ .mtspr 1 rs) →
      t.xerSO = (s.xerSO || (overflowEnabled i && t.xerOV)) ∧ (overflowEnabled i = false → t.xerOV = s.xerOV)) ∧
    (∀ rs, i = .mtspr 1 rs → t.xerSO = bitAt (s.gpr rs) 0 ∧ t.xerOV = bitAt (s.gpr rs) 1) ∧
    (∀ bf, i = .mcrxr bf → t.xerSO = false ∧ t.xerOV = false)

/-! ### Multiply-accumulate (42_mac.md) -/

/-- A signed accumulation of `p`: modulo 2^32, or clamped to the signed range; overflow where the exact sum is outside. -/
def accumulatesSigned (s : State) (i : Instr) (rt : Reg) (p : Int) (sat oe rc : Bool) : Prop :=
  ∃ v : Word, Completes (exec i s) (fun t =>
      WritesResult s t rt v oe (outsideSigned (p + (s.gpr rt).toInt)) none rc) ∧
    if sat then v.toInt = max (-2 ^ 31) (min (2 ^ 31 - 1) (p + (s.gpr rt).toInt))
    else v = BitVec.ofInt 32 (p + (s.gpr rt).toInt)

/-- An unsigned accumulation of `p`. -/
def accumulatesUnsigned (s : State) (i : Instr) (rt : Reg) (p : Nat) (sat oe rc : Bool) : Prop :=
  ∃ v : Word, Completes (exec i s) (fun t =>
      WritesResult s t rt v oe (decide (2 ^ 32 ≤ p + (s.gpr rt).toNat)) none rc) ∧
    v.toNat = if sat then min (2 ^ 32 - 1) (p + (s.gpr rt).toNat) else (p + (s.gpr rt).toNat) % 2 ^ 32

/-- The eighteen accumulating instructions, by halfwords, sign and saturation (R303 to R320). -/
def Obligations.MacResults : Prop :=
  ∀ s rt ra rb oe rc,
    let al := lowHalf (s.gpr ra)
    let ah := highHalf (s.gpr ra)
    let bl := lowHalf (s.gpr rb)
    let bh := highHalf (s.gpr rb)
    accumulatesSigned s (.macchw rt ra rb oe rc) rt (al.toInt * bh.toInt) false oe rc ∧
    accumulatesSigned s (.macchws rt ra rb oe rc) rt (al.toInt * bh.toInt) true oe rc ∧
    accumulatesSigned s (.machhw rt ra rb oe rc) rt (ah.toInt * bh.toInt) false oe rc ∧
    accumulatesSigned s (.machhws rt ra rb oe rc) rt (ah.toInt * bh.toInt) true oe rc ∧
    accumulatesSigned s (.maclhw rt ra rb oe rc) rt (al.toInt * bl.toInt) false oe rc ∧
    accumulatesSigned s (.maclhws rt ra rb oe rc) rt (al.toInt * bl.toInt) true oe rc ∧
    accumulatesSigned s (.nmacchw rt ra rb oe rc) rt (-(al.toInt * bh.toInt)) false oe rc ∧
    accumulatesSigned s (.nmacchws rt ra rb oe rc) rt (-(al.toInt * bh.toInt)) true oe rc ∧
    accumulatesSigned s (.nmachhw rt ra rb oe rc) rt (-(ah.toInt * bh.toInt)) false oe rc ∧
    accumulatesSigned s (.nmachhws rt ra rb oe rc) rt (-(ah.toInt * bh.toInt)) true oe rc ∧
    accumulatesSigned s (.nmaclhw rt ra rb oe rc) rt (-(al.toInt * bl.toInt)) false oe rc ∧
    accumulatesSigned s (.nmaclhws rt ra rb oe rc) rt (-(al.toInt * bl.toInt)) true oe rc ∧
    accumulatesUnsigned s (.macchwu rt ra rb oe rc) rt (al.toNat * bh.toNat) false oe rc ∧
    accumulatesUnsigned s (.macchwsu rt ra rb oe rc) rt (al.toNat * bh.toNat) true oe rc ∧
    accumulatesUnsigned s (.machhwu rt ra rb oe rc) rt (ah.toNat * bh.toNat) false oe rc ∧
    accumulatesUnsigned s (.machhwsu rt ra rb oe rc) rt (ah.toNat * bh.toNat) true oe rc ∧
    accumulatesUnsigned s (.maclhwu rt ra rb oe rc) rt (al.toNat * bl.toNat) false oe rc ∧
    accumulatesUnsigned s (.maclhwsu rt ra rb oe rc) rt (al.toNat * bl.toNat) true oe rc

/-- A multiply-halfword writes the exact product: `v` is its only 32-bit reading. -/
def multipliesHalf (s : State) (i : Instr) (rt : Reg) (p : Int) (signed rc : Bool) : Prop :=
  ∃ v : Word, Completes (exec i s) (fun t => WritesResult s t rt v false false none rc) ∧
    if signed then v.toInt = p else (v.toNat : Int) = p

/-- The six multiply-halfword instructions: a 16 by 16 product always fits (R321 to R326). -/
def Obligations.MultiplyHalfwordResults : Prop :=
  ∀ s rt ra rb rc,
    let a := s.gpr ra
    let b := s.gpr rb
    multipliesHalf s (.mulchw rt ra rb rc) rt ((lowHalf a).toInt * (highHalf b).toInt) true rc ∧
    multipliesHalf s (.mulhhw rt ra rb rc) rt ((highHalf a).toInt * (highHalf b).toInt) true rc ∧
    multipliesHalf s (.mullhw rt ra rb rc) rt ((lowHalf a).toInt * (lowHalf b).toInt) true rc ∧
    multipliesHalf s (.mulchwu rt ra rb rc) rt ((lowHalf a).toNat * (highHalf b).toNat) false rc ∧
    multipliesHalf s (.mulhhwu rt ra rb rc) rt ((highHalf a).toNat * (highHalf b).toNat) false rc ∧
    multipliesHalf s (.mullhwu rt ra rb rc) rt ((lowHalf a).toNat * (lowHalf b).toNat) false rc

/-! ### Logical and compare (43_logical_compare.md) -/

/-- An instruction of the logical family: the target RA gets `v`, XER is not touched. -/
def logicalInto (s : State) (i : Instr) (ra : Reg) (v : Word) (rc : Bool) : Prop :=
  Completes (exec i s) fun t => WritesResult s t ra v false false none rc

/-- The logical instructions; `cntlzw` counts the zeros before the first one from the most significant bit down (R345). -/
def Obligations.LogicalResults : Prop :=
  ∀ s ra rs rb rc ui,
    let a := s.gpr rs
    let b := s.gpr rb
    logicalInto s (.and ra rs rb rc) ra (a &&& b) rc ∧ logicalInto s (.andc ra rs rb rc) ra (a &&& ~~~b) rc ∧
    logicalInto s (.eqv ra rs rb rc) ra (~~~(a ^^^ b)) rc ∧ logicalInto s (.nand ra rs rb rc) ra (~~~(a &&& b)) rc ∧
    logicalInto s (.nor ra rs rb rc) ra (~~~(a ||| b)) rc ∧ logicalInto s (.or ra rs rb rc) ra (a ||| b) rc ∧
    logicalInto s (.orc ra rs rb rc) ra (a ||| ~~~b) rc ∧ logicalInto s (.xor ra rs rb rc) ra (a ^^^ b) rc ∧
    logicalInto s (.andiDot ra rs ui) ra (a &&& ui.setWidth 32) true ∧
    logicalInto s (.andisDot ra rs ui) ra (a &&& ui.setWidth 32 <<< 16) true ∧
    logicalInto s (.extsb ra rs rc) ra ((a.setWidth 8).signExtend 32) rc ∧
    logicalInto s (.extsh ra rs rc) ra ((a.setWidth 16).signExtend 32) rc ∧
    ∃ n ≤ 32, logicalInto s (.cntlzw ra rs rc) ra (BitVec.ofNat 32 n) rc ∧
      (∀ k < n, bitAt a k = false) ∧ (n < 32 → bitAt a n = true)

/-- A compare writes one CR field and nothing else. -/
structure Compares (s t : State) (bf : BitVec 3) (lt gt eq : Prop) [Decidable lt] [Decidable gt] [Decidable eq] :
    Prop where
  field : crField t.cr bf = condField (decide lt) (decide gt) (decide eq) s.xerSO
  fields : ∀ f, f ≠ bf → crField t.cr f = crField s.cr f
  gprs : ∀ r, t.gpr r = s.gpr r
  next : t.pc = s.pc + 4
  sprs : ∀ r, t.spr r = s.spr r
  system : KeepsSystem s t

/-- The compares, signed and unsigned, of registers and immediates; with L = 1 each is refused (R360; R173 (g)). -/
def Obligations.CompareResults : Prop :=
  ∀ s bf ra rb imm,
    let a := s.gpr ra
    let b := s.gpr rb
    Completes (exec (.cmp bf false ra rb) s) (fun t => Compares s t bf (a.toInt < b.toInt) (b.toInt < a.toInt) (a = b)) ∧
    Completes (exec (.cmpi bf false ra imm) s) (fun t =>
      Compares s t bf (a.toInt < imm.toInt) (imm.toInt < a.toInt) (a.toInt = imm.toInt)) ∧
    Completes (exec (.cmpl bf false ra rb) s) (fun t => Compares s t bf (a.toNat < b.toNat) (b.toNat < a.toNat) (a = b)) ∧
    Completes (exec (.cmpli bf false ra imm) s) (fun t =>
      Compares s t bf (a.toNat < imm.toNat) (imm.toNat < a.toNat) (a.toNat = imm.toNat)) ∧
    ∀ i ∈ [Instr.cmp bf true ra rb, .cmpi bf true ra imm, .cmpl bf true ra rb, .cmpli bf true ra imm],
      exec i s = .refused .invalidCompareLength

/-! ### Rotate and shift (45_rotate_shift.md) -/

/-- Bit `k` lies in MASK(mb, me), which wraps where mb > me (R410). -/
def inMask (mb me : BitVec 5) (k : Nat) : Bool :=
  if mb.toNat ≤ me.toNat then decide (mb.toNat ≤ k ∧ k ≤ me.toNat) else decide (mb.toNat ≤ k ∨ k ≤ me.toNat)

/-- The rotates, bit by bit: under the mask, bit k of the result is bit k + n (modulo 32) of the source; outside it, the
old bit of RA for the insert, 0 for the others. -/
def Obligations.RotateResults : Prop :=
  ∀ s ra rs rb sh mb me rc,
    (∃ v, logicalInto s (.rlwimi ra rs sh mb me rc) ra v rc ∧
      ∀ k < 32, bitAt v k = if inMask mb me k then bitAt (s.gpr rs) ((k + sh.toNat) % 32) else bitAt (s.gpr ra) k) ∧
    (∃ v, logicalInto s (.rlwinm ra rs sh mb me rc) ra v rc ∧
      ∀ k < 32, bitAt v k = (inMask mb me k && bitAt (s.gpr rs) ((k + sh.toNat) % 32))) ∧
    ∃ v, logicalInto s (.rlwnm ra rs rb mb me rc) ra v rc ∧
      ∀ k < 32, bitAt v k = (inMask mb me k && bitAt (s.gpr rs) ((k + (s.gpr rb).toNat) % 32))

/-- An algebraic right shift divides rounding down; CA where the source is negative and the division is not exact. -/
def shiftsAlgebraic (s : State) (i : Instr) (ra rs : Reg) (n : Nat) (rc : Bool) : Prop :=
  ∃ v : Word, Completes (exec i s) (fun t => WritesResult s t ra v false false
      (some (decide ((s.gpr rs).toInt < 0 ∧ (s.gpr rs).toInt % 2 ^ n ≠ 0))) rc) ∧
    v.toInt = (s.gpr rs).toInt / 2 ^ n

/-- The shifts; the register amounts are six bits, so 32 to 63 shift everything out. -/
def Obligations.ShiftResults : Prop :=
  ∀ s ra rs rb sh rc,
    let n := (s.gpr rb).toNat % 64
    (∃ v : Word, logicalInto s (.slw ra rs rb rc) ra v rc ∧ v.toNat = ((s.gpr rs).toNat * 2 ^ n) % 2 ^ 32) ∧
    (∃ v : Word, logicalInto s (.srw ra rs rb rc) ra v rc ∧ v.toNat = (s.gpr rs).toNat / 2 ^ n) ∧
    shiftsAlgebraic s (.sraw ra rs rb rc) ra rs n rc ∧ shiftsAlgebraic s (.srawi ra rs sh rc) ra rs sh.toNat rc

/-! ### Branches and CR logic (44_branch_crlogical.md) -/

/-- BO[n], the manual's numbering. -/
def boBit (bo : BitVec 5) (n : Nat) : Bool := bo.getLsbD (4 - n)

/-- The CTR after the branch's decrement, and the branch condition (R381). -/
def ctrAfter (s : State) (bo : BitVec 5) : Word := if boBit bo 2 then s.spr .ctr else s.spr .ctr - 1
def branchHolds (s : State) (bo bi : BitVec 5) : Prop :=
  (boBit bo 2 = true ∨ (ctrAfter s bo ≠ 0 ↔ boBit bo 3 = false)) ∧
    (boBit bo 0 = true ∨ bitAt s.cr bi.toNat = boBit bo 1)

/-- A target register without its two low bits. -/
def dropTwo (w : Word) : Word := w &&& ~~~3

/-- The branches: where they go, LR and CTR. The invalid forms of R173 (e) and (f) are refused. -/
def Obligations.BranchResults : Prop :=
  ∀ s bo bi li bd aa lk,
    Completes (exec (.b li aa lk) s) (fun t =>
      Branches s t lk (s.spr .ctr) ((if aa then 0 else s.pc) + li.signExtend 32 * 4)) ∧
    (branchOptionsOk bo = true →
      (branchHolds s bo bi →
        Completes (exec (.bc bo bi bd aa lk) s) (fun t =>
          Branches s t lk (ctrAfter s bo) ((if aa then 0 else s.pc) + bd.signExtend 32 * 4)) ∧
        Completes (exec (.bclr bo bi lk) s) (fun t => Branches s t lk (ctrAfter s bo) (dropTwo (s.spr .lr)))) ∧
      (¬branchHolds s bo bi →
        Completes (exec (.bc bo bi bd aa lk) s) (fun t => Branches s t lk (ctrAfter s bo) (s.pc + 4)) ∧
        Completes (exec (.bclr bo bi lk) s) (fun t => Branches s t lk (ctrAfter s bo) (s.pc + 4)))) ∧
    (branchCtrOk bo = true →
      (branchHolds s bo bi → Completes (exec (.bcctr bo bi lk) s) fun t =>
        Branches s t lk (s.spr .ctr) (dropTwo (s.spr .ctr))) ∧
      (¬branchHolds s bo bi → Completes (exec (.bcctr bo bi lk) s) fun t => Branches s t lk (s.spr .ctr) (s.pc + 4))) ∧
    (branchOptionsOk bo = false → exec (.bc bo bi bd aa lk) s = .refused .invalidBranchOptions ∧
      exec (.bclr bo bi lk) s = .refused .invalidBranchOptions) ∧
    (branchCtrOk bo = false → exec (.bcctr bo bi lk) s = .refused .invalidBranchOptions)

/-- The four branches, as a class. -/
def isBranch : Instr → Bool
  | .b _ _ _ | .bc _ _ _ _ _ | .bclr _ _ _ | .bcctr _ _ _ => true
  | _ => false

/-- Where a branch goes if taken: displacements are extended on the right with 0b00, register targets lose their two low
bits. -/
def branchTarget (s : State) : Instr → Word
  | .b li aa _ => (if aa then 0 else s.pc) + (li ++ 0#2).signExtend 32
  | .bc _ _ bd aa _ => (if aa then 0 else s.pc) + (bd ++ 0#2).signExtend 32
  | .bclr _ _ _ => dropTwo (s.spr .lr)
  | .bcctr _ _ _ => dropTwo (s.spr .ctr)
  | _ => s.pc + 4

/-- Stated, R388: every branch target is word aligned, and a branch that completes has taken no interrupt: it is at its
target or at the next instruction, MSR and save registers unchanged. -/
def Obligations.BranchTargetsAligned : Prop :=
  ∀ i s t, isBranch i = true → s.pc &&& 3 = 0 → exec i s = .next t →
    branchTarget s i &&& 3 = 0 ∧ (t.pc = branchTarget s i ∨ t.pc = s.pc + 4) ∧ t.pc &&& 3 = 0 ∧
    t.msr = s.msr ∧ t.spr .srr0 = s.spr .srr0 ∧ t.spr .srr1 = s.spr .srr1

/-- An instruction writes CR bit `bt` with `v` and nothing else. -/
structure WritesCrBit (s t : State) (bt : BitVec 5) (v : Bool) : Prop where
  bit : bitAt t.cr bt.toNat = v
  bits : ∀ k < 32, k ≠ bt.toNat → bitAt t.cr k = bitAt s.cr k
  gprs : ∀ r, t.gpr r = s.gpr r
  next : t.pc = s.pc + 4
  sprs : ∀ r, t.spr r = s.spr r
  system : KeepsSystem s t

/-- The eight CR logical instructions: one bit changes, by the truth function of its rule (R390 to R398). -/
def Obligations.CrLogicResults : Prop :=
  ∀ s bt ba bb,
    let a := bitAt s.cr ba.toNat
    let b := bitAt s.cr bb.toNat
    Completes (exec (.crand bt ba bb) s) (fun t => WritesCrBit s t bt (a && b)) ∧
    Completes (exec (.crandc bt ba bb) s) (fun t => WritesCrBit s t bt (a && !b)) ∧
    Completes (exec (.creqv bt ba bb) s) (fun t => WritesCrBit s t bt (!(xor a b))) ∧
    Completes (exec (.crnand bt ba bb) s) (fun t => WritesCrBit s t bt (!(a && b))) ∧
    Completes (exec (.crnor bt ba bb) s) (fun t => WritesCrBit s t bt (!(a || b))) ∧
    Completes (exec (.cror bt ba bb) s) (fun t => WritesCrBit s t bt (a || b)) ∧
    Completes (exec (.crorc bt ba bb) s) (fun t => WritesCrBit s t bt (a || !b)) ∧
    Completes (exec (.crxor bt ba bb) s) (fun t => WritesCrBit s t bt (xor a b))

/-- The moves of CR fields: `mcrf`, `mfcr`, `mtcrf`, and `mcrxr`, which clears SO, OV and CA and keeps TBC. -/
def Obligations.CrMoves : Prop :=
  ∀ s (bf bfa : BitVec 3) r fxm,
    Completes (exec (.mcrf bf bfa) s) (fun t => WritesCr s t t.cr ∧ crField t.cr bf = crField s.cr bfa ∧
      ∀ f, f ≠ bf → crField t.cr f = crField s.cr f) ∧
    Completes (exec (.mfcr r) s) (fun t => WritesGpr s t r s.cr) ∧
    Completes (exec (.mtcrf fxm r) s) (fun t => WritesCr s t t.cr ∧ ∀ f : BitVec 3,
      crField t.cr f = if fxm.getLsbD (7 - f.toNat) then crField (s.gpr r) f else crField s.cr f) ∧
    Completes (exec (.mcrxr bf) s) (fun t => crField t.cr bf = condField s.xerSO s.xerOV s.xerCA false ∧
      (∀ f, f ≠ bf → crField t.cr f = crField s.cr f) ∧ t.xerSO = false ∧ t.xerOV = false ∧ t.xerCA = false ∧
      t.xerTBC = s.xerTBC ∧ (∀ q, q ≠ .xer → t.spr q = s.spr q) ∧ (∀ q, t.gpr q = s.gpr q) ∧ t.pc = s.pc + 4 ∧
      KeepsSystem s t)

/-! ### Storage reference (40_storage_reference.md) -/

/-- A load of `n` bytes at `ea` into `rt`, the value adjusted by `f`: where every byte is accessible, it completes. -/
def loadsItem (s : State) (i : Instr) (rt : Reg) (changed : List Reg) (ea : Word) (n : Nat) (f : Word → Word) : Prop :=
  ∀ ps, access s ea n false = .ok ps → Completes (exec i s) fun t => Loads s t rt changed ps f s.reserve

/-- The loads without update: zero or sign extended, byte-reversed (R203 to R218, R231, R232). That one item takes the
byte order of its first byte is the spec's decision D2 (log entry 20). -/
def Obligations.LoadResults : Prop :=
  ∀ s rt ra rb d,
    let ed := (if ra = 0 then 0 else s.gpr ra) + d.signExtend 32
    let ex := (if ra = 0 then 0 else s.gpr ra) + s.gpr rb
    loadsItem s (.lbz rt ra d) rt [rt] ed 1 id ∧ loadsItem s (.lbzx rt ra rb) rt [rt] ex 1 id ∧
    loadsItem s (.lhz rt ra d) rt [rt] ed 2 id ∧ loadsItem s (.lhzx rt ra rb) rt [rt] ex 2 id ∧
    loadsItem s (.lha rt ra d) rt [rt] ed 2 (fun v => (v.setWidth 16).signExtend 32) ∧
    loadsItem s (.lhax rt ra rb) rt [rt] ex 2 (fun v => (v.setWidth 16).signExtend 32) ∧
    loadsItem s (.lwz rt ra d) rt [rt] ed 4 id ∧ loadsItem s (.lwzx rt ra rb) rt [rt] ex 4 id ∧
    loadsItem s (.lhbrx rt ra rb) rt [rt] ex 2 (fun v => wordOf [byteOf v 3, byteOf v 2]) ∧
    loadsItem s (.lwbrx rt ra rb) rt [rt] ex 4 (fun v => wordOf [byteOf v 3, byteOf v 2, byteOf v 1, byteOf v 0])

/-- A load with update: as the load, and RA gets the effective address; RA = 0 and RA = RT are refused. -/
def loadsUpdating (s : State) (i : Instr) (rt ra : Reg) (ea : Word) (n : Nat) (f : Word → Word) : Prop :=
  ((ra = 0 ∨ ra = rt) → exec i s = .refused .invalidUpdateForm) ∧
  (ra ≠ 0 → ra ≠ rt → ∀ ps, access s ea n false = .ok ps →
    Completes (exec i s) fun t => Loads s t rt [rt, ra] ps f s.reserve ∧ t.gpr ra = ea)

/-- The loads with update (R204 to R218). That one item takes the byte order of its first byte is the spec's decision D2
(log entry 20); that RA is updated also where the access meets a data-side bus error is the model's choice (log entry
21). -/
def Obligations.LoadUpdateResults : Prop :=
  ∀ s rt ra rb d,
    let ed := s.gpr ra + d.signExtend 32
    let ex := s.gpr ra + s.gpr rb
    loadsUpdating s (.lbzu rt ra d) rt ra ed 1 id ∧ loadsUpdating s (.lbzux rt ra rb) rt ra ex 1 id ∧
    loadsUpdating s (.lhzu rt ra d) rt ra ed 2 id ∧ loadsUpdating s (.lhzux rt ra rb) rt ra ex 2 id ∧
    loadsUpdating s (.lhau rt ra d) rt ra ed 2 (fun v => (v.setWidth 16).signExtend 32) ∧
    loadsUpdating s (.lhaux rt ra rb) rt ra ex 2 (fun v => (v.setWidth 16).signExtend 32) ∧
    loadsUpdating s (.lwzu rt ra d) rt ra ed 4 id ∧ loadsUpdating s (.lwzux rt ra rb) rt ra ex 4 id

/-- A store of the bytes `bs`, most significant first, at `ea`: where every byte is accessible, it completes. -/
def storesItem (s : State) (i : Instr) (ea : Word) (bs : List Byte) : Prop :=
  ∀ ps, access s ea bs.length true = .ok ps → Completes (exec i s) fun t => Stores s t [] ps bs

/-- The stores without update and the byte-reversed ones (R219 to R230, R233, R234). That one item takes the byte
order of its first byte is the spec's decision D2 (log entry 20). -/
def Obligations.StoreResults : Prop :=
  ∀ s rs ra rb d,
    let v := s.gpr rs
    let ed := (if ra = 0 then 0 else s.gpr ra) + d.signExtend 32
    let ex := (if ra = 0 then 0 else s.gpr ra) + s.gpr rb
    storesItem s (.stb rs ra d) ed [byteOf v 3] ∧ storesItem s (.stbx rs ra rb) ex [byteOf v 3] ∧
    storesItem s (.sth rs ra d) ed [byteOf v 2, byteOf v 3] ∧ storesItem s (.sthx rs ra rb) ex [byteOf v 2, byteOf v 3] ∧
    storesItem s (.stw rs ra d) ed [byteOf v 0, byteOf v 1, byteOf v 2, byteOf v 3] ∧
    storesItem s (.stwx rs ra rb) ex [byteOf v 0, byteOf v 1, byteOf v 2, byteOf v 3] ∧
    storesItem s (.sthbrx rs ra rb) ex [byteOf v 3, byteOf v 2] ∧
    storesItem s (.stwbrx rs ra rb) ex [byteOf v 3, byteOf v 2, byteOf v 1, byteOf v 0]

/-- A store with update: the old content of RS, then RA gets the effective address; RA = 0 is refused. -/
def storesUpdating (s : State) (i : Instr) (ra : Reg) (ea : Word) (bs : List Byte) : Prop :=
  (ra = 0 → exec i s = .refused .invalidUpdateForm) ∧
  (ra ≠ 0 → ∀ ps, access s ea bs.length true = .ok ps →
    Completes (exec i s) fun t => Stores s t [ra] ps bs ∧ t.gpr ra = ea)

/-- The stores with update (R220 to R230). That one item takes the byte order of its first byte is the spec's decision D2
(log entry 20); that RA is updated also where the access meets a data-side bus error is the model's choice (log entry
21). -/
def Obligations.StoreUpdateResults : Prop :=
  ∀ s rs ra rb d,
    let v := s.gpr rs
    let ed := s.gpr ra + d.signExtend 32
    let ex := s.gpr ra + s.gpr rb
    storesUpdating s (.stbu rs ra d) ra ed [byteOf v 3] ∧ storesUpdating s (.stbux rs ra rb) ra ex [byteOf v 3] ∧
    storesUpdating s (.sthu rs ra d) ra ed [byteOf v 2, byteOf v 3] ∧
    storesUpdating s (.sthux rs ra rb) ra ex [byteOf v 2, byteOf v 3] ∧
    storesUpdating s (.stwu rs ra d) ra ed [byteOf v 0, byteOf v 1, byteOf v 2, byteOf v 3] ∧
    storesUpdating s (.stwux rs ra rb) ra ex [byteOf v 0, byteOf v 1, byteOf v 2, byteOf v 3]

/-- The byte orders, where all bytes of an item lie in storage of one of them, in real mode and translated: in big-endian
storage a word's highest-order eight bits lie at the first byte, the next eight at the next byte and so on, a halfword's
likewise; in little-endian storage the lowest-order ones; loads read the same way. After reset all storage is big endian,
for fetches too (R103 to R105). -/
def Obligations.ByteOrder : Prop :=
  (∀ s (r ra : Reg) (d : Half) (little : Bool) ps,
    let ea := (if ra = 0 then 0 else s.gpr ra) + d.signExtend 32
    let v := s.gpr r
    let place := fun k n : Nat => if little then n - 1 - k else k
    s.coherent → settled s ps → (∀ p ∈ ps, p.attrs.e = little) →
    (access s ea 4 true = .ok ps → (ps.map (·.ra)).Nodup → Completes (exec (.stw r ra d) s) fun t =>
      ∀ k p, ps[k]? = some p → t.dataByte p.ra = byteOf v (place k 4)) ∧
    (access s ea 2 true = .ok ps → (ps.map (·.ra)).Nodup → Completes (exec (.sth r ra d) s) fun t =>
      ∀ k p, ps[k]? = some p → t.dataByte p.ra = byteOf v (2 + place k 2)) ∧
    (access s ea 4 false = .ok ps → Completes (exec (.lwz r ra d) s) fun t =>
      ∀ k p, ps[k]? = some p → byteOf (t.gpr r) (place k 4) = s.dataByte p.ra) ∧
    (access s ea 2 false = .ok ps → Completes (exec (.lhz r ra d) s) fun t =>
      ∀ k p, ps[k]? = some p → byteOf (t.gpr r) (2 + place k 2) = s.dataByte p.ra)) ∧
  (∀ ea store p, locate State.reset ea store = .ok p → p.attrs.e = false) ∧
  ∀ ea p, lookupFetch State.reset.fetchContext ea = .page p → p.attrs.e = false

/-- The registers from `r` up, `k` of them, 31 wrapping to 0. -/
def registersFrom (r : Reg) (k : Nat) : List Reg := (List.range k).map fun j => r + BitVec.ofNat 5 j

/-- The bytes of the j-th word of a transfer. -/
def wordPlaces (ps : List PByte) (j : Nat) : List PByte := (ps.drop (4 * j)).take 4

/-- `lmw` and `stmw`: registers RT to 31, each word in the byte order of its own first byte (R235, R236); RA among the
registers loaded is refused. -/
def Obligations.MultipleResults : Prop :=
  ∀ s (r ra : Reg) (d : Half),
    let ea := (if ra = 0 then 0 else s.gpr ra) + d.signExtend 32
    let k := 32 - r.toNat
    (r.toNat ≤ ra.toNat → exec (.lmw r ra d) s = .refused .invalidMultipleForm) ∧
    (ra.toNat < r.toNat → ∀ ps, access s ea (4 * k) false = .ok ps → Completes (exec (.lmw r ra d) s) fun t =>
      KeepsForAccess s t (registersFrom r k) ∧ t.cr = s.cr ∧ t.reserve = s.reserve ∧
      (s.coherent → settled s ps → (∀ a, t.dataByte a = s.dataByte a) ∧
        ∀ j < k, t.gpr (r + BitVec.ofNat 5 j) = itemAt s (wordPlaces ps j))) ∧
    (∀ ps, access s ea (4 * k) true = .ok ps → Completes (exec (.stmw r ra d) s) fun t =>
      KeepsForAccess s t [] ∧ t.cr = s.cr ∧ t.reserve = s.reserve ∧
      (s.coherent → settled s ps → Stored s t ps ((List.range k).flatMap fun j =>
        ordered (firstE (wordPlaces ps j)) (wordBytes (s.gpr (r + BitVec.ofNat 5 j))))))

/-- A string of `n` bytes loaded at `ea` into the registers from RT up, the last one filled with zeros. -/
def loadsString (s : State) (i : Instr) (rt : Reg) (ea : Word) (n : Nat) : Prop :=
  ∀ ps, access s ea n false = .ok ps → Completes (exec i s) fun t =>
    KeepsForAccess s t (registersFrom rt ((n + 3) / 4)) ∧ t.cr = s.cr ∧ t.reserve = s.reserve ∧
    (s.coherent → settled s ps → (∀ a, t.dataByte a = s.dataByte a) ∧ ∀ j < (n + 3) / 4,
      t.gpr (rt + BitVec.ofNat 5 j) =
        wordOf ((List.range 4).map fun b => ((ps[4 * j + b]?).map fun p => s.dataByte p.ra).getD 0))

/-- A string of `n` bytes stored at `ea` from the registers from RS up. -/
def storesString (s : State) (i : Instr) (rs : Reg) (ea : Word) (n : Nat) : Prop :=
  ∀ ps, access s ea n true = .ok ps → Completes (exec i s) fun t =>
    KeepsForAccess s t [] ∧ t.cr = s.cr ∧ t.reserve = s.reserve ∧
    (s.coherent → settled s ps → Stored s t ps
      ((List.range n).map fun b => byteOf (s.gpr (rs + BitVec.ofNat 5 (b / 4))) (b % 4)))

/-- The string instructions (R237 to R242): counts from NB, 0 meaning 32, or from XER[TBC]; a load that would overwrite
its address registers is refused; of no bytes, `lswx` leaves any value in RT and `stswx` does nothing. That `lswx` with
RA = 0 and RT ≠ 0 runs where its range wraps onto register 0 is the model's choice (log entry 25). -/
def Obligations.StringResults : Prop :=
  ∀ s (r ra rb : Reg) (nb : BitVec 5),
    let n := if nb = 0 then 32 else nb.toNat
    let base := if ra = 0 then 0 else s.gpr ra
    (stringBaseOk r ra n = true → loadsString s (.lswi r ra nb) r base n) ∧
    (stringBaseOk r ra n = false → exec (.lswi r ra nb) s = .refused .invalidStringForm) ∧
    storesString s (.stswi r ra nb) r base n ∧
    (stringIndexedOk r ra rb s.xerTBC = true → s.xerTBC ≠ 0 → loadsString s (.lswx r ra rb) r (base + s.gpr rb) s.xerTBC) ∧
    (stringIndexedOk r ra rb s.xerTBC = false → exec (.lswx r ra rb) s = .refused .invalidStringForm) ∧
    (stringIndexedOk r ra rb s.xerTBC = true → s.xerTBC = 0 → Completes (exec (.lswx r ra rb) s) fun t =>
      KeepsForAccess s t [r] ∧ t.cr = s.cr ∧ t.reserve = s.reserve ∧ ∀ a, t.dataByte a = s.dataByte a) ∧
    (s.xerTBC ≠ 0 → storesString s (.stswx r ra rb) r (base + s.gpr rb) s.xerTBC) ∧
    (s.xerTBC = 0 → Completes (exec (.stswx r ra rb) s) fun t => OnlyAdvances s t)

/-- `lwarx` reserves; `stwcx.` stores only under a reservation, whatever its address, clears it, and leaves
`00 || stored || SO` in CR0 (R244, R245). That `lwarx` reserves, and that `stwcx.` under a reservation sets
CR0[EQ] and clears it, also where the word meets a bus error is the model's choice (log entry 21). -/
def Obligations.ReserveResults : Prop :=
  ∀ s (r ra rb : Reg),
    let ea := (if ra = 0 then 0 else s.gpr ra) + s.gpr rb
    let v := s.gpr r
    ea &&& 3 = 0 →
    (∀ ps, access s ea 4 false = .ok ps → Completes (exec (.lwarx r ra rb) s) fun t => Loads s t r [r] ps id true) ∧
    (s.reserve = true → ∀ ps, access s ea 4 true = .ok ps → Completes (exec (.stwcxDot r ra rb) s) fun t =>
      KeepsForAccess s t [] ∧ t.reserve = false ∧ crField t.cr 0 = condField false false true s.xerSO ∧
      (∀ f, f ≠ 0 → crField t.cr f = crField s.cr f) ∧
      (s.coherent → settled s ps →
        Stored s t ps (ordered (firstE ps) [byteOf v 0, byteOf v 1, byteOf v 2, byteOf v 3]))) ∧
    (s.reserve = false → Completes (exec (.stwcxDot r ra rb) s) fun t =>
      KeepsForAccess s t [] ∧ t.reserve = false ∧ crField t.cr 0 = condField false false false s.xerSO ∧
      (∀ f, f ≠ 0 → crField t.cr f = crField s.cr f) ∧ ∀ a, t.dataByte a = s.dataByte a)

/-- Only `lwarx` and `stwcx.` change RESERVE: no other instruction that completes does, nor taking an interrupt (R246).
That a reset requested through DBCR0 keeps it as well is the model's choice (log entry 11). -/
def Obligations.ReservationKept : Prop :=
  (∀ i s t, exec i s = .next t → (∀ a b c, i ≠ .lwarx a b c) → (∀ a b c, i ≠ .stwcxDot a b c) → t.reserve = s.reserve) ∧
  ∀ k ret s, (takeInterrupt k ret s).reserve = s.reserve

/-! ### Data access: real mode, translation, protection (20_memory.md, 60_exceptions.md) -/

/-- The attributes of a real-mode data access: the bits of DCWR, DCCR (inverted), SGR, SU0R and SLER for the 128MB region
of the address (20_memory.md R119; 10_state.md R63). -/
def realAttrs (s : State) (ea : Word) : Attrs :=
  let n := ea.toNat / 2 ^ 27
  ⟨bitAt (s.spr .dcwr) n, !bitAt (s.spr .dccr) n, false, bitAt (s.spr .sgr) n, bitAt (s.spr .su0r) n,
    bitAt (s.spr .sler) n⟩

/-- The real address and the attributes a TLB entry gives the byte at an address. -/
def translated (e : TlbEntry) (ea : Word) : PByte := ⟨tlbRealAddress e ea, ⟨e.w, e.i, e.m, e.g, e.u0, e.e⟩⟩

/-- Where the bytes of a data access lie. In real mode every byte is accessible at its own address, but for a store under
CCR0[U0XE] to U0 storage (R119, R121); storage both write-through and caching inhibited is refused by name, which is the
spec's own treatment 93 U9 of what R122 calls undefined (log entry 26).
Translated, an access that may be made has every byte at the real address that the one entry matching it gives, with that
entry's attributes; and it may be made where each byte has such an entry that allows it (R102, R114 to R116). -/
def Obligations.DataAccess : Prop :=
  ∀ s ea n store,
    let byteAt := fun k : Nat => ea + BitVec.ofNat 32 k
    let u0 := store = true ∧ bitAt (s.spr .ccr0) 14 = true
    (s.msrDR = false → (u0 → ∀ k < n, (realAttrs s (byteAt k)).u0 = false) →
      let conflict := ∃ k < n, (realAttrs s (byteAt k)).w = true ∧ (realAttrs s (byteAt k)).i = true
      (¬conflict → access s ea n store = .ok ((List.range n).map fun k => ⟨byteAt k, realAttrs s (byteAt k)⟩)) ∧
      (conflict → access s ea n store = .error (.refuse .writeThroughInhibited))) ∧
    (s.msrDR = true →
      (∀ ps, access s ea n store = .ok ps → ps.length = n ∧ ∀ j p, ps[j]? = some p →
        ∃ k : Fin 64, onlyEntry s (byteAt j) k ∧ p = translated s.tlb[k] (byteAt j)) ∧
      ((∀ j < n, ∃ k : Fin 64, onlyEntry s (byteAt j) k ∧ ¬zoneDenies s s.tlb[k] ∧
          (store = true → s.tlb[k].wr = true ∨ zoneAllows s s.tlb[k]) ∧ (u0 → s.tlb[k].u0 = false) ∧
          (s.tlb[k].w && s.tlb[k].i) = false) →
        ∃ ps, access s ea n store = .ok ps))

/-- The size in bytes of the page of a TLB entry: 1KB times 4^SIZE. -/
def pageSize (t : TlbEntry) : Nat := 1024 * 4 ^ t.size.toNat

/-- A TLB entry matches an address when it is valid, its TID is 0 or the PID, and the address lies in its page; the real
address is the entry's page frame with the offset in the page (20_memory.md R114). -/
def Obligations.TlbTranslation : Prop :=
  ∀ (t : TlbEntry) (pid : Byte) (ea : Word),
    (tlbMatches pid ea t = true ↔
      t.v = true ∧ (t.tid = 0 ∨ t.tid = pid) ∧ ea.toNat / pageSize t = t.epn.toNat * 1024 / pageSize t) ∧
    (tlbRealAddress t ea).toNat = t.rpn.toNat * 1024 / pageSize t * pageSize t + ea.toNat % pageSize t

/-- The address of the first byte an instruction accesses as data, and whether the access counts as a store
(40_storage_reference.md; 46_cache_management.md R431). None for a `stwcx.` that is misaligned or
stores nothing and for strings of no bytes or of a refused form. -/
def firstAccess (s : State) : Instr → Option (Word × Bool)
  | .lbz _ ra d | .lhz _ ra d | .lha _ ra d | .lwz _ ra d | .lmw _ ra d => some (s.eaD ra d, false)
  | .lbzu _ ra d | .lhzu _ ra d | .lhau _ ra d | .lwzu _ ra d => some (s.eaDU ra d, false)
  | .lbzx _ ra rb | .lhzx _ ra rb | .lhax _ ra rb | .lwzx _ ra rb | .lhbrx _ ra rb | .lwbrx _ ra rb =>
    some (s.eaX ra rb, false)
  | .lbzux _ ra rb | .lhzux _ ra rb | .lhaux _ ra rb | .lwzux _ ra rb => some (s.eaXU ra rb, false)
  | .stb _ ra d | .sth _ ra d | .stw _ ra d | .stmw _ ra d => some (s.eaD ra d, true)
  | .stbu _ ra d | .sthu _ ra d | .stwu _ ra d => some (s.eaDU ra d, true)
  | .stbx _ ra rb | .sthx _ ra rb | .stwx _ ra rb | .sthbrx _ ra rb | .stwbrx _ ra rb => some (s.eaX ra rb, true)
  | .stbux _ ra rb | .sthux _ ra rb | .stwux _ ra rb => some (s.eaXU ra rb, true)
  | .lswi _ ra _ => some (s.gprOrZero ra, false)
  | .stswi _ ra _ => some (s.gprOrZero ra, true)
  | .lswx rt ra rb =>
    if stringIndexedOk rt ra rb s.xerTBC = true ∧ s.xerTBC ≠ 0 then some (s.eaX ra rb, false) else none
  | .stswx _ ra rb => if s.xerTBC ≠ 0 then some (s.eaX ra rb, true) else none
  | .lwarx _ ra rb => some (s.eaX ra rb, false)
  | .stwcxDot _ ra rb => if s.eaX ra rb &&& 3 = 0 ∧ s.reserve = true then some (s.eaX ra rb, true) else none
  | .dcbf ra rb | .dcbst ra rb | .icbi ra rb => some (s.eaX ra rb, false)
  | .dcbz ra rb | .dcbi ra rb => some (s.eaX ra rb, true)
  | _ => none

/-- ESR[DST] for a store, nothing for a load. -/
def storeSyndrome (store : Bool) : Word := if store then 0x00800000 else 0

/-- The address, the number of bytes and the kind of the whole access of a load or a store. None for a `stwcx.`
that is misaligned or stores nothing and for strings of no bytes or of a refused form. -/
def wholeAccess (s : State) : Instr → Option (Word × Nat × Bool)
  | .lbz _ ra d => some (s.eaD ra d, 1, false)
  | .lhz _ ra d | .lha _ ra d => some (s.eaD ra d, 2, false)
  | .lwz _ ra d => some (s.eaD ra d, 4, false)
  | .lmw rt ra d => some (s.eaD ra d, 4 * (32 - rt.toNat), false)
  | .lbzu _ ra d => some (s.eaDU ra d, 1, false)
  | .lhzu _ ra d | .lhau _ ra d => some (s.eaDU ra d, 2, false)
  | .lwzu _ ra d => some (s.eaDU ra d, 4, false)
  | .lbzx _ ra rb => some (s.eaX ra rb, 1, false)
  | .lhzx _ ra rb | .lhax _ ra rb | .lhbrx _ ra rb => some (s.eaX ra rb, 2, false)
  | .lwzx _ ra rb | .lwbrx _ ra rb => some (s.eaX ra rb, 4, false)
  | .lbzux _ ra rb => some (s.eaXU ra rb, 1, false)
  | .lhzux _ ra rb | .lhaux _ ra rb => some (s.eaXU ra rb, 2, false)
  | .lwzux _ ra rb => some (s.eaXU ra rb, 4, false)
  | .stb _ ra d => some (s.eaD ra d, 1, true)
  | .sth _ ra d => some (s.eaD ra d, 2, true)
  | .stw _ ra d => some (s.eaD ra d, 4, true)
  | .stmw rs ra d => some (s.eaD ra d, 4 * (32 - rs.toNat), true)
  | .stbu _ ra d => some (s.eaDU ra d, 1, true)
  | .sthu _ ra d => some (s.eaDU ra d, 2, true)
  | .stwu _ ra d => some (s.eaDU ra d, 4, true)
  | .stbx _ ra rb => some (s.eaX ra rb, 1, true)
  | .sthx _ ra rb | .sthbrx _ ra rb => some (s.eaX ra rb, 2, true)
  | .stwx _ ra rb | .stwbrx _ ra rb => some (s.eaX ra rb, 4, true)
  | .stbux _ ra rb => some (s.eaXU ra rb, 1, true)
  | .sthux _ ra rb => some (s.eaXU ra rb, 2, true)
  | .stwux _ ra rb => some (s.eaXU ra rb, 4, true)
  | .lswi _ ra nb => some (s.gprOrZero ra, stringCount nb, false)
  | .stswi _ ra nb => some (s.gprOrZero ra, stringCount nb, true)
  | .lswx rt ra rb =>
    if stringIndexedOk rt ra rb s.xerTBC = true ∧ s.xerTBC ≠ 0 then some (s.eaX ra rb, s.xerTBC, false) else none
  | .stswx _ ra rb => if s.xerTBC ≠ 0 then some (s.eaX ra rb, s.xerTBC, true) else none
  | .lwarx _ ra rb => some (s.eaX ra rb, 4, false)
  | .stwcxDot _ ra rb => if s.eaX ra rb &&& 3 = 0 ∧ s.reserve = true then some (s.eaX ra rb, 4, true) else none
  | _ => none

/-- What becomes of a load or a store that may not be made: the exception of the first byte that fails is taken with
nothing loaded or stored (40_storage_reference.md R241; 60_exceptions.md R533, R545); storage both write-through and
caching inhibited (20_memory.md R122; 93 U9) and two matching TLB entries (20_memory.md R114; 92 D22) are refused by name:
both refusals are the spec's own decisions (log entries 26, 27). That a multiple or string instruction has moved nothing
is its decision D30, not to be used against hardware (log entry 32); that the first failing byte decides is D2 (log
entry 20). That a misaligned `lwarx` has its access exception before the alignment interrupt is the model's choice, read
from 92 D24 against the pseudocode of R244 (log entry 18). -/
def Obligations.AccessStops : Prop :=
  ∀ s i ea n store, wholeAccess s i = some (ea, n, store) → i.wf = true →
    (∀ e, access s ea n store = .error (.exc e) → exec i s = .next (takeException e s)) ∧
    (∀ r, access s ea n store = .error (.refuse r) → exec i s = .refused r ∧
      (r = .tlbMultipleMatch ∨ r = .writeThroughInhibited))

/-- The address an instruction looks up as data, and whether the miss is a store's: as `firstAccess`, and those that raise
the Data TLB miss alone (46_cache_management.md R431). -/
def missAccess (s : State) : Instr → Option (Word × Bool)
  | .icbt ra rb | .iccci ra rb | .icread ra rb => some (s.eaX ra rb, false)
  | .dccci ra rb => some (s.eaX ra rb, true)
  | .dcread _ ra rb => some (s.eaX ra rb, false)
  | i => firstAccess s i

/-- The data exceptions. With MSR[DR] = 1 no entry for the first byte is the Data TLB Miss interrupt, DEAR the address,
ESR[DST] for a store, no other effect (60_exceptions.md R545). One entry for it and a denied access is the Data Storage
interrupt: a zone field of 00 in user mode (ESR[DIZ]); a store to a page with WR = 0 that the zone does not override; in
either translation mode a store to U0 storage under CCR0[U0XE] (ESR[U0F]) (60_exceptions.md R533; 20_memory.md R115, R116,
R121). Which cache instructions take which, and as load or store, is the table of 46_cache_management.md R431, whose
confidence the spec calls that of recollection; that their DEAR is the unrounded address and that the U0 exception applies
to them is the model's reading (log entry 19), and that the first byte decides is D2 (log entry 20). That a misaligned
`lwarx` or `dcread` has its data exception before the alignment interrupt is the model's choice, read from 92 D24 against
the pseudocode of 40_storage_reference.md R244 and 46_cache_management.md R447 (log entry 18). -/
def Obligations.DataExceptions : Prop :=
  ∀ s i ea store, i.wf = true → (privilegedInstr i = true → s.userMode = false) →
    (missAccess s i = some (ea, store) → s.msrDR = true → noEntry s ea → Completes (exec i s) fun t =>
      EntersNonCritical s t 0x1100 s.pc (s.keptSyndrome ||| storeSyndrome store) ea) ∧
    (firstAccess s i = some (ea, store) → s.msrDR = true → ∀ k : Fin 64, onlyEntry s ea k →
      let e := s.tlb[k]
      (zoneDenies s e → Completes (exec i s) fun t =>
        EntersNonCritical s t 0x0300 s.pc (s.keptSyndrome ||| storeSyndrome store ||| 0x00400000) ea) ∧
      (¬zoneDenies s e → store = true → e.wr = false → ¬zoneAllows s e → Completes (exec i s) fun t =>
        EntersNonCritical s t 0x0300 s.pc (s.keptSyndrome ||| 0x00800000) ea) ∧
      (¬zoneDenies s e → store = true → (e.wr = true ∨ zoneAllows s e) → e.u0 = true → bitAt (s.spr .ccr0) 14 = true →
        Completes (exec i s) fun t =>
          EntersNonCritical s t 0x0300 s.pc (s.keptSyndrome ||| 0x00800000 ||| 0x00008000) ea)) ∧
    (firstAccess s i = some (ea, true) → s.msrDR = false → (realAttrs s ea).u0 = true → bitAt (s.spr .ccr0) 14 = true →
      Completes (exec i s) fun t =>
        EntersNonCritical s t 0x0300 s.pc (s.keptSyndrome ||| 0x00800000 ||| 0x00008000) ea)

/-- A data cache operation of an instruction without result: no register changes but the program counter. -/
structure DataCacheOp (s t : State) : Prop where
  rest : KeepsForAccess s t []
  cr : t.cr = s.cr
  reserve : t.reserve = s.reserve

/-- The alignment interrupts: `lwarx`, `stwcx.` and `dcread` at an address that is no multiple of 4, `dcbz` to storage
that is caching inhibited or write-through; DEAR the address, ESR unchanged (60_exceptions.md R536). It comes after the
access checks, but for `stwcx.`, which tests its alignment before all (R527, R536, 92 D24 and D28; log entry 18). `dcbz` at an inhibited block that
is still cached takes the interrupt or acts on the line (93 U10; log entry 16): then, where storage is coherent, the 32
bytes of the block read as zero, the line is modified and every other byte is as before (46_cache_management.md R440). -/
def Obligations.AlignmentInterrupts : Prop :=
  ∀ s (r ra rb : Reg),
    let ea := (if ra = 0 then 0 else s.gpr ra) + s.gpr rb
    let aligns := fun i => Completes (exec i s) fun t => EntersNonCritical s t 0x0600 s.pc (s.spr .esr) ea
    (ea &&& 3 ≠ 0 → aligns (.stwcxDot r ra rb)) ∧
    (ea &&& 3 ≠ 0 → ∀ ps, access s ea 4 false = .ok ps → aligns (.lwarx r ra rb)) ∧
    (ea &&& 3 ≠ 0 → s.userMode = false → ∀ p, lookupData s ea = .page p → aligns (.dcread r ra rb)) ∧
    ∀ p, locate s ea true = .ok p →
      ((p.attrs.w = true ∨ (p.attrs.i = true ∧ s.dFind (blockOf p.ra) = none)) → aligns (.dcbz ra rb)) ∧
      (p.attrs.w = false → p.attrs.i = true → Completes (exec (.dcbz ra rb) s) fun t =>
        EntersNonCritical s t 0x0600 s.pc (s.spr .esr) ea ∨ (DataCacheOp s t ∧ (s.coherent →
          (∀ a, t.dataByte a = if blockOf a = blockOf p.ra then 0 else s.dataByte a) ∧
          ∃ w, t.dLine (blockOf p.ra) = some w ∧ w.dirty = true)))

/-! ### Caches (46_cache_management.md) -/

/-- `dcbst` and `dcbf` bring memory up to the block: afterwards memory holds what the program sees; `dcbst` leaves the
line, unmodified, `dcbf` makes it invalid and leaves its D bit (R438, R441). The exact arrays are the refinement R130
allows (log entry 15). -/
def Obligations.FlushBlocks : Prop :=
  ∀ s (ra rb : Reg) p, locate s (s.gprOrZero ra + s.gpr rb) false = .ok p →
    Completes (exec (.dcbst ra rb) s) (fun t => DataCacheOp s t ∧ (s.coherent →
      (∀ a, t.dataByte a = s.dataByte a) ∧ (∀ a, blockOf a = blockOf p.ra → memGet t.mem a.toNat = s.dataByte a) ∧
      t.dFind (blockOf p.ra) = s.dFind (blockOf p.ra) ∧ ∀ w, t.dLine (blockOf p.ra) = some w → w.dirty = false)) ∧
    Completes (exec (.dcbf ra rb) s) (fun t => DataCacheOp s t ∧ (s.coherent →
      (∀ a, t.dataByte a = s.dataByte a) ∧ (∀ a, blockOf a = blockOf p.ra → memGet t.mem a.toNat = s.dataByte a) ∧
      t.dFind (blockOf p.ra) = none ∧ ∀ k, s.dFind (blockOf p.ra) = some k →
        (t.dset (blockOf p.ra)).way k = { (s.dset (blockOf p.ra)).way k with valid := false }))

/-- `dcbi` makes one block invalid, `dccci` both ways of one class, neither writing anything to memory: the program
sees memory's bytes there, and everything else as before; what the fill buffer held of the block addressed is gone (R439,
R444; 20_memory.md R138). That modified bytes are lost for certain is the
model's exact array (log entry 15). `dccci` on a page that denies a store completes by the table of R431 and takes the
Data Storage interrupt by the words of 60_exceptions.md R533 (b): either comes (log entry 19). -/
def Obligations.InvalidateBlocks : Prop :=
  ∀ s (ra rb : Reg), s.userMode = false →
    let ea := s.gprOrZero ra + s.gpr rb
    (∀ p, locate s ea true = .ok p → Completes (exec (.dcbi ra rb) s) fun t => DataCacheOp s t ∧ t.mem = s.mem ∧
      t.fillBufferFor (blockOf p.ra) = none ∧ ((∀ i, (dsetGet s.dcache i).distinct) →
        t.dFind (blockOf p.ra) = none ∧ ∀ a, blockOf a ≠ blockOf p.ra → t.dataByte a = s.dataByte a)) ∧
    let invalidates := fun (p : Page) t => DataCacheOp s t ∧ t.mem = s.mem ∧ t.fillBufferFor (blockOf p.ra) = none ∧
      (∀ a, ea.toNat / 32 % 128 = a.toNat / 32 % 128 → t.dFind (blockOf a) = none) ∧
      ∀ a, ea.toNat / 32 % 128 ≠ a.toNat / 32 % 128 → t.dataByte a = s.dataByte a
    (∀ p, lookupData s ea = .page p → p.writeDenied s.msrPR = false → Completes (exec (.dccci ra rb) s) (invalidates p)) ∧
    ∀ p, lookupData s ea = .page p → p.writeDenied s.msrPR = true → Completes (exec (.dccci ra rb) s) fun t =>
      invalidates p t ∨ EntersNonCritical s t 0x0300 s.pc (s.keptSyndrome ||| 0x00800000) ea

/-- `dcbz` to cachable write-back storage: the 32 bytes of the block read as zero, the line is in the cache and
modified, every other byte is as before (R440). -/
def Obligations.ZeroBlock : Prop :=
  ∀ s (ra rb : Reg) p, locate s (s.gprOrZero ra + s.gpr rb) true = .ok p → p.attrs.i = false → p.attrs.w = false →
    Completes (exec (.dcbz ra rb) s) fun t => DataCacheOp s t ∧ (s.coherent →
      (∀ a, t.dataByte a = if blockOf a = blockOf p.ra then 0 else s.dataByte a) ∧
      ∃ w, t.dLine (blockOf p.ra) = some w ∧ w.dirty = true)

/-- `dcbt` and `dcbtst` bring a cachable block into the cache and change no byte; where the access would raise an
exception, and in caching-inhibited storage, they do nothing. `dcba` establishes the line modified, its bytes open unless
it was cached; in write-through storage as well it does nothing (R442, R443, R446; log entry 35). -/
def Obligations.TouchBlocks : Prop :=
  ∀ s (ra rb : Reg),
    let ea := s.gprOrZero ra + s.gpr rb
    (∀ i ∈ [Instr.dcbt ra rb, .dcbtst ra rb],
      (∀ e, locate s ea false = .error (.exc e) → Completes (exec i s) fun t => OnlyAdvances s t) ∧
      ∀ p, locate s ea false = .ok p →
        (p.attrs.i = true → Completes (exec i s) fun t => OnlyAdvances s t) ∧
        (p.attrs.i = false → Completes (exec i s) fun t =>
          DataCacheOp s t ∧ (t.dFind (blockOf p.ra)).isSome = true ∧ (s.coherent → ∀ a, t.dataByte a = s.dataByte a))) ∧
    (∀ e, locate s ea true = .error (.exc e) → Completes (exec (.dcba ra rb) s) fun t => OnlyAdvances s t) ∧
    ∀ p, locate s ea true = .ok p →
      ((p.attrs.i = true ∨ p.attrs.w = true) → Completes (exec (.dcba ra rb) s) fun t => OnlyAdvances s t) ∧
      (p.attrs.i = false → p.attrs.w = false →
        Completes (exec (.dcba ra rb) s) fun t => DataCacheOp s t ∧ (s.coherent →
          (∀ a, blockOf a ≠ blockOf p.ra ∨ (s.dFind (blockOf p.ra)).isSome = true → t.dataByte a = s.dataByte a) ∧
          ∃ w, t.dLine (blockOf p.ra) = some w ∧ w.dirty = true))

/-- The instruction cache operations: after `icbi` the class of the address no longer holds the block; after `iccci`
no line is valid; both open a context-change window, in which a fetch may still go by the old lines. `icbt` brings a
cachable block in where something answers at all its addresses, and does nothing where the storage is caching inhibited or
its zone denies it (R431 to R434; 70_reset_and_hazards.md R621). Of synonyms in other classes nothing is said (log
entry 17). -/
def Obligations.InstructionCacheOps : Prop :=
  ∀ s (ra rb : Reg),
    let ea := s.gprOrZero ra + s.gpr rb
    let window := fun t : State => t.oldContexts = s.fetchContext :: s.oldContexts
    (∀ p, locate s ea false = .ok p → Completes (exec (.icbi ra rb) s) fun t => OnlyICache s t ∧ window t ∧
      (isetGet t.icache (iIndex ea)).find (iTag p.ra) = none) ∧
    (s.userMode = false → ∀ p, lookupData s ea = .page p →
      Completes (exec (.iccci ra rb) s) (fun t => OnlyICache s t ∧ window t ∧ ∀ i,
        (isetGet t.icache i).a.valid = false ∧ (isetGet t.icache i).b.valid = false) ∧
      ((p.zoneDenied s.msrPR = true ∨ p.attrs.i = true) → Completes (exec (.icbt ra rb) s) fun t => OnlyAdvances s t) ∧
      (p.zoneDenied s.msrPR = false → p.attrs.i = false → Completes (exec (.icbt ra rb) s) fun t =>
        OnlyICache s t ∧ ((∀ a, a / 32 = blockOf p.ra → regionAt s.memMap a ≠ some .unbacked) →
          ((isetGet t.icache (iIndex ea)).find (iTag p.ra)).isSome = true)))

/-- `icread` into ICDBDR and `dcread` into RT, from the way CCR0[CWS] selects: with CCR0[CIS] = 0 a word of the line,
with CIS = 1 its tag word field by field, ICDBDR's reserved bits as R437 shows them; nothing else changes (R435, R437,
R445, R447). The exact arrays are the
refinement R130 allows (log entries 14, 15). -/
def Obligations.CacheReads : Prop :=
  ∀ s (rt ra rb : Reg) p, s.userMode = false → lookupData s (s.gprOrZero ra + s.gpr rb) = .page p →
    let ea := s.gprOrZero ra + s.gpr rb
    let n := ea.toNat / 4 % 8
    let x := isetGet s.icache (ea.toNat / 32 % 256)
    let iw := if bitAt (s.spr .ccr0) 31 then x.b else x.a
    let y := dsetGet s.dcache (ea.toNat / 32 % 128)
    let dw := if bitAt (s.spr .ccr0) 31 then y.b else y.a
    let tags := bitAt (s.spr .ccr0) 27
    Completes (exec (.icread ra rb) s) (fun t =>
      let v := t.spr .icdbdr
      (tags = false → iw.words[n]? = some v) ∧
      (tags = true → fieldTo v 21 22 = iw.tag ∧ bitAt v 27 = iw.valid ∧ bitAt v 31 = x.lru ∧ v &&& 0x000003EE = 0) ∧
      t.icdbdrTag = tags ∧
      (∀ r, r ≠ .icdbdr → t.spr r = s.spr r) ∧ (∀ r, t.gpr r = s.gpr r) ∧ t.cr = s.cr ∧ t.pc = s.pc + 4 ∧
      KeepsSystem s t) ∧
    (ea &&& 3 = 0 → Completes (exec (.dcread rt ra rb) s) fun t =>
      let v := t.gpr rt
      WritesGpr s t rt v ∧
      (tags = false → v = wordOf ((List.range 4).map fun k => (dw.bytes[4 * n + k]?).getD 0)) ∧
      (tags = true → fieldTo v 19 20 = dw.tag ∧ bitAt v 26 = dw.dirty ∧ bitAt v 27 = dw.valid ∧ bitAt v 31 = y.lru))

/-! ### Interrupt control and the TLB (47_interrupt_control_tlb.md) -/

/-- What a privileged move leaves alone besides its target: bytes, general registers, and the registers named here. -/
structure KeepsTimersAndDcrs (s t : State) : Prop where
  tb : t.tb = s.tb
  pitReload : t.pitReload = s.pitReload
  dcrs : t.dcrs = s.dcrs

/-- An instruction writes the MSR with `v` and nothing else. -/
structure WritesMsr (s t : State) (v : Word) : Prop where
  msr : t.msr = v
  next : t.pc = s.pc + 4
  sprs : ∀ r, t.spr r = s.spr r
  tlb : t.tlb = s.tlb
  rest : KeepsBytesAndGprs s t
  timers : KeepsTimersAndDcrs s t

/-- A return from an interrupt: MSR and program counter from a pair of save registers; prefetched words are discarded. -/
structure Returns (s t : State) (pc msr : Word) : Prop where
  pc : t.pc = pc &&& ~~~3
  msr : t.msr = msr &&& msrMask
  sprs : ∀ r, t.spr r = s.spr r
  tlb : t.tlb = s.tlb
  rest : KeepsBytesAndGprs s t
  timers : KeepsTimersAndDcrs s t
  refetch : t.ahead = [] ∧ t.oldContexts = []

/-- In supervisor mode: `mfmsr` reads the MSR's defined bits, `mtmsr` writes them, `wrtee` and `wrteei` write EE alone;
`rfi` returns by SRR0 and SRR1, `rfci` by SRR2 and SRR3 (R461 to R466). -/
def Obligations.MsrMovesAndReturns : Prop :=
  ∀ s (r : Reg) (e : Bool), s.userMode = false →
    Completes (exec (.mfmsr r) s) (fun t => WritesGpr s t r (t.gpr r) ∧ t.gpr r &&& msrMask = s.msr &&& msrMask) ∧
    Completes (exec (.mtmsr r) s) (fun t => WritesMsr s t (s.gpr r &&& msrMask)) ∧
    Completes (exec (.wrtee r) s) (fun t =>
      WritesMsr s t (((s.msr &&& ~~~0x8000) ||| (s.gpr r &&& 0x8000)) &&& msrMask)) ∧
    Completes (exec (.wrteei e) s) (fun t =>
      WritesMsr s t (((s.msr &&& ~~~0x8000) ||| if e then 0x8000 else 0) &&& msrMask)) ∧
    Completes (exec .rfi s) (fun t => Returns s t (s.spr .srr0) (s.spr .srr1)) ∧
    Completes (exec .rfci s) (fun t => Returns s t (s.spr .srr2) (s.spr .srr3))

/-- Reading ahead: one path adds the word at the program counter, unless that is guarded, and at most 19 words past it to
the fetched-ahead set, none from guarded storage, and changes no register and no byte of memory; a step may run a word of
the set, fetched under the mode of that moment, in place of the word now at the program counter (20_memory.md R120;
70_reset_and_hazards.md R620, R624). -/
def Obligations.ReadAhead : Prop :=
  (∀ s c path, ∃ new, (readPath c path 20 s.pc [] false false s).ahead = new ++ s.ahead ∧ new.length ≤ 20 ∧
    (mayPrefetch c s.pc = true → path ≠ [] → new.getLast?.map (·.addr) = some s.pc) ∧
    (∀ f ∈ new, mayPrefetch c f.addr = true ∧ (bitAt c.msr 26 = false → bitAt c.sgr (f.addr.toNat / 2 ^ 27) = false)) ∧
    FetchedFrom s (readPath c path 20 s.pc [] false false s)) ∧
  ∀ s f w i n, s.inputs = [{ s.quiet with useAhead := n + 1 }] → s.stuck = false →
    pendingInterrupt (s.settle 0) false = none → s.msrWE = false → s.aheadHere[n]? = some f → f.result = .word w → decode w = .ok i →
    step s = exec i
      { quietBoundary s with inputs := [], fetchedUser := some f.user, waited := s.waited.filterMap (wayOn s.pc) }

/-- An instruction changes the TLB alone. -/
structure WritesTlb (s t : State) : Prop where
  next : t.pc = s.pc + 4
  msr : t.msr = s.msr
  sprs : ∀ r, t.spr r = s.spr r
  rest : KeepsBytesAndGprs s t
  timers : KeepsTimersAndDcrs s t

/-- The TLB index in a register: its low six bits. -/
def entryIndex (w : Word) : Fin 64 := ⟨w.toNat % 64, Nat.mod_lt _ (by decide)⟩

/-- `tlbre` gives the fields of an entry, and with WS = 0 the PID its TID; `tlbwe` writes one word of one entry, with
WS = 0 its TID from the PID; `tlbia` clears every V and nothing else; WS above 1 is refused (R469 to R472). That bits 28 to
31 of the tag word read as zeros, as R470 prints them, is the model's reading beside R471 and 10_state.md R71, which call
them reserved (log entry 10). -/
def Obligations.TlbMoves : Prop :=
  ∀ s (r ra : Reg) (ws : BitVec 5), s.userMode = false →
    let k := entryIndex (s.gpr ra)
    let e := s.tlb[k]
    let v := s.gpr r
    Completes (exec (.tlbre r ra 0) s) (fun t =>
      fieldTo (t.gpr r) 21 22 = e.epn ∧ fieldTo (t.gpr r) 24 3 = e.size ∧ bitAt (t.gpr r) 25 = e.v ∧
      bitAt (t.gpr r) 26 = e.e ∧ bitAt (t.gpr r) 27 = e.u0 ∧ t.gpr r &&& 0xF = 0 ∧ t.spr .pid = e.tid.setWidth 32 ∧
      (∀ q, q ≠ r → t.gpr q = s.gpr q) ∧ (∀ q, q ≠ .pid → t.spr q = s.spr q) ∧ t.cr = s.cr ∧ t.pc = s.pc + 4 ∧
      KeepsSystem s t) ∧
    Completes (exec (.tlbre r ra 1) s) (fun t => WritesGpr s t r (t.gpr r) ∧
      fieldTo (t.gpr r) 21 22 = e.rpn ∧ bitAt (t.gpr r) 22 = e.ex ∧ bitAt (t.gpr r) 23 = e.wr ∧
      fieldTo (t.gpr r) 27 4 = e.zsel ∧ bitAt (t.gpr r) 28 = e.w ∧ bitAt (t.gpr r) 29 = e.i ∧
      bitAt (t.gpr r) 30 = e.m ∧ bitAt (t.gpr r) 31 = e.g) ∧
    Completes (exec (.tlbwe r ra 0) s) (fun t => WritesTlb s t ∧ (∀ j : Fin 64, j ≠ k → t.tlb[j] = s.tlb[j]) ∧
      t.tlb[k] = { e with epn := fieldTo v 21 22, size := fieldTo v 24 3, v := bitAt v 25, e := bitAt v 26,
                          u0 := bitAt v 27, tid := (s.spr .pid).setWidth 8 }) ∧
    Completes (exec (.tlbwe r ra 1) s) (fun t => WritesTlb s t ∧ (∀ j : Fin 64, j ≠ k → t.tlb[j] = s.tlb[j]) ∧
      t.tlb[k] = { e with rpn := fieldTo v 21 22, ex := bitAt v 22, wr := bitAt v 23, zsel := fieldTo v 27 4,
                          w := bitAt v 28, i := bitAt v 29, m := bitAt v 30, g := bitAt v 31 }) ∧
    (1 < ws.toNat → exec (.tlbre r ra ws) s = .refused .invalidTlbWordSelect ∧
      exec (.tlbwe r ra ws) s = .refused .invalidTlbWordSelect) ∧
    Completes (exec .tlbia s) (fun t => WritesTlb s t ∧ ∀ j : Fin 64, t.tlb[j] = { s.tlb[j] with v := false }) ∧
    Completes (exec .tlbsync s) (fun t => OnlyAdvances s t)

/-- `tlbsx`: the index of the one entry that matches; where none does, any value in RT; with Rc, `00 || found || SO` in
CR0. Two matching entries are refused (R468). -/
def Obligations.TlbSearch : Prop :=
  ∀ s (rt ra rb : Reg) (rc : Bool), s.userMode = false →
    let hit := fun k : Fin 64 => tlbMatches ((s.spr .pid).setWidth 8) (s.gprOrZero ra + s.gpr rb) s.tlb[k]
    (∀ k, hit k = true → (∀ j, j ≠ k → hit j = false) → Completes (exec (.tlbsx rt ra rb rc) s) fun t =>
      t.gpr rt = BitVec.ofNat 32 k ∧ OnlyInteger s t rt ∧ t.spr .xer = s.spr .xer ∧
      crField t.cr 0 = if rc then condField false false true s.xerSO else crField s.cr 0) ∧
    ((∀ k, hit k = false) → Completes (exec (.tlbsx rt ra rb rc) s) fun t =>
      OnlyInteger s t rt ∧ t.spr .xer = s.spr .xer ∧
      crField t.cr 0 = if rc then condField false false false s.xerSO else crField s.cr 0) ∧
    ∀ j k, j ≠ k → hit j = true → hit k = true → exec (.tlbsx rt ra rb rc) s = .refused .tlbMultipleMatch

/-! ### Processor management (48_processor_management.md) -/

/-- A data-side bus error is reported, or some bus write of the core that is under way goes to an address where nothing
answers and reports one when it arrives (60_exceptions.md R531). -/
def errsOnArrival (s : State) : Prop :=
  s.busError = true ∨ ∃ w ∈ s.unsettled, ∃ o ∈ w, regionAt s.memMap o.addr = some .unbacked

/-- `isync` discards prefetched words and the old contexts and says nothing of memory; `sync` and `eieio` end the fill
buffer's validity, let everything the core wrote arrive, with the bus errors that brings, end what `icbt` started, and
discard nothing prefetched; none changes a register but the program counter (R491 to R493; 70_reset_and_hazards.md
R628). That eieio does all of it as sync does is the model's reading (log entry 40). -/
def Obligations.Synchronization : Prop :=
  ∀ s,
    Completes (exec .isync s) (fun t => OnlyAdvances s t ∧ t.ahead = [] ∧ t.waited = [] ∧ t.oldContexts = [] ∧
      t.fetchedUser = none ∧ t.icbtPending = false ∧ t.unsettled = s.unsettled) ∧
    ∀ i ∈ [Instr.sync, .eieio], Completes (exec i s) fun t => OnlyAdvances s t ∧ t.fillBuffer = none ∧
      t.unsettled = [] ∧ t.busMem = t.mem ∧ t.drained = true ∧ t.icbtPending = false ∧ t.ahead = s.ahead ∧
      t.oldContexts = s.oldContexts ∧ (t.busError = true ↔ errsOnArrival s)

/-- A number may be accessed in the present mode. -/
def mayAccess (s : State) (n : RegNum) : Prop := s.userMode = false ∨ sprPrivileged n = false

/-- The numbers that name one register for reading and writing (10_state.md R54). -/
def sprNumbers : List (RegNum × Spr) :=
  [(0x001, .xer), (0x008, .lr), (0x009, .ctr), (0x01A, .srr0), (0x01B, .srr1), (0x100, .usprg0), (0x110, .sprg0),
   (0x111, .sprg1), (0x112, .sprg2), (0x113, .sprg3), (0x114, .sprg4), (0x115, .sprg5), (0x116, .sprg6), (0x117, .sprg7),
   (0x3B0, .zpr), (0x3B1, .pid), (0x3B3, .ccr0), (0x3B4, .iac3), (0x3B5, .iac4), (0x3B6, .dvc1), (0x3B7, .dvc2),
   (0x3B9, .sgr), (0x3BA, .dcwr), (0x3BB, .sler), (0x3BC, .su0r), (0x3BD, .dbcr1), (0x3D4, .esr), (0x3D5, .dear),
   (0x3D6, .evpr), (0x3D8, .tsr), (0x3DA, .tcr), (0x3DB, .pit), (0x3DE, .srr2), (0x3DF, .srr3), (0x3F0, .dbsr),
   (0x3F2, .dbcr0), (0x3F4, .iac1), (0x3F5, .iac2), (0x3F6, .dac1), (0x3F7, .dac2), (0x3FA, .dccr), (0x3FB, .iccr)]

/-- The numbers `mfspr` reads a stored register at: those, SPRG4 to SPRG7 at their user numbers, and ICDBDR. -/
def readNumbers : List (RegNum × Spr) :=
  sprNumbers ++ [(0x104, .sprg4), (0x105, .sprg5), (0x106, .sprg6), (0x107, .sprg7), (0x3D3, .icdbdr)]

/-- `mfspr` reads the defined bits of every register of the list in 10_state.md R54, ICDBDR after a synchronisation and
by the format of what it holds (10_state.md R66); the PVR is the implementation's constant; another number is refused (R497, R506). -/
def Obligations.SprReads : Prop :=
  ∀ s (rt : Reg) (n : RegNum), mayAccess s n →
    (∀ r, (n, r) ∈ readNumbers → Completes (exec (.mfspr rt n) s) fun t => WritesGpr s t rt (t.gpr rt) ∧
      let mask := if r = .icdbdr ∧ s.icdbdrTag = true then 0xFFFFFC11 else r.mask
      ((r = .icdbdr → s.icdbdrPending = false) → t.gpr rt &&& mask = s.spr r &&& mask)) ∧
    (n = 0x11F → Completes (exec (.mfspr rt n) s) fun t => WritesGpr s t rt Config.pvrValue) ∧
    (n ≠ 0x11F → (∀ r, (n, r) ∉ readNumbers) → exec (.mfspr rt n) s = .refused .sprNotImplemented)

/-- What a register holds after `mtspr` of `v`: TSR and DBSR are cleared by ones, TCR[WRC] only gains bits (R505). -/
def afterWrite (r : Spr) (old v : Word) : Word :=
  if r = .tsr ∨ r = .dbsr then old &&& ~~~v else if r = .tcr then v ||| (old &&& 0x30000000) else v

/-- `mtspr` writes one register and nothing else, the PIT its reload value as well. -/
structure WritesSpr (s t : State) (r : Spr) (v : Word) : Prop where
  value : t.spr r = v
  others : ∀ q, q ≠ r → t.spr q = s.spr q
  next : t.pc = s.pc + 4
  msr : t.msr = s.msr
  tb : t.tb = s.tb
  pitReload : t.pitReload = if r = .pit then v else s.pitReload
  tlb : t.tlb = s.tlb
  dcrs : t.dcrs = s.dcrs
  memMap : t.memMap = s.memMap
  rest : KeepsBytesAndGprs s t

/-- `mtspr` to a stored register of the list in 10_state.md R54: its defined bits, with the effects of R505; the PIT also
sets the reload value. DBCR0 without a mode, an event enable and a reset request is written, DBCR1 only with zeros
(60_exceptions.md R583). A number that cannot be written is refused (R501, R505, R506). The CCR0 stop takes one of the
treatments R628 offers (log entry 23); the debug refusal is the spec's decision D19 (log entry 24). -/
def Obligations.SprWrites : Prop :=
  ∀ s (rs : Reg) (n : RegNum), mayAccess s n →
    let v := s.gpr rs
    (∀ r, (n, r) ∈ sprNumbers → r ≠ .ccr0 → r ≠ .dbcr0 → r ≠ .dbcr1 → Completes (exec (.mtspr n rs) s) fun t =>
      WritesSpr s t r (afterWrite r (s.spr r) v &&& r.mask)) ∧
    (n = 0x3B3 → (bitAt v 14 = bitAt (s.spr .ccr0) 14 ∨ (s.msrCE = false ∧ s.msrEE = false ∧ s.drained = true ∧
        s.icbtPending = false)) →
      Completes (exec (.mtspr n rs) s) fun t => WritesSpr s t .ccr0 (v &&& Spr.mask .ccr0)) ∧
    (n = 0x3B3 → bitAt v 14 ≠ bitAt (s.spr .ccr0) 14 → (s.msrCE = true ∨ s.msrEE = true ∨ s.drained = false ∨
        s.icbtPending = true) →
      exec (.mtspr n rs) s = .fault .ccr0Hang) ∧
    (n = 0x3F2 → v &&& 0xFFEE0000 = 0 → Completes (exec (.mtspr n rs) s) fun t =>
      WritesSpr s t .dbcr0 (v &&& Spr.mask .dbcr0)) ∧
    (n = 0x3BD → v &&& Spr.mask .dbcr1 = 0 → Completes (exec (.mtspr n rs) s) fun t => WritesSpr s t .dbcr1 0) ∧
    (n = 0x3F2 → v &&& 0xCFEE0000 ≠ 0 → exec (.mtspr n rs) s = .refused .debugEnabled) ∧
    (n = 0x3BD → v &&& Spr.mask .dbcr1 ≠ 0 → exec (.mtspr n rs) s = .refused .debugEnabled) ∧
    (n ≠ 0x11C → n ≠ 0x11D → (∀ r, (n, r) ∉ sprNumbers) → exec (.mtspr n rs) s = .refused .sprNotImplemented)

/-- The time base and the DCRs: `mftb` reads a half in either mode; `mtspr` to TBU, and to TBL where no watched bit
rises, writes a half and nothing else; `mfdcr` and `mtdcr` read and write a register the platform has, each as the
platform says, and no other register. The memory map after `mtdcr` is the platform's; a byte can change only where a write
of the core has not reached memory (R496, R498, R500, R505; 60_exceptions.md R570, R572; 00_scope.md R13; log entry
6). That `mftb` of another number is refused in user mode too is the model's reading of R498 beside 93 U24 (log entry
25). -/
def Obligations.TimeBaseAndDcrs : Prop :=
  ∀ s (r : Reg) (n : RegNum),
    let v := s.gpr r
    Completes (exec (.mftb r 268) s) (fun t => WritesGpr s t r (s.tb.setWidth 32)) ∧
    Completes (exec (.mftb r 269) s) (fun t => WritesGpr s t r ((s.tb >>> 32).setWidth 32)) ∧
    (n ≠ 268 → n ≠ 269 → exec (.mftb r n) s = .refused .tbrNotImplemented) ∧
    (s.userMode = false →
      Completes (exec (.mtspr 0x11D r) s) (fun t => t.tb = v ++ s.tb.setWidth 32 ∧ (∀ q, t.spr q = s.spr q) ∧
        t.pc = s.pc + 4 ∧ t.msr = s.msr ∧ t.tlb = s.tlb ∧ t.dcrs = s.dcrs ∧ KeepsBytesAndGprs s t) ∧
      ((∀ b ∈ [3, 7, 11, 15, 19, 23], bitAt (s.tb.setWidth 32) b = false → bitAt v b = false) →
        Completes (exec (.mtspr 0x11C r) s) fun t => t.tb = (s.tb >>> 32).setWidth 32 ++ v ∧
          (∀ q, t.spr q = s.spr q) ∧ t.pc = s.pc + 4 ∧ t.msr = s.msr ∧ t.tlb = s.tlb ∧ t.dcrs = s.dcrs ∧
          KeepsBytesAndGprs s t) ∧
      (∀ w, dcrGet s.dcrs n = some w →
        Completes (exec (.mfdcr r n) s) (fun t => t.gpr r = Config.dcrRead n w ∧ (∀ q, q ≠ r → t.gpr q = s.gpr q) ∧
          dcrGet t.dcrs n = some (Config.dcrAfterRead n w) ∧ (∀ m, m ≠ n → dcrGet t.dcrs m = dcrGet s.dcrs m) ∧
          (∀ q, t.spr q = s.spr q) ∧ t.cr = s.cr ∧ t.pc = s.pc + 4 ∧ t.msr = s.msr ∧ t.tlb = s.tlb ∧ t.tb = s.tb ∧
          t.reserve = s.reserve ∧ t.memMap = s.memMap ∧ ∀ a, t.dataByte a = s.dataByte a) ∧
        Completes (exec (.mtdcr n r) s) (fun t => dcrGet t.dcrs n = some (Config.dcrWrite n w v) ∧
          (∀ m, m ≠ n → dcrGet t.dcrs m = dcrGet s.dcrs m) ∧ t.memMap = Config.dcrMap n v s.memMap ∧
          (∀ q, t.gpr q = s.gpr q) ∧ (∀ q, t.spr q = s.spr q) ∧ t.cr = s.cr ∧ t.pc = s.pc + 4 ∧ t.msr = s.msr ∧
          t.tlb = s.tlb ∧ t.tb = s.tb ∧ t.pitReload = s.pitReload ∧ t.reserve = s.reserve ∧ t.icache = s.icache ∧
          ∀ a : Word, (∀ ow ∈ s.unsettled, ∀ o ∈ ow, o.addr ≠ a.toNat) → t.dataByte a = s.dataByte a)) ∧
      (dcrGet s.dcrs n = none → exec (.mfdcr r n) s = .refused .dcrNotImplemented ∧
        exec (.mtdcr n r) s = .refused .dcrNotImplemented))

/-! ### Interrupts, privilege, reset, the whole machine (60_exceptions.md, 70_reset_and_hazards.md) -/

/-- The fetch exceptions, raised when the word is to run. Translated, no entry for the program counter is the Instruction
TLB Miss, ESR and DEAR unchanged (R546); a zone field of 00 in user mode (ESR[DIZ]), EX = 0 that the zone does not
override, and guarded storage are the Instruction Storage interrupt (R534). A word that the array does not hold and at one
of whose bytes nothing answers is the instruction machine check, SRR2 its own address, ESR[MCI] set; with MSR[ME] = 0
ESR[MCI] is set, nothing else happens, and there is no next step (R532). A fetch that two TLB entries translate, and one
allowed in storage both write-through and caching inhibited, are refused (20_memory.md R114, 92 D22, log entry 27;
20_memory.md R122, 93 U9, log entry 26). -/
def Obligations.FetchExceptions : Prop :=
  ∀ s, RunsNext s →
    (s.msrIR = true → noEntry s s.pc → Completes (step s) fun t =>
      EntersNonCritical s t 0x1200 s.pc (s.spr .esr) (s.spr .dear)) ∧
    (s.msrIR = true → ∀ k : Fin 64, onlyEntry s s.pc k →
      (zoneDenies s s.tlb[k] → Completes (step s) fun t =>
        EntersNonCritical s t 0x0400 s.pc (s.keptSyndrome ||| 0x00400000) (s.spr .dear)) ∧
      (¬zoneDenies s s.tlb[k] → ((s.tlb[k].ex = false ∧ ¬zoneAllows s s.tlb[k]) ∨ s.tlb[k].g = true) →
        Completes (step s) fun t => EntersNonCritical s t 0x0400 s.pc s.keptSyndrome (s.spr .dear)) ∧
      (¬zoneDenies s s.tlb[k] → (s.tlb[k].ex = true ∨ zoneAllows s s.tlb[k]) → s.tlb[k].g = false →
        s.tlb[k].w = true → s.tlb[k].i = true → step s = .refused .writeThroughInhibited)) ∧
    (s.msrIR = true → ∀ j k : Fin 64, j ≠ k → tlbMatches ((s.spr .pid).setWidth 8) s.pc s.tlb[j] = true →
      tlbMatches ((s.spr .pid).setWidth 8) s.pc s.tlb[k] = true → step s = .refused .tlbMultipleMatch) ∧
    ∀ ra inhibited little, FetchesFrom s ra inhibited little →
      (isetGet s.icache (iIndex s.pc)).find (iTag ra) = none →
      (∃ j < 4, regionAt s.memMap (ra.toNat + j) = some .unbacked) → Completes (step s) fun t =>
        t.spr .esr = (s.spr .esr ||| 0x80000000) &&& Spr.mask .esr ∧ t.gprs = s.gprs ∧ t.cr = s.cr ∧
        t.reserve = s.reserve ∧ t.tlb = s.tlb ∧ t.tb = s.tb ∧ t.dcrs = s.dcrs ∧ (∀ a, t.dataByte a = s.dataByte a) ∧
        (s.msrME = true → t.pc = (s.spr .evpr &&& 0xFFFF0000) ||| 0x0200 ∧ t.spr .srr2 = s.pc ∧
          t.spr .srr3 &&& msrMask = s.msr &&& msrMask ∧ t.msr = 0 ∧
          ∀ r, r ≠ .srr2 → r ≠ .srr3 → r ≠ .esr → t.spr r = s.spr r) ∧
        (s.msrME = false → t.pc = s.pc ∧ t.msr = s.msr ∧ (∀ r, r ≠ .esr → t.spr r = s.spr r) ∧
          step t = .fault .instructionMachineCheck)

/-- The condition of a trap: TO's bits select signed less, signed greater, equal, unsigned less, unsigned greater. -/
def trapCondition (tocond : BitVec 5) (a b : Word) : Prop :=
  (tocond.getLsbD 4 = true ∧ a.toInt < b.toInt) ∨ (tocond.getLsbD 3 = true ∧ b.toInt < a.toInt) ∨
    (tocond.getLsbD 2 = true ∧ a = b) ∨ (tocond.getLsbD 1 = true ∧ a.toNat < b.toNat) ∨
    (tocond.getLsbD 0 = true ∧ b.toNat < a.toNat)

/-- `sc`, in either mode, enters the System Call interrupt with SRR0 the address after it, ESR unchanged, and synchronises
context (48 R502; 60 R543). `tw` and `twi`: the Program interrupt with ESR[PTR] where the condition holds, SRR0 their own
address; else nothing (48 R503, R504; 60 R540). -/
def Obligations.SystemCallAndTraps : Prop :=
  ∀ s (tocond : BitVec 5) (ra rb : Reg) (si : Half),
    let enters := fun t => EntersNonCritical s t 0x0700 s.pc (s.keptSyndrome ||| 0x02000000) (s.spr .dear)
    Completes (exec .sc s) (fun t => EntersNonCritical s t 0x0C00 (s.pc + 4) (s.spr .esr) (s.spr .dear) ∧
      t.oldContexts = [] ∧ t.fetchedUser = none) ∧
    (trapCondition tocond (s.gpr ra) (s.gpr rb) → Completes (exec (.tw tocond ra rb) s) enters) ∧
    (¬trapCondition tocond (s.gpr ra) (s.gpr rb) → Completes (exec (.tw tocond ra rb) s) fun t => OnlyAdvances s t) ∧
    (trapCondition tocond (s.gpr ra) (si.signExtend 32) → Completes (exec (.twi tocond ra si) s) enters) ∧
    (¬trapCondition tocond (s.gpr ra) (si.signExtend 32) → Completes (exec (.twi tocond ra si) s) fun t =>
      OnlyAdvances s t)

/-- Every privileged instruction, and every move to or from an SPR with a privileged number, implemented or not, enters
the Program interrupt with ESR[PPR] in user mode and does nothing else (60 R538; 48 R506). -/
def Obligations.PrivilegedTraps : Prop :=
  ∀ i s, privilegedInstr i = true → s.userMode = true → Completes (exec i s) fun t =>
    EntersNonCritical s t 0x0700 s.pc (s.keptSyndrome ||| 0x04000000) (s.spr .dear)

/-- The special purpose registers user mode may write. -/
def userSpr : Spr → Bool
  | .xer | .lr | .ctr | .usprg0 => true
  | _ => false

/-- A user program cannot write what belongs to the supervisor: an instruction run in user mode either leaves the MSR, the
TLB, the time base, the DCRs, the memory map and every privileged register as they were, or enters an interrupt, after which the
machine is at a vector in supervisor mode with nothing privileged changed but the save registers, ESR and DEAR (R561). -/
def Obligations.UserIsolation : Prop :=
  ∀ i s t, s.userMode = true → exec i s = .next t →
    t.tlb = s.tlb ∧ t.tb = s.tb ∧ t.pitReload = s.pitReload ∧ t.dcrs = s.dcrs ∧ t.memMap = s.memMap ∧
    ((t.msr = s.msr ∧ ∀ r, userSpr r = false → t.spr r = s.spr r) ∨
      ∃ k : Interrupt, t.pc = (s.spr .evpr &&& 0xFFFF0000) ||| k.offset ∧ t.msrPR = false ∧ t.msrIR = false ∧
        t.msrDR = false ∧ t.msrEE = false ∧ t.spr .srr1 &&& msrMask = s.msr &&& msrMask ∧
        ∀ r, r ≠ .srr0 → r ≠ .srr1 → r ≠ .esr → r ≠ .dear → t.spr r = s.spr r)

/-- The MSR bits an entry of a class clears (R523). -/
def clearedBits : InterruptClass → List Nat
  | .nonCritical => [6, 12, 13, 16, 17, 18, 20, 21, 23, 26, 27]
  | .critical => [6, 12, 13, 14, 16, 17, 18, 20, 21, 22, 23, 26, 27]
  | .machineCheck => [6, 12, 13, 14, 16, 17, 18, 19, 20, 21, 22, 23, 26, 27]

/-- The interrupts with their vector offsets and classes (60_exceptions.md R521; the class of the machine check is marked
critical there, and R523 gives it an entry of its own). -/
def vectorTable : List (Interrupt × Word × InterruptClass) :=
  [(.criticalInput, 0x0100, .critical), (.machineCheck, 0x0200, .machineCheck), (.dataStorage, 0x0300, .nonCritical),
   (.instructionStorage, 0x0400, .nonCritical), (.external, 0x0500, .nonCritical), (.alignment, 0x0600, .nonCritical),
   (.program, 0x0700, .nonCritical), (.fpuUnavailable, 0x0800, .nonCritical), (.systemCall, 0x0C00, .nonCritical),
   (.apuUnavailable, 0x0F20, .nonCritical), (.pit, 0x1000, .nonCritical), (.fit, 0x1010, .nonCritical),
   (.watchdog, 0x1020, .critical), (.dataTlbMiss, 0x1100, .nonCritical), (.instructionTlbMiss, 0x1200, .nonCritical),
   (.debug, 0x2000, .critical)]

/-- Taking any of the sixteen interrupts (R521 to R523). The return address and the MSR go to the save registers of its
class, reserved bits of the MSR's image open (00_scope.md R22; log entry 10); the bits its class names are cleared and no
other MSR bit changes; the program counter goes to its vector; nothing else changes; context is synchronised. The bits
other than PR and WE that an entry clears, and the offsets but Program's, are marked in the rules as general knowledge. -/
def Obligations.InterruptEntry : Prop :=
  (∀ k : Interrupt, ∃ e ∈ vectorTable, e.1 = k) ∧
  ∀ e ∈ vectorTable, ∀ (ret : Word) (s : State),
    let t := takeInterrupt e.1 ret s
    let addr := if e.2.2 = .nonCritical then Spr.srr0 else Spr.srr2
    let image := if e.2.2 = .nonCritical then Spr.srr1 else Spr.srr3
    t.spr addr = ret ∧ t.spr image &&& msrMask = s.msr &&& msrMask ∧ t.pc = (s.spr .evpr &&& 0xFFFF0000) ||| e.2.1 ∧
    (∀ b ∈ clearedBits e.2.2, bitAt t.msr b = false) ∧
    (∀ b < 32, bitAt msrMask b = true → b ∉ clearedBits e.2.2 → bitAt t.msr b = bitAt s.msr b) ∧
    (∀ r, r ≠ addr → r ≠ image → t.spr r = s.spr r) ∧ t.gprs = s.gprs ∧ t.cr = s.cr ∧ t.reserve = s.reserve ∧
    t.tlb = s.tlb ∧ t.mem = s.mem ∧ t.dcache = s.dcache ∧ t.icache = s.icache ∧ t.fillBuffer = s.fillBuffer ∧
    t.tb = s.tb ∧ t.pitReload = s.pitReload ∧ t.dcrs = s.dcrs ∧ t.memMap = s.memMap ∧ t.unsettled = s.unsettled ∧
    t.busError = s.busError ∧ t.ahead = [] ∧ t.oldContexts = [] ∧ t.fetchedUser = none

/-- At a quiet boundary the highest pending and enabled interrupt is taken in place of the next instruction, its
return address the program counter: data machine check, debug, critical input, watchdog, external, FIT, PIT; with
none, the wait state holds (R550 to R552, R585). That a data machine check comes at the first boundary after the error is
reported is the model's choice (log entry 21), the debug condition a reading (log entry 39). -/
def Obligations.AsynchronousInterrupts : Prop :=
  ∀ s, s.inputs = [] → s.stuck = false →
    let takes := fun k => step s = .next (takeInterrupt k s.pc (quietBoundary s))
    let mc := errsOnArrival s ∧ s.msrME = true
    let dbg := s.spr .dbsr &&& 0xFFFC0000 ≠ 0 ∧ s.msrDE = true ∧ bitAt (s.spr .dbcr0) 1 = true
    let crit := s.criticalLine = true ∧ s.msrCE = true
    let wdog := bitAt (s.spr .tsr) 1 = true ∧ s.msrCE = true ∧ bitAt (s.spr .tcr) 4 = true
    let ext := s.externalLine = true ∧ s.msrEE = true
    let fit := bitAt (s.spr .tsr) 5 = true ∧ s.msrEE = true ∧ bitAt (s.spr .tcr) 8 = true
    let pit := bitAt (s.spr .tsr) 4 = true ∧ s.msrEE = true ∧ bitAt (s.spr .tcr) 5 = true
    (mc → takes .machineCheck) ∧ (¬mc → dbg → takes .debug) ∧ (¬mc → ¬dbg → crit → takes .criticalInput) ∧
    (¬mc → ¬dbg → ¬crit → wdog → takes .watchdog) ∧ (¬mc → ¬dbg → ¬crit → ¬wdog → ext → takes .external) ∧
    (¬mc → ¬dbg → ¬crit → ¬wdog → ¬ext → fit → takes .fit) ∧
    (¬mc → ¬dbg → ¬crit → ¬wdog → ¬ext → ¬fit → pit → takes .pit) ∧
    (¬mc → ¬dbg → ¬crit → ¬wdog → ¬ext → ¬fit → ¬pit → s.msrWE = true → step s = .next (quietBoundary s))

/-- What one timer tick does besides a watchdog time-out: the time base counts; the PIT counts down, expires on 1 with
TSR[PIS] and then reloads or stops; TSR[FIS] is set where the selected bit rises; no other TSR bit and no other part of the
machine changes. -/
structure Ticked (s t : State) : Prop where
  tb : t.tb = s.tb + 1
  stopped : s.spr .pit = 0 → t.spr .pit = 0
  counts : 1 < (s.spr .pit).toNat → t.spr .pit = s.spr .pit - 1
  expires : s.spr .pit = 1 → t.spr .pit = if bitAt (s.spr .tcr) 9 then s.pitReload else 0
  pis : bitAt (t.spr .tsr) 4 = true ↔ bitAt (s.spr .tsr) 4 = true ∨ s.spr .pit = 1
  fis : bitAt (t.spr .tsr) 5 = true ↔ bitAt (s.spr .tsr) 5 = true ∨
    (bitAt (s.tb.setWidth 32) (23 - 4 * (fieldTo (s.spr .tcr) 7 2).toNat) = false ∧
      bitAt ((s.tb + 1).setWidth 32) (23 - 4 * (fieldTo (s.spr .tcr) 7 2).toNat) = true)
  tsr : ∀ b < 4, bitAt (t.spr .tsr) b = bitAt (s.spr .tsr) b
  sprs : ∀ r, r ≠ .tsr → r ≠ .pit → t.spr r = s.spr r
  rest : t = { s with tb := t.tb, sprs := t.sprs }

/-- One timer tick: where the timers stand still, nothing; else the time base, the PIT and the FIT move on, and where the
bit TCR[WP] selects rises that is a watchdog time-out (R570 to R574). That the PIT's reload falls on the tick of expiry is
the rule's pseudocode (log entry 31). -/
def Obligations.TimerTick : Prop :=
  ∀ s,
    (s.timersFrozen = true → tick s = s) ∧
    (s.timersFrozen = false → ¬watchdogRises s ((s.tb + 1).setWidth 32) → Ticked s (tick s)) ∧
    (s.timersFrozen = false → watchdogRises s ((s.tb + 1).setWidth 32) →
      ∃ u, Ticked s u ∧ tick s = watchdogTimeOut u)

/-- The watchdog: a time-out arms it, the next sets TSR[WIS], the next forces the reset TCR[WRC] names, recording it in
TSR[WRS] and DBSR[MRR] (R573). A write of TBL sets the FIT's status bit where its own bit rises (R572). That such a write
in which the watchdog's bit rises is a time-out as well, the reset included, and comes after the FIT is the model's choice:
R572 only calls a watchdog ENW set by it possible (log entry 31). -/
def Obligations.Watchdog : Prop :=
  ∀ s,
    (bitAt (s.spr .tsr) 0 = false → watchdogTimeOut s = s.setSpr .tsr (s.spr .tsr ||| 0x80000000)) ∧
    (bitAt (s.spr .tsr) 0 = true → bitAt (s.spr .tsr) 1 = false →
      watchdogTimeOut s = s.setSpr .tsr (s.spr .tsr ||| 0x40000000)) ∧
    (bitAt (s.spr .tsr) 0 = true → bitAt (s.spr .tsr) 1 = true → fieldTo (s.spr .tcr) 3 2 = 0 → watchdogTimeOut s = s) ∧
    (bitAt (s.spr .tsr) 0 = true → bitAt (s.spr .tsr) 1 = true → fieldTo (s.spr .tcr) 3 2 ≠ 0 →
      (watchdogTimeOut s).pc = 0xFFFFFFFC ∧
      fieldTo ((watchdogTimeOut s).spr .tsr) 3 2 = fieldTo (s.spr .tcr) 3 2 ∧
      fieldTo ((watchdogTimeOut s).spr .dbsr) 23 2 = fieldTo (s.spr .tcr) 3 2) ∧
    ∀ r : Reg, s.userMode = false →
      let v := s.gpr r
      let fp := 23 - 4 * (fieldTo (s.spr .tcr) 7 2).toNat
      let written := { s.advance with tb := (s.tb >>> 32).setWidth 32 ++ v }
      let u := if bitAt (s.tb.setWidth 32) fp = false ∧ bitAt v fp = true then
        written.setSpr .tsr (s.spr .tsr ||| 0x04000000) else written
      (watchdogRises s v → exec (.mtspr 0x11C r) s = .next (watchdogTimeOut u)) ∧
      (¬watchdogRises s v → exec (.mtspr 0x11C r) s = .next u)

/-- The registers whose reset value the spec defines, after power-on and after any reset in a run (70 R602). The other
registers' power-on values are the model's choice and are not in this statement. -/
structure ResetValues (s : State) (kind : ResetKind) (wrs : BitVec 2) : Prop where
  pc : s.pc = 0xFFFFFFFC
  msr : s.msr = 0
  esr : s.spr .esr = 0
  iccr : s.spr .iccr = 0
  dccr : s.spr .dccr = 0
  sgr : s.spr .sgr = 0xFFFFFFFF
  sler : s.spr .sler = 0
  su0r : s.spr .su0r = 0
  wrc : fieldTo (s.spr .tcr) 3 2 = 0
  wrs : fieldTo (s.spr .tsr) 3 2 = wrs
  mrr : fieldTo (s.spr .dbsr) 23 2 = kind.code
  prefetched : s.ahead = [] ∧ s.oldContexts = []
  runs : s.stuck = false

/-- Power-on and every reset leave the defined values; a core, chip or system reset asked for through DBCR0[RST] is
such a reset (70 R600 to R602). That power-on records a system reset and that resets the watchdog did not cause leave
TSR[WRS] zero are the model's choices (log entry 11). -/
def Obligations.ResetState : Prop :=
  ResetValues State.reset .system 0 ∧ (∀ k wrs s, ResetValues (resetFrom k wrs s) k wrs) ∧
  ∀ s (rs : Reg) (k : ResetKind), s.userMode = false → s.gpr rs = k.code.setWidth 32 <<< 28 →
    Completes (exec (.mtspr 0x3F2 rs) s) fun t => ResetValues t k 0

/-- The invariant holds after reset. -/
def Obligations.InvReset : Prop := State.reset.Inv

/-- Every step keeps the invariant, from every state that has it: the program counter stays aligned, reserved bits of
the MSR and the special purpose registers hold nothing, memory and both cache arrays keep their canonical form, no class
holds one block in both ways, bus writes that have not arrived lie in the address space, words are read ahead from aligned
addresses. -/
def Obligations.InvStep : Prop := ∀ s t, s.Inv → step s = .next t → t.Inv
end

