-- ==== Sys2Proof/Laws/Memory.lean ====
section
/-! SUPPORT. Sparse maps and memory: a read after a write, and the canonical form every operation keeps. -/

namespace Sys2Proof.Machine

variable {β : Type}

/-! ### Reads -/

theorem sparseGet_erase (d : β) (m : List (Nat × β)) (k a : Nat) :
    sparseGet d (sparseErase m k) a = if a = k then d else sparseGet d m a := by
  induction m with
  | nil => simp [sparseErase, sparseGet]
  | cons e t ih =>
    obtain ⟨j, v⟩ := e
    by_cases hj : j = k
    · by_cases ha : a = k
      · subst ha; simpa [sparseErase, hj] using ih
      · have : ¬ k = a := fun h => ha h.symm
        simp [sparseErase, hj, ih, ha, sparseGet, this]
    · by_cases hja : j = a
      · subst hja; simp [sparseErase, hj, sparseGet]
      · simp [sparseErase, hj, sparseGet, hja, ih]

theorem sparseGet_insert (d : β) (m : List (Nat × β)) (k a : Nat) (v : β)
    (h : ∀ e ∈ m, e.1 ≠ k) : sparseGet d (sparseInsert k v m) a = if a = k then v else sparseGet d m a := by
  induction m with
  | nil => simp [sparseInsert, sparseGet, eq_comm]
  | cons e t ih =>
    obtain ⟨j, u⟩ := e
    have hj : j ≠ k := h (j, u) (by simp)
    have ih := ih fun e he => h e (by simp [he])
    by_cases hlt : k < j
    · by_cases ha : a = k
      · simp [sparseInsert, hlt, sparseGet, ha]
      · have : ¬ k = a := fun h => ha h.symm
        simp [sparseInsert, hlt, sparseGet, ha, this]
    · by_cases hja : j = a
      · subst hja; simp [sparseInsert, hlt, sparseGet, hj]
      · simp [sparseInsert, hlt, sparseGet, hja, ih]

theorem sparseErase_no_key (m : List (Nat × β)) (k : Nat) : ∀ e ∈ sparseErase m k, e.1 ≠ k := by
  induction m with
  | nil => simp [sparseErase]
  | cons e t ih =>
    obtain ⟨j, v⟩ := e
    by_cases hj : j = k
    · simpa [sparseErase, hj] using ih
    · intro e he
      simp only [sparseErase, hj, if_false, List.mem_cons] at he
      rcases he with rfl | he
      · exact hj
      · exact ih e he

/-- A read after a write: the value at the key, what was there elsewhere. -/
theorem sparseGet_put [DecidableEq β] (d : β) (m : List (Nat × β)) (k a : Nat) (v : β) :
    sparseGet d (sparsePut d m k v) a = if a = k then v else sparseGet d m a := by
  by_cases hv : v = d
  · subst hv; simp [sparsePut, sparseGet_erase]
  · rw [sparsePut, if_neg hv, sparseGet_insert _ _ _ _ _ (sparseErase_no_key m k), sparseGet_erase]
    by_cases ha : a = k <;> simp [ha]

/-! ### The canonical form -/

theorem sparseErase_sublist (m : List (Nat × β)) (k : Nat) : (sparseErase m k).Sublist m := by
  induction m with
  | nil => simp [sparseErase]
  | cons e t ih =>
    obtain ⟨j, v⟩ := e
    by_cases hj : j = k
    · simpa [sparseErase, hj] using ih.cons _
    · simpa [sparseErase, hj] using ih

/-- The keys rise strictly: as a relation between entries. -/
theorem keysRise_iff (lo : Option Nat) (m : List (Nat × β)) :
    keysRise lo m = true ↔ (∀ l, lo = some l → ∀ e ∈ m, l < e.1) ∧ m.Pairwise fun a b => a.1 < b.1 := by
  induction m generalizing lo with
  | nil => cases lo <;> simp [keysRise]
  | cons e t ih =>
    obtain ⟨k, v⟩ := e
    cases lo with
    | none =>
      rw [keysRise, ih]
      simp [List.pairwise_cons]
    | some l =>
      rw [keysRise, Bool.and_eq_true, decide_eq_true_iff, ih, List.pairwise_cons]
      constructor
      · rintro ⟨hlk, h1, h2⟩
        refine ⟨?_, h1 k rfl, h2⟩
        intro l' hl' e he
        cases hl'
        rcases List.mem_cons.1 he with rfl | he
        · exact hlk
        · exact hlk.trans (h1 k rfl e he)
      · rintro ⟨h1, h2, h3⟩
        exact ⟨h1 l rfl (k, v) (by simp), fun l' hl' => by cases hl'; exact h2, h3⟩

theorem sparseWf_iff [DecidableEq β] (d : β) (bound : Nat) (m : List (Nat × β)) :
    sparseWf d bound m = true ↔ m.Pairwise (fun a b => a.1 < b.1) ∧ ∀ e ∈ m, e.1 < bound ∧ e.2 ≠ d := by
  simp [sparseWf, keysRise_iff]

theorem mem_sparseInsert (k : Nat) (v : β) (m : List (Nat × β)) (e : Nat × β) :
    e ∈ sparseInsert k v m ↔ e = (k, v) ∨ e ∈ m := by
  induction m with
  | nil => simp [sparseInsert]
  | cons f t ih =>
    obtain ⟨j, u⟩ := f
    by_cases h : k < j
    · simp [sparseInsert, h]
    · simp only [sparseInsert, h, if_false, List.mem_cons, ih]
      tauto

theorem sparseInsert_rises (k : Nat) (v : β) (m : List (Nat × β)) (hk : ∀ e ∈ m, e.1 ≠ k)
    (h : m.Pairwise fun a b => a.1 < b.1) : (sparseInsert k v m).Pairwise fun a b => a.1 < b.1 := by
  induction m with
  | nil => simp [sparseInsert]
  | cons f t ih =>
    obtain ⟨j, u⟩ := f
    rw [List.pairwise_cons] at h
    have hj : j ≠ k := hk (j, u) (by simp)
    by_cases hlt : k < j
    · simp only [sparseInsert, hlt, if_true, List.pairwise_cons, List.mem_cons]
      refine ⟨?_, h.1, h.2⟩
      rintro e (rfl | he)
      · exact hlt
      · exact hlt.trans (h.1 e he)
    · simp only [sparseInsert, hlt, if_false, List.pairwise_cons]
      refine ⟨?_, ih (fun e he => hk e (by simp [he])) h.2⟩
      intro e he
      rcases (mem_sparseInsert k v t e).1 he with rfl | he
      · exact lt_of_le_of_ne (Nat.le_of_not_lt hlt) hj
      · exact h.1 e he

/-- Writing keeps the canonical form. -/
theorem sparseWf_put [DecidableEq β] (d : β) (bound : Nat) (m : List (Nat × β)) (k : Nat) (v : β)
    (h : sparseWf d bound m = true) (hk : k < bound) : sparseWf d bound (sparsePut d m k v) = true := by
  rw [sparseWf_iff] at h ⊢
  have he : (sparseErase m k).Pairwise fun a b => a.1 < b.1 := h.1.sublist (sparseErase_sublist m k)
  have hm : ∀ e ∈ sparseErase m k, e.1 < bound ∧ e.2 ≠ d :=
    fun e hmem => h.2 e ((sparseErase_sublist m k).subset hmem)
  by_cases hv : v = d
  · simp only [sparsePut, hv, if_true]; exact ⟨he, hm⟩
  · simp only [sparsePut, hv, if_false]
    refine ⟨sparseInsert_rises k v _ (sparseErase_no_key m k) he, fun e hmem => ?_⟩
    rcases (mem_sparseInsert k v _ e).1 hmem with rfl | hmem
    · exact ⟨hk, hv⟩
    · exact hm e hmem

/-! ### Memory -/

/-- A byte read after a byte is written. -/
theorem memGet_put (m : Memory) (a ra : Nat) (b : Byte) :
    memGet (memPut m ra b) a = if a = ra then b else memGet m a := sparseGet_put _ _ _ _ _

/-- Writing a byte keeps the canonical form. -/
theorem memPut_wf (m : Memory) (ra : Nat) (b : Byte) (h : m.wf = true) (hr : ra < 2 ^ 32) :
    (memPut m ra b).wf = true := sparseWf_put _ _ _ _ _ h hr

/-- A byte read after bytes are written one after the other. -/
theorem memGet_putList (m : Memory) (ra a : Nat) (bs : List Byte) :
    memGet (memPutList m ra bs) a = if ra ≤ a then (bs[a - ra]?).getD (memGet m a) else memGet m a := by
  induction bs generalizing m ra with
  | nil => simp [memPutList]
  | cons b bs ih =>
    rw [memPutList, ih, memGet_put]
    by_cases h1 : ra + 1 ≤ a
    · have e : a - ra = (a - (ra + 1)) + 1 := by omega
      have : a ≠ ra := by omega
      have : ra ≤ a := by omega
      simp [*]
    · by_cases h2 : a = ra
      · subst h2; simp
      · have : ¬ ra ≤ a := by omega
        simp [*]

/-- Writing bytes keeps the canonical form. -/
theorem memPutList_wf (m : Memory) (ra : Nat) (bs : List Byte) (h : m.wf = true)
    (hr : ra + bs.length ≤ 2 ^ 32) : (memPutList m ra bs).wf = true := by
  induction bs generalizing m ra with
  | nil => exact h
  | cons b bs ih =>
    simp only [List.length_cons] at hr
    exact ih _ _ (memPut_wf m ra b h (by omega)) (by omega)

/-- A byte of a block read from memory. -/
theorem memBlock_get (m : Memory) (block : Nat) (o : Fin 32) :
    (memBlock m block)[o] = memGet m (32 * block + o.val) := by
  simp [memBlock, Vector.getElem_mk]

/-- Cells from an address up, written one after the other, are bytes written from that address up. -/
theorem memPutAll_cellsFrom (m : Memory) (ra : Nat) (bs : List Byte) :
    memPutAll m (cellsFrom ra bs) = memPutList m ra bs := by
  induction bs generalizing m ra with
  | nil => rfl
  | cons b bs ih => exact ih _ _

/-- Writing cells inside the address space keeps the canonical form. -/
theorem memPutAll_wf (m : Memory) (cs : List Host.Cell) (h : m.wf = true) (hc : ∀ c ∈ cs, c.1 < 2 ^ 32) :
    (memPutAll m cs).wf = true := by
  induction cs generalizing m with
  | nil => exact h
  | cons c cs ih =>
    exact ih _ (memPut_wf m _ _ h (hc c (by simp))) fun d hd => hc d (by simp [hd])

/-- A byte that no cell names reads as before. -/
theorem memGet_putAll_ne (m : Memory) (cs : List Host.Cell) (a : Nat) (h : ∀ c ∈ cs, c.1 ≠ a) :
    memGet (memPutAll m cs) a = memGet m a := by
  induction cs generalizing m with
  | nil => rfl
  | cons c cs ih =>
    have : ¬ a = c.1 := fun e => h c (by simp) e.symm
    exact (ih _ fun d hd => h d (by simp [hd])).trans ((memGet_put ..).trans (if_neg this))

/-- Bus writes undone keep the canonical form. -/
theorem undoWrites_wf (m : Memory) (ws : List (List Overwrite)) (h : m.wf = true)
    (hw : ∀ w ∈ ws, ∀ o ∈ w, o.addr < 2 ^ 32) : (undoWrites m ws).wf = true := by
  induction ws generalizing m with
  | nil => exact h
  | cons w ws ih =>
    refine ih _ (memPutAll_wf _ _ h fun c hc => ?_) fun v hv => hw v (by simp [hv])
    obtain ⟨o, ho, rfl⟩ := List.mem_map.1 hc
    exact hw w (by simp) o ho

/-- The addresses of cells from an address up. -/
theorem mem_cellsFrom {ra : Nat} {bs : List Byte} {c : Host.Cell} (h : c ∈ cellsFrom ra bs) :
    ra ≤ c.1 ∧ c.1 < ra + bs.length := by
  induction bs generalizing ra with
  | nil => cases h
  | cons b bs ih =>
    rcases List.mem_cons.1 h with rfl | h
    · simp
    · have := ih h
      simp only [List.length_cons]
      omega

/-- A byte read after a block is written. -/
theorem memGet_putBlock (m : Memory) (block a : Nat) (bs : Vector Byte 32) :
    memGet (memPutAll m (cellsFrom (32 * block) bs.toList)) a =
      if _h : a / 32 = block then bs[a % 32]'(Nat.mod_lt _ (by decide)) else memGet m a := by
  rw [memPutAll_cellsFrom, memGet_putList]
  by_cases h : a / 32 = block
  · have h1 : 32 * block ≤ a := by omega
    have h2 : a - 32 * block = a % 32 := by omega
    have h3 : a % 32 < 32 := Nat.mod_lt _ (by decide)
    simp [h, h1, h2, h3]
  · by_cases h1 : 32 * block ≤ a
    · have h2 : 32 ≤ a - 32 * block := by omega
      simp [h, h1, h2]
    · simp [h, h1]

/-- What bus masters write keeps the canonical form. -/
theorem memPutCells_wf (m : Memory) (cs : List Host.Cell) (h : m.wf = true) : (memPutCells m cs).wf = true := by
  induction cs generalizing m with
  | nil => exact h
  | cons c cs ih =>
    obtain ⟨a, b⟩ := c
    exact ih _ (memPut_wf m _ b h (Nat.mod_lt _ (by decide)))

/-- The memory after reset is in canonical form. -/
theorem reset_mem_wf : State.reset.mem.wf = true := by decide

/-! ### The cache arrays -/

/-- A congruence class read after one is replaced. -/
theorem dsetGet_put (c : List (Nat × DSet)) (i j : Nat) (x : DSet) :
    dsetGet (dsetPut c i x) j = if j = i then x else dsetGet c j := sparseGet_put _ _ _ _ _

/-- A congruence class read after one is replaced. -/
theorem isetGet_put (c : List (Nat × ISet)) (i j : Nat) (x : ISet) :
    isetGet (isetPut c i x) j = if j = i then x else isetGet c j := sparseGet_put _ _ _ _ _

/-- Replacing a class keeps the canonical form. -/
theorem dsetPut_wf (c : List (Nat × DSet)) (i : Nat) (x : DSet) (h : sparseWf DSet.empty Config.dcacheSets c = true)
    (hi : i < Config.dcacheSets) : sparseWf DSet.empty Config.dcacheSets (dsetPut c i x) = true :=
  sparseWf_put _ _ _ _ _ h hi

/-- Replacing a class keeps the canonical form. -/
theorem isetPut_wf (c : List (Nat × ISet)) (i : Nat) (x : ISet) (h : sparseWf ISet.empty Config.icacheSets c = true)
    (hi : i < Config.icacheSets) : sparseWf ISet.empty Config.icacheSets (isetPut c i x) = true :=
  sparseWf_put _ _ _ _ _ h hi

end Sys2Proof.Machine
end

