-- ==== Sys2Proof/Laws/Bits.lean ====
section
/-! SUPPORT. Bits and condition fields read after they are written. -/

namespace Sys2Proof.Machine

/-! ### Bits by the manual's numbering -/

/-- Bit `j` of `bitMask b`. -/
theorem getLsbD_bitMask (b j : Nat) (hb : b < 32) : (bitMask b).getLsbD j = decide (j = 31 - b) := by
  rw [bitMask, BitVec.getLsbD_shiftLeft]
  by_cases h : j = 31 - b
  · subst h
    have : 31 - b < 32 := by omega
    simp [this]
  · by_cases h2 : j < 31 - b
    · simp [h, h2]
    · have h3 : j - (31 - b) ≠ 0 := by omega
      simp [h, BitVec.getLsbD_one, h3]

/-- A bit read after a bit is written. -/
theorem bitAt_withBit (w : Word) (b c : Nat) (v : Bool) (hb : b < 32) (hc : c < 32) :
    bitAt (withBit w b v) c = if c = b then v else bitAt w c := by
  have e : (31 - c = 31 - b) ↔ c = b := by omega
  have hc' : 31 - c < 32 := by omega
  cases v
  · rw [bitAt, withBit, if_neg (by simp), BitVec.getLsbD_and, BitVec.getLsbD_not, getLsbD_bitMask b _ hb]
    by_cases h : c = b
    · simp [h]
    · simp [h, hc', e, bitAt]
  · simp only [bitAt, withBit, BitVec.getLsbD_or, getLsbD_bitMask b _ hb, e, if_true]
    by_cases h : c = b <;> simp [h]

/-- A bit of a conjunction. -/
theorem bitAt_and (w m : Word) (b : Nat) : bitAt (w &&& m) b = (bitAt w b && bitAt m b) := BitVec.getLsbD_and

/-- A bit of a disjunction. -/
theorem bitAt_or (w m : Word) (b : Nat) : bitAt (w ||| m) b = (bitAt w b || bitAt m b) := BitVec.getLsbD_or

/-- A bit of a complement. -/
theorem bitAt_not (w : Word) (b : Nat) : bitAt (~~~w) b = !bitAt w b := by
  have : 31 - b < 32 := by omega
  simp [bitAt, this]

/-- Two words with the same 32 bits are equal. -/
theorem eq_of_bitAt (w v : Word) (h : ∀ b < 32, bitAt w b = bitAt v b) : w = v := by
  refine BitVec.eq_of_getLsbD_eq fun j hj => ?_
  have := h (31 - j) (by omega)
  have e : 31 - (31 - j) = j := by omega
  simpa [bitAt, e] using this

/-! ### Condition register fields -/

/-- Bit `j` of a field. -/
theorem getLsbD_crField (cr : Word) (f : BitVec 3) (j : Nat) :
    (crField cr f).getLsbD j = (decide (j < 4) && cr.getLsbD (28 - 4 * f.toNat + j)) := by
  simp [crField, BitVec.getLsbD_setWidth, BitVec.getLsbD_ushiftRight]

/-- A field read after a field is written. -/
theorem crField_withCrField (cr : Word) (f g : BitVec 3) (v : BitVec 4) :
    crField (withCrField cr f v) g = if g = f then v else crField cr g := by
  refine BitVec.eq_of_getLsbD_eq fun j hj => ?_
  have hf := f.isLt
  have hg := g.isLt
  have e : g = f ↔ g.toNat = f.toNat := BitVec.toNat_inj.symm
  have hm : ∀ k, (0xF : Word).getLsbD k = decide (k < 4) := by
    intro k
    by_cases h : k < 4
    · interval_cases k <;> rfl
    · rw [decide_eq_false h, BitVec.getLsbD, Nat.testBit_lt_two_pow]
      exact lt_of_lt_of_le (by decide : (15 : Nat) < 2 ^ 4) (Nat.pow_le_pow_right (by decide) (by omega))
  have h32 : 28 - 4 * g.toNat + j < 32 := by omega
  rw [getLsbD_crField, withCrField]
  simp only [BitVec.getLsbD_or, BitVec.getLsbD_and, BitVec.getLsbD_not, BitVec.getLsbD_shiftLeft,
    BitVec.getLsbD_setWidth, hm, hj, h32, decide_true, Bool.true_and]
  by_cases h : g.toNat = f.toNat
  · have e1 : 28 - 4 * g.toNat + j - (28 - 4 * f.toNat) = j := by omega
    have e3 : g = f := e.2 h
    have e4 : j < 32 := by omega
    rw [e1]
    simp [e3, hj, e4]
  · have e3 : ¬ g = f := fun h' => h (e.1 h')
    simp only [e3, if_false, getLsbD_crField, hj, decide_true, Bool.true_and]
    by_cases h2 : 28 - 4 * g.toNat + j < 28 - 4 * f.toNat
    · simp [h2]
    · have e5 : ¬ 28 - 4 * g.toNat + j - (28 - 4 * f.toNat) < 4 := by omega
      have e6 : v.getLsbD (28 - 4 * g.toNat + j - (28 - 4 * f.toNat)) = false :=
        BitVec.getLsbD_of_ge _ _ (by omega)
      simp [h2, e5, e6]

/-- A bit of CR is a bit of its field. -/
theorem bitAt_eq_crField (cr : Word) (b : Nat) (hb : b < 32) :
    bitAt cr b = (crField cr (BitVec.ofNat 3 (b / 4))).getLsbD (3 - b % 4) := by
  have h1 : (BitVec.ofNat 3 (b / 4)).toNat = b / 4 := by simp; omega
  have h2 : 3 - b % 4 < 4 := by omega
  rw [getLsbD_crField, h1]
  simp only [h2, decide_true, Bool.true_and, bitAt]
  congr 1
  omega

/-- The algebraic comparison of a result with zero. -/
theorem signedCompare_zero (v : Word) (so : Bool) :
    signedCompare v 0 so = condField (decide (v.toInt < 0)) (decide (0 < v.toInt)) (decide (v = 0)) so := by
  simp only [signedCompare]
  congr 1

/-- A signed comparison. -/
theorem signedCompare_eq (a b : Word) (so : Bool) :
    signedCompare a b so = condField (decide (a.toInt < b.toInt)) (decide (b.toInt < a.toInt)) (decide (a = b)) so := rfl

/-- An unsigned comparison. -/
theorem unsignedCompare_eq (a b : Word) (so : Bool) :
    unsignedCompare a b so =
      condField (decide (a.toNat < b.toNat)) (decide (b.toNat < a.toNat)) (decide (a = b)) so := rfl

end Sys2Proof.Machine
end

