-- ==== Sys2Proof/Laws/State.lean ====
section
/-! SUPPORT. One lemma per field per update of the state, and the registers read after they are written. -/

namespace Sys2Proof.Machine

variable (s : State)

/-! ### `State.setGpr` -/

@[simp] theorem State.gprs_setGpr (r : Reg) (v : Word) : (s.setGpr r v).gprs = s.gprs.set r.toNat v r.isLt := rfl
@[simp] theorem State.pc_setGpr (r : Reg) (v : Word) : (s.setGpr r v).pc = s.pc := rfl
@[simp] theorem State.cr_setGpr (r : Reg) (v : Word) : (s.setGpr r v).cr = s.cr := rfl
@[simp] theorem State.msr_setGpr (r : Reg) (v : Word) : (s.setGpr r v).msr = s.msr := rfl
@[simp] theorem State.sprs_setGpr (r : Reg) (v : Word) : (s.setGpr r v).sprs = s.sprs := rfl
@[simp] theorem State.tb_setGpr (r : Reg) (v : Word) : (s.setGpr r v).tb = s.tb := rfl
@[simp] theorem State.pitReload_setGpr (r : Reg) (v : Word) : (s.setGpr r v).pitReload = s.pitReload := rfl
@[simp] theorem State.reserve_setGpr (r : Reg) (v : Word) : (s.setGpr r v).reserve = s.reserve := rfl
@[simp] theorem State.tlb_setGpr (r : Reg) (v : Word) : (s.setGpr r v).tlb = s.tlb := rfl
@[simp] theorem State.mem_setGpr (r : Reg) (v : Word) : (s.setGpr r v).mem = s.mem := rfl
@[simp] theorem State.icache_setGpr (r : Reg) (v : Word) : (s.setGpr r v).icache = s.icache := rfl
@[simp] theorem State.dcache_setGpr (r : Reg) (v : Word) : (s.setGpr r v).dcache = s.dcache := rfl
@[simp] theorem State.fillBuffer_setGpr (r : Reg) (v : Word) : (s.setGpr r v).fillBuffer = s.fillBuffer := rfl
@[simp] theorem State.unsettled_setGpr (r : Reg) (v : Word) : (s.setGpr r v).unsettled = s.unsettled := rfl
@[simp] theorem State.between_setGpr (r : Reg) (v : Word) : (s.setGpr r v).between = s.between := rfl
@[simp] theorem State.ahead_setGpr (r : Reg) (v : Word) : (s.setGpr r v).ahead = s.ahead := rfl
@[simp] theorem State.waited_setGpr (r : Reg) (v : Word) : (s.setGpr r v).waited = s.waited := rfl
@[simp] theorem State.oldContexts_setGpr (r : Reg) (v : Word) : (s.setGpr r v).oldContexts = s.oldContexts := rfl
@[simp] theorem State.fetchedUser_setGpr (r : Reg) (v : Word) : (s.setGpr r v).fetchedUser = s.fetchedUser := rfl
@[simp] theorem State.criticalLine_setGpr (r : Reg) (v : Word) : (s.setGpr r v).criticalLine = s.criticalLine := rfl
@[simp] theorem State.externalLine_setGpr (r : Reg) (v : Word) : (s.setGpr r v).externalLine = s.externalLine := rfl
@[simp] theorem State.busError_setGpr (r : Reg) (v : Word) : (s.setGpr r v).busError = s.busError := rfl
@[simp] theorem State.drained_setGpr (r : Reg) (v : Word) : (s.setGpr r v).drained = s.drained := rfl
@[simp] theorem State.icbtPending_setGpr (r : Reg) (v : Word) : (s.setGpr r v).icbtPending = s.icbtPending := rfl
@[simp] theorem State.eeWindow_setGpr (r : Reg) (v : Word) : (s.setGpr r v).eeWindow = s.eeWindow := rfl
@[simp] theorem State.icdbdrPending_setGpr (r : Reg) (v : Word) : (s.setGpr r v).icdbdrPending = s.icdbdrPending := rfl
@[simp] theorem State.icdbdrTag_setGpr (r : Reg) (v : Word) : (s.setGpr r v).icdbdrTag = s.icdbdrTag := rfl
@[simp] theorem State.stuck_setGpr (r : Reg) (v : Word) : (s.setGpr r v).stuck = s.stuck := rfl
@[simp] theorem State.dcrs_setGpr (r : Reg) (v : Word) : (s.setGpr r v).dcrs = s.dcrs := rfl
@[simp] theorem State.memMap_setGpr (r : Reg) (v : Word) : (s.setGpr r v).memMap = s.memMap := rfl
@[simp] theorem State.inputs_setGpr (r : Reg) (v : Word) : (s.setGpr r v).inputs = s.inputs := rfl
@[simp] theorem State.draws_setGpr (r : Reg) (v : Word) : (s.setGpr r v).draws = s.draws := rfl

/-! ### `State.setSpr` -/

@[simp] theorem State.gprs_setSpr (r : Spr) (v : Word) : (s.setSpr r v).gprs = s.gprs := rfl
@[simp] theorem State.pc_setSpr (r : Spr) (v : Word) : (s.setSpr r v).pc = s.pc := rfl
@[simp] theorem State.cr_setSpr (r : Spr) (v : Word) : (s.setSpr r v).cr = s.cr := rfl
@[simp] theorem State.msr_setSpr (r : Spr) (v : Word) : (s.setSpr r v).msr = s.msr := rfl
@[simp] theorem State.sprs_setSpr (r : Spr) (v : Word) : (s.setSpr r v).sprs = s.sprs.set r.index (v &&& r.mask) := rfl
@[simp] theorem State.tb_setSpr (r : Spr) (v : Word) : (s.setSpr r v).tb = s.tb := rfl
@[simp] theorem State.pitReload_setSpr (r : Spr) (v : Word) : (s.setSpr r v).pitReload = s.pitReload := rfl
@[simp] theorem State.reserve_setSpr (r : Spr) (v : Word) : (s.setSpr r v).reserve = s.reserve := rfl
@[simp] theorem State.tlb_setSpr (r : Spr) (v : Word) : (s.setSpr r v).tlb = s.tlb := rfl
@[simp] theorem State.mem_setSpr (r : Spr) (v : Word) : (s.setSpr r v).mem = s.mem := rfl
@[simp] theorem State.icache_setSpr (r : Spr) (v : Word) : (s.setSpr r v).icache = s.icache := rfl
@[simp] theorem State.dcache_setSpr (r : Spr) (v : Word) : (s.setSpr r v).dcache = s.dcache := rfl
@[simp] theorem State.fillBuffer_setSpr (r : Spr) (v : Word) : (s.setSpr r v).fillBuffer = s.fillBuffer := rfl
@[simp] theorem State.unsettled_setSpr (r : Spr) (v : Word) : (s.setSpr r v).unsettled = s.unsettled := rfl
@[simp] theorem State.between_setSpr (r : Spr) (v : Word) : (s.setSpr r v).between = s.between := rfl
@[simp] theorem State.ahead_setSpr (r : Spr) (v : Word) : (s.setSpr r v).ahead = s.ahead := rfl
@[simp] theorem State.waited_setSpr (r : Spr) (v : Word) : (s.setSpr r v).waited = s.waited := rfl
@[simp] theorem State.oldContexts_setSpr (r : Spr) (v : Word) : (s.setSpr r v).oldContexts = s.oldContexts := rfl
@[simp] theorem State.fetchedUser_setSpr (r : Spr) (v : Word) : (s.setSpr r v).fetchedUser = s.fetchedUser := rfl
@[simp] theorem State.criticalLine_setSpr (r : Spr) (v : Word) : (s.setSpr r v).criticalLine = s.criticalLine := rfl
@[simp] theorem State.externalLine_setSpr (r : Spr) (v : Word) : (s.setSpr r v).externalLine = s.externalLine := rfl
@[simp] theorem State.busError_setSpr (r : Spr) (v : Word) : (s.setSpr r v).busError = s.busError := rfl
@[simp] theorem State.drained_setSpr (r : Spr) (v : Word) : (s.setSpr r v).drained = s.drained := rfl
@[simp] theorem State.icbtPending_setSpr (r : Spr) (v : Word) : (s.setSpr r v).icbtPending = s.icbtPending := rfl
@[simp] theorem State.eeWindow_setSpr (r : Spr) (v : Word) : (s.setSpr r v).eeWindow = s.eeWindow := rfl
@[simp] theorem State.icdbdrPending_setSpr (r : Spr) (v : Word) : (s.setSpr r v).icdbdrPending = s.icdbdrPending := rfl
@[simp] theorem State.icdbdrTag_setSpr (r : Spr) (v : Word) : (s.setSpr r v).icdbdrTag = s.icdbdrTag := rfl
@[simp] theorem State.stuck_setSpr (r : Spr) (v : Word) : (s.setSpr r v).stuck = s.stuck := rfl
@[simp] theorem State.dcrs_setSpr (r : Spr) (v : Word) : (s.setSpr r v).dcrs = s.dcrs := rfl
@[simp] theorem State.memMap_setSpr (r : Spr) (v : Word) : (s.setSpr r v).memMap = s.memMap := rfl
@[simp] theorem State.inputs_setSpr (r : Spr) (v : Word) : (s.setSpr r v).inputs = s.inputs := rfl
@[simp] theorem State.draws_setSpr (r : Spr) (v : Word) : (s.setSpr r v).draws = s.draws := rfl

/-! ### `State.setMsr` -/

@[simp] theorem State.gprs_setMsr (v : Word) : (s.setMsr v).gprs = s.gprs := rfl
@[simp] theorem State.pc_setMsr (v : Word) : (s.setMsr v).pc = s.pc := rfl
@[simp] theorem State.cr_setMsr (v : Word) : (s.setMsr v).cr = s.cr := rfl
@[simp] theorem State.msr_setMsr (v : Word) : (s.setMsr v).msr = v &&& msrMask := rfl
@[simp] theorem State.sprs_setMsr (v : Word) : (s.setMsr v).sprs = s.sprs := rfl
@[simp] theorem State.tb_setMsr (v : Word) : (s.setMsr v).tb = s.tb := rfl
@[simp] theorem State.pitReload_setMsr (v : Word) : (s.setMsr v).pitReload = s.pitReload := rfl
@[simp] theorem State.reserve_setMsr (v : Word) : (s.setMsr v).reserve = s.reserve := rfl
@[simp] theorem State.tlb_setMsr (v : Word) : (s.setMsr v).tlb = s.tlb := rfl
@[simp] theorem State.mem_setMsr (v : Word) : (s.setMsr v).mem = s.mem := rfl
@[simp] theorem State.icache_setMsr (v : Word) : (s.setMsr v).icache = s.icache := rfl
@[simp] theorem State.dcache_setMsr (v : Word) : (s.setMsr v).dcache = s.dcache := rfl
@[simp] theorem State.fillBuffer_setMsr (v : Word) : (s.setMsr v).fillBuffer = s.fillBuffer := rfl
@[simp] theorem State.unsettled_setMsr (v : Word) : (s.setMsr v).unsettled = s.unsettled := rfl
@[simp] theorem State.between_setMsr (v : Word) : (s.setMsr v).between = s.between := rfl
@[simp] theorem State.ahead_setMsr (v : Word) : (s.setMsr v).ahead = s.ahead := rfl
@[simp] theorem State.waited_setMsr (v : Word) : (s.setMsr v).waited = s.waited := rfl
@[simp] theorem State.oldContexts_setMsr (v : Word) : (s.setMsr v).oldContexts = s.oldContexts := rfl
@[simp] theorem State.fetchedUser_setMsr (v : Word) : (s.setMsr v).fetchedUser = s.fetchedUser := rfl
@[simp] theorem State.criticalLine_setMsr (v : Word) : (s.setMsr v).criticalLine = s.criticalLine := rfl
@[simp] theorem State.externalLine_setMsr (v : Word) : (s.setMsr v).externalLine = s.externalLine := rfl
@[simp] theorem State.busError_setMsr (v : Word) : (s.setMsr v).busError = s.busError := rfl
@[simp] theorem State.drained_setMsr (v : Word) : (s.setMsr v).drained = s.drained := rfl
@[simp] theorem State.icbtPending_setMsr (v : Word) : (s.setMsr v).icbtPending = s.icbtPending := rfl
@[simp] theorem State.eeWindow_setMsr (v : Word) : (s.setMsr v).eeWindow = s.eeWindow := rfl
@[simp] theorem State.icdbdrPending_setMsr (v : Word) : (s.setMsr v).icdbdrPending = s.icdbdrPending := rfl
@[simp] theorem State.icdbdrTag_setMsr (v : Word) : (s.setMsr v).icdbdrTag = s.icdbdrTag := rfl
@[simp] theorem State.stuck_setMsr (v : Word) : (s.setMsr v).stuck = s.stuck := rfl
@[simp] theorem State.dcrs_setMsr (v : Word) : (s.setMsr v).dcrs = s.dcrs := rfl
@[simp] theorem State.memMap_setMsr (v : Word) : (s.setMsr v).memMap = s.memMap := rfl
@[simp] theorem State.inputs_setMsr (v : Word) : (s.setMsr v).inputs = s.inputs := rfl
@[simp] theorem State.draws_setMsr (v : Word) : (s.setMsr v).draws = s.draws := rfl

/-! ### `State.setPc` -/

@[simp] theorem State.gprs_setPc (a : Word) : (s.setPc a).gprs = s.gprs := rfl
@[simp] theorem State.pc_setPc (a : Word) : (s.setPc a).pc = a := rfl
@[simp] theorem State.cr_setPc (a : Word) : (s.setPc a).cr = s.cr := rfl
@[simp] theorem State.msr_setPc (a : Word) : (s.setPc a).msr = s.msr := rfl
@[simp] theorem State.sprs_setPc (a : Word) : (s.setPc a).sprs = s.sprs := rfl
@[simp] theorem State.tb_setPc (a : Word) : (s.setPc a).tb = s.tb := rfl
@[simp] theorem State.pitReload_setPc (a : Word) : (s.setPc a).pitReload = s.pitReload := rfl
@[simp] theorem State.reserve_setPc (a : Word) : (s.setPc a).reserve = s.reserve := rfl
@[simp] theorem State.tlb_setPc (a : Word) : (s.setPc a).tlb = s.tlb := rfl
@[simp] theorem State.mem_setPc (a : Word) : (s.setPc a).mem = s.mem := rfl
@[simp] theorem State.icache_setPc (a : Word) : (s.setPc a).icache = s.icache := rfl
@[simp] theorem State.dcache_setPc (a : Word) : (s.setPc a).dcache = s.dcache := rfl
@[simp] theorem State.fillBuffer_setPc (a : Word) : (s.setPc a).fillBuffer = s.fillBuffer := rfl
@[simp] theorem State.unsettled_setPc (a : Word) : (s.setPc a).unsettled = s.unsettled := rfl
@[simp] theorem State.between_setPc (a : Word) : (s.setPc a).between = s.between := rfl
@[simp] theorem State.ahead_setPc (a : Word) : (s.setPc a).ahead = s.ahead := rfl
@[simp] theorem State.waited_setPc (a : Word) : (s.setPc a).waited = s.waited := rfl
@[simp] theorem State.oldContexts_setPc (a : Word) : (s.setPc a).oldContexts = s.oldContexts := rfl
@[simp] theorem State.fetchedUser_setPc (a : Word) : (s.setPc a).fetchedUser = s.fetchedUser := rfl
@[simp] theorem State.criticalLine_setPc (a : Word) : (s.setPc a).criticalLine = s.criticalLine := rfl
@[simp] theorem State.externalLine_setPc (a : Word) : (s.setPc a).externalLine = s.externalLine := rfl
@[simp] theorem State.busError_setPc (a : Word) : (s.setPc a).busError = s.busError := rfl
@[simp] theorem State.drained_setPc (a : Word) : (s.setPc a).drained = s.drained := rfl
@[simp] theorem State.icbtPending_setPc (a : Word) : (s.setPc a).icbtPending = s.icbtPending := rfl
@[simp] theorem State.eeWindow_setPc (a : Word) : (s.setPc a).eeWindow = s.eeWindow := rfl
@[simp] theorem State.icdbdrPending_setPc (a : Word) : (s.setPc a).icdbdrPending = s.icdbdrPending := rfl
@[simp] theorem State.icdbdrTag_setPc (a : Word) : (s.setPc a).icdbdrTag = s.icdbdrTag := rfl
@[simp] theorem State.stuck_setPc (a : Word) : (s.setPc a).stuck = s.stuck := rfl
@[simp] theorem State.dcrs_setPc (a : Word) : (s.setPc a).dcrs = s.dcrs := rfl
@[simp] theorem State.memMap_setPc (a : Word) : (s.setPc a).memMap = s.memMap := rfl
@[simp] theorem State.inputs_setPc (a : Word) : (s.setPc a).inputs = s.inputs := rfl
@[simp] theorem State.draws_setPc (a : Word) : (s.setPc a).draws = s.draws := rfl

/-! ### `State.advance` -/

@[simp] theorem State.gprs_advance : (s.advance).gprs = s.gprs := rfl
@[simp] theorem State.pc_advance : (s.advance).pc = s.pc + 4 := rfl
@[simp] theorem State.cr_advance : (s.advance).cr = s.cr := rfl
@[simp] theorem State.msr_advance : (s.advance).msr = s.msr := rfl
@[simp] theorem State.sprs_advance : (s.advance).sprs = s.sprs := rfl
@[simp] theorem State.tb_advance : (s.advance).tb = s.tb := rfl
@[simp] theorem State.pitReload_advance : (s.advance).pitReload = s.pitReload := rfl
@[simp] theorem State.reserve_advance : (s.advance).reserve = s.reserve := rfl
@[simp] theorem State.tlb_advance : (s.advance).tlb = s.tlb := rfl
@[simp] theorem State.mem_advance : (s.advance).mem = s.mem := rfl
@[simp] theorem State.icache_advance : (s.advance).icache = s.icache := rfl
@[simp] theorem State.dcache_advance : (s.advance).dcache = s.dcache := rfl
@[simp] theorem State.fillBuffer_advance : (s.advance).fillBuffer = s.fillBuffer := rfl
@[simp] theorem State.unsettled_advance : (s.advance).unsettled = s.unsettled := rfl
@[simp] theorem State.between_advance : (s.advance).between = s.between := rfl
@[simp] theorem State.ahead_advance : (s.advance).ahead = s.ahead := rfl
@[simp] theorem State.waited_advance : (s.advance).waited = s.waited := rfl
@[simp] theorem State.oldContexts_advance : (s.advance).oldContexts = s.oldContexts := rfl
@[simp] theorem State.fetchedUser_advance : (s.advance).fetchedUser = s.fetchedUser := rfl
@[simp] theorem State.criticalLine_advance : (s.advance).criticalLine = s.criticalLine := rfl
@[simp] theorem State.externalLine_advance : (s.advance).externalLine = s.externalLine := rfl
@[simp] theorem State.busError_advance : (s.advance).busError = s.busError := rfl
@[simp] theorem State.drained_advance : (s.advance).drained = s.drained := rfl
@[simp] theorem State.icbtPending_advance : (s.advance).icbtPending = s.icbtPending := rfl
@[simp] theorem State.eeWindow_advance : (s.advance).eeWindow = s.eeWindow := rfl
@[simp] theorem State.icdbdrPending_advance : (s.advance).icdbdrPending = s.icdbdrPending := rfl
@[simp] theorem State.icdbdrTag_advance : (s.advance).icdbdrTag = s.icdbdrTag := rfl
@[simp] theorem State.stuck_advance : (s.advance).stuck = s.stuck := rfl
@[simp] theorem State.dcrs_advance : (s.advance).dcrs = s.dcrs := rfl
@[simp] theorem State.memMap_advance : (s.advance).memMap = s.memMap := rfl
@[simp] theorem State.inputs_advance : (s.advance).inputs = s.inputs := rfl
@[simp] theorem State.draws_advance : (s.advance).draws = s.draws := rfl

/-! ### `State.drawn` -/

@[simp] theorem State.gprs_drawn : (s.drawn).gprs = s.gprs := rfl
@[simp] theorem State.pc_drawn : (s.drawn).pc = s.pc := rfl
@[simp] theorem State.cr_drawn : (s.drawn).cr = s.cr := rfl
@[simp] theorem State.msr_drawn : (s.drawn).msr = s.msr := rfl
@[simp] theorem State.sprs_drawn : (s.drawn).sprs = s.sprs := rfl
@[simp] theorem State.tb_drawn : (s.drawn).tb = s.tb := rfl
@[simp] theorem State.pitReload_drawn : (s.drawn).pitReload = s.pitReload := rfl
@[simp] theorem State.reserve_drawn : (s.drawn).reserve = s.reserve := rfl
@[simp] theorem State.tlb_drawn : (s.drawn).tlb = s.tlb := rfl
@[simp] theorem State.mem_drawn : (s.drawn).mem = s.mem := rfl
@[simp] theorem State.icache_drawn : (s.drawn).icache = s.icache := rfl
@[simp] theorem State.dcache_drawn : (s.drawn).dcache = s.dcache := rfl
@[simp] theorem State.fillBuffer_drawn : (s.drawn).fillBuffer = s.fillBuffer := rfl
@[simp] theorem State.unsettled_drawn : (s.drawn).unsettled = s.unsettled := rfl
@[simp] theorem State.between_drawn : (s.drawn).between = s.between := rfl
@[simp] theorem State.ahead_drawn : (s.drawn).ahead = s.ahead := rfl
@[simp] theorem State.waited_drawn : (s.drawn).waited = s.waited := rfl
@[simp] theorem State.oldContexts_drawn : (s.drawn).oldContexts = s.oldContexts := rfl
@[simp] theorem State.fetchedUser_drawn : (s.drawn).fetchedUser = s.fetchedUser := rfl
@[simp] theorem State.criticalLine_drawn : (s.drawn).criticalLine = s.criticalLine := rfl
@[simp] theorem State.externalLine_drawn : (s.drawn).externalLine = s.externalLine := rfl
@[simp] theorem State.busError_drawn : (s.drawn).busError = s.busError := rfl
@[simp] theorem State.drained_drawn : (s.drawn).drained = s.drained := rfl
@[simp] theorem State.icbtPending_drawn : (s.drawn).icbtPending = s.icbtPending := rfl
@[simp] theorem State.eeWindow_drawn : (s.drawn).eeWindow = s.eeWindow := rfl
@[simp] theorem State.icdbdrPending_drawn : (s.drawn).icdbdrPending = s.icdbdrPending := rfl
@[simp] theorem State.icdbdrTag_drawn : (s.drawn).icdbdrTag = s.icdbdrTag := rfl
@[simp] theorem State.stuck_drawn : (s.drawn).stuck = s.stuck := rfl
@[simp] theorem State.dcrs_drawn : (s.drawn).dcrs = s.dcrs := rfl
@[simp] theorem State.memMap_drawn : (s.drawn).memMap = s.memMap := rfl
@[simp] theorem State.inputs_drawn : (s.drawn).inputs = s.inputs := rfl
@[simp] theorem State.draws_drawn : (s.drawn).draws = s.draws + 1 := rfl

/-! ### `State.setCrField` -/

@[simp] theorem State.gprs_setCrField (f : BitVec 3) (v : BitVec 4) : (s.setCrField f v).gprs = s.gprs := rfl
@[simp] theorem State.pc_setCrField (f : BitVec 3) (v : BitVec 4) : (s.setCrField f v).pc = s.pc := rfl
@[simp] theorem State.cr_setCrField (f : BitVec 3) (v : BitVec 4) : (s.setCrField f v).cr = withCrField s.cr f v := rfl
@[simp] theorem State.msr_setCrField (f : BitVec 3) (v : BitVec 4) : (s.setCrField f v).msr = s.msr := rfl
@[simp] theorem State.sprs_setCrField (f : BitVec 3) (v : BitVec 4) : (s.setCrField f v).sprs = s.sprs := rfl
@[simp] theorem State.tb_setCrField (f : BitVec 3) (v : BitVec 4) : (s.setCrField f v).tb = s.tb := rfl
@[simp] theorem State.pitReload_setCrField (f : BitVec 3) (v : BitVec 4) : (s.setCrField f v).pitReload = s.pitReload := rfl
@[simp] theorem State.reserve_setCrField (f : BitVec 3) (v : BitVec 4) : (s.setCrField f v).reserve = s.reserve := rfl
@[simp] theorem State.tlb_setCrField (f : BitVec 3) (v : BitVec 4) : (s.setCrField f v).tlb = s.tlb := rfl
@[simp] theorem State.mem_setCrField (f : BitVec 3) (v : BitVec 4) : (s.setCrField f v).mem = s.mem := rfl
@[simp] theorem State.icache_setCrField (f : BitVec 3) (v : BitVec 4) : (s.setCrField f v).icache = s.icache := rfl
@[simp] theorem State.dcache_setCrField (f : BitVec 3) (v : BitVec 4) : (s.setCrField f v).dcache = s.dcache := rfl
@[simp] theorem State.fillBuffer_setCrField (f : BitVec 3) (v : BitVec 4) : (s.setCrField f v).fillBuffer = s.fillBuffer := rfl
@[simp] theorem State.unsettled_setCrField (f : BitVec 3) (v : BitVec 4) : (s.setCrField f v).unsettled = s.unsettled := rfl
@[simp] theorem State.between_setCrField (f : BitVec 3) (v : BitVec 4) : (s.setCrField f v).between = s.between := rfl
@[simp] theorem State.ahead_setCrField (f : BitVec 3) (v : BitVec 4) : (s.setCrField f v).ahead = s.ahead := rfl
@[simp] theorem State.waited_setCrField (f : BitVec 3) (v : BitVec 4) : (s.setCrField f v).waited = s.waited := rfl
@[simp] theorem State.oldContexts_setCrField (f : BitVec 3) (v : BitVec 4) : (s.setCrField f v).oldContexts = s.oldContexts := rfl
@[simp] theorem State.fetchedUser_setCrField (f : BitVec 3) (v : BitVec 4) : (s.setCrField f v).fetchedUser = s.fetchedUser := rfl
@[simp] theorem State.criticalLine_setCrField (f : BitVec 3) (v : BitVec 4) : (s.setCrField f v).criticalLine = s.criticalLine := rfl
@[simp] theorem State.externalLine_setCrField (f : BitVec 3) (v : BitVec 4) : (s.setCrField f v).externalLine = s.externalLine := rfl
@[simp] theorem State.busError_setCrField (f : BitVec 3) (v : BitVec 4) : (s.setCrField f v).busError = s.busError := rfl
@[simp] theorem State.drained_setCrField (f : BitVec 3) (v : BitVec 4) : (s.setCrField f v).drained = s.drained := rfl
@[simp] theorem State.icbtPending_setCrField (f : BitVec 3) (v : BitVec 4) : (s.setCrField f v).icbtPending = s.icbtPending := rfl
@[simp] theorem State.eeWindow_setCrField (f : BitVec 3) (v : BitVec 4) : (s.setCrField f v).eeWindow = s.eeWindow := rfl
@[simp] theorem State.icdbdrPending_setCrField (f : BitVec 3) (v : BitVec 4) : (s.setCrField f v).icdbdrPending = s.icdbdrPending := rfl
@[simp] theorem State.icdbdrTag_setCrField (f : BitVec 3) (v : BitVec 4) : (s.setCrField f v).icdbdrTag = s.icdbdrTag := rfl
@[simp] theorem State.stuck_setCrField (f : BitVec 3) (v : BitVec 4) : (s.setCrField f v).stuck = s.stuck := rfl
@[simp] theorem State.dcrs_setCrField (f : BitVec 3) (v : BitVec 4) : (s.setCrField f v).dcrs = s.dcrs := rfl
@[simp] theorem State.memMap_setCrField (f : BitVec 3) (v : BitVec 4) : (s.setCrField f v).memMap = s.memMap := rfl
@[simp] theorem State.inputs_setCrField (f : BitVec 3) (v : BitVec 4) : (s.setCrField f v).inputs = s.inputs := rfl
@[simp] theorem State.draws_setCrField (f : BitVec 3) (v : BitVec 4) : (s.setCrField f v).draws = s.draws := rfl

/-! ### `State.contextSync` -/

@[simp] theorem State.gprs_contextSync : (s.contextSync).gprs = s.gprs := rfl
@[simp] theorem State.pc_contextSync : (s.contextSync).pc = s.pc := rfl
@[simp] theorem State.cr_contextSync : (s.contextSync).cr = s.cr := rfl
@[simp] theorem State.msr_contextSync : (s.contextSync).msr = s.msr := rfl
@[simp] theorem State.sprs_contextSync : (s.contextSync).sprs = s.sprs := rfl
@[simp] theorem State.tb_contextSync : (s.contextSync).tb = s.tb := rfl
@[simp] theorem State.pitReload_contextSync : (s.contextSync).pitReload = s.pitReload := rfl
@[simp] theorem State.reserve_contextSync : (s.contextSync).reserve = s.reserve := rfl
@[simp] theorem State.tlb_contextSync : (s.contextSync).tlb = s.tlb := rfl
@[simp] theorem State.mem_contextSync : (s.contextSync).mem = s.mem := rfl
@[simp] theorem State.icache_contextSync : (s.contextSync).icache = s.icache := rfl
@[simp] theorem State.dcache_contextSync : (s.contextSync).dcache = s.dcache := rfl
@[simp] theorem State.fillBuffer_contextSync : (s.contextSync).fillBuffer = s.fillBuffer := rfl
@[simp] theorem State.unsettled_contextSync : (s.contextSync).unsettled = s.unsettled := rfl
@[simp] theorem State.between_contextSync : (s.contextSync).between = s.between := rfl
@[simp] theorem State.ahead_contextSync : (s.contextSync).ahead = [] := rfl
@[simp] theorem State.waited_contextSync : (s.contextSync).waited = [] := rfl
@[simp] theorem State.oldContexts_contextSync : (s.contextSync).oldContexts = [] := rfl
@[simp] theorem State.fetchedUser_contextSync : (s.contextSync).fetchedUser = none := rfl
@[simp] theorem State.criticalLine_contextSync : (s.contextSync).criticalLine = s.criticalLine := rfl
@[simp] theorem State.externalLine_contextSync : (s.contextSync).externalLine = s.externalLine := rfl
@[simp] theorem State.busError_contextSync : (s.contextSync).busError = s.busError := rfl
@[simp] theorem State.drained_contextSync : (s.contextSync).drained = s.drained := rfl
@[simp] theorem State.icbtPending_contextSync : (s.contextSync).icbtPending = false := rfl
@[simp] theorem State.eeWindow_contextSync : (s.contextSync).eeWindow = 0 := rfl
@[simp] theorem State.icdbdrPending_contextSync : (s.contextSync).icdbdrPending = false := rfl
@[simp] theorem State.icdbdrTag_contextSync : (s.contextSync).icdbdrTag = s.icdbdrTag := rfl
@[simp] theorem State.stuck_contextSync : (s.contextSync).stuck = s.stuck := rfl
@[simp] theorem State.dcrs_contextSync : (s.contextSync).dcrs = s.dcrs := rfl
@[simp] theorem State.memMap_contextSync : (s.contextSync).memMap = s.memMap := rfl
@[simp] theorem State.inputs_contextSync : (s.contextSync).inputs = s.inputs := rfl
@[simp] theorem State.draws_contextSync : (s.contextSync).draws = s.draws := rfl

/-! ### `State.openWindow` -/

@[simp] theorem State.gprs_openWindow : (s.openWindow).gprs = s.gprs := rfl
@[simp] theorem State.pc_openWindow : (s.openWindow).pc = s.pc := rfl
@[simp] theorem State.cr_openWindow : (s.openWindow).cr = s.cr := rfl
@[simp] theorem State.msr_openWindow : (s.openWindow).msr = s.msr := rfl
@[simp] theorem State.sprs_openWindow : (s.openWindow).sprs = s.sprs := rfl
@[simp] theorem State.tb_openWindow : (s.openWindow).tb = s.tb := rfl
@[simp] theorem State.pitReload_openWindow : (s.openWindow).pitReload = s.pitReload := rfl
@[simp] theorem State.reserve_openWindow : (s.openWindow).reserve = s.reserve := rfl
@[simp] theorem State.tlb_openWindow : (s.openWindow).tlb = s.tlb := rfl
@[simp] theorem State.mem_openWindow : (s.openWindow).mem = s.mem := rfl
@[simp] theorem State.icache_openWindow : (s.openWindow).icache = s.icache := rfl
@[simp] theorem State.dcache_openWindow : (s.openWindow).dcache = s.dcache := rfl
@[simp] theorem State.fillBuffer_openWindow : (s.openWindow).fillBuffer = s.fillBuffer := rfl
@[simp] theorem State.unsettled_openWindow : (s.openWindow).unsettled = s.unsettled := rfl
@[simp] theorem State.between_openWindow : (s.openWindow).between = s.between := rfl
@[simp] theorem State.ahead_openWindow : (s.openWindow).ahead = s.ahead := rfl
@[simp] theorem State.waited_openWindow : (s.openWindow).waited = s.waited := rfl
@[simp] theorem State.oldContexts_openWindow : (s.openWindow).oldContexts = s.fetchContext :: s.oldContexts := rfl
@[simp] theorem State.fetchedUser_openWindow : (s.openWindow).fetchedUser = s.fetchedUser := rfl
@[simp] theorem State.criticalLine_openWindow : (s.openWindow).criticalLine = s.criticalLine := rfl
@[simp] theorem State.externalLine_openWindow : (s.openWindow).externalLine = s.externalLine := rfl
@[simp] theorem State.busError_openWindow : (s.openWindow).busError = s.busError := rfl
@[simp] theorem State.drained_openWindow : (s.openWindow).drained = s.drained := rfl
@[simp] theorem State.icbtPending_openWindow : (s.openWindow).icbtPending = s.icbtPending := rfl
@[simp] theorem State.eeWindow_openWindow : (s.openWindow).eeWindow = s.eeWindow := rfl
@[simp] theorem State.icdbdrPending_openWindow : (s.openWindow).icdbdrPending = s.icdbdrPending := rfl
@[simp] theorem State.icdbdrTag_openWindow : (s.openWindow).icdbdrTag = s.icdbdrTag := rfl
@[simp] theorem State.stuck_openWindow : (s.openWindow).stuck = s.stuck := rfl
@[simp] theorem State.dcrs_openWindow : (s.openWindow).dcrs = s.dcrs := rfl
@[simp] theorem State.memMap_openWindow : (s.openWindow).memMap = s.memMap := rfl
@[simp] theorem State.inputs_openWindow : (s.openWindow).inputs = s.inputs := rfl
@[simp] theorem State.draws_openWindow : (s.openWindow).draws = s.draws := rfl

/-! ### `State.busy` -/

@[simp] theorem State.gprs_busy : (s.busy).gprs = s.gprs := rfl
@[simp] theorem State.pc_busy : (s.busy).pc = s.pc := rfl
@[simp] theorem State.cr_busy : (s.busy).cr = s.cr := rfl
@[simp] theorem State.msr_busy : (s.busy).msr = s.msr := rfl
@[simp] theorem State.sprs_busy : (s.busy).sprs = s.sprs := rfl
@[simp] theorem State.tb_busy : (s.busy).tb = s.tb := rfl
@[simp] theorem State.pitReload_busy : (s.busy).pitReload = s.pitReload := rfl
@[simp] theorem State.reserve_busy : (s.busy).reserve = s.reserve := rfl
@[simp] theorem State.tlb_busy : (s.busy).tlb = s.tlb := rfl
@[simp] theorem State.mem_busy : (s.busy).mem = s.mem := rfl
@[simp] theorem State.icache_busy : (s.busy).icache = s.icache := rfl
@[simp] theorem State.dcache_busy : (s.busy).dcache = s.dcache := rfl
@[simp] theorem State.fillBuffer_busy : (s.busy).fillBuffer = s.fillBuffer := rfl
@[simp] theorem State.unsettled_busy : (s.busy).unsettled = s.unsettled := rfl
@[simp] theorem State.between_busy : (s.busy).between = s.between := rfl
@[simp] theorem State.ahead_busy : (s.busy).ahead = s.ahead := rfl
@[simp] theorem State.waited_busy : (s.busy).waited = s.waited := rfl
@[simp] theorem State.oldContexts_busy : (s.busy).oldContexts = s.oldContexts := rfl
@[simp] theorem State.fetchedUser_busy : (s.busy).fetchedUser = s.fetchedUser := rfl
@[simp] theorem State.criticalLine_busy : (s.busy).criticalLine = s.criticalLine := rfl
@[simp] theorem State.externalLine_busy : (s.busy).externalLine = s.externalLine := rfl
@[simp] theorem State.busError_busy : (s.busy).busError = s.busError := rfl
@[simp] theorem State.drained_busy : (s.busy).drained = false := rfl
@[simp] theorem State.icbtPending_busy : (s.busy).icbtPending = s.icbtPending := rfl
@[simp] theorem State.eeWindow_busy : (s.busy).eeWindow = s.eeWindow := rfl
@[simp] theorem State.icdbdrPending_busy : (s.busy).icdbdrPending = s.icdbdrPending := rfl
@[simp] theorem State.icdbdrTag_busy : (s.busy).icdbdrTag = s.icdbdrTag := rfl
@[simp] theorem State.stuck_busy : (s.busy).stuck = s.stuck := rfl
@[simp] theorem State.dcrs_busy : (s.busy).dcrs = s.dcrs := rfl
@[simp] theorem State.memMap_busy : (s.busy).memMap = s.memMap := rfl
@[simp] theorem State.inputs_busy : (s.busy).inputs = s.inputs := rfl
@[simp] theorem State.draws_busy : (s.busy).draws = s.draws := rfl

/-! ### `State.complete` -/

@[simp] theorem State.gprs_complete : (s.complete).gprs = s.gprs := rfl
@[simp] theorem State.pc_complete : (s.complete).pc = s.pc := rfl
@[simp] theorem State.cr_complete : (s.complete).cr = s.cr := rfl
@[simp] theorem State.msr_complete : (s.complete).msr = s.msr := rfl
@[simp] theorem State.sprs_complete : (s.complete).sprs = s.sprs := rfl
@[simp] theorem State.tb_complete : (s.complete).tb = s.tb := rfl
@[simp] theorem State.pitReload_complete : (s.complete).pitReload = s.pitReload := rfl
@[simp] theorem State.reserve_complete : (s.complete).reserve = s.reserve := rfl
@[simp] theorem State.tlb_complete : (s.complete).tlb = s.tlb := rfl
@[simp] theorem State.mem_complete : (s.complete).mem = s.mem := rfl
@[simp] theorem State.icache_complete : (s.complete).icache = s.icache := rfl
@[simp] theorem State.dcache_complete : (s.complete).dcache = s.dcache := rfl
@[simp] theorem State.fillBuffer_complete : (s.complete).fillBuffer = none := rfl
@[simp] theorem State.unsettled_complete : (s.complete).unsettled = [] := rfl
@[simp] theorem State.between_complete : (s.complete).between = s.between := rfl
@[simp] theorem State.ahead_complete : (s.complete).ahead = s.ahead := rfl
@[simp] theorem State.waited_complete : (s.complete).waited = s.waited := rfl
@[simp] theorem State.oldContexts_complete : (s.complete).oldContexts = s.oldContexts := rfl
@[simp] theorem State.fetchedUser_complete : (s.complete).fetchedUser = s.fetchedUser := rfl
@[simp] theorem State.criticalLine_complete : (s.complete).criticalLine = s.criticalLine := rfl
@[simp] theorem State.externalLine_complete : (s.complete).externalLine = s.externalLine := rfl
@[simp] theorem State.busError_complete : (s.complete).busError = (s.arrived s.unsettled).busError := rfl
@[simp] theorem State.drained_complete : (s.complete).drained = true := rfl
@[simp] theorem State.icbtPending_complete : (s.complete).icbtPending = false := rfl
@[simp] theorem State.eeWindow_complete : (s.complete).eeWindow = s.eeWindow := rfl
@[simp] theorem State.icdbdrPending_complete : (s.complete).icdbdrPending = s.icdbdrPending := rfl
@[simp] theorem State.icdbdrTag_complete : (s.complete).icdbdrTag = s.icdbdrTag := rfl
@[simp] theorem State.stuck_complete : (s.complete).stuck = s.stuck := rfl
@[simp] theorem State.dcrs_complete : (s.complete).dcrs = s.dcrs := rfl
@[simp] theorem State.memMap_complete : (s.complete).memMap = s.memMap := rfl
@[simp] theorem State.inputs_complete : (s.complete).inputs = s.inputs := rfl
@[simp] theorem State.draws_complete : (s.complete).draws = s.draws := rfl

/-! ### `State.arrived` -/

@[simp] theorem State.gprs_arrived (ws : List (List Overwrite)) : (s.arrived ws).gprs = s.gprs := rfl
@[simp] theorem State.pc_arrived (ws : List (List Overwrite)) : (s.arrived ws).pc = s.pc := rfl
@[simp] theorem State.cr_arrived (ws : List (List Overwrite)) : (s.arrived ws).cr = s.cr := rfl
@[simp] theorem State.msr_arrived (ws : List (List Overwrite)) : (s.arrived ws).msr = s.msr := rfl
@[simp] theorem State.sprs_arrived (ws : List (List Overwrite)) : (s.arrived ws).sprs = s.sprs := rfl
@[simp] theorem State.tb_arrived (ws : List (List Overwrite)) : (s.arrived ws).tb = s.tb := rfl
@[simp] theorem State.pitReload_arrived (ws : List (List Overwrite)) : (s.arrived ws).pitReload = s.pitReload := rfl
@[simp] theorem State.reserve_arrived (ws : List (List Overwrite)) : (s.arrived ws).reserve = s.reserve := rfl
@[simp] theorem State.tlb_arrived (ws : List (List Overwrite)) : (s.arrived ws).tlb = s.tlb := rfl
@[simp] theorem State.mem_arrived (ws : List (List Overwrite)) : (s.arrived ws).mem = s.mem := rfl
@[simp] theorem State.icache_arrived (ws : List (List Overwrite)) : (s.arrived ws).icache = s.icache := rfl
@[simp] theorem State.dcache_arrived (ws : List (List Overwrite)) : (s.arrived ws).dcache = s.dcache := rfl
@[simp] theorem State.fillBuffer_arrived (ws : List (List Overwrite)) : (s.arrived ws).fillBuffer = s.fillBuffer := rfl
@[simp] theorem State.unsettled_arrived (ws : List (List Overwrite)) : (s.arrived ws).unsettled = s.unsettled := rfl
@[simp] theorem State.between_arrived (ws : List (List Overwrite)) : (s.arrived ws).between = s.between := rfl
@[simp] theorem State.ahead_arrived (ws : List (List Overwrite)) : (s.arrived ws).ahead = s.ahead := rfl
@[simp] theorem State.waited_arrived (ws : List (List Overwrite)) : (s.arrived ws).waited = s.waited := rfl
@[simp] theorem State.oldContexts_arrived (ws : List (List Overwrite)) : (s.arrived ws).oldContexts = s.oldContexts := rfl
@[simp] theorem State.fetchedUser_arrived (ws : List (List Overwrite)) : (s.arrived ws).fetchedUser = s.fetchedUser := rfl
@[simp] theorem State.criticalLine_arrived (ws : List (List Overwrite)) : (s.arrived ws).criticalLine = s.criticalLine := rfl
@[simp] theorem State.externalLine_arrived (ws : List (List Overwrite)) : (s.arrived ws).externalLine = s.externalLine := rfl
@[simp] theorem State.busError_arrived (ws : List (List Overwrite)) : (s.arrived ws).busError = (s.busError || ws.any fun w => w.any fun o => isUnbacked s.memMap o.addr) := rfl
@[simp] theorem State.drained_arrived (ws : List (List Overwrite)) : (s.arrived ws).drained = s.drained := rfl
@[simp] theorem State.icbtPending_arrived (ws : List (List Overwrite)) : (s.arrived ws).icbtPending = s.icbtPending := rfl
@[simp] theorem State.eeWindow_arrived (ws : List (List Overwrite)) : (s.arrived ws).eeWindow = s.eeWindow := rfl
@[simp] theorem State.icdbdrPending_arrived (ws : List (List Overwrite)) : (s.arrived ws).icdbdrPending = s.icdbdrPending := rfl
@[simp] theorem State.icdbdrTag_arrived (ws : List (List Overwrite)) : (s.arrived ws).icdbdrTag = s.icdbdrTag := rfl
@[simp] theorem State.stuck_arrived (ws : List (List Overwrite)) : (s.arrived ws).stuck = s.stuck := rfl
@[simp] theorem State.dcrs_arrived (ws : List (List Overwrite)) : (s.arrived ws).dcrs = s.dcrs := rfl
@[simp] theorem State.memMap_arrived (ws : List (List Overwrite)) : (s.arrived ws).memMap = s.memMap := rfl
@[simp] theorem State.inputs_arrived (ws : List (List Overwrite)) : (s.arrived ws).inputs = s.inputs := rfl
@[simp] theorem State.draws_arrived (ws : List (List Overwrite)) : (s.arrived ws).draws = s.draws := rfl

/-! ### `State.settle` -/

@[simp] theorem State.gprs_settle (n : Nat) : (s.settle n).gprs = s.gprs := rfl
@[simp] theorem State.pc_settle (n : Nat) : (s.settle n).pc = s.pc := rfl
@[simp] theorem State.cr_settle (n : Nat) : (s.settle n).cr = s.cr := rfl
@[simp] theorem State.msr_settle (n : Nat) : (s.settle n).msr = s.msr := rfl
@[simp] theorem State.sprs_settle (n : Nat) : (s.settle n).sprs = s.sprs := rfl
@[simp] theorem State.tb_settle (n : Nat) : (s.settle n).tb = s.tb := rfl
@[simp] theorem State.pitReload_settle (n : Nat) : (s.settle n).pitReload = s.pitReload := rfl
@[simp] theorem State.reserve_settle (n : Nat) : (s.settle n).reserve = s.reserve := rfl
@[simp] theorem State.tlb_settle (n : Nat) : (s.settle n).tlb = s.tlb := rfl
@[simp] theorem State.mem_settle (n : Nat) : (s.settle n).mem = s.mem := rfl
@[simp] theorem State.icache_settle (n : Nat) : (s.settle n).icache = s.icache := rfl
@[simp] theorem State.dcache_settle (n : Nat) : (s.settle n).dcache = s.dcache := rfl
@[simp] theorem State.fillBuffer_settle (n : Nat) : (s.settle n).fillBuffer = s.fillBuffer := rfl
@[simp] theorem State.unsettled_settle (n : Nat) : (s.settle n).unsettled = s.unsettled.take n := rfl
@[simp] theorem State.between_settle (n : Nat) : (s.settle n).between = s.between := rfl
@[simp] theorem State.ahead_settle (n : Nat) : (s.settle n).ahead = s.ahead := rfl
@[simp] theorem State.waited_settle (n : Nat) : (s.settle n).waited = s.waited := rfl
@[simp] theorem State.oldContexts_settle (n : Nat) : (s.settle n).oldContexts = s.oldContexts := rfl
@[simp] theorem State.fetchedUser_settle (n : Nat) : (s.settle n).fetchedUser = s.fetchedUser := rfl
@[simp] theorem State.criticalLine_settle (n : Nat) : (s.settle n).criticalLine = s.criticalLine := rfl
@[simp] theorem State.externalLine_settle (n : Nat) : (s.settle n).externalLine = s.externalLine := rfl
@[simp] theorem State.busError_settle (n : Nat) : (s.settle n).busError = (s.arrived (s.unsettled.drop n)).busError := rfl
@[simp] theorem State.drained_settle (n : Nat) : (s.settle n).drained = s.drained := rfl
@[simp] theorem State.icbtPending_settle (n : Nat) : (s.settle n).icbtPending = s.icbtPending := rfl
@[simp] theorem State.eeWindow_settle (n : Nat) : (s.settle n).eeWindow = s.eeWindow := rfl
@[simp] theorem State.icdbdrPending_settle (n : Nat) : (s.settle n).icdbdrPending = s.icdbdrPending := rfl
@[simp] theorem State.icdbdrTag_settle (n : Nat) : (s.settle n).icdbdrTag = s.icdbdrTag := rfl
@[simp] theorem State.stuck_settle (n : Nat) : (s.settle n).stuck = s.stuck := rfl
@[simp] theorem State.dcrs_settle (n : Nat) : (s.settle n).dcrs = s.dcrs := rfl
@[simp] theorem State.memMap_settle (n : Nat) : (s.settle n).memMap = s.memMap := rfl
@[simp] theorem State.inputs_settle (n : Nat) : (s.settle n).inputs = s.inputs := rfl
@[simp] theorem State.draws_settle (n : Nat) : (s.settle n).draws = s.draws := rfl

/-! ### `State.resolve` -/

@[simp] theorem State.gprs_resolve : (s.resolve).gprs = s.gprs := rfl
@[simp] theorem State.pc_resolve : (s.resolve).pc = s.pc := rfl
@[simp] theorem State.cr_resolve : (s.resolve).cr = s.cr := rfl
@[simp] theorem State.msr_resolve : (s.resolve).msr = s.msr := rfl
@[simp] theorem State.sprs_resolve : (s.resolve).sprs = s.sprs := rfl
@[simp] theorem State.tb_resolve : (s.resolve).tb = s.tb := rfl
@[simp] theorem State.pitReload_resolve : (s.resolve).pitReload = s.pitReload := rfl
@[simp] theorem State.reserve_resolve : (s.resolve).reserve = s.reserve := rfl
@[simp] theorem State.tlb_resolve : (s.resolve).tlb = s.tlb := rfl
@[simp] theorem State.mem_resolve : (s.resolve).mem = s.mem := rfl
@[simp] theorem State.icache_resolve : (s.resolve).icache = s.icache := rfl
@[simp] theorem State.dcache_resolve : (s.resolve).dcache = s.dcache := rfl
@[simp] theorem State.fillBuffer_resolve : (s.resolve).fillBuffer = s.fillBuffer := rfl
@[simp] theorem State.unsettled_resolve : (s.resolve).unsettled = s.unsettled := rfl
@[simp] theorem State.between_resolve : (s.resolve).between = s.between := rfl
@[simp] theorem State.ahead_resolve : (s.resolve).ahead = s.ahead := rfl
@[simp] theorem State.waited_resolve : (s.resolve).waited = s.waited.filterMap (wayOn s.pc) := rfl
@[simp] theorem State.oldContexts_resolve : (s.resolve).oldContexts = s.oldContexts := rfl
@[simp] theorem State.fetchedUser_resolve : (s.resolve).fetchedUser = s.fetchedUser := rfl
@[simp] theorem State.criticalLine_resolve : (s.resolve).criticalLine = s.criticalLine := rfl
@[simp] theorem State.externalLine_resolve : (s.resolve).externalLine = s.externalLine := rfl
@[simp] theorem State.busError_resolve : (s.resolve).busError = s.busError := rfl
@[simp] theorem State.drained_resolve : (s.resolve).drained = s.drained := rfl
@[simp] theorem State.icbtPending_resolve : (s.resolve).icbtPending = s.icbtPending := rfl
@[simp] theorem State.eeWindow_resolve : (s.resolve).eeWindow = s.eeWindow := rfl
@[simp] theorem State.icdbdrPending_resolve : (s.resolve).icdbdrPending = s.icdbdrPending := rfl
@[simp] theorem State.icdbdrTag_resolve : (s.resolve).icdbdrTag = s.icdbdrTag := rfl
@[simp] theorem State.stuck_resolve : (s.resolve).stuck = s.stuck := rfl
@[simp] theorem State.dcrs_resolve : (s.resolve).dcrs = s.dcrs := rfl
@[simp] theorem State.memMap_resolve : (s.resolve).memMap = s.memMap := rfl
@[simp] theorem State.inputs_resolve : (s.resolve).inputs = s.inputs := rfl
@[simp] theorem State.draws_resolve : (s.resolve).draws = s.draws := rfl

/-! ### `State.passBoundary` -/

@[simp] theorem State.gprs_passBoundary : (s.passBoundary).gprs = s.gprs := rfl
@[simp] theorem State.pc_passBoundary : (s.passBoundary).pc = s.pc := rfl
@[simp] theorem State.cr_passBoundary : (s.passBoundary).cr = s.cr := rfl
@[simp] theorem State.msr_passBoundary : (s.passBoundary).msr = s.msr := rfl
@[simp] theorem State.sprs_passBoundary : (s.passBoundary).sprs = s.sprs := rfl
@[simp] theorem State.tb_passBoundary : (s.passBoundary).tb = s.tb := rfl
@[simp] theorem State.pitReload_passBoundary : (s.passBoundary).pitReload = s.pitReload := rfl
@[simp] theorem State.reserve_passBoundary : (s.passBoundary).reserve = s.reserve := rfl
@[simp] theorem State.tlb_passBoundary : (s.passBoundary).tlb = s.tlb := rfl
@[simp] theorem State.mem_passBoundary : (s.passBoundary).mem = s.mem := rfl
@[simp] theorem State.icache_passBoundary : (s.passBoundary).icache = s.icache := rfl
@[simp] theorem State.dcache_passBoundary : (s.passBoundary).dcache = s.dcache := rfl
@[simp] theorem State.fillBuffer_passBoundary : (s.passBoundary).fillBuffer = s.fillBuffer := rfl
@[simp] theorem State.unsettled_passBoundary : (s.passBoundary).unsettled = s.unsettled := rfl
@[simp] theorem State.between_passBoundary : (s.passBoundary).between = s.between := rfl
@[simp] theorem State.ahead_passBoundary : (s.passBoundary).ahead = s.ahead := rfl
@[simp] theorem State.waited_passBoundary : (s.passBoundary).waited = s.waited := rfl
@[simp] theorem State.oldContexts_passBoundary : (s.passBoundary).oldContexts = s.oldContexts := rfl
@[simp] theorem State.fetchedUser_passBoundary : (s.passBoundary).fetchedUser = s.fetchedUser := rfl
@[simp] theorem State.criticalLine_passBoundary : (s.passBoundary).criticalLine = s.criticalLine := rfl
@[simp] theorem State.externalLine_passBoundary : (s.passBoundary).externalLine = s.externalLine := rfl
@[simp] theorem State.busError_passBoundary : (s.passBoundary).busError = false := rfl
@[simp] theorem State.drained_passBoundary : (s.passBoundary).drained = s.drained := rfl
@[simp] theorem State.icbtPending_passBoundary : (s.passBoundary).icbtPending = s.icbtPending := rfl
@[simp] theorem State.eeWindow_passBoundary : (s.passBoundary).eeWindow = s.eeWindow - 1 := rfl
@[simp] theorem State.icdbdrPending_passBoundary : (s.passBoundary).icdbdrPending = s.icdbdrPending := rfl
@[simp] theorem State.icdbdrTag_passBoundary : (s.passBoundary).icdbdrTag = s.icdbdrTag := rfl
@[simp] theorem State.stuck_passBoundary : (s.passBoundary).stuck = s.stuck := rfl
@[simp] theorem State.dcrs_passBoundary : (s.passBoundary).dcrs = s.dcrs := rfl
@[simp] theorem State.memMap_passBoundary : (s.passBoundary).memMap = s.memMap := rfl
@[simp] theorem State.inputs_passBoundary : (s.passBoundary).inputs = s.inputs := rfl
@[simp] theorem State.draws_passBoundary : (s.passBoundary).draws = s.draws := rfl

/-! ### `State.setDset` -/

@[simp] theorem State.gprs_setDset (b : Nat) (x : DSet) : (s.setDset b x).gprs = s.gprs := rfl
@[simp] theorem State.pc_setDset (b : Nat) (x : DSet) : (s.setDset b x).pc = s.pc := rfl
@[simp] theorem State.cr_setDset (b : Nat) (x : DSet) : (s.setDset b x).cr = s.cr := rfl
@[simp] theorem State.msr_setDset (b : Nat) (x : DSet) : (s.setDset b x).msr = s.msr := rfl
@[simp] theorem State.sprs_setDset (b : Nat) (x : DSet) : (s.setDset b x).sprs = s.sprs := rfl
@[simp] theorem State.tb_setDset (b : Nat) (x : DSet) : (s.setDset b x).tb = s.tb := rfl
@[simp] theorem State.pitReload_setDset (b : Nat) (x : DSet) : (s.setDset b x).pitReload = s.pitReload := rfl
@[simp] theorem State.reserve_setDset (b : Nat) (x : DSet) : (s.setDset b x).reserve = s.reserve := rfl
@[simp] theorem State.tlb_setDset (b : Nat) (x : DSet) : (s.setDset b x).tlb = s.tlb := rfl
@[simp] theorem State.mem_setDset (b : Nat) (x : DSet) : (s.setDset b x).mem = s.mem := rfl
@[simp] theorem State.icache_setDset (b : Nat) (x : DSet) : (s.setDset b x).icache = s.icache := rfl
@[simp] theorem State.dcache_setDset (b : Nat) (x : DSet) : (s.setDset b x).dcache = dsetPut s.dcache (dIndex b) x := rfl
@[simp] theorem State.fillBuffer_setDset (b : Nat) (x : DSet) : (s.setDset b x).fillBuffer = s.fillBuffer := rfl
@[simp] theorem State.unsettled_setDset (b : Nat) (x : DSet) : (s.setDset b x).unsettled = s.unsettled := rfl
@[simp] theorem State.between_setDset (b : Nat) (x : DSet) : (s.setDset b x).between = s.between := rfl
@[simp] theorem State.ahead_setDset (b : Nat) (x : DSet) : (s.setDset b x).ahead = s.ahead := rfl
@[simp] theorem State.waited_setDset (b : Nat) (x : DSet) : (s.setDset b x).waited = s.waited := rfl
@[simp] theorem State.oldContexts_setDset (b : Nat) (x : DSet) : (s.setDset b x).oldContexts = s.oldContexts := rfl
@[simp] theorem State.fetchedUser_setDset (b : Nat) (x : DSet) : (s.setDset b x).fetchedUser = s.fetchedUser := rfl
@[simp] theorem State.criticalLine_setDset (b : Nat) (x : DSet) : (s.setDset b x).criticalLine = s.criticalLine := rfl
@[simp] theorem State.externalLine_setDset (b : Nat) (x : DSet) : (s.setDset b x).externalLine = s.externalLine := rfl
@[simp] theorem State.busError_setDset (b : Nat) (x : DSet) : (s.setDset b x).busError = s.busError := rfl
@[simp] theorem State.drained_setDset (b : Nat) (x : DSet) : (s.setDset b x).drained = s.drained := rfl
@[simp] theorem State.icbtPending_setDset (b : Nat) (x : DSet) : (s.setDset b x).icbtPending = s.icbtPending := rfl
@[simp] theorem State.eeWindow_setDset (b : Nat) (x : DSet) : (s.setDset b x).eeWindow = s.eeWindow := rfl
@[simp] theorem State.icdbdrPending_setDset (b : Nat) (x : DSet) : (s.setDset b x).icdbdrPending = s.icdbdrPending := rfl
@[simp] theorem State.icdbdrTag_setDset (b : Nat) (x : DSet) : (s.setDset b x).icdbdrTag = s.icdbdrTag := rfl
@[simp] theorem State.stuck_setDset (b : Nat) (x : DSet) : (s.setDset b x).stuck = s.stuck := rfl
@[simp] theorem State.dcrs_setDset (b : Nat) (x : DSet) : (s.setDset b x).dcrs = s.dcrs := rfl
@[simp] theorem State.memMap_setDset (b : Nat) (x : DSet) : (s.setDset b x).memMap = s.memMap := rfl
@[simp] theorem State.inputs_setDset (b : Nat) (x : DSet) : (s.setDset b x).inputs = s.inputs := rfl
@[simp] theorem State.draws_setDset (b : Nat) (x : DSet) : (s.setDset b x).draws = s.draws := rfl

/-! ### `State.setIset` -/

@[simp] theorem State.gprs_setIset (i : Nat) (x : ISet) : (s.setIset i x).gprs = s.gprs := rfl
@[simp] theorem State.pc_setIset (i : Nat) (x : ISet) : (s.setIset i x).pc = s.pc := rfl
@[simp] theorem State.cr_setIset (i : Nat) (x : ISet) : (s.setIset i x).cr = s.cr := rfl
@[simp] theorem State.msr_setIset (i : Nat) (x : ISet) : (s.setIset i x).msr = s.msr := rfl
@[simp] theorem State.sprs_setIset (i : Nat) (x : ISet) : (s.setIset i x).sprs = s.sprs := rfl
@[simp] theorem State.tb_setIset (i : Nat) (x : ISet) : (s.setIset i x).tb = s.tb := rfl
@[simp] theorem State.pitReload_setIset (i : Nat) (x : ISet) : (s.setIset i x).pitReload = s.pitReload := rfl
@[simp] theorem State.reserve_setIset (i : Nat) (x : ISet) : (s.setIset i x).reserve = s.reserve := rfl
@[simp] theorem State.tlb_setIset (i : Nat) (x : ISet) : (s.setIset i x).tlb = s.tlb := rfl
@[simp] theorem State.mem_setIset (i : Nat) (x : ISet) : (s.setIset i x).mem = s.mem := rfl
@[simp] theorem State.icache_setIset (i : Nat) (x : ISet) : (s.setIset i x).icache = isetPut s.icache i x := rfl
@[simp] theorem State.dcache_setIset (i : Nat) (x : ISet) : (s.setIset i x).dcache = s.dcache := rfl
@[simp] theorem State.fillBuffer_setIset (i : Nat) (x : ISet) : (s.setIset i x).fillBuffer = s.fillBuffer := rfl
@[simp] theorem State.unsettled_setIset (i : Nat) (x : ISet) : (s.setIset i x).unsettled = s.unsettled := rfl
@[simp] theorem State.between_setIset (i : Nat) (x : ISet) : (s.setIset i x).between = s.between := rfl
@[simp] theorem State.ahead_setIset (i : Nat) (x : ISet) : (s.setIset i x).ahead = s.ahead := rfl
@[simp] theorem State.waited_setIset (i : Nat) (x : ISet) : (s.setIset i x).waited = s.waited := rfl
@[simp] theorem State.oldContexts_setIset (i : Nat) (x : ISet) : (s.setIset i x).oldContexts = s.oldContexts := rfl
@[simp] theorem State.fetchedUser_setIset (i : Nat) (x : ISet) : (s.setIset i x).fetchedUser = s.fetchedUser := rfl
@[simp] theorem State.criticalLine_setIset (i : Nat) (x : ISet) : (s.setIset i x).criticalLine = s.criticalLine := rfl
@[simp] theorem State.externalLine_setIset (i : Nat) (x : ISet) : (s.setIset i x).externalLine = s.externalLine := rfl
@[simp] theorem State.busError_setIset (i : Nat) (x : ISet) : (s.setIset i x).busError = s.busError := rfl
@[simp] theorem State.drained_setIset (i : Nat) (x : ISet) : (s.setIset i x).drained = s.drained := rfl
@[simp] theorem State.icbtPending_setIset (i : Nat) (x : ISet) : (s.setIset i x).icbtPending = s.icbtPending := rfl
@[simp] theorem State.eeWindow_setIset (i : Nat) (x : ISet) : (s.setIset i x).eeWindow = s.eeWindow := rfl
@[simp] theorem State.icdbdrPending_setIset (i : Nat) (x : ISet) : (s.setIset i x).icdbdrPending = s.icdbdrPending := rfl
@[simp] theorem State.icdbdrTag_setIset (i : Nat) (x : ISet) : (s.setIset i x).icdbdrTag = s.icdbdrTag := rfl
@[simp] theorem State.stuck_setIset (i : Nat) (x : ISet) : (s.setIset i x).stuck = s.stuck := rfl
@[simp] theorem State.dcrs_setIset (i : Nat) (x : ISet) : (s.setIset i x).dcrs = s.dcrs := rfl
@[simp] theorem State.memMap_setIset (i : Nat) (x : ISet) : (s.setIset i x).memMap = s.memMap := rfl
@[simp] theorem State.inputs_setIset (i : Nat) (x : ISet) : (s.setIset i x).inputs = s.inputs := rfl
@[simp] theorem State.draws_setIset (i : Nat) (x : ISet) : (s.setIset i x).draws = s.draws := rfl

/-! ### Registers read after a write -/

theorem Spr.index_inj {r q : Spr} (h : r.index = q.index) : r = q := by
  cases r <;> cases q <;> first | rfl | exact absurd h (by decide)

@[simp] theorem State.gpr_setGpr_self (r : Reg) (v : Word) : (s.setGpr r v).gpr r = v := by
  simp [State.gpr]

theorem State.gpr_setGpr_ne {r q : Reg} (v : Word) (h : q ≠ r) : (s.setGpr r v).gpr q = s.gpr q := by
  have : r.toNat ≠ q.toNat := fun e => h (BitVec.eq_of_toNat_eq e.symm)
  simp [State.gpr, this]

theorem State.gpr_setGpr (r q : Reg) (v : Word) : (s.setGpr r v).gpr q = if q = r then v else s.gpr q := by
  by_cases h : q = r
  · subst h; simp
  · simp [h, State.gpr_setGpr_ne]

@[simp] theorem State.spr_setSpr_self (r : Spr) (v : Word) : (s.setSpr r v).spr r = v &&& r.mask := by
  simp [State.spr]

theorem State.spr_setSpr_ne {r q : Spr} (v : Word) (h : q ≠ r) : (s.setSpr r v).spr q = s.spr q := by
  have : (r.index : Nat) ≠ q.index := fun e => h (Spr.index_inj (Fin.ext e.symm))
  simp [State.spr, this]

theorem State.spr_setSpr (r q : Spr) (v : Word) :
    (s.setSpr r v).spr q = if q = r then v &&& r.mask else s.spr q := by
  by_cases h : q = r
  · subst h; simp
  · simp [h, State.spr_setSpr_ne]

@[simp] theorem State.spr_setGpr (r : Reg) (v : Word) (q : Spr) : (s.setGpr r v).spr q = s.spr q := rfl
@[simp] theorem State.dataByte_setGpr (r : Reg) (v : Word) (ra : Word) : (s.setGpr r v).dataByte ra = s.dataByte ra := rfl
@[simp] theorem State.gpr_setSpr (r : Spr) (v : Word) (q : Reg) : (s.setSpr r v).gpr q = s.gpr q := rfl
@[simp] theorem State.dataByte_setSpr (r : Spr) (v : Word) (ra : Word) : (s.setSpr r v).dataByte ra = s.dataByte ra := rfl
@[simp] theorem State.gpr_setMsr (v : Word) (q : Reg) : (s.setMsr v).gpr q = s.gpr q := rfl
@[simp] theorem State.spr_setMsr (v : Word) (q : Spr) : (s.setMsr v).spr q = s.spr q := rfl
@[simp] theorem State.dataByte_setMsr (v : Word) (ra : Word) : (s.setMsr v).dataByte ra = s.dataByte ra := rfl
@[simp] theorem State.gpr_setPc (a : Word) (q : Reg) : (s.setPc a).gpr q = s.gpr q := rfl
@[simp] theorem State.spr_setPc (a : Word) (q : Spr) : (s.setPc a).spr q = s.spr q := rfl
@[simp] theorem State.dataByte_setPc (a : Word) (ra : Word) : (s.setPc a).dataByte ra = s.dataByte ra := rfl
@[simp] theorem State.gpr_advance (q : Reg) : (s.advance).gpr q = s.gpr q := rfl
@[simp] theorem State.spr_advance (q : Spr) : (s.advance).spr q = s.spr q := rfl
@[simp] theorem State.dataByte_advance (ra : Word) : (s.advance).dataByte ra = s.dataByte ra := rfl
@[simp] theorem State.gpr_drawn (q : Reg) : (s.drawn).gpr q = s.gpr q := rfl
@[simp] theorem State.spr_drawn (q : Spr) : (s.drawn).spr q = s.spr q := rfl
@[simp] theorem State.dataByte_drawn (ra : Word) : (s.drawn).dataByte ra = s.dataByte ra := rfl
@[simp] theorem State.gpr_setCrField (f : BitVec 3) (v : BitVec 4) (q : Reg) : (s.setCrField f v).gpr q = s.gpr q := rfl
@[simp] theorem State.spr_setCrField (f : BitVec 3) (v : BitVec 4) (q : Spr) : (s.setCrField f v).spr q = s.spr q := rfl
@[simp] theorem State.dataByte_setCrField (f : BitVec 3) (v : BitVec 4) (ra : Word) : (s.setCrField f v).dataByte ra = s.dataByte ra := rfl
@[simp] theorem State.gpr_contextSync (q : Reg) : (s.contextSync).gpr q = s.gpr q := rfl
@[simp] theorem State.spr_contextSync (q : Spr) : (s.contextSync).spr q = s.spr q := rfl
@[simp] theorem State.dataByte_contextSync (ra : Word) : (s.contextSync).dataByte ra = s.dataByte ra := rfl
@[simp] theorem State.gpr_openWindow (q : Reg) : (s.openWindow).gpr q = s.gpr q := rfl
@[simp] theorem State.spr_openWindow (q : Spr) : (s.openWindow).spr q = s.spr q := rfl
@[simp] theorem State.dataByte_openWindow (ra : Word) : (s.openWindow).dataByte ra = s.dataByte ra := rfl
@[simp] theorem State.gpr_busy (q : Reg) : (s.busy).gpr q = s.gpr q := rfl
@[simp] theorem State.spr_busy (q : Spr) : (s.busy).spr q = s.spr q := rfl
@[simp] theorem State.dataByte_busy (ra : Word) : (s.busy).dataByte ra = s.dataByte ra := rfl
@[simp] theorem State.gpr_complete (q : Reg) : (s.complete).gpr q = s.gpr q := rfl
@[simp] theorem State.spr_complete (q : Spr) : (s.complete).spr q = s.spr q := rfl
@[simp] theorem State.dataByte_complete (ra : Word) : (s.complete).dataByte ra = s.dataByte ra := rfl
@[simp] theorem State.gpr_arrived (ws : List (List Overwrite)) (q : Reg) : (s.arrived ws).gpr q = s.gpr q := rfl
@[simp] theorem State.spr_arrived (ws : List (List Overwrite)) (q : Spr) : (s.arrived ws).spr q = s.spr q := rfl
@[simp] theorem State.dataByte_arrived (ws : List (List Overwrite)) (ra : Word) : (s.arrived ws).dataByte ra = s.dataByte ra := rfl
@[simp] theorem State.gpr_settle (n : Nat) (q : Reg) : (s.settle n).gpr q = s.gpr q := rfl
@[simp] theorem State.spr_settle (n : Nat) (q : Spr) : (s.settle n).spr q = s.spr q := rfl
@[simp] theorem State.dataByte_settle (n : Nat) (ra : Word) : (s.settle n).dataByte ra = s.dataByte ra := rfl
@[simp] theorem State.gpr_resolve (q : Reg) : (s.resolve).gpr q = s.gpr q := rfl
@[simp] theorem State.spr_resolve (q : Spr) : (s.resolve).spr q = s.spr q := rfl
@[simp] theorem State.dataByte_resolve (ra : Word) : (s.resolve).dataByte ra = s.dataByte ra := rfl
@[simp] theorem State.gpr_passBoundary (q : Reg) : (s.passBoundary).gpr q = s.gpr q := rfl
@[simp] theorem State.spr_passBoundary (q : Spr) : (s.passBoundary).spr q = s.spr q := rfl
@[simp] theorem State.dataByte_passBoundary (ra : Word) : (s.passBoundary).dataByte ra = s.dataByte ra := rfl
@[simp] theorem State.gpr_setDset (b : Nat) (x : DSet) (q : Reg) : (s.setDset b x).gpr q = s.gpr q := rfl
@[simp] theorem State.spr_setDset (b : Nat) (x : DSet) (q : Spr) : (s.setDset b x).spr q = s.spr q := rfl
@[simp] theorem State.gpr_setIset (i : Nat) (x : ISet) (q : Reg) : (s.setIset i x).gpr q = s.gpr q := rfl
@[simp] theorem State.spr_setIset (i : Nat) (x : ISet) (q : Spr) : (s.setIset i x).spr q = s.spr q := rfl
@[simp] theorem State.dataByte_setIset (i : Nat) (x : ISet) (ra : Word) : (s.setIset i x).dataByte ra = s.dataByte ra := rfl

@[simp] theorem State.gpr_setSyndrome (w : Word) (q : Reg) : (s.setSyndrome w).gpr q = s.gpr q := rfl
@[simp] theorem State.cr_setSyndrome (w : Word) : (s.setSyndrome w).cr = s.cr := rfl
@[simp] theorem State.pc_setSyndrome (w : Word) : (s.setSyndrome w).pc = s.pc := rfl
@[simp] theorem State.msr_setSyndrome (w : Word) : (s.setSyndrome w).msr = s.msr := rfl
@[simp] theorem State.dataByte_setSyndrome (w ra : Word) : (s.setSyndrome w).dataByte ra = s.dataByte ra := rfl

end Sys2Proof.Machine
end

