-- ==== Sys2Proof/Laws/Ops.lean ====
section
/-! SUPPORT. What the shared operations over registers do: results and flags, additions, stops, interrupts. -/

namespace Sys2Proof.Machine

/-! ### Frames -/

/-- What the program sees of storage depends on memory and the data cache alone. -/
theorem dataByte_congr {s t : State} (hm : t.mem = s.mem) (hd : t.dcache = s.dcache) (ra : Word) :
    t.dataByte ra = s.dataByte ra := by
  simp only [State.dataByte, State.dLine, State.dFind, State.dset, hm, hd]

/-- A state that differs in registers only keeps the rest of the machine. -/
theorem keepsSystem_of {s t : State} (h1 : t.msr = s.msr) (h2 : t.tb = s.tb) (h3 : t.pitReload = s.pitReload)
    (h4 : t.reserve = s.reserve) (h5 : t.tlb = s.tlb) (h6 : t.dcrs = s.dcrs) (hm : t.memMap = s.memMap)
    (h7 : t.icache = s.icache) (h8 : t.mem = s.mem) (h9 : t.dcache = s.dcache) : KeepsSystem s t :=
  ⟨h1, h2, h3, h4, h5, h6, hm, h7, dataByte_congr h8 h9⟩

/-! ### Results and flags -/

/-- A bit of XER after a write: bits 0 to 2 and 25 to 31 are stored. -/
theorem bitAt_xer (v : Word) (b : Nat) (hb : b < 3) : bitAt (v &&& Spr.mask .xer) b = bitAt v b := by
  have : bitAt (Spr.mask .xer) b = true := by interval_cases b <;> decide
  rw [bitAt_and, this, Bool.and_true]

/-- The byte count after a write of XER. -/
theorem tbc_xer (v : Word) : ((v &&& Spr.mask .xer).setWidth 7 : BitVec 7) = v.setWidth 7 := by
  refine BitVec.eq_of_getLsbD_eq fun j hj => ?_
  have : (Spr.mask .xer).getLsbD j = true := by interval_cases j <;> decide
  simp only [BitVec.getLsbD_setWidth, BitVec.getLsbD_and, this, Bool.and_true]

/-- The byte count is not touched by a write of a flag. -/
theorem tbc_withBit (w : Word) (b : Nat) (v : Bool) (hb : b < 3) :
    ((withBit w b v).setWidth 7 : BitVec 7) = w.setWidth 7 := by
  refine BitVec.eq_of_getLsbD_eq fun j hj => ?_
  have h := bitAt_withBit w b (31 - j) v (by omega) (by omega)
  have e : 31 - (31 - j) = j := by omega
  have n : 31 - j ≠ b := by omega
  simp only [bitAt, e, n, if_false] at h
  simp only [BitVec.getLsbD_setWidth, h]

/-- CR after a record form. -/
theorem crField_recordCr (rc : Bool) (v : Word) (so : Bool) (cr : Word) (f : BitVec 3) :
    crField (recordCr rc v so cr) f =
      if rc && f = 0 then condField (decide (v.toInt < 0)) (decide (0 < v.toInt)) (decide (v = 0)) so
      else crField cr f := by
  cases rc
  · simp [recordCr]
  · simp only [recordCr, if_true, crField_withCrField, signedCompare_zero, Bool.true_and, decide_eq_true_eq]

/-- XER after `writeResult`. -/
theorem writeResult_xer (s : State) (rt : Reg) (v : Word) (oe ov : Bool) (ca : Option Bool) (rc : Bool) :
    (s.writeResult rt v oe ov ca rc).spr .xer =
      if oe || ca.isSome then carryXer ca (overflowXer oe ov (s.spr .xer)) &&& Spr.mask .xer else s.spr .xer := by
  by_cases h : (oe || ca.isSome) = true
  · simp only [State.writeResult, h, if_true]
    exact State.spr_setSpr_self _ _ _
  · simp only [State.writeResult, h]
    rfl

/-- What `writeResult` does, whole. -/
theorem writeResult_spec (s : State) (rt : Reg) (v : Word) (oe ov : Bool) (ca : Option Bool) (rc : Bool) :
    WritesResult s (s.writeResult rt v oe ov ca rc).advance rt v oe ov ca rc := by
  have hx : ∀ b < 3, bitAt ((s.writeResult rt v oe ov ca rc).spr .xer) b =
      bitAt (carryXer ca (overflowXer oe ov (s.spr .xer))) b := by
    intro b hb
    rw [writeResult_xer]
    split
    · exact bitAt_xer _ _ hb
    · rename_i h; cases oe <;> cases ca <;> simp [carryXer, overflowXer] at h ⊢
  have hso : (s.writeResult rt v oe ov ca rc).advance.xerSO = (s.xerSO || (oe && ov)) := by
    refine (hx 0 (by decide)).trans ?_
    cases oe <;> cases ca <;> simp [carryXer, overflowXer, bitAt_withBit, State.xerSO]
  refine ⟨?_, hso, ?_, ?_, ?_, ⟨?_, ?_, ?_, ?_, ?_, ?_⟩⟩
  · cases oe <;> cases ca <;> simp [State.writeResult, State.gpr, State.advance, State.setGpr, State.setSpr]
  · refine (hx 1 (by decide)).trans ?_
    cases oe <;> cases ca <;> simp [carryXer, overflowXer, bitAt_withBit, State.xerOV]
  · refine (hx 2 (by decide)).trans ?_
    cases oe <;> cases ca <;> simp [carryXer, overflowXer, bitAt_withBit, State.xerCA]
  · have : (s.writeResult rt v oe ov ca rc).advance.cr =
        recordCr rc v ((s.writeResult rt v oe ov ca rc).advance.xerSO) s.cr := by
      rw [show (s.writeResult rt v oe ov ca rc).advance.xerSO = _ from hx 0 (by decide)]; rfl
    rw [this, crField_recordCr]
    simp
  · intro r hr
    cases oe <;> cases ca <;> exact State.gpr_setGpr_ne s v hr
  · cases oe <;> cases ca <;> rfl
  · intro f hf
    refine (crField_recordCr rc v _ s.cr f).trans (if_neg ?_)
    simp only [Bool.and_eq_true, decide_eq_true_eq, not_and]
    exact fun _ => hf
  · show (((s.writeResult rt v oe ov ca rc).spr .xer).setWidth 7 : BitVec 7).toNat = _
    rw [writeResult_xer]
    split
    · refine congrArg BitVec.toNat ((tbc_xer _).trans ?_)
      cases oe <;> cases ca <;> simp only [carryXer, overflowXer, if_true, Bool.false_eq_true, if_false] <;>
        simp only [tbc_withBit, Nat.ofNat_pos, Nat.one_lt_ofNat, Nat.reduceLT]
    · rfl
  · intro r hr
    cases oe <;> cases ca <;> first | rfl | exact State.spr_setSpr_ne _ _ hr
  · cases oe <;> cases ca <;> exact keepsSystem_of rfl rfl rfl rfl rfl rfl rfl rfl rfl rfl

/-- A record form that leaves XER alone is a result without overflow or carry. -/
theorem writeLogical_eq (s : State) (ra : Reg) (v : Word) (rc : Bool) :
    s.writeLogical ra v rc = s.writeResult ra v false false none rc := rfl

/-- What writing one general register does, whole. -/
theorem setGpr_spec (s : State) (rt : Reg) (v : Word) : WritesGpr s (s.setGpr rt v).advance rt v :=
  ⟨State.gpr_setGpr_self _ _ _, fun _ h => State.gpr_setGpr_ne _ _ h, rfl, rfl, fun _ => rfl,
    keepsSystem_of rfl rfl rfl rfl rfl rfl rfl rfl rfl rfl⟩

/-- Going on to the next instruction, whole. -/
theorem advance_spec (s : State) : OnlyAdvances s s.advance :=
  ⟨fun _ => rfl, rfl, rfl, fun _ => rfl, keepsSystem_of rfl rfl rfl rfl rfl rfl rfl rfl rfl rfl⟩

/-! ### Addition -/

/-- The sum modulo 2^32. -/
theorem addC_r (a b : Word) (c : Bool) : (addC a b c).r = a + b + if c then 1 else 0 := by
  apply BitVec.eq_of_toNat_eq
  cases c <;> simp [addC, BitVec.toNat_add, Nat.add_mod]

/-- The carry out. -/
theorem addC_ca (a b : Word) (c : Bool) : (addC a b c).ca = decide (2 ^ 32 ≤ a.toNat + b.toNat + c.toNat) := rfl

/-- Overflow is a signed sum that does not fit. -/
theorem addC_ov (a b : Word) (c : Bool) :
    (addC a b c).ov = outsideSigned (a.toInt + b.toInt + if c then 1 else 0) := by
  have ha := a.isLt
  have hb := b.isLt
  have hr : (addC a b c).r.toNat = (a.toNat + b.toNat + c.toNat) % 2 ^ 32 := by simp [addC]
  show (a.msb == b.msb && (addC a b c).r.msb != a.msb) = _
  simp only [outsideSigned, BitVec.msb_eq_decide, BitVec.toInt_eq_toNat_cond, hr]
  cases c <;> simp only [Bool.toNat_false, Bool.toNat_true, Nat.add_zero, if_true, Bool.false_eq_true, if_false] <;>
    rw [Bool.eq_iff_iff] <;>
    simp only [Bool.and_eq_true, beq_iff_eq, bne_iff_ne, ne_eq, decide_eq_decide, Bool.or_eq_true, decide_eq_true_eq] <;>
    split <;> split <;> omega

/-! ### Stops -/

/-- A privileged instruction in supervisor mode runs. -/
theorem privileged_supervisor {s : State} (h : s.userMode = false) (k : Result) : privileged s k = k := by
  simp [privileged, h]

/-- A privileged instruction in user mode traps. -/
theorem privileged_user {s : State} (h : s.userMode = true) (k : Result) :
    privileged s k = .next (takeException (.program .privileged) s) := by
  simp [privileged, h]

/-- If a stop answers a next state, an exception was taken. -/
theorem stopWith_next {s t : State} {e : Stop} (h : stopWith s e = .next t) : ∃ x, e = .exc x ∧ t = takeException x s := by
  cases e with
  | exc x => exact ⟨x, rfl, by cases h; rfl⟩
  | refuse r => cases h

/-! ### Interrupts -/

/-- The program counter an interrupt goes to is word aligned. -/
theorem vector_aligned (s : State) (k : Interrupt) : s.vector k &&& 3 = 0 := by
  apply eq_of_bitAt
  intro b hb
  simp only [State.vector, bitAt_and, bitAt_or]
  by_cases h : b < 30
  · have : bitAt 3 b = false := by interval_cases b <;> rfl
    rw [this, Bool.and_false]
    interval_cases b <;> rfl
  · have h1 : bitAt 0xFFFF0000 b = false := by interval_cases b <;> rfl
    have h2 : bitAt k.offset b = false := by interval_cases b <;> cases k <;> rfl
    rw [h1, h2]
    simp [bitAt]

/-- A read with free reserved bits keeps the stored bits. -/
theorem readMasked_and (s : State) (v mask : Word) : s.readMasked v mask &&& mask = v &&& mask := by
  unfold State.readMasked
  split
  · rfl
  · apply eq_of_bitAt
    intro b hb
    simp only [bitAt_and, bitAt_or, bitAt_not]
    cases bitAt v b <;> cases bitAt mask b <;> simp

/-- The save registers after a save: the return address and the MSR's image in the class's pair, the others as before. -/
theorem spr_saveContext (s : State) (c : InterruptClass) (ret : Word) (r : Spr) :
    (s.saveContext c ret).spr r =
      if r = (if c = .nonCritical then .srr1 else .srr3) then s.readMasked s.msr msrMask
      else if r = (if c = .nonCritical then .srr0 else .srr2) then ret else s.spr r := by
  have hm : msrMask ≠ 0xFFFFFFFF := by decide
  cases c <;>
    simp only [State.saveContext, State.spr_setSpr, State.afterMasked, hm, if_true, if_false, reduceCtorEq] <;>
    split <;> [skip; split; skip; split; skip; split] <;>
    first | exact BitVec.and_allOnes | rfl

/-- Saving changes the save registers and the draws only. -/
theorem saveContext_part {α : Sort _} (s : State) (c : InterruptClass) (ret : Word) (f : State → α)
    (hf : ∀ (t : State) r v, f (t.setSpr r v) = f t) (hd : f s.drawn = f s) : f (s.saveContext c ret) = f s := by
  have hm : msrMask ≠ 0xFFFFFFFF := by decide
  cases c <;> simp only [State.saveContext, hf, State.afterMasked, hm, if_false, hd]

/-- Taking an interrupt of the non-critical class, whole. -/
theorem takeInterrupt_spec (k : Interrupt) (ret : Word) (s : State) (hk : k.kind = .nonCritical) :
    EntersNonCritical s (takeInterrupt k ret s) k.offset ret (s.spr .esr) (s.spr .dear) := by
  have hspr : ∀ r, (takeInterrupt k ret s).spr r = (s.saveContext k.kind ret).spr r := fun r => rfl
  have part : ∀ {α : Sort _} (f : State → α), (∀ (t : State) r v, f (t.setSpr r v) = f t) → f s.drawn = f s →
      f (s.saveContext k.kind ret) = f s := fun f => saveContext_part s k.kind ret f
  refine ⟨rfl, ?_, ?_, ?_, ?_, ?_, ?_, ?_, ?_, ?_, ?_, ?_, ?_, ?_, ?_, ?_, ?_, ?_, rfl⟩
  · rw [hspr, spr_saveContext, hk]; rfl
  · rw [hspr, spr_saveContext, hk, if_pos rfl, if_pos rfl]; exact readMasked_and ..
  · show s.msr &&& k.kind.keptMsr &&& msrMask = _
    rw [hk, BitVec.and_assoc]; rfl
  · rw [hspr, spr_saveContext, hk]; rfl
  · rw [hspr, spr_saveContext, hk]; rfl
  · intro r h0 h1 _ _
    rw [hspr, spr_saveContext, hk, if_pos rfl, if_pos rfl, if_neg h1, if_neg h0]
  · exact fun r => part (·.gpr r) (fun _ _ _ => rfl) rfl
  · exact part (·.cr) (fun _ _ _ => rfl) rfl
  · exact part (·.reserve) (fun _ _ _ => rfl) rfl
  · exact part (·.tlb) (fun _ _ _ => rfl) rfl
  · exact part (·.tb) (fun _ _ _ => rfl) rfl
  · exact part (·.pitReload) (fun _ _ _ => rfl) rfl
  · exact part (·.dcrs) (fun _ _ _ => rfl) rfl
  · exact part (·.memMap) (fun _ _ _ => rfl) rfl
  · exact part (·.icache) (fun _ _ _ => rfl) rfl
  · exact part (·.fillBuffer) (fun _ _ _ => rfl) rfl
  · exact fun a => part (·.dataByte a) (fun _ _ _ => rfl) rfl

end Sys2Proof.Machine
end

