-- ==== Sys2Proof/Laws/Cache.lean ====
section
/-! SUPPORT. The data cache block by block: what a block holds for the program, and what each cache operation does to it. -/

namespace Sys2Proof.Machine

/-! ### What a storage operation leaves alone -/

/-- Two states that differ in memory, the data cache, the fill buffer, the writes that have not arrived, a reported bus
error and the free values only. -/
def StorageOnly (s t : State) : Prop :=
  t = { s with
    mem := t.mem, dcache := t.dcache, fillBuffer := t.fillBuffer, unsettled := t.unsettled, busError := t.busError,
    draws := t.draws }

theorem StorageOnly.refl (s : State) : StorageOnly s s := rfl

/-- Any part of the state, after a storage operation. -/
theorem StorageOnly.part {s t : State} {α : Sort _} (h : StorageOnly s t) (f : State → α) : f t = f { s with
    mem := t.mem, dcache := t.dcache, fillBuffer := t.fillBuffer, unsettled := t.unsettled, busError := t.busError,
    draws := t.draws } := congrArg f h

theorem StorageOnly.trans {s t u : State} (h1 : StorageOnly s t) (h2 : StorageOnly t u) : StorageOnly s u := by
  have := h1.part (fun x : State => { x with
    mem := u.mem, dcache := u.dcache, fillBuffer := u.fillBuffer, unsettled := u.unsettled, busError := u.busError,
    draws := u.draws })
  exact Eq.trans h2 this

theorem StorageOnly.memMap {s t : State} (h : StorageOnly s t) : t.memMap = s.memMap := h.part State.memMap

theorem StorageOnly.between {s t : State} (h : StorageOnly s t) : t.between = s.between := h.part State.between

theorem StorageOnly.gpr {s t : State} (h : StorageOnly s t) (r : Reg) : t.gpr r = s.gpr r := h.part (·.gpr r)

theorem StorageOnly.spr {s t : State} (h : StorageOnly s t) (r : Spr) : t.spr r = s.spr r := h.part (·.spr r)

/-- A storage operation keeps the control registers. -/
theorem StorageOnly.control {s t : State} (h : StorageOnly s t) : KeepsControl s t :=
  ⟨h.part State.msr, h.part State.tb, h.part State.pitReload, h.part State.tlb, h.part State.dcrs, h.memMap,
    h.part State.icache, h.spr⟩

/-- The same for an access of several bytes, between which other bus masters may have written. -/
def AccessOnly (s t : State) : Prop := StorageOnly { s with between := t.between } t

theorem StorageOnly.access {s t : State} (h : StorageOnly s t) : AccessOnly s t := by
  unfold AccessOnly
  rw [h.between]
  exact h

theorem AccessOnly.refl (s : State) : AccessOnly s s := rfl

/-- Any part of the state, after an access. -/
theorem AccessOnly.part {s t : State} {α : Sort _} (h : AccessOnly s t) (f : State → α) : f t = f { s with
    mem := t.mem, dcache := t.dcache, fillBuffer := t.fillBuffer, unsettled := t.unsettled, busError := t.busError,
    draws := t.draws, between := t.between } := congrArg f h

theorem AccessOnly.trans {s t u : State} (h1 : AccessOnly s t) (h2 : AccessOnly t u) : AccessOnly s u := by
  have := h1.part (fun x : State => { x with
    mem := u.mem, dcache := u.dcache, fillBuffer := u.fillBuffer, unsettled := u.unsettled, busError := u.busError,
    draws := u.draws, between := u.between })
  exact Eq.trans h2 this

theorem AccessOnly.gpr {s t : State} (h : AccessOnly s t) (r : Reg) : t.gpr r = s.gpr r := h.part (·.gpr r)

theorem AccessOnly.spr {s t : State} (h : AccessOnly s t) (r : Spr) : t.spr r = s.spr r := h.part (·.spr r)

/-- An access keeps the control registers. -/
theorem AccessOnly.control {s t : State} (h : AccessOnly s t) : KeepsControl s t :=
  ⟨h.part State.msr, h.part State.tb, h.part State.pitReload, h.part State.tlb, h.part State.dcrs, h.part State.memMap,
    h.part State.icache, h.spr⟩

/-! ### Blocks -/

/-- The number of blocks of the address space. -/
theorem blockOf_lt (ra : Word) : blockOf ra < 2 ^ 27 := by
  have := ra.isLt
  unfold blockOf
  omega

/-- Every block has an address. -/
theorem blockOf_ofNat {b : Nat} (h : b < 2 ^ 27) : blockOf (BitVec.ofNat 32 (32 * b)) = b := by
  simp only [blockOf, BitVec.toNat_ofNat]
  omega

theorem dIndex_lt (b : Nat) : dIndex b < Config.dcacheSets := Nat.mod_lt _ (by decide)

/-- A block is known by its class and its tag. -/
theorem block_eq {b c : Nat} (hb : b < 2 ^ 27) (hc : c < 2 ^ 27) (hi : dIndex b = dIndex c) (ht : dTag b = dTag c) :
    b = c := by
  have := congrArg BitVec.toNat ht
  simp only [dTag, dIndex, Config.dcacheSets, BitVec.toNat_ofNat] at this hi
  omega

/-- The block a way holds has the way's tag and class. -/
theorem DWay.block_tag (w : DWay) {i : Nat} (hi : i < Config.dcacheSets) : dTag (w.block i) = w.tag := by
  apply BitVec.eq_of_toNat_eq
  have := w.tag.isLt
  simp only [dTag, DWay.block, Config.dcacheSets, BitVec.toNat_ofNat] at *
  omega

theorem DWay.block_index (w : DWay) {i : Nat} (hi : i < Config.dcacheSets) : dIndex (w.block i) = i := by
  simp only [dIndex, DWay.block, Config.dcacheSets] at *
  omega

theorem DWay.block_lt (w : DWay) {i : Nat} (hi : i < Config.dcacheSets) : w.block i < 2 ^ 27 := by
  have := w.tag.isLt
  simp only [DWay.block, Config.dcacheSets] at *
  omega

/-- A block of memory after a block is written. -/
theorem memBlock_putBlock (m : Memory) (b c : Nat) (bs : Vector Byte 32) :
    memBlock (memPutAll m (cellsFrom (32 * b) bs.toList)) c = if c = b then bs else memBlock m c := by
  ext i hi
  have h := memBlock_get (memPutAll m (cellsFrom (32 * b) bs.toList)) c ⟨i, hi⟩
  have h' := memBlock_get m c ⟨i, hi⟩
  simp only [Fin.getElem_fin] at h h'
  rw [h, memGet_putBlock]
  by_cases e : c = b
  · subst e
    have e1 : (32 * c + i) / 32 = c := by omega
    have e2 : (32 * c + i) % 32 = i := by omega
    simp [e1, e2]
  · have e1 : ¬ (32 * c + i) / 32 = b := by omega
    simp [e1, e, h']

/-- A block of memory after a byte is written. -/
theorem memBlock_put (m : Memory) (ra : Word) (c : Nat) (v : Byte) :
    memBlock (memPut m ra.toNat v) c = if c = blockOf ra then (memBlock m c).set (offsetOf ra) v else memBlock m c := by
  ext i hi
  have h := memBlock_get (memPut m ra.toNat v) c ⟨i, hi⟩
  have h' := memBlock_get m c ⟨i, hi⟩
  simp only [Fin.getElem_fin] at h h'
  rw [h, memGet_put]
  by_cases e : c = blockOf ra
  · rw [if_pos e, Vector.getElem_set]
    by_cases e2 : (offsetOf ra : Nat) = i
    · have : 32 * c + i = ra.toNat := by
        subst e; simp only [← e2, offsetOf, blockOf]; omega
      simp [this, e2]
    · have : ¬ 32 * c + i = ra.toNat := by
        subst e; simp only [offsetOf, blockOf] at *; omega
      simp [this, e2, h']
  · have : ¬ 32 * c + i = ra.toNat := by
      simp only [blockOf] at e; omega
    simp [this, e, h']

/-- A block of memory after bytes of one block are written. -/
theorem memBlock_putAll (m : Memory) (b c : Nat) (cs : List (Word × Byte)) (h : ∀ x ∈ cs, blockOf x.1 = b) :
    memBlock (memPutAll m (cs.map fun x => (x.1.toNat, x.2))) c =
      if c = b then setBytes (memBlock m c) cs else memBlock m c := by
  induction cs generalizing m with
  | nil => simp [memPutAll, setBytes]
  | cons x cs ih =>
    have hx := h x (by simp)
    refine (ih _ fun y hy => h y (by simp [hy])).trans ?_
    rw [memBlock_put, hx]
    split <;> rfl

/-! ### Lines -/

/-- The way of a class that answers for a tag. -/
def DSet.line (x : DSet) (tag : BitVec 20) : Option DWay :=
  if x.a.holds tag then some x.a else if x.b.holds tag then some x.b else none

theorem State.dLine_eq (s : State) (b : Nat) : s.dLine b = (s.dset b).line (dTag b) := by
  simp only [State.dLine, State.dFind, DSet.find, DSet.line]
  split <;> [rfl; (split <;> rfl)]

/-- The way found holds the tag. -/
theorem DSet.find_holds {x : DSet} {tag : BitVec 20} {k : Way} (h : x.find tag = some k) : (x.way k).holds tag = true := by
  unfold DSet.find at h
  split at h
  · cases h; assumption
  · split at h
    · cases h; assumption
    · cases h

/-- Where no way is found, none holds the tag. -/
theorem DSet.find_none {x : DSet} {tag : BitVec 20} (h : x.find tag = none) (k : Way) : (x.way k).holds tag = false := by
  unfold DSet.find at h
  split at h
  · cases h
  · split at h
    · cases h
    · cases k <;> simp_all [DSet.way]

theorem DSet.line_isSome (x : DSet) (tag : BitVec 20) : (x.line tag).isSome = (x.find tag).isSome := by
  simp only [DSet.line, DSet.find]
  split <;> [rfl; (split <;> rfl)]

/-- The class of a block after a class is replaced. -/
theorem State.dset_setDset (s : State) (b c : Nat) (x : DSet) :
    (s.setDset b x).dset c = if dIndex c = dIndex b then x else s.dset c := dsetGet_put _ _ _ _

/-- The line of a block after a class is replaced. -/
theorem State.dLine_setDset (s : State) (b c : Nat) (x : DSet) :
    (s.setDset b x).dLine c = if dIndex c = dIndex b then x.line (dTag c) else s.dLine c := by
  rw [State.dLine_eq, State.dset_setDset]
  split
  · rfl
  · rw [State.dLine_eq]

@[simp] theorem DSet.line_touch (x : DSet) (k : Way) (tag : BitVec 20) : (x.touch k).line tag = x.line tag := by
  cases k <;> rfl

@[simp] theorem DSet.distinct_touch (x : DSet) (k : Way) : (x.touch k).distinct ↔ x.distinct := by
  cases k <;> rfl

/-- A way replaced by one with a tag the other way does not hold: the new way answers for its tag, the old one no longer
does. -/
theorem DSet.line_setWay {x : DSet} {k : Way} {w : DWay} (tag : BitVec 20) (hd : x.distinct)
    (hw : ∀ j, j ≠ k → w.valid = true → (x.way j).holds w.tag = false) :
    (x.setWay k w).line tag =
      if w.holds tag then some w else if (x.way k).holds tag then none else x.line tag := by
  cases k
  · have h := hw .b (by simp)
    simp only [DSet.setWay, DSet.line, DSet.way, DWay.holds, DSet.distinct, Bool.and_eq_true, beq_iff_eq] at *
    split
    · rfl
    · by_cases ha : x.a.valid = true ∧ x.a.tag = tag
      · have : ¬(x.b.valid = true ∧ x.b.tag = tag) := fun hb => hd ⟨ha.1, hb.1, by rw [ha.2, hb.2]⟩
        simp [ha, this]
      · simp [ha]
  · have h := hw .a (by simp)
    simp only [DSet.setWay, DSet.line, DSet.way, DWay.holds, DSet.distinct, Bool.and_eq_true, beq_iff_eq] at *
    by_cases ha : x.a.valid = true ∧ x.a.tag = tag
    · have h1 : ¬(w.valid = true ∧ w.tag = tag) := fun hw' => by
        have := h hw'.1
        rw [hw'.2, ← ha.2] at this
        simp [ha.1] at this
      have h2 : ¬(x.b.valid = true ∧ x.b.tag = tag) := fun hb => hd ⟨ha.1, hb.1, by rw [ha.2, hb.2]⟩
      simp [ha, h1, h2]
    · simp only [ha, if_false]
      split <;> simp_all

/-- Replacing a way so keeps the ways distinct. -/
theorem DSet.distinct_setWay {x : DSet} {k : Way} {w : DWay}
    (hw : ∀ j, j ≠ k → w.valid = true → (x.way j).holds w.tag = false) : (x.setWay k w).distinct := by
  cases k
  · have h := hw .b (by simp)
    rintro ⟨h1, h2, h3⟩
    have := h h1
    simp only [DSet.setWay, DSet.way, DWay.holds] at *
    simp [h2, h3] at this
  · have h := hw .a (by simp)
    rintro ⟨h1, h2, h3⟩
    have := h h2
    simp only [DSet.setWay, DSet.way, DWay.holds] at *
    simp [h1, h3] at this

/-! ### What a block holds for the program -/

/-- The 32 bytes a block holds for the program: the line's, else memory's. -/
def State.view (s : State) (b : Nat) : Vector Byte 32 :=
  match s.dLine b with
  | some w => w.bytes
  | none => memBlock s.mem b

/-- A byte the program sees is a byte of its block. -/
theorem dataByte_view (s : State) (ra : Word) : s.dataByte ra = (s.view (blockOf ra))[offsetOf ra] := by
  unfold State.dataByte State.view
  cases s.dLine (blockOf ra) with
  | some w => rfl
  | none =>
    refine Eq.trans (congrArg (memGet s.mem) ?_) (memBlock_get s.mem (blockOf ra) (offsetOf ra)).symm
    exact (Nat.div_add_mod ra.toNat 32).symm

theorem view_congr {s t : State} {b : Nat} (h : t.view b = s.view b) {ra : Word} (hb : blockOf ra = b) :
    t.dataByte ra = s.dataByte ra := by
  rw [dataByte_view, dataByte_view, hb, h]

/-- Coherence without the fill buffer: plain storage, nothing between bytes, unmodified lines equal to memory, no block in
two ways. -/
structure Coh (s : State) : Prop where
  plain : ∀ ra, regionAt s.memMap ra = none
  quiet : s.between = []
  clean : ∀ b w, b < 2 ^ 27 → s.dLine b = some w → w.dirty = false → w.bytes = memBlock s.mem b
  distinct : ∀ i, (dsetGet s.dcache i).distinct

theorem State.coherent.coh {s : State} (h : s.coherent) : Coh s where
  plain := h.plain
  quiet := h.quiet
  clean := fun b w hb hw hd => by
    have := h.clean (BitVec.ofNat 32 (32 * b)) w
    rw [blockOf_ofNat hb] at this
    exact this hw hd
  distinct := h.distinct

/-- Plain memory with nothing cached is coherent. -/
theorem State.coherent.of_empty {s : State} (hd : s.dcache = []) (hm : s.memMap = []) (hf : s.fillBuffer = none)
    (hq : s.between = []) : s.coherent where
  plain := fun b => by rw [hm]; rfl
  quiet := hq
  fillBuffer := fun f h => by rw [hf] at h; cases h
  clean := fun ra w h => by
    have h0 : s.dset (blockOf ra) = DSet.empty := by simp [State.dset, hd, dsetGet, sparseGet]
    rw [State.dLine_eq, h0] at h
    cases h
  distinct := fun i h => by
    have h0 : dsetGet s.dcache i = DSet.empty := by rw [hd]; rfl
    rw [h0] at h
    cases h.1

/-- Coherence with a coherent fill buffer. -/
theorem Coh.coherent {s : State} (h : Coh s) (hf : ∀ f, s.fillBuffer = some f → f.bytes = memBlock s.mem f.block) :
    s.coherent := ⟨h.plain, h.quiet, hf, fun ra w => h.clean _ w (blockOf_lt ra), h.distinct⟩

/-! ### The bus where all storage is plain -/

theorem isPlain_of {map : List Region} (h : ∀ ra, regionAt map ra = none) (ra : Nat) : isPlain map ra = true := by
  simp [isPlain, h]

theorem isUnbacked_of {map : List Region} (h : ∀ ra, regionAt map ra = none) (ra : Nat) : isUnbacked map ra = false := by
  simp [isUnbacked, h]

theorem blockErrs_of {map : List Region} (h : ∀ ra, regionAt map ra = none) (b : Nat) : blockErrs map b = false := by
  simp [blockErrs, isUnbacked_of h]

/-- Where all storage is plain, arriving writes report nothing. -/
theorem arrived_plain {s : State} (h : ∀ ra, regionAt s.memMap ra = none) (ws : List (List Overwrite)) :
    s.arrived ws = s := by
  have : (ws.any fun w => w.any fun o => isUnbacked s.memMap o.addr) = false := by simp [isUnbacked_of h]
  simp [State.arrived, this]

/-- A write over the bus. -/
theorem busWrite_plain {s : State} (h : ∀ ra, regionAt s.memMap ra = none) (cells : List Host.Cell) :
    s.busWrite cells = { s with
      mem := memPutAll s.mem cells
      unsettled := (cells.map fun c => ⟨c.1, memGet s.mem c.1, c.2⟩) :: s.unsettled } := by
  simp [State.busWrite, isPlain_of h]

/-- Bytes read over the bus. -/
theorem busRead_plain {s : State} (h : ∀ ra, regionAt s.memMap ra = none) (ras : List Nat) :
    s.busRead ras = (ras.map (memGet s.mem), s) := by
  simp [State.busRead, busByte, State.afterRead, isPlain_of h]

/-- A block read over the bus. -/
theorem busReadBlock_plain {s : State} (h : ∀ ra, regionAt s.memMap ra = none) (b : Nat) :
    s.busReadBlock b = (memBlock s.mem b, s) := by
  simp [State.busReadBlock, busBlock, blockErrs_of h, memBlock, busByte, State.afterRead, isPlain_of h]

theorem storageOnly_busWrite (s : State) (cells : List Host.Cell) : StorageOnly s (s.busWrite cells) := rfl

theorem storageOnly_busWriteBlock (s : State) (b : Nat) (bs : Vector Byte 32) :
    StorageOnly s (s.busWriteBlock b bs) := rfl

theorem storageOnly_afterRead (s : State) (ras : List Nat) : StorageOnly s (s.afterRead ras) := by
  unfold State.afterRead; split <;> rfl

theorem storageOnly_writeBack (s : State) (i : Nat) (w : DWay) : StorageOnly s (s.writeBack i w) := by
  unfold State.writeBack; split
  · rfl
  · rfl

theorem storageOnly_setDset (s : State) (b : Nat) (x : DSet) : StorageOnly s (s.setDset b x) := rfl

theorem storageOnly_dEstablish (s : State) (b : Nat) (bs : Vector Byte 32) (d : Bool) :
    StorageOnly s (s.dEstablish b bs d) := (storageOnly_writeBack ..).trans (storageOnly_setDset ..)

theorem dcache_writeBack (s : State) (i : Nat) (w : DWay) : (s.writeBack i w).dcache = s.dcache := by
  unfold State.writeBack; split <;> rfl

theorem dset_writeBack (s : State) (i : Nat) (w : DWay) (b : Nat) : (s.writeBack i w).dset b = s.dset b := by
  unfold State.dset; rw [dcache_writeBack]

theorem dLine_writeBack (s : State) (i : Nat) (w : DWay) (b : Nat) : (s.writeBack i w).dLine b = s.dLine b := by
  rw [State.dLine_eq, State.dLine_eq, dset_writeBack]

/-- Memory after a modified line is written. -/
theorem memBlock_writeBack {s : State} (h : ∀ ra, regionAt s.memMap ra = none) (i : Nat) (w : DWay) (c : Nat) :
    memBlock (s.writeBack i w).mem c =
      if w.valid = true ∧ w.dirty = true ∧ c = w.block i then w.bytes else memBlock s.mem c := by
  unfold State.writeBack
  by_cases hv : w.valid = true ∧ w.dirty = true
  · rw [if_pos (by simp [hv]), State.busWriteBlock, busWrite_plain h]
    simp only [memBlock_putBlock, hv, true_and]
  · rw [if_neg (by simpa using hv)]
    have : ¬(w.valid = true ∧ w.dirty = true ∧ c = w.block i) := fun h' => hv ⟨h'.1, h'.2.1⟩
    rw [if_neg this]

/-- A valid way of a class of distinct ways answers for its own block. -/
theorem dLine_of_way {s : State} (hd : ∀ i, (dsetGet s.dcache i).distinct) (b : Nat) (k : Way)
    (hv : ((s.dset b).way k).valid = true) :
    s.dLine (((s.dset b).way k).block (dIndex b)) = some ((s.dset b).way k) := by
  have hi := dIndex_lt b
  rw [State.dLine_eq]
  have e : s.dset (((s.dset b).way k).block (dIndex b)) = s.dset b := by
    simp only [State.dset, DWay.block_index _ hi]
  rw [e, DWay.block_tag _ hi]
  have := hd (dIndex b)
  change (s.dset b).distinct at this
  cases k
  · simp_all [DSet.line, DWay.holds, DSet.way]
  · have h2 : ¬((s.dset b).a.valid = true ∧ (s.dset b).a.tag = (s.dset b).b.tag) := fun h => this ⟨h.1, hv, h.2⟩
    simp_all [DSet.line, DWay.holds, DSet.way]

/-- A way holds a block's tag exactly when it is valid and the block is its own. -/
theorem holds_iff_block (w : DWay) {b i : Nat} (hb : b < 2 ^ 27) (hi : dIndex b = i) :
    w.holds (dTag b) = true ↔ w.valid = true ∧ b = w.block i := by
  subst hi
  have hi := dIndex_lt b
  simp only [DWay.holds, Bool.and_eq_true, beq_iff_eq]
  refine and_congr_right fun _ => ⟨fun h => ?_, fun h => ?_⟩
  · exact block_eq hb (DWay.block_lt _ hi) (DWay.block_index _ hi).symm (by rw [DWay.block_tag _ hi, h])
  · have h2 := DWay.block_tag w hi
    rw [← h] at h2; exact h2.symm

/-- The lines after a line is established for a block that had none. -/
theorem dLine_dEstablish {s : State} (h : Coh s) {b : Nat} (hb : s.dFind b = none) (bs : Vector Byte 32)
    (d : Bool) (c : Nat) (hc : c < 2 ^ 27) (hbl : b < 2 ^ 27) :
    (s.dEstablish b bs d).dLine c =
      if c = b then some ⟨true, d, dTag b, bs⟩
      else if ((s.dset b).way (s.dset b).victim).valid = true ∧
          c = ((s.dset b).way (s.dset b).victim).block (dIndex b) then none
      else s.dLine c := by
  unfold State.dEstablish
  simp only [State.dLine_setDset, DSet.line_touch, dLine_writeBack]
  have hdist : (s.dset b).distinct := h.distinct _
  by_cases hi : dIndex c = dIndex b
  · rw [if_pos hi, DSet.line_setWay _ hdist (fun j _ _ => DSet.find_none hb j)]
    by_cases hcb : c = b
    · subst hcb; simp [DWay.holds]
    · have ht : dTag c ≠ dTag b := fun ht => hcb (block_eq hc hbl hi ht)
      have ht' : ¬ dTag b = dTag c := fun e => ht e.symm
      simp only [DWay.holds, Bool.true_and, beq_iff_eq, ht', if_false, hcb]
      have := holds_iff_block ((s.dset b).way (s.dset b).victim) hc hi
      simp only [DWay.holds] at this
      simp only [this, State.dLine_eq]
      congr 1
      simp only [State.dset, hi]
  · have hcb : c ≠ b := fun e => hi (by rw [e])
    have : ¬ c = ((s.dset b).way (s.dset b).victim).block (dIndex b) := fun e => hi (by
      rw [e, DWay.block_index _ (dIndex_lt b)])
    simp [hi, hcb, this]

/-- What every block holds for the program after a line is established for one that had none. -/
theorem view_dEstablish {s : State} (h : Coh s) {b : Nat} (hb : s.dFind b = none) (bs : Vector Byte 32)
    (d : Bool) (c : Nat) (hc : c < 2 ^ 27) (hbl : b < 2 ^ 27) :
    (s.dEstablish b bs d).view c = if c = b then bs else s.view c := by
  have hl := dLine_dEstablish h hb bs d c hc hbl
  by_cases hcb : c = b
  · rw [if_pos hcb] at hl
    simp only [State.view, hl, if_pos hcb]
  · have hm : memBlock (s.dEstablish b bs d).mem c = _ :=
      memBlock_writeBack h.plain (dIndex b) ((s.dset b).way (s.dset b).victim) c
    simp only [State.view, hl, hcb, if_false, hm]
    by_cases hv : ((s.dset b).way (s.dset b).victim).valid = true ∧
        c = ((s.dset b).way (s.dset b).victim).block (dIndex b)
    · have hw := dLine_of_way h.distinct b _ hv.1
      rw [← hv.2] at hw
      rw [if_pos hv, hw]
      by_cases hdirty : ((s.dset b).way (s.dset b).victim).dirty = true
      · simp only [hv.1, hdirty, ← hv.2, true_and, if_true]
      · rw [if_neg (fun h' => hdirty h'.2.1)]
        exact (h.clean c _ hc hw (by simpa using hdirty)).symm
    · rw [if_neg hv, if_neg (fun h' => hv ⟨h'.1, h'.2.2⟩)]

/-- Establishing a line keeps coherence where the line agrees with memory or is modified. -/
theorem Coh.dEstablish {s : State} (h : Coh s) {b : Nat} (hb : s.dFind b = none) (hbl : b < 2 ^ 27)
    (bs : Vector Byte 32) (d : Bool) (hbs : d = false → bs = memBlock s.mem b) : Coh (s.dEstablish b bs d) where
  plain := (storageOnly_dEstablish s b bs d).memMap ▸ h.plain
  quiet := (storageOnly_dEstablish s b bs d).between.trans h.quiet
  clean := fun c w hc hw hd => by
    rw [dLine_dEstablish h hb bs d c hc hbl] at hw
    have hm : memBlock (s.dEstablish b bs d).mem c = _ :=
      memBlock_writeBack h.plain (dIndex b) ((s.dset b).way (s.dset b).victim) c
    rw [hm]
    have hne : ¬(((s.dset b).way (s.dset b).victim).valid = true ∧
        b = ((s.dset b).way (s.dset b).victim).block (dIndex b)) := fun hv => by
      have := (holds_iff_block _ hbl rfl).2 hv
      rw [DSet.find_none hb] at this
      cases this
    split at hw
    · rename_i e
      cases hw
      subst e
      rw [if_neg (fun h' => hne ⟨h'.1, h'.2.2⟩)]
      exact hbs hd
    · split at hw
      · cases hw
      · rename_i _ hv
        rw [if_neg (fun h' => hv ⟨h'.1, h'.2.2⟩)]
        exact h.clean c w hc hw hd
  distinct := fun i => by
    have : dsetGet (s.dEstablish b bs d).dcache i = _ := dsetGet_put _ _ _ _
    rw [this]
    split
    · rw [DSet.distinct_touch]
      exact DSet.distinct_setWay fun j _ _ => DSet.find_none hb j
    · rw [dcache_writeBack]; exact h.distinct i

end Sys2Proof.Machine
end

