-- ==== Sys2Proof/Laws/Access.lean ====
section
/-! SUPPORT. Loads and stores of located bytes: what they read, what they change, and that they keep coherence. -/

namespace Sys2Proof.Machine

/-! ### A line changed in place -/

/-- The other way does not hold a block that is found. -/
theorem other_way_not {x : DSet} {k : Way} {tag : BitVec 20} (hd : x.distinct) (hk : x.find tag = some k) :
    ∀ j, j ≠ k → (x.way j).holds tag = false := by
  intro j hj
  have h := DSet.find_holds hk
  cases j <;> cases k <;> first
    | exact absurd rfl hj
    | (simp only [DSet.way, DWay.holds, Bool.and_eq_true, beq_iff_eq] at h ⊢
       rw [Bool.and_eq_false_iff]
       by_contra hc
       simp only [not_or, Bool.not_eq_false, beq_iff_eq] at hc
       exact hd (by simp_all))

/-- The lines after a class's way that holds `b` is replaced. -/
theorem dLine_setWay {s : State} (hd : ∀ i, (dsetGet s.dcache i).distinct) {b c : Nat} {k : Way}
    (hk : s.dFind b = some k) (hb : b < 2 ^ 27) (hc : c < 2 ^ 27) {x : DSet} {w : DWay} (hw : w.tag = dTag b)
    (hx : ∀ tag, x.line tag = ((s.dset b).setWay k w).line tag) :
    (s.setDset b x).dLine c = if c = b then (if w.valid then some w else none) else s.dLine c := by
  have hdist : (s.dset b).distinct := hd _
  have ho := other_way_not hdist hk
  have hh := DSet.find_holds hk
  rw [State.dLine_setDset]
  by_cases hi : dIndex c = dIndex b
  · rw [if_pos hi, hx, DSet.line_setWay _ hdist (fun j hj _ => by rw [hw]; exact ho j hj)]
    by_cases hcb : c = b
    · subst hcb
      have hv : w.holds (dTag c) = w.valid := by simp [DWay.holds, hw]
      rw [hv, if_pos hh, if_pos rfl]
    · have ht : dTag c ≠ dTag b := fun ht => hcb (block_eq hc hb hi ht)
      have ht' : ¬ dTag b = dTag c := fun e => ht e.symm
      have h1 : w.holds (dTag c) = false := by simp [DWay.holds, hw, ht']
      have h2 : ((s.dset b).way k).holds (dTag c) = false := by
        simp only [DWay.holds, Bool.and_eq_true, beq_iff_eq] at hh
        simp [DWay.holds, hh.2, ht']
      rw [h1, h2, if_neg hcb, State.dLine_eq, State.dset, State.dset, hi]
      rfl
  · have hcb : c ≠ b := fun e => hi (by rw [e])
    simp [hi, hcb]

/-- The classes after such a change stay distinct. -/
theorem distinct_setWay {s : State} (hd : ∀ i, (dsetGet s.dcache i).distinct) {b : Nat} {k : Way}
    (hk : s.dFind b = some k) {x : DSet} {w : DWay} (hw : w.tag = dTag b)
    (hx : x.distinct ↔ ((s.dset b).setWay k w).distinct) (i : Nat) :
    (dsetGet (s.setDset b x).dcache i).distinct := by
  have : dsetGet (s.setDset b x).dcache i = _ := dsetGet_put _ _ _ _
  rw [this]
  split
  · rw [hx]
    exact DSet.distinct_setWay fun j hj _ => by rw [hw]; exact other_way_not (hd _) hk j hj
  · exact hd i

/-- The line of a block that is found. -/
theorem dLine_of_find {s : State} {b : Nat} {k : Way} (h : s.dFind b = some k) : s.dLine b = some ((s.dset b).way k) := by
  simp [State.dLine, h]

/-- The tag of the way found. -/
theorem tag_of_find {s : State} {b : Nat} {k : Way} (h : s.dFind b = some k) :
    ((s.dset b).way k).valid = true ∧ ((s.dset b).way k).tag = dTag b := by
  have := DSet.find_holds h
  simpa [DWay.holds] using this

/-! ### The program's view after an operation -/

/-- After a line fill every block reads as before, and the block is there, unmodified. -/
theorem dFill_spec {s : State} (h : Coh s) {b : Nat} (hb : s.dFind b = none) (hbl : b < 2 ^ 27) :
    Coh (s.dFill b) ∧ (∀ c < 2 ^ 27, (s.dFill b).view c = s.view c) ∧ (s.dFill b).fillBuffer = none ∧
      (s.dFill b).dLine b = some ⟨true, false, dTag b, memBlock s.mem b⟩ := by
  have e : s.dFill b = { s.dEstablish b (memBlock s.mem b) false with fillBuffer := none } := by
    simp only [State.dFill, busReadBlock_plain h.plain]
  have hn : s.dLine b = none := by simp [State.dLine, hb]
  rw [e]
  have hc := h.dEstablish hb hbl (memBlock s.mem b) false (fun _ => rfl)
  refine ⟨⟨hc.plain, hc.quiet, hc.clean, hc.distinct⟩, fun c hcl => ?_, rfl, ?_⟩
  · refine (view_dEstablish h hb (memBlock s.mem b) false c hcl hbl).trans ?_
    split
    · rename_i hcb; subst hcb; simp only [State.view, hn]
    · rfl
  · refine (dLine_dEstablish h hb (memBlock s.mem b) false b hbl hbl).trans ?_
    rw [if_pos rfl]

theorem storageOnly_dFill (s : State) (b : Nat) : StorageOnly s (s.dFill b) :=
  ((storageOnly_afterRead s _).trans (storageOnly_dEstablish _ b (s.busReadBlock b).1 false)).trans rfl

theorem storageOnly_bypassRead (s : State) (b : Nat) (ras : List Word) (keep : Bool) :
    StorageOnly s (s.bypassRead b ras keep).2 := by
  unfold State.bypassRead
  split
  · rfl
  · split
    · exact (storageOnly_afterRead s _).trans rfl
    · exact storageOnly_afterRead s _

theorem storageOnly_loadTogether (s : State) (t : Attrs) (b : Nat) (ras : List Word) :
    StorageOnly s (s.loadTogether t b ras).2 := by
  unfold State.loadTogether
  split
  · rfl
  · split
    · rfl
    · exact (show StorageOnly s s.drawn from rfl).trans (storageOnly_bypassRead ..)
  · exact storageOnly_bypassRead ..
  · split
    · exact storageOnly_bypassRead ..
    · dsimp only
      split <;> exact storageOnly_dFill ..

/-- A load changes storage only. -/
theorem storageOnly_load (s : State) (t : Attrs) (b : Nat) (ras : List Word) : StorageOnly s (s.load t b ras).2 := by
  have h := storageOnly_loadTogether s t b ras
  unfold State.load
  dsimp only
  split
  · exact h.trans rfl
  · exact h

theorem storageOnly_dropFillBuffer (s : State) (b : Nat) : StorageOnly s (s.dropFillBuffer b) := by
  unfold State.dropFillBuffer
  split
  · split <;> rfl
  · rfl

theorem storageOnly_storeHit (s : State) (b : Nat) (k : Way) (w : Bool) (cells : List (Word × Byte)) :
    StorageOnly s (s.storeHit b k w cells) := by
  unfold State.storeHit
  dsimp only
  split <;> rfl

theorem storageOnly_storeTogether (s : State) (t : Attrs) (b : Nat) (cells : List (Word × Byte)) :
    StorageOnly s (s.storeTogether t b cells) := by
  have hb : ∀ u : State, StorageOnly u (u.bypassWrite b cells) := fun u =>
    (storageOnly_busWrite u _).trans (storageOnly_dropFillBuffer ..)
  unfold State.storeTogether
  split
  · exact (storageOnly_storeHit ..).trans (storageOnly_dropFillBuffer ..)
  · split
    · exact (show StorageOnly s s.drawn from rfl).trans
        ((storageOnly_storeHit ..).trans (storageOnly_dropFillBuffer ..))
    · exact (show StorageOnly s s.drawn from rfl).trans (hb _)
  · exact hb _
  · split
    · exact hb _
    · dsimp only
      split
      · exact (storageOnly_dFill ..).trans ((storageOnly_storeHit ..).trans (storageOnly_dropFillBuffer ..))
      · exact storageOnly_dFill ..

/-- A store changes storage only. -/
theorem storageOnly_store (s : State) (t : Attrs) (b : Nat) (cells : List (Word × Byte)) :
    StorageOnly s (s.store t b cells) := by
  unfold State.store
  split
  · exact (storageOnly_storeTogether ..).trans rfl
  · exact storageOnly_storeTogether ..

/-- Bytes of one block that are not in a line: memory's. -/
theorem map_memory {s : State} {b : Nat} (hn : s.dFind b = none) {ras : List Word} (hb : ∀ ra ∈ ras, blockOf ra = b) :
    ras.map (fun ra => (memBlock s.mem b)[offsetOf ra]) = ras.map s.dataByte := by
  refine List.map_congr_left fun ra hra => ?_
  rw [dataByte_view, hb ra hra]
  simp [State.view, State.dLine, hn]

/-- Bytes loaded past the cache array: what the program sees. -/
theorem bypassRead_spec {s : State} (h : s.coherent) {b : Nat} {ras : List Word} (hb : ∀ ra ∈ ras, blockOf ra = b)
    (keep : Bool) (hn : s.dFind b = none) :
    (s.bypassRead b ras keep).1 = ras.map s.dataByte ∧ (s.bypassRead b ras keep).2.coherent ∧
      (∀ c < 2 ^ 27, (s.bypassRead b ras keep).2.view c = s.view c) ∧
      (s.bypassRead b ras keep).2.dcache = s.dcache := by
  unfold State.bypassRead
  split
  · rename_i bs hf
    refine ⟨?_, h, fun _ _ => rfl, rfl⟩
    rw [← map_memory hn hb]
    cases keep
    · cases hf
    · simp only [if_true, State.fillBufferFor] at hf
      split at hf
      · rename_i f hf'
        split at hf
        · rename_i hb'
          cases hf
          rw [h.fillBuffer f hf', hb']
        · cases hf
      · cases hf
  · split
    · rw [busReadBlock_plain h.plain]
      refine ⟨map_memory hn hb, ⟨h.plain, h.quiet, ?_, h.clean, h.distinct⟩, fun _ _ => rfl, rfl⟩
      intro f hf
      cases hf
      rfl
    · rw [busRead_plain h.plain]
      refine ⟨?_, h, fun _ _ => rfl, rfl⟩
      show (ras.map BitVec.toNat).map (memGet s.mem) = _
      rw [List.map_map]
      refine List.map_congr_left fun ra hra => ?_
      unfold State.dataByte
      simp [State.dLine, hb ra hra, hn]

/-- A load of bytes of one block: the bytes the program sees, after which every block reads as before and coherence
holds. -/
theorem load_spec {s : State} (h : s.coherent) (t : Attrs) {b : Nat} {ras : List Word} (hbl : b < 2 ^ 27)
    (hb : ∀ ra ∈ ras, blockOf ra = b) (hs : t.i = false ∨ s.dFind b = none) :
    (s.load t b ras).1 = ras.map s.dataByte ∧ (s.load t b ras).2.coherent ∧
      (∀ c < 2 ^ 27, (s.load t b ras).2.view c = s.view c) ∧ (t.i = true → (s.load t b ras).2.dcache = s.dcache) := by
  have hu : s.anyUnbacked ras = false := by simp [State.anyUnbacked, isUnbacked_of h.plain]
  simp only [State.load, hu, Bool.false_eq_true, if_false]
  unfold State.loadTogether
  split
  · rename_i k hk hi
    have hline : ∀ c < 2 ^ 27, (s.setDset b ((s.dset b).touch k)).dLine c = s.dLine c := by
      intro c hcl
      rw [State.dLine_setDset]
      split
      · rename_i e; rw [DSet.line_touch, State.dLine_eq]; simp only [State.dset, e]
      · rfl
    refine ⟨?_, ⟨h.plain, h.quiet, h.fillBuffer, ?_, ?_⟩, ?_, fun hi' => by simp [hi] at hi'⟩
    · refine List.map_congr_left fun ra hra => ?_
      unfold State.dataByte
      rw [hb ra hra, dLine_of_find hk]
    · intro a w
      have := hline _ (blockOf_lt a)
      simp only [State.dHitRead] at *
      rw [this]
      exact h.clean a w
    · intro i
      have : dsetGet (s.setDset b ((s.dset b).touch k)).dcache i = _ := dsetGet_put _ _ _ _
      simp only [State.dHitRead]
      rw [this]
      split
      · rw [DSet.distinct_touch]; exact h.distinct _
      · exact h.distinct i
    · intro c hcl
      simp only [State.dHitRead, State.view, hline c hcl]
      rfl
  · rename_i k hk hi
    rcases hs with hs | hs
    · simp [hs] at hi
    · simp [hs] at hk
  · rename_i hk hi
    have := bypassRead_spec h hb (!t.g) hk
    exact ⟨this.1, this.2.1, this.2.2.1, fun _ => this.2.2.2⟩
  · rename_i hk hi
    split
    · have := bypassRead_spec h hb true hk
      exact ⟨this.1, this.2.1, this.2.2.1, fun _ => this.2.2.2⟩
    · obtain ⟨h1, h2, h3, h4⟩ := dFill_spec h.coh hk hbl
      simp only [h4]
      exact ⟨map_memory hk hb, h1.coherent (fun f hf => by simp [h3] at hf), h2, fun hi' => by simp [hi] at hi'⟩

/-- Dropping what the fill buffer holds of a block leaves coherence and every block's view. -/
theorem coherent_dropFillBuffer {s : State} (h : Coh s) (b : Nat)
    (hf : ∀ f, s.fillBuffer = some f → f.block ≠ b → f.bytes = memBlock s.mem f.block) :
    (s.dropFillBuffer b).coherent ∧ (∀ c, (s.dropFillBuffer b).view c = s.view c) ∧
      (s.dropFillBuffer b).dcache = s.dcache := by
  unfold State.dropFillBuffer
  split
  · rename_i f hf'
    split
    · refine ⟨⟨h.plain, h.quiet, ?_, fun ra w => h.clean _ w (blockOf_lt ra), h.distinct⟩, fun _ => rfl, rfl⟩
      intro f hf; cases hf
    · rename_i hne
      refine ⟨h.coherent fun g hg => ?_, fun _ => rfl, rfl⟩
      rw [hf'] at hg; cases hg
      exact hf f hf' hne
  · rename_i hn
    exact ⟨h.coherent (fun g hg => by rw [hn] at hg; cases hg), fun _ => rfl, rfl⟩

/-- Bytes of one block stored past the cache: the bytes in memory, everything else as before. -/
theorem bypassWrite_spec {s : State} (h : s.coherent) {b : Nat} {cells : List (Word × Byte)}
    (hb : ∀ c ∈ cells, blockOf c.1 = b) (hn : s.dFind b = none) :
    (s.bypassWrite b cells).coherent ∧ (∀ c < 2 ^ 27, (s.bypassWrite b cells).view c =
      if c = b then setBytes (s.view c) cells else s.view c) ∧ (s.bypassWrite b cells).dcache = s.dcache := by
  have hl : s.dLine b = none := by simp [State.dLine, hn]
  have hm := memBlock_putAll s.mem b (cs := cells) (h := hb)
  unfold State.bypassWrite
  rw [busWrite_plain h.plain]
  obtain ⟨h1, h2, h3⟩ := coherent_dropFillBuffer (s := { s with
      mem := memPutAll s.mem (cells.map fun c => (c.1.toNat, c.2))
      unsettled := ((cells.map fun c => (c.1.toNat, c.2)).map fun (c : Host.Cell) => ⟨c.1, memGet s.mem c.1, c.2⟩) ::
        s.unsettled })
    ⟨h.plain, h.quiet, fun c w hcl hw hd => by
      have hw' : s.dLine c = some w := hw
      have hne : c ≠ b := fun e => by rw [e, hl] at hw'; cases hw'
      show w.bytes = memBlock (memPutAll s.mem _) c
      rw [hm, if_neg hne]
      exact h.coh.clean c w hcl hw' hd, h.distinct⟩ b fun f hf hne => by
    show f.bytes = memBlock (memPutAll s.mem _) f.block
    rw [hm, if_neg hne]
    exact h.fillBuffer f hf
  refine ⟨h1, fun c hcl => (h2 c).trans ?_, h3⟩
  show (match s.dLine c with
    | some w => w.bytes
    | none => memBlock (memPutAll s.mem (cells.map fun (x : Word × Byte) => (x.1.toNat, x.2))) c) = _
  rw [hm]
  by_cases hcb : c = b
  · subst hcb; simp only [hl, if_true, State.view]
  · simp only [hcb, if_false]; rfl

/-- Bytes stored into the line that holds their block. -/
theorem storeHit_spec {s : State} (h : Coh s) (hf : ∀ f, s.fillBuffer = some f → f.bytes = memBlock s.mem f.block)
    {b : Nat} (hbl : b < 2 ^ 27) (k : Way) (w : Bool) {cells : List (Word × Byte)} (hb : ∀ c ∈ cells, blockOf c.1 = b)
    (hk : s.dFind b = some k) :
    ((s.storeHit b k w cells).dropFillBuffer b).coherent ∧
      ∀ c < 2 ^ 27, ((s.storeHit b k w cells).dropFillBuffer b).view c =
        if c = b then setBytes (s.view c) cells else s.view c := by
  obtain ⟨hv, ht⟩ := tag_of_find hk
  let x := s.dset b
  let y : DWay := { x.way k with
    bytes := setBytes (x.way k).bytes cells, dirty := (x.way k).dirty || (!w && !cells.isEmpty) }
  let u := s.setDset b ((x.setWay k y).touch k)
  have hyv : y.valid = true := hv
  have hu : ∀ c < 2 ^ 27, u.dLine c = if c = b then some y else s.dLine c := fun c hcl => by
    have := dLine_setWay h.distinct hk hbl hcl (x := (x.setWay k y).touch k) (w := y) ht (fun _ => DSet.line_touch _ _ _)
    rw [hyv] at this
    exact this
  have hud := distinct_setWay h.distinct hk (x := (x.setWay k y).touch k) (w := y) ht (DSet.distinct_touch _ _)
  have hdc : (s.storeHit b k w cells).dcache = u.dcache := by
    simp only [State.storeHit]
    split <;> rfl
  have hfb : (s.storeHit b k w cells).fillBuffer = s.fillBuffer := by
    simp only [State.storeHit]
    split <;> rfl
  have hm : ∀ c, memBlock (s.storeHit b k w cells).mem c =
      if c = b ∧ w = true then setBytes (memBlock s.mem c) cells else memBlock s.mem c := by
    intro c
    cases w
    · simp [State.storeHit, State.dHitWrite, State.setDset]
    · have e : (s.storeHit b k true cells).mem = memPutAll s.mem (cells.map fun c => (c.1.toNat, c.2)) :=
        congrArg State.mem (busWrite_plain (s := s.dHitWrite b k cells (!true && !cells.isEmpty)) h.plain _)
      rw [e, memBlock_putAll _ _ _ _ hb]
      simp
  have hdl : ∀ c < 2 ^ 27, (s.storeHit b k w cells).dLine c = if c = b then some y else s.dLine c := by
    intro c hcl
    rw [← hu c hcl]
    simp only [State.dLine, State.dFind, State.dset, hdc]
  have so := storageOnly_storeHit s b k w cells
  have hc : Coh (s.storeHit b k w cells) := by
    refine ⟨so.memMap ▸ h.plain, so.between.trans h.quiet, fun c l hcl hl hd => ?_, fun i => ?_⟩
    · rw [hdl c hcl] at hl
      rw [hm c]
      by_cases hcb : c = b
      · rw [if_pos hcb] at hl
        cases hl
        subst hcb
        have hd' : ((x.way k).dirty || (!w && !cells.isEmpty)) = false := hd
        rw [Bool.or_eq_false_iff] at hd'
        have hcl' := h.clean _ _ hbl (dLine_of_find hk) hd'.1
        show setBytes (x.way k).bytes cells = _
        rw [show (x.way k).bytes = _ from hcl']
        cases w
        · cases cells with
          | nil => rw [if_neg (by simp)]; rfl
          | cons a as => simp at hd'
        · rw [if_pos ⟨rfl, rfl⟩]
      · rw [if_neg hcb] at hl
        rw [if_neg (fun h' => hcb h'.1)]
        exact h.clean c l hcl hl hd
    · rw [hdc]
      exact hud i
  obtain ⟨h1, h2, -⟩ := coherent_dropFillBuffer hc b fun f hf' hne => by
    rw [hm, if_neg (fun h' => hne h'.1)]
    exact hf f (hfb ▸ hf')
  refine ⟨h1, fun c hcl => (h2 c).trans ?_⟩
  simp only [State.view, hdl c hcl, hm c]
  by_cases hcb : c = b
  · subst hcb
    simp only [if_true, dLine_of_find hk]
    rfl
  · simp only [hcb, if_false, false_and]

/-- A store of bytes of one block: those bytes at their addresses, every other block as before, coherence kept. -/
theorem store_spec {s : State} (h : s.coherent) (t : Attrs) {b : Nat} {cells : List (Word × Byte)} (hbl : b < 2 ^ 27)
    (hb : ∀ c ∈ cells, blockOf c.1 = b) (hs : t.i = false ∨ s.dFind b = none) :
    (s.store t b cells).coherent ∧ (∀ c < 2 ^ 27, (s.store t b cells).view c =
      if c = b then setBytes (s.view c) cells else s.view c) ∧
      (t.i = true → (s.store t b cells).dcache = s.dcache) := by
  have hu : s.anyUnbacked (cells.map (·.1)) = false := by simp [State.anyUnbacked, isUnbacked_of h.plain]
  simp only [State.store, hu, Bool.false_eq_true, if_false]
  unfold State.storeTogether
  split
  · rename_i k hk hi
    have := storeHit_spec h.coh h.fillBuffer hbl k t.w hb hk
    exact ⟨this.1, this.2, fun hi' => by simp [hi] at hi'⟩
  · rename_i k hk hi
    rcases hs with hs | hs
    · simp [hs] at hi
    · simp [hs] at hk
  · rename_i hk hi
    have := bypassWrite_spec h hb hk
    exact ⟨this.1, this.2.1, fun _ => this.2.2⟩
  · rename_i hk hi
    split
    · have := bypassWrite_spec h hb hk
      exact ⟨this.1, this.2.1, fun _ => this.2.2⟩
    · obtain ⟨h1, h2, h3, h4⟩ := dFill_spec h.coh hk hbl
      have hsome : ((s.dFill b).dFind b).isSome = true := by
        rw [State.dFind, ← DSet.line_isSome, ← State.dLine_eq, h4]; rfl
      dsimp only
      split
      · rename_i k hk'
        have := storeHit_spec h1 (fun f hf => by simp [h3] at hf) hbl k t.w hb hk'
        refine ⟨this.1, fun c hcl => ?_, fun hi' => by simp [hi] at hi'⟩
        rw [this.2 c hcl, h2 c hcl]
      · rename_i hk'
        rw [hk'] at hsome
        cases hsome

/-! ### Bytes at their addresses -/

/-- What bytes at all addresses become when some are written, one after the other. -/
def putBytes (f : Word → Byte) : List (Word × Byte) → Word → Byte
  | [] => f
  | (ra, b) :: cs => putBytes (fun a => if a = ra then b else f a) cs

/-- A byte of a line with some replaced. -/
theorem setBytes_get {b : Nat} {cells : List (Word × Byte)} (hb : ∀ c ∈ cells, blockOf c.1 = b) {v : Vector Byte 32}
    {f : Word → Byte} (hv : ∀ a, blockOf a = b → v[offsetOf a] = f a) {a : Word} (ha : blockOf a = b) :
    (setBytes v cells)[offsetOf a] = putBytes f cells a := by
  induction cells generalizing v f with
  | nil => exact hv a ha
  | cons c cs ih =>
    refine ih (fun d hd => hb d (by simp [hd])) fun a' ha' => ?_
    by_cases e : a' = c.1
    · subst e; simp
    · have hc := hb c (by simp)
      have ho : (offsetOf c.1 : Nat) ≠ (offsetOf a' : Nat) := fun ho => e (BitVec.eq_of_toNat_eq (by
        simp only [blockOf, offsetOf] at ha' hc ho; omega))
      rw [if_neg e]
      exact (Vector.getElem_set_ne _ _ ho).trans (hv a' ha')

/-- A byte that is not written. -/
theorem putBytes_ne (f : Word → Byte) (cells : List (Word × Byte)) {a : Word} (h : a ∉ cells.map (·.1)) :
    putBytes f cells a = f a := by
  induction cells generalizing f with
  | nil => rfl
  | cons c cs ih =>
    simp only [List.map_cons, List.mem_cons, not_or] at h
    exact (ih _ h.2).trans (if_neg h.1)

/-- Bytes written at different addresses stand there. -/
theorem putBytes_zip (f : Word → Byte) (ras : List Word) (bs : List Byte) (hl : bs.length = ras.length)
    (hn : ras.Nodup) : ras.map (putBytes f (ras.zip bs)) = bs := by
  induction ras generalizing f bs with
  | nil => cases bs <;> simp_all
  | cons ra ras ih =>
    cases bs with
    | nil => simp at hl
    | cons b bs =>
      simp only [List.nodup_cons] at hn
      have hl' : bs.length = ras.length := by simpa using hl
      simp only [List.zip_cons_cons, List.map_cons, putBytes]
      have hz : (ras.zip bs).map (·.1) = ras := List.map_fst_zip (by omega)
      rw [ih _ bs hl' hn.2, putBytes_ne _ _ (by rw [hz]; exact hn.1), if_pos rfl]

/-- Every byte after a store of bytes of one block. -/
theorem dataByte_store {s : State} (h : s.coherent) (t : Attrs) {b : Nat} {cells : List (Word × Byte)} (hbl : b < 2 ^ 27)
    (hb : ∀ c ∈ cells, blockOf c.1 = b) (hs : t.i = false ∨ s.dFind b = none) (a : Word) :
    (s.store t b cells).dataByte a = putBytes s.dataByte cells a := by
  have := (store_spec h t hbl hb hs).2.1 (blockOf a) (blockOf_lt a)
  rw [dataByte_view, this]
  by_cases hab : blockOf a = b
  · rw [if_pos hab, hab]
    exact setBytes_get hb (fun a' ha' => by rw [dataByte_view, ha']) hab
  · rw [if_neg hab, putBytes_ne, dataByte_view]
    intro hm
    obtain ⟨c, hc, rfl⟩ := List.mem_map.1 hm
    exact hab (hb c hc)

/-- Bytes of one block stored: their addresses hold them, and every other address reads as before. -/
theorem stored_store {s : State} (h : s.coherent) (t : Attrs) {b : Nat} {ps : List PByte} {bs : List Byte}
    (hbl : b < 2 ^ 27) (hb : ∀ p ∈ ps, blockOf p.ra = b) (hs : t.i = false ∨ s.dFind b = none)
    (hl : bs.length = ps.length) : Stored s (s.store t b ((ps.map (·.ra)).zip bs)) ps bs := by
  have hz : ((ps.map (·.ra)).zip bs).map (·.1) = ps.map (·.ra) := List.map_fst_zip (by simp [hl])
  have hd := dataByte_store h t hbl (cells := (ps.map (·.ra)).zip bs) (fun c hc => by
    have : c.1 ∈ ps.map (·.ra) := by rw [← hz]; exact List.mem_map_of_mem hc
    obtain ⟨p, hp, e⟩ := List.mem_map.1 this
    rw [← e]; exact hb p hp) hs
  refine ⟨fun hn => ?_, fun a ha => ?_⟩
  · have := putBytes_zip s.dataByte (ps.map (·.ra)) bs (by simp [hl]) hn
    rw [List.map_map] at this
    exact (List.map_congr_left fun p _ => hd p.ra).trans this
  · rw [hd, putBytes_ne _ _ (by rw [hz]; exact ha)]

/-! ### Bytes in order -/

/-- With nothing between the bytes of an access, nothing happens there. -/
theorem interleave_quiet {s : State} (h : s.between = []) : s.interleave = s := by
  unfold State.interleave
  rw [h]

theorem accessOnly_interleave (s : State) : AccessOnly s s.interleave := by
  unfold State.interleave
  split <;> rfl

/-- A byte of settled bytes is settled, and its being read or written leaves the others settled. -/
theorem settled_cons {s t : State} {p : PByte} {ps : List PByte} (h : settled s (p :: ps))
    (ht : p.attrs.i = true → t.dcache = s.dcache) :
    (p.attrs.i = false ∨ s.dFind (blockOf p.ra) = none) ∧ settled t ps := by
  rcases h with h | h
  · exact ⟨.inl (h p (by simp)), .inl fun q hq => h q (by simp [hq])⟩
  · have e := ht (h p (by simp)).1
    refine ⟨.inr (h p (by simp)).2, .inr fun q hq => ⟨(h q (by simp [hq])).1, ?_⟩⟩
    have := (h q (by simp [hq])).2
    simpa only [State.dFind, State.dset, e] using this

/-- Blocks that read alike have bytes that read alike. -/
theorem dataByte_of_view {s t : State} (h : ∀ c < 2 ^ 27, t.view c = s.view c) (a : Word) : t.dataByte a = s.dataByte a :=
  view_congr (h _ (blockOf_lt a)) rfl

theorem accessOnly_loadBytes (s : State) (ps : List PByte) : AccessOnly s (s.loadBytes ps).2 := by
  induction ps generalizing s with
  | nil => rfl
  | cons p ps ih =>
    exact ((storageOnly_load s p.attrs _ [p.ra]).access.trans (accessOnly_interleave _)).trans (ih _)

theorem accessOnly_storeBytes (s : State) (ps : List PByte) (bs : List Byte) : AccessOnly s (s.storeBytes ps bs) := by
  induction ps generalizing s bs with
  | nil => cases bs <;> rfl
  | cons p ps ih =>
    cases bs with
    | nil => rfl
    | cons b bs =>
      exact ((storageOnly_store s p.attrs _ [(p.ra, b)]).access.trans (accessOnly_interleave _)).trans (ih _ _)

/-- Bytes loaded: what the program sees at their addresses, and nothing it sees changes. -/
theorem loadBytes_spec {s : State} (h : s.coherent) (ps : List PByte) (hs : settled s ps) :
    (s.loadBytes ps).1 = ps.map (fun p => s.dataByte p.ra) ∧ (s.loadBytes ps).2.coherent ∧
      (∀ a, (s.loadBytes ps).2.dataByte a = s.dataByte a) ∧
      ((∀ p ∈ ps, p.attrs.i = true) → (s.loadBytes ps).2.dcache = s.dcache) := by
  induction ps generalizing s with
  | nil => exact ⟨rfl, h, fun _ => rfl, fun _ => rfl⟩
  | cons p ps ih =>
    have hp : p.attrs.i = false ∨ s.dFind (blockOf p.ra) = none := (settled_cons (t := s) hs fun _ => rfl).1
    obtain ⟨h1, h2, h3, h4⟩ := load_spec h p.attrs (ras := [p.ra]) (blockOf_lt p.ra) (by simp) hp
    have h3' := dataByte_of_view h3
    obtain ⟨i1, i2, i3, i4⟩ := ih h2 (settled_cons hs h4).2
    have e : s.loadBytes (p :: ps) = ((s.load p.attrs (blockOf p.ra) [p.ra]).1 ++
        ((s.load p.attrs (blockOf p.ra) [p.ra]).2.loadBytes ps).1,
        ((s.load p.attrs (blockOf p.ra) [p.ra]).2.loadBytes ps).2) := by
      simp only [State.loadBytes, interleave_quiet h2.quiet]
    rw [e]
    refine ⟨?_, i2, fun a => (i3 a).trans (h3' a), fun hi => ?_⟩
    · rw [h1, i1]
      simp only [List.map_cons, List.map_nil, List.singleton_append, h3']
    · exact (i4 fun q hq => hi q (by simp [hq])).trans (h4 (hi p (by simp)))

/-- Bytes stored: their addresses hold them, and every other address reads as before. -/
theorem storeBytes_spec {s : State} (h : s.coherent) (ps : List PByte) (bs : List Byte) (hs : settled s ps)
    (hl : bs.length = ps.length) :
    Stored s (s.storeBytes ps bs) ps bs ∧ (s.storeBytes ps bs).coherent ∧
      ((∀ p ∈ ps, p.attrs.i = true) → (s.storeBytes ps bs).dcache = s.dcache) := by
  induction ps generalizing s bs with
  | nil =>
    cases bs with
    | nil => exact ⟨⟨fun _ => rfl, fun _ _ => rfl⟩, h, fun _ => rfl⟩
    | cons b bs => simp at hl
  | cons p ps ih =>
    cases bs with
    | nil => simp at hl
    | cons b bs =>
      have hp : p.attrs.i = false ∨ s.dFind (blockOf p.ra) = none := (settled_cons (t := s) hs fun _ => rfl).1
      obtain ⟨h1, h2, h3⟩ := store_spec h p.attrs (cells := [(p.ra, b)]) (blockOf_lt p.ra) (by simp) hp
      have hb := dataByte_store h p.attrs (cells := [(p.ra, b)]) (blockOf_lt p.ra) (by simp) hp
      obtain ⟨i1, i2, i3⟩ := ih h1 bs (settled_cons hs h3).2 (by simpa using hl)
      have e : s.storeBytes (p :: ps) (b :: bs) = (s.store p.attrs (blockOf p.ra) [(p.ra, b)]).storeBytes ps bs := by
        simp only [State.storeBytes, interleave_quiet h1.quiet]
      rw [e]
      refine ⟨⟨fun hn => ?_, fun a ha => ?_⟩, i2, fun hi => ?_⟩
      · simp only [List.map_cons, List.nodup_cons] at hn ⊢
        rw [i1.written hn.2, i1.elsewhere _ hn.1, hb]
        simp [putBytes]
      · simp only [List.map_cons, List.mem_cons, not_or] at ha
        refine (i1.elsewhere a ha.2).trans ?_
        rw [hb]
        exact if_neg ha.1
      · exact (i3 fun q hq => hi q (by simp [hq])).trans (h3 (hi p (by simp)))

/-! ### Scalars -/

/-- Bytes that move together lie in one block with one set of attributes. -/
theorem indivisible_spec {p : PByte} {ps : List PByte} (h : indivisible (p :: ps) = true) :
    ∀ q ∈ p :: ps, q.attrs = p.attrs ∧ blockOf q.ra = blockOf p.ra := by
  simp only [indivisible, Bool.and_eq_true, List.all_eq_true, beq_iff_eq] at h
  intro q hq
  rcases List.mem_cons.1 hq with rfl | hq
  · exact ⟨rfl, rfl⟩
  · exact h.2 q hq

theorem accessOnly_loadScalar (s : State) (ps : List PByte) : AccessOnly s (s.loadScalar ps).2 := by
  unfold State.loadScalar
  split
  · rfl
  · split
    · exact (storageOnly_load ..).access
    · exact accessOnly_loadBytes ..

theorem accessOnly_storeScalar (s : State) (ps : List PByte) (bs : List Byte) : AccessOnly s (s.storeScalar ps bs) := by
  unfold State.storeScalar
  split
  · rfl
  · split
    · exact (storageOnly_store ..).access
    · exact accessOnly_storeBytes ..

/-- A scalar loaded: what the program sees at its addresses, whether its bytes move together or one after the other. -/
theorem loadScalar_spec {s : State} (h : s.coherent) (ps : List PByte) (hs : settled s ps) :
    (s.loadScalar ps).1 = ps.map (fun p => s.dataByte p.ra) ∧ (s.loadScalar ps).2.coherent ∧
      (∀ a, (s.loadScalar ps).2.dataByte a = s.dataByte a) ∧
      ((∀ p ∈ ps, p.attrs.i = true) → (s.loadScalar ps).2.dcache = s.dcache) := by
  cases ps with
  | nil => exact ⟨rfl, h, fun _ => rfl, fun _ => rfl⟩
  | cons p ps =>
    simp only [State.loadScalar]
    split
    · rename_i hi
      have hone := indivisible_spec hi
      obtain ⟨h1, h2, h3, h4⟩ := load_spec h p.attrs (ras := (p :: ps).map (·.ra)) (blockOf_lt p.ra)
        (fun ra hra => by obtain ⟨q, hq, rfl⟩ := List.mem_map.1 hra; exact (hone q hq).2)
        (settled_cons (t := s) hs fun _ => rfl).1
      refine ⟨?_, h2, dataByte_of_view h3, fun hall => h4 (hall p (by simp))⟩
      rw [h1, List.map_map]
      rfl
    · exact loadBytes_spec h (p :: ps) hs

/-- A scalar stored: its addresses hold its bytes, whether they move together or one after the other. -/
theorem storeScalar_spec {s : State} (h : s.coherent) (ps : List PByte) (bs : List Byte) (hs : settled s ps)
    (hl : bs.length = ps.length) :
    Stored s (s.storeScalar ps bs) ps bs ∧ (s.storeScalar ps bs).coherent ∧
      ((∀ p ∈ ps, p.attrs.i = true) → (s.storeScalar ps bs).dcache = s.dcache) := by
  cases ps with
  | nil =>
    cases bs with
    | nil => exact ⟨⟨fun _ => rfl, fun _ _ => rfl⟩, h, fun _ => rfl⟩
    | cons b bs => simp at hl
  | cons p ps =>
    simp only [State.storeScalar]
    split
    · rename_i hi
      have hone := indivisible_spec hi
      have hp := (settled_cons (t := s) hs fun _ => rfl).1
      have hst := stored_store h p.attrs (blockOf_lt p.ra) (fun q hq => (hone q hq).2) hp hl
      have hz : (((p :: ps).map (·.ra)).zip bs).map (·.1) = (p :: ps).map (·.ra) := List.map_fst_zip (by simp [hl])
      obtain ⟨h1, -, h3⟩ := store_spec h p.attrs (cells := ((p :: ps).map (·.ra)).zip bs) (blockOf_lt p.ra)
        (fun c hc => by
          have : c.1 ∈ (p :: ps).map (·.ra) := by rw [← hz]; exact List.mem_map_of_mem hc
          obtain ⟨q, hq, e⟩ := List.mem_map.1 this
          rw [← e]; exact (hone q hq).2) hp
      exact ⟨hst, h1, fun hall => h3 (hall p (by simp))⟩
    · exact storeBytes_spec h (p :: ps) bs hs hl

/-! ### Located bytes -/

theorem locateBytes_length {s : State} {store : Bool} {n : Nat} {ea : Word} {ps : List PByte}
    (h : locateBytes s store n ea = .ok ps) : ps.length = n := by
  induction n generalizing ea ps with
  | zero => cases h; rfl
  | succ n ih =>
    simp only [locateBytes] at h
    split at h
    · cases h
    · split at h
      · cases h
      · rename_i hps; cases h; simp [ih hps]

/-- An access that may be made has all its bytes located. -/
theorem access_ok {s : State} {ea : Word} {n : Nat} {store : Bool} {ps : List PByte} (h : access s ea n store = .ok ps) :
    locateBytes s store n ea = .ok ps ∧ ps.length = n := by
  simp only [access] at h
  split at h
  · cases h
  · rename_i hps
    split at h
    · cases h
    · cases h; exact ⟨hps, locateBytes_length hps⟩

/-! ### Items -/

/-- An item loaded where storage is coherent. -/
theorem loadItem_spec {s : State} (h : s.coherent) (ps : List PByte) (hs : settled s ps) :
    (s.loadItem ps).1 = itemAt s ps ∧ (s.loadItem ps).2.coherent ∧
      (∀ a, (s.loadItem ps).2.dataByte a = s.dataByte a) ∧
      ((∀ p ∈ ps, p.attrs.i = true) → (s.loadItem ps).2.dcache = s.dcache) := by
  obtain ⟨h1, h2⟩ := loadScalar_spec h ps hs
  exact ⟨by show wordOf (ordered (firstE ps) (s.loadScalar ps).1) = _; rw [h1]; rfl, h2⟩

theorem accessOnly_loadItem (s : State) (ps : List PByte) : AccessOnly s (s.loadItem ps).2 := accessOnly_loadScalar s ps

theorem length_ordered (e : Bool) (bs : List Byte) : (ordered e bs).length = bs.length := by
  cases e <;> simp [ordered]

/-- An item stored where storage is coherent. -/
theorem storeItem_spec {s : State} (h : s.coherent) (ps : List PByte) (bs : List Byte) (hs : settled s ps)
    (hl : bs.length = ps.length) :
    Stored s (s.storeItem ps bs) ps (ordered (firstE ps) bs) ∧ (s.storeItem ps bs).coherent ∧
      ((∀ p ∈ ps, p.attrs.i = true) → (s.storeItem ps bs).dcache = s.dcache) :=
  storeScalar_spec h ps _ hs (by rw [length_ordered, hl])

theorem accessOnly_storeItem (s : State) (ps : List PByte) (bs : List Byte) : AccessOnly s (s.storeItem ps bs) :=
  accessOnly_storeScalar s ps _

end Sys2Proof.Machine
end

