-- ==== Sys2Proof/Laws/CacheOps.lean ====
section
/-! SUPPORT. What the data cache operations do to the line of a block, and to what the program sees. -/

namespace Sys2Proof.Machine

/-- A block with a line reads as the line. -/
theorem view_of_line {s : State} {b : Nat} {w : DWay} (h : s.dLine b = some w) : s.view b = w.bytes := by
  simp only [State.view, h]

/-- A block whose line and memory are as before reads as before. -/
theorem view_of_same {s t : State} {b : Nat} (h : t.dLine b = s.dLine b) (hm : memBlock t.mem b = memBlock s.mem b) :
    t.view b = s.view b := by
  simp only [State.view, h, hm]

/-- The lines after the way that holds `b` is replaced by a valid one. -/
theorem dLine_setWay_valid {s : State} (hd : ∀ i, (dsetGet s.dcache i).distinct) {b c : Nat} {k : Way}
    (hk : s.dFind b = some k) (hb : b < 2 ^ 27) (hc : c < 2 ^ 27) {x : DSet} {w : DWay} (hw : w.tag = dTag b)
    (hv : w.valid = true) (hx : ∀ tag, x.line tag = ((s.dset b).setWay k w).line tag) :
    (s.setDset b x).dLine c = if c = b then some w else s.dLine c := by
  have := dLine_setWay hd hk hb hc hw hx
  rwa [if_pos hv] at this

/-- Cleaning a block: memory holds what the program sees of it, its line stays and is unmodified. -/
theorem dClean_spec {s : State} (h : Coh s) {b : Nat} (hb : b < 2 ^ 27) :
    Coh (s.dClean b) ∧ (∀ c < 2 ^ 27, (s.dClean b).view c = s.view c) ∧ memBlock (s.dClean b).mem b = s.view b ∧
      (∀ c, (s.dClean b).dFind c = s.dFind c) ∧ ∀ w, (s.dClean b).dLine b = some w → w.dirty = false := by
  unfold State.dClean
  cases hk : s.dFind b with
  | none =>
    have hl : s.dLine b = none := by simp [State.dLine, hk]
    exact ⟨h, fun _ _ => rfl, by simp [State.view, hl], fun _ => rfl, fun w hw => by rw [hl] at hw; cases hw⟩
  | some k =>
    obtain ⟨hv, ht⟩ := tag_of_find hk
    have hl := dLine_of_find hk
    dsimp only
    by_cases hd : ((s.dset b).way k).dirty = true
    · rw [if_pos hd]
      let w := (s.dset b).way k
      let u := s.writeBack (dIndex b) w
      let y : DWay := { w with dirty := false }
      have hblk : w.block (dIndex b) = b := by
        have := (holds_iff_block w hb rfl).1 (by simp [DWay.holds, w, hv, ht])
        exact this.2.symm
      have hm : ∀ c, memBlock u.mem c = if c = b then w.bytes else memBlock s.mem c := fun c => by
        have : memBlock u.mem c = _ := memBlock_writeBack h.plain (dIndex b) w c
        rw [this, hblk]
        simp only [show w.valid = true from hv, show w.dirty = true from hd, true_and]
      have hud : ∀ i, (dsetGet u.dcache i).distinct := fun i => by
        rw [show u.dcache = s.dcache from dcache_writeBack ..]; exact h.distinct i
      have huk : u.dFind b = some k := by
        rw [← hk]; unfold State.dFind; rw [show u.dset b = s.dset b from dset_writeBack ..]
      have hset : u.dset b = s.dset b := dset_writeBack ..
      have hline : ∀ c < 2 ^ 27, (u.setDset b ((s.dset b).setWay k y)).dLine c = if c = b then some y else s.dLine c := by
        intro c hc
        have := dLine_setWay hud huk hb hc (x := (s.dset b).setWay k y) (w := y) ht (fun tag => by rw [hset])
        rw [this, show y.valid = true from hv, if_pos rfl, show u.dLine c = s.dLine c from dLine_writeBack ..]
      refine ⟨⟨fun c => ?_, (storageOnly_writeBack ..).between.trans h.quiet, fun c l hc hlc hdl => ?_, ?_⟩,
        fun c hc => ?_, ?_, fun c => ?_,
        fun l hlb => ?_⟩
      · show regionAt u.memMap c = none
        rw [show u.memMap = s.memMap from (storageOnly_writeBack ..).memMap]
        exact h.plain c
      · have hlc' := (hline c hc).symm.trans hlc
        show l.bytes = memBlock u.mem c
        rw [hm]
        by_cases hcb : c = b
        · rw [if_pos hcb] at hlc' ⊢; cases hlc'; rfl
        · rw [if_neg hcb] at hlc' ⊢; exact h.clean c l hc hlc' hdl
      · exact distinct_setWay hud huk (w := y) ht (by rw [hset])
      · show (match (u.setDset b ((s.dset b).setWay k y)).dLine c with
          | some w => w.bytes | none => memBlock u.mem c) = _
        rw [hline c hc, hm]
        by_cases hcb : c = b
        · subst hcb; simp only [if_true, State.view, hl]; rfl
        · simp only [hcb, if_false]; rfl
      · show memBlock u.mem b = _
        rw [hm, if_pos rfl]; simp only [State.view, hl]; rfl
      · show ((u.setDset b ((s.dset b).setWay k y)).dset c).find (dTag c) = (s.dset c).find (dTag c)
        rw [State.dset_setDset]
        split
        · rename_i hi
          have e : s.dset c = s.dset b := by simp only [State.dset, hi]
          rw [e]
          cases k <;> rfl
        · rw [show u.dset c = s.dset c from dset_writeBack ..]
      · have hlb' := (hline b hb).symm.trans hlb
        rw [if_pos rfl] at hlb'; cases hlb'; rfl
    · rw [if_neg hd]
      refine ⟨h, fun _ _ => rfl, ?_, fun _ => rfl, fun w hw => ?_⟩
      · have := h.clean b _ hb hl (by simpa using hd)
        simp only [State.view, hl, this]
      · rw [hl] at hw; cases hw; simpa using hd

/-- Invalidating a block: memory is as before, the block has no line, every other block's line is as before. -/
theorem dInvalidate_spec {s : State} (hd : ∀ i, (dsetGet s.dcache i).distinct) {b : Nat} (hb : b < 2 ^ 27) :
    (s.dInvalidate b).mem = s.mem ∧ (s.dInvalidate b).dLine b = none ∧
      ∀ c < 2 ^ 27, c ≠ b → (s.dInvalidate b).dLine c = s.dLine c := by
  unfold State.dInvalidate
  cases hk : s.dFind b with
  | none => exact ⟨rfl, by simp [State.dLine, hk], fun _ _ _ => rfl⟩
  | some k =>
    obtain ⟨hv, ht⟩ := tag_of_find hk
    have := fun c hc => dLine_setWay hd hk hb hc (c := c)
      (x := (s.dset b).setWay k { (s.dset b).way k with valid := false })
      (w := { (s.dset b).way k with valid := false }) ht (fun _ => rfl)
    refine ⟨rfl, ?_, fun c hc hcb => ?_⟩
    · exact (this b hb).trans (by simp)
    · exact (this c hc).trans (by simp [hcb])

/-- Flushing a block: memory holds what the program sees of it, the block has no line, every other block's line and what
the program sees of every block are as before. -/
theorem dFlush_spec {s : State} (h : Coh s) {b : Nat} (hb : b < 2 ^ 27) :
    Coh (s.dFlush b) ∧ (∀ c < 2 ^ 27, (s.dFlush b).view c = s.view c) ∧ (s.dFlush b).dLine b = none ∧
      ∀ c < 2 ^ 27, c ≠ b → (s.dFlush b).dLine c = s.dLine c := by
  unfold State.dFlush
  cases hk : s.dFind b with
  | none =>
    exact ⟨h, fun _ _ => rfl, by simp [State.dLine, hk], fun _ _ _ => rfl⟩
  | some k =>
    obtain ⟨hv, ht⟩ := tag_of_find hk
    have hl := dLine_of_find hk
    dsimp only
    let w := (s.dset b).way k
    let u := s.writeBack (dIndex b) w
    let y : DWay := { w with valid := false }
    have hblk : w.block (dIndex b) = b := ((holds_iff_block w hb rfl).1 (by simp [DWay.holds, w, hv, ht])).2.symm
    have hm : ∀ c, memBlock u.mem c = if c = b then w.bytes else memBlock s.mem c := fun c => by
      have : memBlock u.mem c = _ := memBlock_writeBack h.plain (dIndex b) w c
      rw [this, hblk]
      simp only [show w.valid = true from hv, true_and]
      by_cases hd : w.dirty = true
      · simp only [hd, true_and]
      · rw [if_neg fun h' => hd h'.1]
        split
        · rename_i e
          subst e
          exact (h.clean c w hb hl (by simpa using hd)).symm
        · rfl
    have hud : ∀ i, (dsetGet u.dcache i).distinct := fun i => by
      rw [show u.dcache = s.dcache from dcache_writeBack ..]; exact h.distinct i
    have hset : u.dset b = s.dset b := dset_writeBack ..
    have huk : u.dFind b = some k := by
      rw [← hk]; unfold State.dFind; rw [hset]
    have hline : ∀ c < 2 ^ 27, (u.setDset b ((s.dset b).setWay k y)).dLine c = if c = b then none else s.dLine c := by
      intro c hc
      have := dLine_setWay hud huk hb hc (x := (s.dset b).setWay k y) (w := y) ht (fun tag => by rw [hset])
      rw [this, show y.valid = false from rfl, show u.dLine c = s.dLine c from dLine_writeBack ..]
      rfl
    refine ⟨⟨fun c => ?_, (storageOnly_writeBack ..).between.trans h.quiet, fun c l hc hlc hdl => ?_, ?_⟩,
      fun c hc => ?_, (hline b hb).trans (if_pos rfl), fun c hc hcb => (hline c hc).trans (if_neg hcb)⟩
    · show regionAt u.memMap c = none
      rw [show u.memMap = s.memMap from (storageOnly_writeBack ..).memMap]
      exact h.plain c
    · have hlc' := (hline c hc).symm.trans hlc
      show l.bytes = memBlock u.mem c
      rw [hm]
      by_cases hcb : c = b
      · rw [if_pos hcb] at hlc'; cases hlc'
      · rw [if_neg hcb] at hlc' ⊢; exact h.clean c l hc hlc' hdl
    · exact distinct_setWay hud huk (w := y) ht (by rw [hset])
    · show (match (u.setDset b ((s.dset b).setWay k y)).dLine c with
        | some w => w.bytes | none => memBlock u.mem c) = _
      rw [hline c hc, hm]
      by_cases hcb : c = b
      · subst hcb; simp only [if_true, State.view, hl]; rfl
      · simp only [hcb, if_false]; rfl

theorem dFind_none_iff (s : State) (b : Nat) : s.dFind b = none ↔ s.dLine b = none := by
  simp [State.dLine]

theorem storageOnly_dClean (s : State) (b : Nat) : StorageOnly s (s.dClean b) := by
  unfold State.dClean
  split
  · dsimp only
    split
    · exact (storageOnly_writeBack ..).trans (storageOnly_setDset ..)
    · rfl
  · rfl

theorem storageOnly_dInvalidate (s : State) (b : Nat) : StorageOnly s (s.dInvalidate b) := by
  unfold State.dInvalidate; split <;> rfl

theorem storageOnly_dFlush (s : State) (b : Nat) : StorageOnly s (s.dFlush b) := by
  unfold State.dFlush
  split
  · exact (storageOnly_writeBack ..).trans (storageOnly_setDset ..)
  · rfl

theorem storageOnly_dZeroLine (s : State) (b : Nat) : StorageOnly s (s.dZeroLine b) := by
  unfold State.dZeroLine
  split
  · rfl
  · exact storageOnly_dEstablish ..

theorem storageOnly_dZero (s : State) (b : Nat) : StorageOnly s (s.dZero b) := by
  have h := (storageOnly_dZeroLine s b).trans (storageOnly_dropFillBuffer _ b)
  unfold State.dZero
  dsimp only
  split
  · exact h.trans rfl
  · exact h

theorem storageOnly_dAllocate (s : State) (b : Nat) : StorageOnly s (s.dAllocate b) := by
  unfold State.dAllocate
  split
  · rfl
  · exact (show StorageOnly s s.drawn from rfl).trans (storageOnly_dEstablish ..)

theorem storageOnly_dropFillBufferClass (s : State) (i : Nat) : StorageOnly s (s.dropFillBufferClass i) := by
  unfold State.dropFillBufferClass
  split
  · split <;> rfl
  · rfl

theorem storageOnly_dInvalidateClass (s : State) (i : Nat) : StorageOnly s (s.dInvalidateClass i) :=
  (show StorageOnly s { s with dcache := dsetPut s.dcache i (dsetGet s.dcache i).invalid } from rfl).trans
    (storageOnly_dropFillBufferClass _ i)

/-- Dropping the fill buffer's block changes neither lines nor memory. -/
theorem dropFillBuffer_lines (s : State) (b c : Nat) :
    (s.dropFillBuffer b).dLine c = s.dLine c ∧ (s.dropFillBuffer b).mem = s.mem ∧
      (s.dropFillBuffer b).view c = s.view c := by
  unfold State.dropFillBuffer
  split
  · split <;> exact ⟨rfl, rfl, rfl⟩
  · exact ⟨rfl, rfl, rfl⟩

/-- Where all storage is plain the line of `dcbz` is zeros. -/
theorem zeroLine_plain {map : List Region} (h : ∀ ra, regionAt map ra = none) (draws b : Nat) :
    zeroLine map draws b = Vector.replicate 32 0 := by
  simp only [zeroLine, isUnbacked_of h, Bool.false_eq_true, if_false]
  rfl

/-- A block zeroed: it reads as zeros from a modified line, every other block reads as before. -/
theorem dZeroLine_spec {s : State} (h : Coh s) {b : Nat} (hb : b < 2 ^ 27) :
    (∀ c < 2 ^ 27, (s.dZeroLine b).view c = if c = b then Vector.replicate 32 0 else s.view c) ∧
      ∃ w, (s.dZeroLine b).dLine b = some w ∧ w.dirty = true := by
  unfold State.dZeroLine
  rw [zeroLine_plain h.plain]
  cases hk : s.dFind b with
  | none =>
    refine ⟨fun c hc => view_dEstablish h hk _ _ c hc hb, _, (dLine_dEstablish h hk _ _ b hb hb).trans (if_pos rfl), rfl⟩
  | some k =>
    obtain ⟨hv, ht⟩ := tag_of_find hk
    have := fun c hc => dLine_setWay_valid h.distinct hk hb hc (c := c)
      (x := ((s.dset b).setWay k { (s.dset b).way k with bytes := Vector.replicate 32 0, dirty := true }).touch k)
      (w := { (s.dset b).way k with bytes := Vector.replicate 32 0, dirty := true }) ht hv (fun _ => DSet.line_touch _ _ _)
    refine ⟨fun c hc => ?_, _, (this b hb).trans (if_pos rfl), rfl⟩
    have e := this c hc
    by_cases hcb : c = b
    · rw [if_pos hcb] at e ⊢; exact view_of_line e
    · rw [if_neg hcb] at e ⊢; exact view_of_same e rfl

/-- The same with the fill buffer's block dropped. -/
theorem dZero_spec {s : State} (h : Coh s) {b : Nat} (hb : b < 2 ^ 27) :
    (∀ c < 2 ^ 27, (s.dZero b).view c = if c = b then Vector.replicate 32 0 else s.view c) ∧
      ∃ w, (s.dZero b).dLine b = some w ∧ w.dirty = true := by
  have e : s.dZero b = (s.dZeroLine b).dropFillBuffer b := by
    simp [State.dZero, blockErrs_of h.plain]
  rw [e]
  obtain ⟨h1, w, h2, h3⟩ := dZeroLine_spec h hb
  exact ⟨fun c hc => (dropFillBuffer_lines _ b c).2.2.trans (h1 c hc), w,
    (dropFillBuffer_lines _ b b).1.trans h2, h3⟩

/-- A block allocated: its line is modified; a cached block reads as before, and so does every other block. -/
theorem dAllocate_spec {s : State} (h : Coh s) {b : Nat} (hb : b < 2 ^ 27) :
    (∀ c < 2 ^ 27, c ≠ b ∨ (s.dFind b).isSome = true → (s.dAllocate b).view c = s.view c) ∧
      ∃ w, (s.dAllocate b).dLine b = some w ∧ w.dirty = true := by
  unfold State.dAllocate
  cases hk : s.dFind b with
  | none =>
    have h' : Coh s.drawn := ⟨h.plain, h.quiet, h.clean, h.distinct⟩
    have hk' : s.drawn.dFind b = none := hk
    refine ⟨fun c hc hcb => ?_, _, (dLine_dEstablish h' hk' _ _ b hb hb).trans (if_pos rfl), rfl⟩
    rcases hcb with hcb | hcb
    · exact (view_dEstablish h' hk' _ _ c hc hb).trans (if_neg hcb)
    · cases hcb
  | some k =>
    obtain ⟨hv, ht⟩ := tag_of_find hk
    have hl := dLine_of_find hk
    have := fun c hc => dLine_setWay_valid h.distinct hk hb hc (c := c)
      (x := ((s.dset b).setWay k { (s.dset b).way k with dirty := true }).touch k)
      (w := { (s.dset b).way k with dirty := true }) ht hv (fun _ => DSet.line_touch _ _ _)
    refine ⟨fun c hc _ => ?_, _, (this b hb).trans (if_pos rfl), rfl⟩
    have e := this c hc
    by_cases hcb : c = b
    · rw [if_pos hcb] at e; subst hcb; exact (view_of_line e).trans (view_of_line hl).symm
    · rw [if_neg hcb] at e; exact view_of_same e rfl

end Sys2Proof.Machine
end

