-- ==== Sys2Proof/Laws/Decode.lean ====
section
/-! SUPPORT. The fields of a word built from fields: what each form's word gives back. -/

namespace Sys2Proof

/-! ### One bit of a placed field -/

/-- Bit `j` of a field placed `n` bits up. -/
theorem getLsbD_place {k : Nat} (x : BitVec k) (n j : Nat) :
    (place x n).getLsbD j = (decide (j < 32) && decide (n ≤ j) && x.getLsbD (j - n)) := by
  simp only [place, BitVec.getLsbD_shiftLeft, BitVec.getLsbD_setWidth]
  by_cases h1 : j < 32
  · by_cases h2 : j < n
    · simp [h1, h2, Nat.not_le.2 h2]
    · have h3 : j - n < 32 := by omega
      simp [h1, h2, h3, Nat.not_lt.1 h2]
  · simp [h1]

/-- Bit `j` of a placed bit. -/
theorem getLsbD_placeBit (b : Bool) (n j : Nat) :
    (placeBit b n).getLsbD j = (decide (j < 32) && decide (j = n) && b) := by
  rw [placeBit, getLsbD_place]
  by_cases h : j = n
  · subst h; simp
  · by_cases h2 : n ≤ j
    · have : j - n ≠ 0 := by omega
      simp [h, this, BitVec.getLsbD_ofBool]
    · simp [h, h2]

/-- The primary opcode as six bits. -/
theorem opcdOf_eq (w : Word) : opcdOf w = ((w >>> 26).setWidth 6 : BitVec 6).toNat := by
  rw [opcdOf, BitVec.toNat_setWidth, BitVec.toNat_ushiftRight, Nat.shiftRight_eq_div_pow]
  have := w.isLt
  omega

/-! ### The fields of each form -/

@[simp] theorem opcdOf_packD (op : BitVec 6) (a b : BitVec 5) (d : Half) : opcdOf (packD op a b d) = op.toNat := by
  rw [opcdOf_eq]
  congr 1
  refine BitVec.eq_of_getLsbD_eq fun j hj => ?_
  simp only [packD, BitVec.getLsbD_setWidth, BitVec.getLsbD_ushiftRight, BitVec.getLsbD_or, getLsbD_place]
  interval_cases j <;> simp

@[simp] theorem f1_packD (op : BitVec 6) (a b : BitVec 5) (d : Half) : f1 (packD op a b d) = a := by
  refine BitVec.eq_of_getLsbD_eq fun j hj => ?_
  simp only [f1, packD, BitVec.getLsbD_setWidth, BitVec.getLsbD_ushiftRight, BitVec.getLsbD_or, getLsbD_place]
  interval_cases j <;> simp

@[simp] theorem f2_packD (op : BitVec 6) (a b : BitVec 5) (d : Half) : f2 (packD op a b d) = b := by
  refine BitVec.eq_of_getLsbD_eq fun j hj => ?_
  simp only [f2, packD, BitVec.getLsbD_setWidth, BitVec.getLsbD_ushiftRight, BitVec.getLsbD_or, getLsbD_place]
  interval_cases j <;> simp

@[simp] theorem imm_packD (op : BitVec 6) (a b : BitVec 5) (d : Half) : imm (packD op a b d) = d := by
  refine BitVec.eq_of_getLsbD_eq fun j hj => ?_
  simp only [imm, packD, BitVec.getLsbD_setWidth, BitVec.getLsbD_or, getLsbD_place]
  interval_cases j <;> simp

@[simp] theorem opcdOf_packX (op : BitVec 6) (a b c : BitVec 5) (xo : BitVec 10) (rc : Bool) :
    opcdOf (packX op a b c xo rc) = op.toNat := by
  rw [opcdOf_eq]
  congr 1
  refine BitVec.eq_of_getLsbD_eq fun j hj => ?_
  simp only [packX, BitVec.getLsbD_setWidth, BitVec.getLsbD_ushiftRight, BitVec.getLsbD_or, getLsbD_place,
    getLsbD_placeBit]
  interval_cases j <;> simp

@[simp] theorem f1_packX (op : BitVec 6) (a b c : BitVec 5) (xo : BitVec 10) (rc : Bool) :
    f1 (packX op a b c xo rc) = a := by
  refine BitVec.eq_of_getLsbD_eq fun j hj => ?_
  simp only [f1, packX, BitVec.getLsbD_setWidth, BitVec.getLsbD_ushiftRight, BitVec.getLsbD_or, getLsbD_place,
    getLsbD_placeBit]
  interval_cases j <;> simp

@[simp] theorem f2_packX (op : BitVec 6) (a b c : BitVec 5) (xo : BitVec 10) (rc : Bool) :
    f2 (packX op a b c xo rc) = b := by
  refine BitVec.eq_of_getLsbD_eq fun j hj => ?_
  simp only [f2, packX, BitVec.getLsbD_setWidth, BitVec.getLsbD_ushiftRight, BitVec.getLsbD_or, getLsbD_place,
    getLsbD_placeBit]
  interval_cases j <;> simp

@[simp] theorem f3_packX (op : BitVec 6) (a b c : BitVec 5) (xo : BitVec 10) (rc : Bool) :
    f3 (packX op a b c xo rc) = c := by
  refine BitVec.eq_of_getLsbD_eq fun j hj => ?_
  simp only [f3, packX, BitVec.getLsbD_setWidth, BitVec.getLsbD_ushiftRight, BitVec.getLsbD_or, getLsbD_place,
    getLsbD_placeBit]
  interval_cases j <;> simp

@[simp] theorem rcOf_packX (op : BitVec 6) (a b c : BitVec 5) (xo : BitVec 10) (rc : Bool) :
    rcOf (packX op a b c xo rc) = rc := by
  simp only [rcOf, packX, BitVec.getLsbD_or, getLsbD_place, getLsbD_placeBit]
  simp

@[simp] theorem opcdOf_packXO (op : BitVec 6) (a b c : BitVec 5) (oe : Bool) (xo : BitVec 9) (rc : Bool) :
    opcdOf (packXO op a b c oe xo rc) = op.toNat := by
  rw [opcdOf_eq]
  congr 1
  refine BitVec.eq_of_getLsbD_eq fun j hj => ?_
  simp only [packXO, BitVec.getLsbD_setWidth, BitVec.getLsbD_ushiftRight, BitVec.getLsbD_or, getLsbD_place,
    getLsbD_placeBit]
  interval_cases j <;> simp

@[simp] theorem f1_packXO (op : BitVec 6) (a b c : BitVec 5) (oe : Bool) (xo : BitVec 9) (rc : Bool) :
    f1 (packXO op a b c oe xo rc) = a := by
  refine BitVec.eq_of_getLsbD_eq fun j hj => ?_
  simp only [f1, packXO, BitVec.getLsbD_setWidth, BitVec.getLsbD_ushiftRight, BitVec.getLsbD_or, getLsbD_place,
    getLsbD_placeBit]
  interval_cases j <;> simp

@[simp] theorem f2_packXO (op : BitVec 6) (a b c : BitVec 5) (oe : Bool) (xo : BitVec 9) (rc : Bool) :
    f2 (packXO op a b c oe xo rc) = b := by
  refine BitVec.eq_of_getLsbD_eq fun j hj => ?_
  simp only [f2, packXO, BitVec.getLsbD_setWidth, BitVec.getLsbD_ushiftRight, BitVec.getLsbD_or, getLsbD_place,
    getLsbD_placeBit]
  interval_cases j <;> simp

@[simp] theorem f3_packXO (op : BitVec 6) (a b c : BitVec 5) (oe : Bool) (xo : BitVec 9) (rc : Bool) :
    f3 (packXO op a b c oe xo rc) = c := by
  refine BitVec.eq_of_getLsbD_eq fun j hj => ?_
  simp only [f3, packXO, BitVec.getLsbD_setWidth, BitVec.getLsbD_ushiftRight, BitVec.getLsbD_or, getLsbD_place,
    getLsbD_placeBit]
  interval_cases j <;> simp

@[simp] theorem oeOf_packXO (op : BitVec 6) (a b c : BitVec 5) (oe : Bool) (xo : BitVec 9) (rc : Bool) :
    oeOf (packXO op a b c oe xo rc) = oe := by
  simp only [oeOf, packXO, BitVec.getLsbD_or, getLsbD_place, getLsbD_placeBit]
  simp

@[simp] theorem rcOf_packXO (op : BitVec 6) (a b c : BitVec 5) (oe : Bool) (xo : BitVec 9) (rc : Bool) :
    rcOf (packXO op a b c oe xo rc) = rc := by
  simp only [rcOf, packXO, BitVec.getLsbD_or, getLsbD_place, getLsbD_placeBit]
  simp

@[simp] theorem opcdOf_packM (op : BitVec 6) (a b c d e : BitVec 5) (rc : Bool) :
    opcdOf (packM op a b c d e rc) = op.toNat := by
  rw [opcdOf_eq]
  congr 1
  refine BitVec.eq_of_getLsbD_eq fun j hj => ?_
  simp only [packM, BitVec.getLsbD_setWidth, BitVec.getLsbD_ushiftRight, BitVec.getLsbD_or, getLsbD_place,
    getLsbD_placeBit]
  interval_cases j <;> simp

@[simp] theorem f1_packM (op : BitVec 6) (a b c d e : BitVec 5) (rc : Bool) : f1 (packM op a b c d e rc) = a := by
  refine BitVec.eq_of_getLsbD_eq fun j hj => ?_
  simp only [f1, packM, BitVec.getLsbD_setWidth, BitVec.getLsbD_ushiftRight, BitVec.getLsbD_or, getLsbD_place,
    getLsbD_placeBit]
  interval_cases j <;> simp

@[simp] theorem f2_packM (op : BitVec 6) (a b c d e : BitVec 5) (rc : Bool) : f2 (packM op a b c d e rc) = b := by
  refine BitVec.eq_of_getLsbD_eq fun j hj => ?_
  simp only [f2, packM, BitVec.getLsbD_setWidth, BitVec.getLsbD_ushiftRight, BitVec.getLsbD_or, getLsbD_place,
    getLsbD_placeBit]
  interval_cases j <;> simp

@[simp] theorem f3_packM (op : BitVec 6) (a b c d e : BitVec 5) (rc : Bool) : f3 (packM op a b c d e rc) = c := by
  refine BitVec.eq_of_getLsbD_eq fun j hj => ?_
  simp only [f3, packM, BitVec.getLsbD_setWidth, BitVec.getLsbD_ushiftRight, BitVec.getLsbD_or, getLsbD_place,
    getLsbD_placeBit]
  interval_cases j <;> simp

@[simp] theorem f4_packM (op : BitVec 6) (a b c d e : BitVec 5) (rc : Bool) : f4 (packM op a b c d e rc) = d := by
  refine BitVec.eq_of_getLsbD_eq fun j hj => ?_
  simp only [f4, packM, BitVec.getLsbD_setWidth, BitVec.getLsbD_ushiftRight, BitVec.getLsbD_or, getLsbD_place,
    getLsbD_placeBit]
  interval_cases j <;> simp

@[simp] theorem f5_packM (op : BitVec 6) (a b c d e : BitVec 5) (rc : Bool) : f5 (packM op a b c d e rc) = e := by
  refine BitVec.eq_of_getLsbD_eq fun j hj => ?_
  simp only [f5, packM, BitVec.getLsbD_setWidth, BitVec.getLsbD_ushiftRight, BitVec.getLsbD_or, getLsbD_place,
    getLsbD_placeBit]
  interval_cases j <;> simp

@[simp] theorem rcOf_packM (op : BitVec 6) (a b c d e : BitVec 5) (rc : Bool) :
    rcOf (packM op a b c d e rc) = rc := by
  simp only [rcOf, packM, BitVec.getLsbD_or, getLsbD_place, getLsbD_placeBit]
  simp

@[simp] theorem opcdOf_packI (op : BitVec 6) (li : BitVec 24) (aa lk : Bool) :
    opcdOf (packI op li aa lk) = op.toNat := by
  rw [opcdOf_eq]
  congr 1
  refine BitVec.eq_of_getLsbD_eq fun j hj => ?_
  simp only [packI, BitVec.getLsbD_setWidth, BitVec.getLsbD_ushiftRight, BitVec.getLsbD_or, getLsbD_place,
    getLsbD_placeBit]
  interval_cases j <;> simp

@[simp] theorem liOf_packI (op : BitVec 6) (li : BitVec 24) (aa lk : Bool) : liOf (packI op li aa lk) = li := by
  refine BitVec.eq_of_getLsbD_eq fun j hj => ?_
  simp only [liOf, packI, BitVec.getLsbD_setWidth, BitVec.getLsbD_ushiftRight, BitVec.getLsbD_or, getLsbD_place,
    getLsbD_placeBit]
  interval_cases j <;> simp

@[simp] theorem aaOf_packI (op : BitVec 6) (li : BitVec 24) (aa lk : Bool) : aaOf (packI op li aa lk) = aa := by
  simp only [aaOf, packI, BitVec.getLsbD_or, getLsbD_place, getLsbD_placeBit]
  simp

@[simp] theorem rcOf_packI (op : BitVec 6) (li : BitVec 24) (aa lk : Bool) : rcOf (packI op li aa lk) = lk := by
  simp only [rcOf, packI, BitVec.getLsbD_or, getLsbD_place, getLsbD_placeBit]
  simp

@[simp] theorem opcdOf_packB (op : BitVec 6) (bo bi : BitVec 5) (bd : BitVec 14) (aa lk : Bool) :
    opcdOf (packB op bo bi bd aa lk) = op.toNat := by
  rw [opcdOf_eq]
  congr 1
  refine BitVec.eq_of_getLsbD_eq fun j hj => ?_
  simp only [packB, BitVec.getLsbD_setWidth, BitVec.getLsbD_ushiftRight, BitVec.getLsbD_or, getLsbD_place,
    getLsbD_placeBit]
  interval_cases j <;> simp

@[simp] theorem f1_packB (op : BitVec 6) (bo bi : BitVec 5) (bd : BitVec 14) (aa lk : Bool) :
    f1 (packB op bo bi bd aa lk) = bo := by
  refine BitVec.eq_of_getLsbD_eq fun j hj => ?_
  simp only [f1, packB, BitVec.getLsbD_setWidth, BitVec.getLsbD_ushiftRight, BitVec.getLsbD_or, getLsbD_place,
    getLsbD_placeBit]
  interval_cases j <;> simp

@[simp] theorem f2_packB (op : BitVec 6) (bo bi : BitVec 5) (bd : BitVec 14) (aa lk : Bool) :
    f2 (packB op bo bi bd aa lk) = bi := by
  refine BitVec.eq_of_getLsbD_eq fun j hj => ?_
  simp only [f2, packB, BitVec.getLsbD_setWidth, BitVec.getLsbD_ushiftRight, BitVec.getLsbD_or, getLsbD_place,
    getLsbD_placeBit]
  interval_cases j <;> simp

@[simp] theorem bdOf_packB (op : BitVec 6) (bo bi : BitVec 5) (bd : BitVec 14) (aa lk : Bool) :
    bdOf (packB op bo bi bd aa lk) = bd := by
  refine BitVec.eq_of_getLsbD_eq fun j hj => ?_
  simp only [bdOf, packB, BitVec.getLsbD_setWidth, BitVec.getLsbD_ushiftRight, BitVec.getLsbD_or, getLsbD_place,
    getLsbD_placeBit]
  interval_cases j <;> simp

@[simp] theorem aaOf_packB (op : BitVec 6) (bo bi : BitVec 5) (bd : BitVec 14) (aa lk : Bool) :
    aaOf (packB op bo bi bd aa lk) = aa := by
  simp only [aaOf, packB, BitVec.getLsbD_or, getLsbD_place, getLsbD_placeBit]
  simp

@[simp] theorem rcOf_packB (op : BitVec 6) (bo bi : BitVec 5) (bd : BitVec 14) (aa lk : Bool) :
    rcOf (packB op bo bi bd aa lk) = lk := by
  simp only [rcOf, packB, BitVec.getLsbD_or, getLsbD_place, getLsbD_placeBit]
  simp

/-- The extended opcode of an X-form word. -/
@[simp] theorem xoOf_packX (op : BitVec 6) (a b c : BitVec 5) (xo : BitVec 10) (rc : Bool) :
    xoOf (packX op a b c xo rc) = xo.toNat := by
  rw [xoOf]
  congr 1
  refine BitVec.eq_of_getLsbD_eq fun j hj => ?_
  simp only [packX, BitVec.getLsbD_setWidth, BitVec.getLsbD_ushiftRight, BitVec.getLsbD_or, getLsbD_place,
    getLsbD_placeBit]
  interval_cases j <;> simp

/-- The extended opcode of an XO-form word, read as ten bits: OE above the nine bits of XO. -/
@[simp] theorem xoOf_packXO (op : BitVec 6) (a b c : BitVec 5) (oe : Bool) (xo : BitVec 9) (rc : Bool) :
    xoOf (packXO op a b c oe xo rc) = (if oe then 512 else 0) + xo.toNat := by
  have h : (packXO op a b c oe xo rc >>> 1).setWidth 10 = BitVec.ofBool oe ++ xo := by
    refine BitVec.eq_of_getLsbD_eq fun j hj => ?_
    simp only [packXO, BitVec.getLsbD_setWidth, BitVec.getLsbD_ushiftRight, BitVec.getLsbD_or, getLsbD_place,
      getLsbD_placeBit, BitVec.getLsbD_append]
    interval_cases j <;> simp
  rw [xoOf, h, BitVec.toNat_append]
  have := xo.isLt
  cases oe
  · simp
  · simp only [BitVec.toNat_ofBool, Bool.toNat_true, if_true]
    have e := Nat.two_pow_add_eq_or_of_lt this 1
    simp only [Nat.mul_one] at e
    rw [Nat.shiftLeft_eq, Nat.one_mul, ← e]

/-! ### The opcode maps -/

theorem decodeFields_4 (w : Word) (h : opcdOf w = 4) : decodeFields w = decode4 w := by simp only [decodeFields, h]
theorem decodeFields_19 (w : Word) (h : opcdOf w = 19) : decodeFields w = decode19 w := by simp only [decodeFields, h]
theorem decodeFields_31 (w : Word) (h : opcdOf w = 31) : decodeFields w = decode31 w := by simp only [decodeFields, h]

/-! ### Parts of a five-bit place -/

@[simp] theorem bfOf_bfl (bf : BitVec 3) (l : Bool) : bfOf (bfl bf l) = bf := by
  revert bf l; decide

@[simp] theorem lOf_bfl (bf : BitVec 3) (l : Bool) : lOf (bfl bf l) = l := by
  revert bf l; decide

@[simp] theorem bfOf_bf2 (bf : BitVec 3) : bfOf (bf2 bf) = bf := by
  revert bf; decide

@[simp] theorem eBit_bit (e : Bool) : (eBit e)[4] = e := by
  revert e; decide

/-- A register number comes back from its two halves. -/
@[simp] theorem numOf_packX (op : BitVec 6) (a : BitVec 5) (n : RegNum) (xo : BitVec 10) (rc : Bool) :
    numOf (packX op a (numLo n) (numHi n) xo rc) = n := by
  rw [numOf, f3_packX, f2_packX]
  refine BitVec.eq_of_getLsbD_eq fun j hj => ?_
  simp only [numLo, numHi, BitVec.getLsbD_setWidth, BitVec.getLsbD_ushiftRight, BitVec.getLsbD_or,
    BitVec.getLsbD_shiftLeft]
  interval_cases j <;> simp

/-- FXM comes back from its two places. -/
@[simp] theorem fxmOf_packX (op : BitVec 6) (a : BitVec 5) (m : BitVec 8) (xo : BitVec 10) (rc : Bool) :
    fxmOf (packX op a (fxmHi m) (fxmLo m) xo rc) = m := by
  refine BitVec.eq_of_getLsbD_eq fun j hj => ?_
  simp only [fxmOf, packX, fxmHi, fxmLo, BitVec.getLsbD_setWidth, BitVec.getLsbD_ushiftRight, BitVec.getLsbD_or,
    getLsbD_place, getLsbD_placeBit, BitVec.getLsbD_shiftLeft]
  interval_cases j <;> simp

end Sys2Proof
end

