-- ==== Sys2Proof/Laws/Inv.lean ====
section
/-! SUPPORT. The shared operations keep the machine's invariant. -/

namespace Sys2Proof.Machine

/-! ### Registers -/

theorem State.Inv.setGpr {s : State} (h : s.Inv) (r : Reg) (v : Word) : (s.setGpr r v).Inv :=
  ⟨h.1, h.2, h.3, h.4, h.5, h.6, h.7, h.8, h.9, h.10⟩

theorem State.Inv.setCrField {s : State} (h : s.Inv) (f : BitVec 3) (v : BitVec 4) : (s.setCrField f v).Inv :=
  ⟨h.1, h.2, h.3, h.4, h.5, h.6, h.7, h.8, h.9, h.10⟩

theorem State.Inv.drawn {s : State} (h : s.Inv) : s.drawn.Inv :=
  ⟨h.1, h.2, h.3, h.4, h.5, h.6, h.7, h.8, h.9, h.10⟩

theorem State.Inv.busy {s : State} (h : s.Inv) : s.busy.Inv :=
  ⟨h.1, h.2, h.3, h.4, h.5, h.6, h.7, h.8, h.9, h.10⟩

theorem State.Inv.complete {s : State} (h : s.Inv) : s.complete.Inv :=
  ⟨h.1, h.2, h.3, h.4, h.5, h.6, h.7, h.8, fun _ hw => (by cases hw), h.10⟩

theorem State.Inv.contextSync {s : State} (h : s.Inv) : s.contextSync.Inv :=
  ⟨h.1, h.2, h.3, h.4, h.5, h.6, h.7, h.8, h.9, fun _ hf => by cases hf⟩

theorem State.Inv.openWindow {s : State} (h : s.Inv) : s.openWindow.Inv :=
  ⟨h.1, h.2, h.3, h.4, h.5, h.6, h.7, h.8, h.9, h.10⟩

theorem State.Inv.resolve {s : State} (h : s.Inv) : s.resolve.Inv :=
  ⟨h.1, h.2, h.3, h.4, h.5, h.6, h.7, h.8, h.9, h.10⟩

theorem State.Inv.passBoundary {s : State} (h : s.Inv) : s.passBoundary.Inv :=
  ⟨h.1, h.2, h.3, h.4, h.5, h.6, h.7, h.8, h.9, h.10⟩

theorem State.Inv.settle {s : State} (h : s.Inv) (n : Nat) : (s.settle n).Inv :=
  ⟨h.1, h.2, h.3, h.4, h.5, h.6, h.7, h.8, fun w hw => h.9 w (List.mem_of_mem_take hw), h.10⟩

/-- A masked value has nothing in the reserved bits. -/
theorem masked_reserved (v m : Word) : v &&& m &&& ~~~m = 0 := by
  rw [BitVec.and_assoc]
  simp

theorem State.Inv.setSpr {s : State} (h : s.Inv) (r : Spr) (v : Word) : (s.setSpr r v).Inv where
  pc_aligned := h.1
  msr_reserved := h.2
  spr_reserved := fun q => by
    rw [State.spr_setSpr]
    split
    · rename_i e; subst e; exact masked_reserved _ _
    · exact h.3 q
  mem_wf := h.4
  dcache_wf := h.5
  icache_wf := h.6
  dcache_distinct := h.7
  icache_distinct := h.8
  unsettled_bound := h.9
  ahead_aligned := h.10

theorem State.Inv.setMsr {s : State} (h : s.Inv) (v : Word) : (s.setMsr v).Inv :=
  ⟨h.1, masked_reserved _ _, h.3, h.4, h.5, h.6, h.7, h.8, h.9, h.10⟩

theorem State.Inv.setPc {s : State} (h : s.Inv) {a : Word} (ha : a &&& 3 = 0) : (s.setPc a).Inv :=
  ⟨ha, h.2, h.3, h.4, h.5, h.6, h.7, h.8, h.9, h.10⟩

/-- An aligned address plus a multiple of four is aligned. -/
theorem aligned_add {a d : Word} (ha : a &&& 3 = 0) (hd : d &&& 3 = 0) : (a + d) &&& 3 = 0 := by
  have key : ∀ x : Word, x &&& 3 = 0 ↔ x.toNat % 4 = 0 := fun x => by
    rw [← BitVec.toNat_inj, BitVec.toNat_and]
    exact Eq.congr_left (Nat.and_two_pow_sub_one_eq_mod x.toNat 2)
  rw [key] at *
  rw [BitVec.toNat_add]
  omega

theorem State.Inv.advance {s : State} (h : s.Inv) : s.advance.Inv :=
  ⟨aligned_add h.1 (by decide), h.2, h.3, h.4, h.5, h.6, h.7, h.8, h.9, h.10⟩

theorem alignPc_aligned (w : Word) : alignPc w &&& 3 = 0 := by
  rw [alignPc, BitVec.and_assoc]
  simp

/-! ### Interrupts and reset -/

theorem State.Inv.takeInterrupt {s : State} (h : s.Inv) (k : Interrupt) (ret : Word) : (takeInterrupt k ret s).Inv := by
  have hm : (s.afterMasked msrMask).Inv := by
    unfold State.afterMasked
    split
    · exact h
    · exact h.drawn
  have : (s.saveContext k.kind ret).Inv := by
    unfold State.saveContext
    dsimp only
    split <;> exact (hm.setSpr _ _).setSpr _ _
  exact ((this.setMsr _).setPc (vector_aligned s k)).contextSync

theorem State.Inv.takeException {s : State} (h : s.Inv) (e : Exc) : (takeException e s).Inv := by
  unfold Sys2Proof.Machine.takeException
  cases e <;> exact State.Inv.takeInterrupt (by
    first
      | exact (h.setSpr _ _).setSpr _ _
      | exact h.setSpr _ _
      | exact h) _ _

theorem State.Inv.returnFrom {s : State} (h : s.Inv) (addr msr : Word) : (returnFrom addr msr s).Inv :=
  ((h.setMsr msr).setPc (alignPc_aligned addr)).contextSync

theorem State.Inv.resetFrom {s : State} (h : s.Inv) (k : ResetKind) (wrs : BitVec 2) : (resetFrom k wrs s).Inv := by
  unfold Sys2Proof.Machine.resetFrom
  refine State.Inv.setSpr (State.Inv.setSpr (State.Inv.setSpr (State.Inv.setSpr (State.Inv.setSpr (State.Inv.setSpr
    (State.Inv.setSpr (State.Inv.setSpr (State.Inv.setSpr (State.Inv.setSpr (State.Inv.setSpr (State.Inv.setSpr
    (State.Inv.setSpr ?_ _ _) _ _) _ _) _ _) _ _) _ _) _ _) _ _) _ _) _ _) _ _) _ _) _ _
  exact ⟨(by decide : (0xFFFFFFFC : Word) &&& 3 = 0), (by decide : (0 : Word) &&& ~~~msrMask = 0), h.3, h.4, h.5, h.6,
    h.7, h.8, fun _ hw => (by cases hw), fun _ hf => (by cases hf)⟩

/-! ### Storage -/

/-- The part of the invariant that storage operations touch. -/
structure StorageInv (s : State) : Prop where
  mem_wf : s.mem.wf = true
  dcache_wf : sparseWf DSet.empty Config.dcacheSets s.dcache = true
  distinct : ∀ i, (dsetGet s.dcache i).distinct
  unsettled : ∀ w ∈ s.unsettled, ∀ o ∈ w, o.addr < 2 ^ 32

theorem State.Inv.storage {s : State} (h : s.Inv) : StorageInv s := ⟨h.4, h.5, h.7, h.9⟩

/-- An access that keeps its part keeps the whole. -/
theorem State.Inv.of_access {s t : State} (h : s.Inv) (ht : StorageInv t) (so : AccessOnly s t) : t.Inv where
  pc_aligned := by rw [so.part State.pc]; exact h.1
  msr_reserved := by rw [so.part State.msr]; exact h.2
  spr_reserved := fun r => by rw [so.spr]; exact h.3 r
  mem_wf := ht.1
  dcache_wf := ht.2
  icache_wf := by rw [so.part State.icache]; exact h.6
  dcache_distinct := ht.3
  icache_distinct := by rw [so.part State.icache]; exact h.8
  unsettled_bound := ht.4
  ahead_aligned := by rw [so.part State.ahead]; exact h.10

/-- A storage operation that keeps its part keeps the whole. -/
theorem State.Inv.of_storage {s t : State} (h : s.Inv) (ht : StorageInv t) (so : StorageOnly s t) : t.Inv :=
  h.of_access ht so.access

theorem StorageInv.congr {s t : State} (h : StorageInv s) (hm : t.mem = s.mem) (hd : t.dcache = s.dcache)
    (hu : t.unsettled = s.unsettled) : StorageInv t := ⟨hm ▸ h.1, hd ▸ h.2, hd ▸ h.3, hu ▸ h.4⟩

theorem StorageInv.setDset {s : State} (h : StorageInv s) (b : Nat) {x : DSet} (hx : x.distinct) :
    StorageInv (s.setDset b x) :=
  ⟨h.1, dsetPut_wf _ _ _ h.2 (dIndex_lt b), fun i => by
    have : dsetGet (s.setDset b x).dcache i = _ := dsetGet_put _ _ _ _
    rw [this]
    split
    · exact hx
    · exact h.3 i, h.4⟩

theorem StorageInv.busWrite {s : State} (h : StorageInv s) (cells : List Host.Cell) (hc : ∀ c ∈ cells, c.1 < 2 ^ 32) :
    StorageInv (s.busWrite cells) := by
  refine ⟨memPutAll_wf _ _ h.1 fun c hm => hc c (List.mem_filter.1 hm).1, h.2, h.3, fun w hw o ho => ?_⟩
  rcases List.mem_cons.1 hw with rfl | hw
  · obtain ⟨c, hm, rfl⟩ := List.mem_map.1 ho
    exact hc c hm
  · exact h.4 w hw o ho

/-- Bytes at real addresses lie in the address space. -/
theorem cells_lt (cells : List (Word × Byte)) : ∀ c ∈ cells.map (fun c => ((c.1.toNat, c.2) : Host.Cell)), c.1 < 2 ^ 32 := by
  intro c hc
  obtain ⟨x, -, rfl⟩ := List.mem_map.1 hc
  exact x.1.isLt

theorem StorageInv.busWriteBlock {s : State} (h : StorageInv s) {b : Nat} (hb : b < 2 ^ 27) (bs : Vector Byte 32) :
    StorageInv (s.busWriteBlock b bs) :=
  h.busWrite _ fun c hc => by
    have := mem_cellsFrom hc
    simp only [Vector.length_toList] at this
    omega

theorem StorageInv.afterRead {s : State} (h : StorageInv s) (ras : List Nat) : StorageInv (s.afterRead ras) := by
  unfold State.afterRead; split
  · exact h
  · exact h.congr rfl rfl rfl

theorem dFind_afterRead (s : State) (ras : List Nat) (c : Nat) : (s.afterRead ras).dFind c = s.dFind c := by
  unfold State.afterRead; split <;> rfl

theorem StorageInv.writeBack {s : State} (h : StorageInv s) {i : Nat} (hi : i < Config.dcacheSets) (w : DWay) :
    StorageInv (s.writeBack i w) := by
  unfold State.writeBack
  split
  · exact h.busWriteBlock (DWay.block_lt w hi) _
  · exact h

theorem StorageInv.dEstablish {s : State} (h : StorageInv s) {b : Nat} (hb : s.dFind b = none) (bs : Vector Byte 32)
    (d : Bool) : StorageInv (s.dEstablish b bs d) :=
  (h.writeBack (dIndex_lt b) _).setDset b
    ((DSet.distinct_touch _ _).2 (DSet.distinct_setWay fun j _ _ => DSet.find_none hb j))

theorem StorageInv.dFill {s : State} (h : StorageInv s) {b : Nat} (hb : s.dFind b = none) : StorageInv (s.dFill b) :=
  ((h.afterRead (blockAddrs b)).dEstablish (b := b) ((dFind_afterRead s _ b).trans hb) (s.busReadBlock b).1 false).congr
    rfl rfl rfl

/-- Replacing the way that holds a block by one with the same tag. -/
theorem StorageInv.setWay {s : State} (h : StorageInv s) {b : Nat} {k : Way} (hk : s.dFind b = some k) {x : DSet}
    {w : DWay} (hw : w.tag = dTag b) (hx : x.distinct ↔ ((s.dset b).setWay k w).distinct) : StorageInv (s.setDset b x) :=
  h.setDset b (hx.2 (DSet.distinct_setWay fun j hj _ => by rw [hw]; exact other_way_not (h.3 _) hk j hj))

theorem StorageInv.dropFillBuffer {s : State} (h : StorageInv s) (b : Nat) : StorageInv (s.dropFillBuffer b) := by
  unfold State.dropFillBuffer
  split
  · split
    · exact h.congr rfl rfl rfl
    · exact h
  · exact h

theorem StorageInv.bypassRead {s : State} (h : StorageInv s) (b : Nat) (ras : List Word) (keep : Bool) :
    StorageInv (s.bypassRead b ras keep).2 := by
  unfold State.bypassRead
  split
  · exact h
  · split
    · exact (h.afterRead (blockAddrs b)).congr rfl rfl rfl
    · exact h.afterRead _

theorem StorageInv.bypassWrite {s : State} (h : StorageInv s) (b : Nat) (cells : List (Word × Byte)) :
    StorageInv (s.bypassWrite b cells) := (h.busWrite _ (cells_lt cells)).dropFillBuffer _

theorem StorageInv.dHitRead {s : State} (h : StorageInv s) (b : Nat) (k : Way) (ras : List Word) :
    StorageInv (s.dHitRead b k ras).2 := h.setDset b ((DSet.distinct_touch _ _).2 (h.3 _))

theorem StorageInv.load {s : State} (h : StorageInv s) (t : Attrs) (b : Nat) (ras : List Word) :
    StorageInv (s.load t b ras).2 := by
  have hd : StorageInv s.drawn := h.congr rfl rfl rfl
  have ht : StorageInv (s.loadTogether t b ras).2 := by
    unfold State.loadTogether
    split
    · exact h.dHitRead _ _ _
    · split
      · exact hd.dHitRead _ _ _
      · exact hd.bypassRead _ _ _
    · exact h.bypassRead _ _ _
    · rename_i hk _
      split
      · exact h.bypassRead _ _ _
      · dsimp only
        split <;> exact h.dFill hk
  unfold State.load
  dsimp only
  split
  · exact ht.congr rfl rfl rfl
  · exact ht

theorem StorageInv.storeHit {s : State} (h : StorageInv s) {b : Nat} {k : Way} (w : Bool) (cells : List (Word × Byte))
    (hk : s.dFind b = some k) : StorageInv (s.storeHit b k w cells) := by
  have : StorageInv (s.dHitWrite b k cells (!w && !cells.isEmpty)) :=
    h.setWay hk (w := { (s.dset b).way k with
      bytes := setBytes ((s.dset b).way k).bytes cells
      dirty := ((s.dset b).way k).dirty || (!w && !cells.isEmpty) }) (tag_of_find hk).2 (DSet.distinct_touch _ _)
  unfold State.storeHit
  dsimp only
  split
  · exact this.busWrite _ (cells_lt cells)
  · exact this

theorem StorageInv.storeTogether {s : State} (h : StorageInv s) (t : Attrs) (b : Nat) (cells : List (Word × Byte)) :
    StorageInv (s.storeTogether t b cells) := by
  have hd : StorageInv s.drawn := h.congr rfl rfl rfl
  unfold State.storeTogether
  split
  · rename_i hk _
    exact (h.storeHit _ cells hk).dropFillBuffer _
  · rename_i hk _
    split
    · exact (hd.storeHit _ cells hk).dropFillBuffer _
    · exact hd.bypassWrite _ _
  · exact h.bypassWrite _ _
  · rename_i hk _
    split
    · exact h.bypassWrite _ _
    · dsimp only
      split
      · rename_i hk'
        exact ((h.dFill hk).storeHit _ cells hk').dropFillBuffer _
      · exact h.dFill hk

theorem StorageInv.store {s : State} (h : StorageInv s) (t : Attrs) (b : Nat) (cells : List (Word × Byte)) :
    StorageInv (s.store t b cells) := by
  unfold State.store
  split
  · exact (h.storeTogether _ _ _).busWrite _ (cells_lt _)
  · exact h.storeTogether _ _ _

/-- A bus write without some of its bytes lies where it lay. -/
theorem StorageInv.busMasters {s : State} (h : StorageInv s) (cells : List Host.Cell) : StorageInv (s.busMasters cells) :=
  ⟨memPutCells_wf _ _ h.1, h.2, h.3, fun w hw o ho => by
    obtain ⟨v, hv, rfl⟩ := List.mem_map.1 hw
    exact h.4 v hv o (List.mem_filter.1 ho).1⟩

theorem StorageInv.interleave {s : State} (h : StorageInv s) : StorageInv s.interleave := by
  unfold State.interleave
  split
  · exact h
  · exact (h.busMasters _).congr rfl rfl rfl

theorem StorageInv.loadBytes {s : State} (h : StorageInv s) (ps : List PByte) : StorageInv (s.loadBytes ps).2 := by
  induction ps generalizing s with
  | nil => exact h
  | cons p ps ih => exact ih (h.load p.attrs _ [p.ra]).interleave

theorem StorageInv.storeBytes {s : State} (h : StorageInv s) (ps : List PByte) (bs : List Byte) :
    StorageInv (s.storeBytes ps bs) := by
  induction ps generalizing s bs with
  | nil => cases bs <;> exact h
  | cons p ps ih =>
    cases bs with
    | nil => exact h
    | cons b bs => exact ih (h.store p.attrs _ [(p.ra, b)]).interleave bs

theorem State.Inv.loadBytes {s : State} (h : s.Inv) (ps : List PByte) : (s.loadBytes ps).2.Inv :=
  h.of_access (h.storage.loadBytes ps) (accessOnly_loadBytes s ps)

theorem State.Inv.storeBytes {s : State} (h : s.Inv) (ps : List PByte) (bs : List Byte) : (s.storeBytes ps bs).Inv :=
  h.of_access (h.storage.storeBytes ps bs) (accessOnly_storeBytes s ps bs)

theorem State.Inv.loadItem {s : State} (h : s.Inv) (ps : List PByte) : (s.loadItem ps).2.Inv := by
  refine h.of_access ?_ (accessOnly_loadItem s ps)
  show StorageInv (s.loadScalar ps).2
  unfold State.loadScalar
  split
  · exact h.storage
  · split
    · exact h.storage.load _ _ _
    · exact h.storage.loadBytes _

theorem State.Inv.storeItem {s : State} (h : s.Inv) (ps : List PByte) (bs : List Byte) : (s.storeItem ps bs).Inv := by
  refine h.of_access ?_ (accessOnly_storeItem s ps bs)
  show StorageInv (s.storeScalar ps (ordered (firstE ps) bs))
  unfold State.storeScalar
  split
  · exact h.storage
  · split
    · exact h.storage.store _ _ _
    · exact h.storage.storeBytes _ _

theorem State.Inv.loadWords {s : State} (h : s.Inv) (k : Nat) (r : Reg) (ps : List PByte) : (s.loadWords k r ps).Inv := by
  induction k generalizing s r ps with
  | zero => exact h
  | succ k ih => exact ih ((h.loadBytes (ps.take 4)).setGpr r _) _ _

theorem State.Inv.storeWords {s : State} (h : s.Inv) (k : Nat) (r : Reg) (ps : List PByte) :
    (s.storeWords k r ps).Inv := by
  induction k generalizing s r ps with
  | zero => exact h
  | succ k ih => exact ih (h.storeBytes (ps.take 4) _) _ _

theorem State.Inv.fillRegisters {s : State} (h : s.Inv) (k : Nat) (r : Reg) (bs : List Byte) :
    (s.fillRegisters k r bs).Inv := by
  induction k generalizing s r bs with
  | zero => exact h
  | succ k ih => exact ih (h.setGpr r _) _ _

/-! ### Cache operations -/

theorem StorageInv.dClean {s : State} (h : StorageInv s) (b : Nat) : StorageInv (s.dClean b) := by
  unfold State.dClean
  split
  · rename_i k hk
    dsimp only
    split
    · have hs := dset_writeBack s (dIndex b) ((s.dset b).way k) b
      refine (h.writeBack (dIndex_lt b) _).setWay (k := k) ?_
        (w := { (s.dset b).way k with dirty := false }) (tag_of_find hk).2 (by rw [hs])
      rw [State.dFind, hs]; exact hk
    · exact h
  · exact h

theorem StorageInv.dInvalidate {s : State} (h : StorageInv s) (b : Nat) : StorageInv (s.dInvalidate b) := by
  unfold State.dInvalidate
  split
  · rename_i k hk
    exact h.setWay hk (w := { (s.dset b).way k with valid := false }) (tag_of_find hk).2 Iff.rfl
  · exact h

theorem StorageInv.dFlush {s : State} (h : StorageInv s) (b : Nat) : StorageInv (s.dFlush b) := by
  unfold State.dFlush
  split
  · rename_i k hk
    have hs := dset_writeBack s (dIndex b) ((s.dset b).way k) b
    refine (h.writeBack (dIndex_lt b) _).setWay (k := k) ?_
      (w := { (s.dset b).way k with valid := false }) (tag_of_find hk).2 (by rw [hs])
    rw [State.dFind, hs]; exact hk
  · exact h

theorem StorageInv.dZero {s : State} (h : StorageInv s) {b : Nat} (hb : b < 2 ^ 27) : StorageInv (s.dZero b) := by
  have hl : StorageInv (s.dZeroLine b) := by
    unfold State.dZeroLine
    split
    · rename_i k hk
      exact h.setWay hk (w := { (s.dset b).way k with bytes := zeroLine s.memMap s.draws b, dirty := true })
        (tag_of_find hk).2 (DSet.distinct_touch _ _)
    · rename_i hk; exact h.dEstablish hk _ _
  unfold State.dZero
  dsimp only
  split
  · have hd : StorageInv ((s.dZeroLine b).dropFillBuffer b).drawn := (hl.dropFillBuffer b).congr rfl rfl rfl
    refine hd.busWrite _ fun c hc => ?_
    obtain ⟨ra, hm, rfl⟩ := List.mem_map.1 hc
    obtain ⟨i, hi, rfl⟩ := List.mem_map.1 (List.mem_filter.1 hm).1
    have := List.mem_range.1 hi
    show 32 * b + i < 2 ^ 32
    omega
  · exact hl.dropFillBuffer b

theorem StorageInv.dAllocate {s : State} (h : StorageInv s) (b : Nat) : StorageInv (s.dAllocate b) := by
  unfold State.dAllocate
  split
  · rename_i k hk
    exact h.setWay hk (w := { (s.dset b).way k with dirty := true }) (tag_of_find hk).2 (DSet.distinct_touch _ _)
  · rename_i hk
    have hd : StorageInv s.drawn := h.congr rfl rfl rfl
    exact hd.dEstablish hk _ _

theorem DSet.distinct_invalid (x : DSet) : x.invalid.distinct := fun h => by cases h.1

theorem StorageInv.dInvalidateClass {s : State} (h : StorageInv s) {i : Nat} (hi : i < Config.dcacheSets) :
    StorageInv (s.dInvalidateClass i) := by
  have : StorageInv { s with dcache := dsetPut s.dcache i (dsetGet s.dcache i).invalid } :=
    ⟨h.1, dsetPut_wf _ _ _ h.2 hi, fun j => by
      rw [dsetGet_put]
      split
      · exact DSet.distinct_invalid _
      · exact h.3 j, h.4⟩
  unfold State.dInvalidateClass State.dropFillBufferClass
  split
  · split
    · exact this.congr rfl rfl rfl
    · exact this
  · exact this

/-! ### The memory map -/

theorem StorageInv.redo {s : State} (h : StorageInv s) {w : List Overwrite} (hw : ∀ o ∈ w, o.addr < 2 ^ 32) :
    StorageInv (s.redo w) :=
  h.busWrite _ fun c hc => by
    obtain ⟨o, ho, rfl⟩ := List.mem_map.1 hc
    exact hw o ho

/-- Writes done again under a new memory map keep the canonical form. -/
theorem StorageInv.remap {s : State} (h : StorageInv s) (map : List Region) : StorageInv (s.remap map) := by
  have key : ∀ ws : List (List Overwrite), (∀ w ∈ ws, ∀ o ∈ w, o.addr < 2 ^ 32) → ∀ u : State, StorageInv u →
      StorageInv (ws.foldr (fun w t => t.redo w) u) := by
    intro ws hws u hu
    induction ws with
    | nil => exact hu
    | cons w ws ih =>
      exact (ih fun v hv => hws v (List.mem_cons_of_mem _ hv)).redo (hws w List.mem_cons_self)
  exact key _ h.4 _ ⟨undoWrites_wf _ _ h.1 h.4, h.2, h.3, fun _ hw => by cases hw⟩

/-! ### The instruction cache -/

theorem ISet.distinct_touch (x : ISet) (k : Way) : (x.touch k).distinct ↔ x.distinct := by cases k <;> rfl

theorem ISet.distinct_drop {x : ISet} (h : x.distinct) (tag : BitVec 22) : (x.drop tag).distinct := by
  rintro ⟨h1, h2, h3⟩
  simp only [ISet.drop] at h1 h2 h3
  split at h1
  · cases h1
  · split at h2
    · cases h2
    · simp_all only [Bool.false_eq_true, if_false]
      exact h ⟨h1, h2, h3⟩

theorem ISet.distinct_invalid (x : ISet) : x.invalid.distinct := fun h => by cases h.1

/-- A line put where its tag was not leaves the ways distinct. -/
theorem ISet.distinct_setWay {x : ISet} {tag : BitVec 22} (h : x.find tag = none) (k : Way) (ws : Vector Word 8) :
    (x.setWay k ⟨true, tag, ws⟩).distinct := by
  unfold ISet.find at h
  split at h
  · cases h
  · split at h
    · cases h
    · rename_i ha hb
      simp only [IWay.holds, Bool.and_eq_true, beq_iff_eq] at ha hb
      cases k <;> rintro ⟨h1, h2, h3⟩ <;> simp only [ISet.setWay] at h1 h2 h3
      · exact hb ⟨h2, h3.symm⟩
      · exact ha ⟨h1, h3⟩

theorem State.Inv.setIset {s : State} (h : s.Inv) {i : Nat} (hi : i < Config.icacheSets) {x : ISet} (hx : x.distinct) :
    (s.setIset i x).Inv where
  pc_aligned := h.1
  msr_reserved := h.2
  spr_reserved := h.3
  mem_wf := h.4
  dcache_wf := h.5
  icache_wf := isetPut_wf _ _ _ h.6 hi
  dcache_distinct := h.7
  icache_distinct := fun j => by
    have : isetGet (s.setIset i x).icache j = _ := isetGet_put _ _ _ _
    rw [this]
    split
    · exact hx
    · exact h.8 j
  unsettled_bound := h.9
  ahead_aligned := h.10

theorem iIndex_lt (ea : Word) : iIndex ea < Config.icacheSets := Nat.mod_lt _ (by decide)

theorem State.Inv.afterFetch {s : State} (h : s.Inv) (map : List Region) (ras : List Nat) : (s.afterFetch map ras).Inv := by
  unfold State.afterFetch
  split
  · exact h
  · exact h.drawn

theorem State.Inv.iFill {s : State} (h : s.Inv) (map : List Region) (ea ra : Word) (e : Bool)
    (hf : (isetGet s.icache (iIndex ea)).find (iTag ra) = none) : (s.iFill map ea ra e).Inv := by
  have ha := h.afterFetch map (blockAddrs (blockOf ra))
  unfold State.iFill
  dsimp only
  split
  · exact ha
  · exact ha.setIset (iIndex_lt ea) ((ISet.distinct_touch _ _).2 (ISet.distinct_setWay hf _ _))

end Sys2Proof.Machine
end

