-- ==== Sys2Proof/Laws/PerInstr.lean ====
section
/-! SUPPORT. For every instruction: its encoded word matches its own row of spec/opcode_table.json, by the row's mask and
match (spec/30_encoding.md R170). -/

namespace Sys2Proof.Laws.TableRow

/-- A row's mask and match, copied from spec/opcode_table.json. -/
def row : Instr → Word × Word
  | .lbz _ _ _ => (0xFC000000, 0x88000000)
  | .lbzu _ _ _ => (0xFC000000, 0x8C000000)
  | .lbzx _ _ _ => (0xFC0007FE, 0x7C0000AE)
  | .lbzux _ _ _ => (0xFC0007FE, 0x7C0000EE)
  | .lhz _ _ _ => (0xFC000000, 0xA0000000)
  | .lhzu _ _ _ => (0xFC000000, 0xA4000000)
  | .lhzx _ _ _ => (0xFC0007FE, 0x7C00022E)
  | .lhzux _ _ _ => (0xFC0007FE, 0x7C00026E)
  | .lha _ _ _ => (0xFC000000, 0xA8000000)
  | .lhau _ _ _ => (0xFC000000, 0xAC000000)
  | .lhax _ _ _ => (0xFC0007FE, 0x7C0002AE)
  | .lhaux _ _ _ => (0xFC0007FE, 0x7C0002EE)
  | .lwz _ _ _ => (0xFC000000, 0x80000000)
  | .lwzu _ _ _ => (0xFC000000, 0x84000000)
  | .lwzx _ _ _ => (0xFC0007FE, 0x7C00002E)
  | .lwzux _ _ _ => (0xFC0007FE, 0x7C00006E)
  | .stb _ _ _ => (0xFC000000, 0x98000000)
  | .stbu _ _ _ => (0xFC000000, 0x9C000000)
  | .stbx _ _ _ => (0xFC0007FE, 0x7C0001AE)
  | .stbux _ _ _ => (0xFC0007FE, 0x7C0001EE)
  | .sth _ _ _ => (0xFC000000, 0xB0000000)
  | .sthu _ _ _ => (0xFC000000, 0xB4000000)
  | .sthx _ _ _ => (0xFC0007FE, 0x7C00032E)
  | .sthux _ _ _ => (0xFC0007FE, 0x7C00036E)
  | .stw _ _ _ => (0xFC000000, 0x90000000)
  | .stwu _ _ _ => (0xFC000000, 0x94000000)
  | .stwx _ _ _ => (0xFC0007FE, 0x7C00012E)
  | .stwux _ _ _ => (0xFC0007FE, 0x7C00016E)
  | .lhbrx _ _ _ => (0xFC0007FE, 0x7C00062C)
  | .lwbrx _ _ _ => (0xFC0007FE, 0x7C00042C)
  | .sthbrx _ _ _ => (0xFC0007FE, 0x7C00072C)
  | .stwbrx _ _ _ => (0xFC0007FE, 0x7C00052C)
  | .lmw _ _ _ => (0xFC000000, 0xB8000000)
  | .stmw _ _ _ => (0xFC000000, 0xBC000000)
  | .lswi _ _ _ => (0xFC0007FE, 0x7C0004AA)
  | .lswx _ _ _ => (0xFC0007FE, 0x7C00042A)
  | .stswi _ _ _ => (0xFC0007FE, 0x7C0005AA)
  | .stswx _ _ _ => (0xFC0007FE, 0x7C00052A)
  | .lwarx _ _ _ => (0xFC0007FE, 0x7C000028)
  | .stwcxDot _ _ _ => (0xFC0007FF, 0x7C00012D)
  | .add _ _ _ _ _ => (0xFC0003FE, 0x7C000214)
  | .addc _ _ _ _ _ => (0xFC0003FE, 0x7C000014)
  | .adde _ _ _ _ _ => (0xFC0003FE, 0x7C000114)
  | .addi _ _ _ => (0xFC000000, 0x38000000)
  | .addic _ _ _ => (0xFC000000, 0x30000000)
  | .addicDot _ _ _ => (0xFC000000, 0x34000000)
  | .addis _ _ _ => (0xFC000000, 0x3C000000)
  | .addme _ _ _ _ => (0xFC0003FE, 0x7C0001D4)
  | .addze _ _ _ _ => (0xFC0003FE, 0x7C000194)
  | .subf _ _ _ _ _ => (0xFC0003FE, 0x7C000050)
  | .subfc _ _ _ _ _ => (0xFC0003FE, 0x7C000010)
  | .subfe _ _ _ _ _ => (0xFC0003FE, 0x7C000110)
  | .subfic _ _ _ => (0xFC000000, 0x20000000)
  | .subfme _ _ _ _ => (0xFC0003FE, 0x7C0001D0)
  | .subfze _ _ _ _ => (0xFC0003FE, 0x7C000190)
  | .neg _ _ _ _ => (0xFC0003FE, 0x7C0000D0)
  | .mulli _ _ _ => (0xFC000000, 0x1C000000)
  | .mullw _ _ _ _ _ => (0xFC0003FE, 0x7C0001D6)
  | .mulhw _ _ _ _ => (0xFC0003FE, 0x7C000096)
  | .mulhwu _ _ _ _ => (0xFC0003FE, 0x7C000016)
  | .divw _ _ _ _ _ => (0xFC0003FE, 0x7C0003D6)
  | .divwu _ _ _ _ _ => (0xFC0003FE, 0x7C000396)
  | .macchw _ _ _ _ _ => (0xFC0003FE, 0x10000158)
  | .macchws _ _ _ _ _ => (0xFC0003FE, 0x100001D8)
  | .macchwsu _ _ _ _ _ => (0xFC0003FE, 0x10000198)
  | .macchwu _ _ _ _ _ => (0xFC0003FE, 0x10000118)
  | .machhw _ _ _ _ _ => (0xFC0003FE, 0x10000058)
  | .machhws _ _ _ _ _ => (0xFC0003FE, 0x100000D8)
  | .machhwsu _ _ _ _ _ => (0xFC0003FE, 0x10000098)
  | .machhwu _ _ _ _ _ => (0xFC0003FE, 0x10000018)
  | .maclhw _ _ _ _ _ => (0xFC0003FE, 0x10000358)
  | .maclhws _ _ _ _ _ => (0xFC0003FE, 0x100003D8)
  | .maclhwsu _ _ _ _ _ => (0xFC0003FE, 0x10000398)
  | .maclhwu _ _ _ _ _ => (0xFC0003FE, 0x10000318)
  | .nmacchw _ _ _ _ _ => (0xFC0003FE, 0x1000015C)
  | .nmacchws _ _ _ _ _ => (0xFC0003FE, 0x100001DC)
  | .nmachhw _ _ _ _ _ => (0xFC0003FE, 0x1000005C)
  | .nmachhws _ _ _ _ _ => (0xFC0003FE, 0x100000DC)
  | .nmaclhw _ _ _ _ _ => (0xFC0003FE, 0x1000035C)
  | .nmaclhws _ _ _ _ _ => (0xFC0003FE, 0x100003DC)
  | .mulchw _ _ _ _ => (0xFC0007FE, 0x10000150)
  | .mulchwu _ _ _ _ => (0xFC0007FE, 0x10000110)
  | .mulhhw _ _ _ _ => (0xFC0007FE, 0x10000050)
  | .mulhhwu _ _ _ _ => (0xFC0007FE, 0x10000010)
  | .mullhw _ _ _ _ => (0xFC0007FE, 0x10000350)
  | .mullhwu _ _ _ _ => (0xFC0007FE, 0x10000310)
  | .and _ _ _ _ => (0xFC0007FE, 0x7C000038)
  | .andc _ _ _ _ => (0xFC0007FE, 0x7C000078)
  | .andiDot _ _ _ => (0xFC000000, 0x70000000)
  | .andisDot _ _ _ => (0xFC000000, 0x74000000)
  | .cntlzw _ _ _ => (0xFC0007FE, 0x7C000034)
  | .eqv _ _ _ _ => (0xFC0007FE, 0x7C000238)
  | .extsb _ _ _ => (0xFC0007FE, 0x7C000774)
  | .extsh _ _ _ => (0xFC0007FE, 0x7C000734)
  | .nand _ _ _ _ => (0xFC0007FE, 0x7C0003B8)
  | .nor _ _ _ _ => (0xFC0007FE, 0x7C0000F8)
  | .or _ _ _ _ => (0xFC0007FE, 0x7C000378)
  | .orc _ _ _ _ => (0xFC0007FE, 0x7C000338)
  | .ori _ _ _ => (0xFC000000, 0x60000000)
  | .oris _ _ _ => (0xFC000000, 0x64000000)
  | .xor _ _ _ _ => (0xFC0007FE, 0x7C000278)
  | .xori _ _ _ => (0xFC000000, 0x68000000)
  | .xoris _ _ _ => (0xFC000000, 0x6C000000)
  | .cmp _ _ _ _ => (0xFC0007FE, 0x7C000000)
  | .cmpi _ _ _ _ => (0xFC000000, 0x2C000000)
  | .cmpl _ _ _ _ => (0xFC0007FE, 0x7C000040)
  | .cmpli _ _ _ _ => (0xFC000000, 0x28000000)
  | .b _ _ _ => (0xFC000000, 0x48000000)
  | .bclr _ _ _ => (0xFC0007FE, 0x4C000020)
  | .bcctr _ _ _ => (0xFC0007FE, 0x4C000420)
  | .bc _ _ _ _ _ => (0xFC000000, 0x40000000)
  | .crand _ _ _ => (0xFC0007FE, 0x4C000202)
  | .crandc _ _ _ => (0xFC0007FE, 0x4C000102)
  | .creqv _ _ _ => (0xFC0007FE, 0x4C000242)
  | .crnand _ _ _ => (0xFC0007FE, 0x4C0001C2)
  | .crnor _ _ _ => (0xFC0007FE, 0x4C000042)
  | .cror _ _ _ => (0xFC0007FE, 0x4C000382)
  | .crorc _ _ _ => (0xFC0007FE, 0x4C000342)
  | .crxor _ _ _ => (0xFC0007FE, 0x4C000182)
  | .mcrf _ _ => (0xFC0007FE, 0x4C000000)
  | .rlwimi _ _ _ _ _ _ => (0xFC000000, 0x50000000)
  | .rlwinm _ _ _ _ _ _ => (0xFC000000, 0x54000000)
  | .rlwnm _ _ _ _ _ _ => (0xFC000000, 0x5C000000)
  | .slw _ _ _ _ => (0xFC0007FE, 0x7C000030)
  | .srw _ _ _ _ => (0xFC0007FE, 0x7C000430)
  | .sraw _ _ _ _ => (0xFC0007FE, 0x7C000630)
  | .srawi _ _ _ _ => (0xFC0007FE, 0x7C000670)
  | .icbi _ _ => (0xFC0007FE, 0x7C0007AC)
  | .icbt _ _ => (0xFC0007FE, 0x7C00020C)
  | .iccci _ _ => (0xFC0007FE, 0x7C00078C)
  | .icread _ _ => (0xFC0007FE, 0x7C0007CC)
  | .dcbf _ _ => (0xFC0007FE, 0x7C0000AC)
  | .dcbi _ _ => (0xFC0007FE, 0x7C0003AC)
  | .dcbz _ _ => (0xFC0007FE, 0x7C0007EC)
  | .dcbst _ _ => (0xFC0007FE, 0x7C00006C)
  | .dcbt _ _ => (0xFC0007FE, 0x7C00022C)
  | .dcbtst _ _ => (0xFC0007FE, 0x7C0001EC)
  | .dccci _ _ => (0xFC0007FE, 0x7C00038C)
  | .dcba _ _ => (0xFC0007FE, 0x7C0005EC)
  | .dcread _ _ _ => (0xFC0007FE, 0x7C0003CC)
  | .mfmsr _ => (0xFC0007FE, 0x7C0000A6)
  | .rfi => (0xFC0007FE, 0x4C000064)
  | .rfci => (0xFC0007FE, 0x4C000066)
  | .mtmsr _ => (0xFC0007FE, 0x7C000124)
  | .wrtee _ => (0xFC0007FE, 0x7C000106)
  | .wrteei _ => (0xFC0007FE, 0x7C000146)
  | .tlbsx _ _ _ _ => (0xFC0007FE, 0x7C000724)
  | .tlbia => (0xFC0007FE, 0x7C0002E4)
  | .tlbre _ _ _ => (0xFC0007FE, 0x7C000764)
  | .tlbwe _ _ _ => (0xFC0007FE, 0x7C0007A4)
  | .tlbsync => (0xFC0007FE, 0x7C00046C)
  | .eieio => (0xFC0007FE, 0x7C0006AC)
  | .isync => (0xFC0007FE, 0x4C00012C)
  | .sync => (0xFC0007FE, 0x7C0004AC)
  | .mcrxr _ => (0xFC0007FE, 0x7C000400)
  | .mfcr _ => (0xFC0007FE, 0x7C000026)
  | .mfdcr _ _ => (0xFC0007FE, 0x7C000286)
  | .mfspr _ _ => (0xFC0007FE, 0x7C0002A6)
  | .mftb _ _ => (0xFC0007FE, 0x7C0002E6)
  | .mtcrf _ _ => (0xFC0007FE, 0x7C000120)
  | .mtdcr _ _ => (0xFC0007FE, 0x7C000386)
  | .mtspr _ _ => (0xFC0007FE, 0x7C0003A6)
  | .sc => (0xFC000002, 0x44000002)
  | .tw _ _ _ => (0xFC0007FE, 0x7C000008)
  | .twi _ _ _ => (0xFC000000, 0x0C000000)

/-- The instruction's word is a word of its row. -/
def Statement (i : Instr) : Prop := encode i &&& (row i).1 = (row i).2

/-! ### One lemma per form -/

theorem bits_eq {a b : Word} (h : ∀ i < 32, a.getLsbD i = b.getLsbD i) : a = b :=
  BitVec.eq_of_getLsbD_eq fun i hi => h i hi

theorem mask_D (op : BitVec 6) (a b : BitVec 5) (d : Half) :
    packD op a b d &&& 0xFC000000 = packD op 0 0 0 := by
  apply bits_eq; intro i hi; interval_cases i <;> simp [packD, place]

theorem mask_I (op : BitVec 6) (li : BitVec 24) (aa lk : Bool) :
    packI op li aa lk &&& 0xFC000000 = packI op 0 false false := by
  apply bits_eq; intro i hi; interval_cases i <;> simp [packI, placeBit, place]

theorem mask_B (op : BitVec 6) (bo bi : BitVec 5) (bd : BitVec 14) (aa lk : Bool) :
    packB op bo bi bd aa lk &&& 0xFC000000 = packB op 0 0 0 false false := by
  apply bits_eq; intro i hi; interval_cases i <;> simp [packB, placeBit, place]

theorem mask_M (op : BitVec 6) (a b c d e : BitVec 5) (rc : Bool) :
    packM op a b c d e rc &&& 0xFC000000 = packM op 0 0 0 0 0 false := by
  apply bits_eq; intro i hi; interval_cases i <;> simp [packM, placeBit, place]

theorem mask_X (op : BitVec 6) (a b c : BitVec 5) (xo : BitVec 10) (rc : Bool) :
    packX op a b c xo rc &&& 0xFC0007FE = packX op 0 0 0 xo false := by
  apply bits_eq; intro i hi; interval_cases i <;> simp [packX, placeBit, place]

theorem mask_X_record (op : BitVec 6) (a b c : BitVec 5) (xo : BitVec 10) (rc : Bool) :
    packX op a b c xo rc &&& 0xFC0007FF = packX op 0 0 0 xo rc := by
  apply bits_eq; intro i hi; interval_cases i <;> simp [packX, placeBit, place]

theorem mask_XO (op : BitVec 6) (a b c : BitVec 5) (oe : Bool) (xo : BitVec 9) (rc : Bool) :
    packXO op a b c oe xo rc &&& 0xFC0003FE = packXO op 0 0 0 false xo false := by
  apply bits_eq; intro i hi; interval_cases i <;> simp [packXO, placeBit, place]

/-! ### One lemma per constructor -/

theorem lbz (rt : Reg) (ra : Reg) (d : Half) : Statement (.lbz rt ra d) := (mask_D ..).trans rfl
theorem lbzu (rt : Reg) (ra : Reg) (d : Half) : Statement (.lbzu rt ra d) := (mask_D ..).trans rfl
theorem lbzx (rt : Reg) (ra : Reg) (rb : Reg) : Statement (.lbzx rt ra rb) := (mask_X ..).trans rfl
theorem lbzux (rt : Reg) (ra : Reg) (rb : Reg) : Statement (.lbzux rt ra rb) := (mask_X ..).trans rfl
theorem lhz (rt : Reg) (ra : Reg) (d : Half) : Statement (.lhz rt ra d) := (mask_D ..).trans rfl
theorem lhzu (rt : Reg) (ra : Reg) (d : Half) : Statement (.lhzu rt ra d) := (mask_D ..).trans rfl
theorem lhzx (rt : Reg) (ra : Reg) (rb : Reg) : Statement (.lhzx rt ra rb) := (mask_X ..).trans rfl
theorem lhzux (rt : Reg) (ra : Reg) (rb : Reg) : Statement (.lhzux rt ra rb) := (mask_X ..).trans rfl
theorem lha (rt : Reg) (ra : Reg) (d : Half) : Statement (.lha rt ra d) := (mask_D ..).trans rfl
theorem lhau (rt : Reg) (ra : Reg) (d : Half) : Statement (.lhau rt ra d) := (mask_D ..).trans rfl
theorem lhax (rt : Reg) (ra : Reg) (rb : Reg) : Statement (.lhax rt ra rb) := (mask_X ..).trans rfl
theorem lhaux (rt : Reg) (ra : Reg) (rb : Reg) : Statement (.lhaux rt ra rb) := (mask_X ..).trans rfl
theorem lwz (rt : Reg) (ra : Reg) (d : Half) : Statement (.lwz rt ra d) := (mask_D ..).trans rfl
theorem lwzu (rt : Reg) (ra : Reg) (d : Half) : Statement (.lwzu rt ra d) := (mask_D ..).trans rfl
theorem lwzx (rt : Reg) (ra : Reg) (rb : Reg) : Statement (.lwzx rt ra rb) := (mask_X ..).trans rfl
theorem lwzux (rt : Reg) (ra : Reg) (rb : Reg) : Statement (.lwzux rt ra rb) := (mask_X ..).trans rfl
theorem stb (rs : Reg) (ra : Reg) (d : Half) : Statement (.stb rs ra d) := (mask_D ..).trans rfl
theorem stbu (rs : Reg) (ra : Reg) (d : Half) : Statement (.stbu rs ra d) := (mask_D ..).trans rfl
theorem stbx (rs : Reg) (ra : Reg) (rb : Reg) : Statement (.stbx rs ra rb) := (mask_X ..).trans rfl
theorem stbux (rs : Reg) (ra : Reg) (rb : Reg) : Statement (.stbux rs ra rb) := (mask_X ..).trans rfl
theorem sth (rs : Reg) (ra : Reg) (d : Half) : Statement (.sth rs ra d) := (mask_D ..).trans rfl
theorem sthu (rs : Reg) (ra : Reg) (d : Half) : Statement (.sthu rs ra d) := (mask_D ..).trans rfl
theorem sthx (rs : Reg) (ra : Reg) (rb : Reg) : Statement (.sthx rs ra rb) := (mask_X ..).trans rfl
theorem sthux (rs : Reg) (ra : Reg) (rb : Reg) : Statement (.sthux rs ra rb) := (mask_X ..).trans rfl
theorem stw (rs : Reg) (ra : Reg) (d : Half) : Statement (.stw rs ra d) := (mask_D ..).trans rfl
theorem stwu (rs : Reg) (ra : Reg) (d : Half) : Statement (.stwu rs ra d) := (mask_D ..).trans rfl
theorem stwx (rs : Reg) (ra : Reg) (rb : Reg) : Statement (.stwx rs ra rb) := (mask_X ..).trans rfl
theorem stwux (rs : Reg) (ra : Reg) (rb : Reg) : Statement (.stwux rs ra rb) := (mask_X ..).trans rfl
theorem lhbrx (rt : Reg) (ra : Reg) (rb : Reg) : Statement (.lhbrx rt ra rb) := (mask_X ..).trans rfl
theorem lwbrx (rt : Reg) (ra : Reg) (rb : Reg) : Statement (.lwbrx rt ra rb) := (mask_X ..).trans rfl
theorem sthbrx (rs : Reg) (ra : Reg) (rb : Reg) : Statement (.sthbrx rs ra rb) := (mask_X ..).trans rfl
theorem stwbrx (rs : Reg) (ra : Reg) (rb : Reg) : Statement (.stwbrx rs ra rb) := (mask_X ..).trans rfl
theorem lmw (rt : Reg) (ra : Reg) (d : Half) : Statement (.lmw rt ra d) := (mask_D ..).trans rfl
theorem stmw (rs : Reg) (ra : Reg) (d : Half) : Statement (.stmw rs ra d) := (mask_D ..).trans rfl
theorem lswi (rt : Reg) (ra : Reg) (nb : BitVec 5) : Statement (.lswi rt ra nb) := (mask_X ..).trans rfl
theorem lswx (rt : Reg) (ra : Reg) (rb : Reg) : Statement (.lswx rt ra rb) := (mask_X ..).trans rfl
theorem stswi (rs : Reg) (ra : Reg) (nb : BitVec 5) : Statement (.stswi rs ra nb) := (mask_X ..).trans rfl
theorem stswx (rs : Reg) (ra : Reg) (rb : Reg) : Statement (.stswx rs ra rb) := (mask_X ..).trans rfl
theorem lwarx (rt : Reg) (ra : Reg) (rb : Reg) : Statement (.lwarx rt ra rb) := (mask_X ..).trans rfl
theorem stwcxDot (rs : Reg) (ra : Reg) (rb : Reg) : Statement (.stwcxDot rs ra rb) := (mask_X_record ..).trans rfl
theorem add (rt : Reg) (ra : Reg) (rb : Reg) (oe : Bool) (rc : Bool) : Statement (.add rt ra rb oe rc) := (mask_XO ..).trans rfl
theorem addc (rt : Reg) (ra : Reg) (rb : Reg) (oe : Bool) (rc : Bool) : Statement (.addc rt ra rb oe rc) := (mask_XO ..).trans rfl
theorem adde (rt : Reg) (ra : Reg) (rb : Reg) (oe : Bool) (rc : Bool) : Statement (.adde rt ra rb oe rc) := (mask_XO ..).trans rfl
theorem addi (rt : Reg) (ra : Reg) (si : Half) : Statement (.addi rt ra si) := (mask_D ..).trans rfl
theorem addic (rt : Reg) (ra : Reg) (si : Half) : Statement (.addic rt ra si) := (mask_D ..).trans rfl
theorem addicDot (rt : Reg) (ra : Reg) (si : Half) : Statement (.addicDot rt ra si) := (mask_D ..).trans rfl
theorem addis (rt : Reg) (ra : Reg) (si : Half) : Statement (.addis rt ra si) := (mask_D ..).trans rfl
theorem addme (rt : Reg) (ra : Reg) (oe : Bool) (rc : Bool) : Statement (.addme rt ra oe rc) := (mask_XO ..).trans rfl
theorem addze (rt : Reg) (ra : Reg) (oe : Bool) (rc : Bool) : Statement (.addze rt ra oe rc) := (mask_XO ..).trans rfl
theorem subf (rt : Reg) (ra : Reg) (rb : Reg) (oe : Bool) (rc : Bool) : Statement (.subf rt ra rb oe rc) := (mask_XO ..).trans rfl
theorem subfc (rt : Reg) (ra : Reg) (rb : Reg) (oe : Bool) (rc : Bool) : Statement (.subfc rt ra rb oe rc) := (mask_XO ..).trans rfl
theorem subfe (rt : Reg) (ra : Reg) (rb : Reg) (oe : Bool) (rc : Bool) : Statement (.subfe rt ra rb oe rc) := (mask_XO ..).trans rfl
theorem subfic (rt : Reg) (ra : Reg) (si : Half) : Statement (.subfic rt ra si) := (mask_D ..).trans rfl
theorem subfme (rt : Reg) (ra : Reg) (oe : Bool) (rc : Bool) : Statement (.subfme rt ra oe rc) := (mask_XO ..).trans rfl
theorem subfze (rt : Reg) (ra : Reg) (oe : Bool) (rc : Bool) : Statement (.subfze rt ra oe rc) := (mask_XO ..).trans rfl
theorem neg (rt : Reg) (ra : Reg) (oe : Bool) (rc : Bool) : Statement (.neg rt ra oe rc) := (mask_XO ..).trans rfl
theorem mulli (rt : Reg) (ra : Reg) (si : Half) : Statement (.mulli rt ra si) := (mask_D ..).trans rfl
theorem mullw (rt : Reg) (ra : Reg) (rb : Reg) (oe : Bool) (rc : Bool) : Statement (.mullw rt ra rb oe rc) := (mask_XO ..).trans rfl
theorem mulhw (rt : Reg) (ra : Reg) (rb : Reg) (rc : Bool) : Statement (.mulhw rt ra rb rc) := (mask_XO ..).trans rfl
theorem mulhwu (rt : Reg) (ra : Reg) (rb : Reg) (rc : Bool) : Statement (.mulhwu rt ra rb rc) := (mask_XO ..).trans rfl
theorem divw (rt : Reg) (ra : Reg) (rb : Reg) (oe : Bool) (rc : Bool) : Statement (.divw rt ra rb oe rc) := (mask_XO ..).trans rfl
theorem divwu (rt : Reg) (ra : Reg) (rb : Reg) (oe : Bool) (rc : Bool) : Statement (.divwu rt ra rb oe rc) := (mask_XO ..).trans rfl
theorem macchw (rt : Reg) (ra : Reg) (rb : Reg) (oe : Bool) (rc : Bool) : Statement (.macchw rt ra rb oe rc) := (mask_XO ..).trans rfl
theorem macchws (rt : Reg) (ra : Reg) (rb : Reg) (oe : Bool) (rc : Bool) : Statement (.macchws rt ra rb oe rc) := (mask_XO ..).trans rfl
theorem macchwsu (rt : Reg) (ra : Reg) (rb : Reg) (oe : Bool) (rc : Bool) : Statement (.macchwsu rt ra rb oe rc) := (mask_XO ..).trans rfl
theorem macchwu (rt : Reg) (ra : Reg) (rb : Reg) (oe : Bool) (rc : Bool) : Statement (.macchwu rt ra rb oe rc) := (mask_XO ..).trans rfl
theorem machhw (rt : Reg) (ra : Reg) (rb : Reg) (oe : Bool) (rc : Bool) : Statement (.machhw rt ra rb oe rc) := (mask_XO ..).trans rfl
theorem machhws (rt : Reg) (ra : Reg) (rb : Reg) (oe : Bool) (rc : Bool) : Statement (.machhws rt ra rb oe rc) := (mask_XO ..).trans rfl
theorem machhwsu (rt : Reg) (ra : Reg) (rb : Reg) (oe : Bool) (rc : Bool) : Statement (.machhwsu rt ra rb oe rc) := (mask_XO ..).trans rfl
theorem machhwu (rt : Reg) (ra : Reg) (rb : Reg) (oe : Bool) (rc : Bool) : Statement (.machhwu rt ra rb oe rc) := (mask_XO ..).trans rfl
theorem maclhw (rt : Reg) (ra : Reg) (rb : Reg) (oe : Bool) (rc : Bool) : Statement (.maclhw rt ra rb oe rc) := (mask_XO ..).trans rfl
theorem maclhws (rt : Reg) (ra : Reg) (rb : Reg) (oe : Bool) (rc : Bool) : Statement (.maclhws rt ra rb oe rc) := (mask_XO ..).trans rfl
theorem maclhwsu (rt : Reg) (ra : Reg) (rb : Reg) (oe : Bool) (rc : Bool) : Statement (.maclhwsu rt ra rb oe rc) := (mask_XO ..).trans rfl
theorem maclhwu (rt : Reg) (ra : Reg) (rb : Reg) (oe : Bool) (rc : Bool) : Statement (.maclhwu rt ra rb oe rc) := (mask_XO ..).trans rfl
theorem nmacchw (rt : Reg) (ra : Reg) (rb : Reg) (oe : Bool) (rc : Bool) : Statement (.nmacchw rt ra rb oe rc) := (mask_XO ..).trans rfl
theorem nmacchws (rt : Reg) (ra : Reg) (rb : Reg) (oe : Bool) (rc : Bool) : Statement (.nmacchws rt ra rb oe rc) := (mask_XO ..).trans rfl
theorem nmachhw (rt : Reg) (ra : Reg) (rb : Reg) (oe : Bool) (rc : Bool) : Statement (.nmachhw rt ra rb oe rc) := (mask_XO ..).trans rfl
theorem nmachhws (rt : Reg) (ra : Reg) (rb : Reg) (oe : Bool) (rc : Bool) : Statement (.nmachhws rt ra rb oe rc) := (mask_XO ..).trans rfl
theorem nmaclhw (rt : Reg) (ra : Reg) (rb : Reg) (oe : Bool) (rc : Bool) : Statement (.nmaclhw rt ra rb oe rc) := (mask_XO ..).trans rfl
theorem nmaclhws (rt : Reg) (ra : Reg) (rb : Reg) (oe : Bool) (rc : Bool) : Statement (.nmaclhws rt ra rb oe rc) := (mask_XO ..).trans rfl
theorem mulchw (rt : Reg) (ra : Reg) (rb : Reg) (rc : Bool) : Statement (.mulchw rt ra rb rc) := (mask_X ..).trans rfl
theorem mulchwu (rt : Reg) (ra : Reg) (rb : Reg) (rc : Bool) : Statement (.mulchwu rt ra rb rc) := (mask_X ..).trans rfl
theorem mulhhw (rt : Reg) (ra : Reg) (rb : Reg) (rc : Bool) : Statement (.mulhhw rt ra rb rc) := (mask_X ..).trans rfl
theorem mulhhwu (rt : Reg) (ra : Reg) (rb : Reg) (rc : Bool) : Statement (.mulhhwu rt ra rb rc) := (mask_X ..).trans rfl
theorem mullhw (rt : Reg) (ra : Reg) (rb : Reg) (rc : Bool) : Statement (.mullhw rt ra rb rc) := (mask_X ..).trans rfl
theorem mullhwu (rt : Reg) (ra : Reg) (rb : Reg) (rc : Bool) : Statement (.mullhwu rt ra rb rc) := (mask_X ..).trans rfl
theorem and (ra : Reg) (rs : Reg) (rb : Reg) (rc : Bool) : Statement (.and ra rs rb rc) := (mask_X ..).trans rfl
theorem andc (ra : Reg) (rs : Reg) (rb : Reg) (rc : Bool) : Statement (.andc ra rs rb rc) := (mask_X ..).trans rfl
theorem andiDot (ra : Reg) (rs : Reg) (ui : Half) : Statement (.andiDot ra rs ui) := (mask_D ..).trans rfl
theorem andisDot (ra : Reg) (rs : Reg) (ui : Half) : Statement (.andisDot ra rs ui) := (mask_D ..).trans rfl
theorem cntlzw (ra : Reg) (rs : Reg) (rc : Bool) : Statement (.cntlzw ra rs rc) := (mask_X ..).trans rfl
theorem eqv (ra : Reg) (rs : Reg) (rb : Reg) (rc : Bool) : Statement (.eqv ra rs rb rc) := (mask_X ..).trans rfl
theorem extsb (ra : Reg) (rs : Reg) (rc : Bool) : Statement (.extsb ra rs rc) := (mask_X ..).trans rfl
theorem extsh (ra : Reg) (rs : Reg) (rc : Bool) : Statement (.extsh ra rs rc) := (mask_X ..).trans rfl
theorem nand (ra : Reg) (rs : Reg) (rb : Reg) (rc : Bool) : Statement (.nand ra rs rb rc) := (mask_X ..).trans rfl
theorem nor (ra : Reg) (rs : Reg) (rb : Reg) (rc : Bool) : Statement (.nor ra rs rb rc) := (mask_X ..).trans rfl
theorem or (ra : Reg) (rs : Reg) (rb : Reg) (rc : Bool) : Statement (.or ra rs rb rc) := (mask_X ..).trans rfl
theorem orc (ra : Reg) (rs : Reg) (rb : Reg) (rc : Bool) : Statement (.orc ra rs rb rc) := (mask_X ..).trans rfl
theorem ori (ra : Reg) (rs : Reg) (ui : Half) : Statement (.ori ra rs ui) := (mask_D ..).trans rfl
theorem oris (ra : Reg) (rs : Reg) (ui : Half) : Statement (.oris ra rs ui) := (mask_D ..).trans rfl
theorem xor (ra : Reg) (rs : Reg) (rb : Reg) (rc : Bool) : Statement (.xor ra rs rb rc) := (mask_X ..).trans rfl
theorem xori (ra : Reg) (rs : Reg) (ui : Half) : Statement (.xori ra rs ui) := (mask_D ..).trans rfl
theorem xoris (ra : Reg) (rs : Reg) (ui : Half) : Statement (.xoris ra rs ui) := (mask_D ..).trans rfl
theorem cmp (bf : BitVec 3) (l : Bool) (ra : Reg) (rb : Reg) : Statement (.cmp bf l ra rb) := (mask_X ..).trans rfl
theorem cmpi (bf : BitVec 3) (l : Bool) (ra : Reg) (si : Half) : Statement (.cmpi bf l ra si) := (mask_D ..).trans rfl
theorem cmpl (bf : BitVec 3) (l : Bool) (ra : Reg) (rb : Reg) : Statement (.cmpl bf l ra rb) := (mask_X ..).trans rfl
theorem cmpli (bf : BitVec 3) (l : Bool) (ra : Reg) (ui : Half) : Statement (.cmpli bf l ra ui) := (mask_D ..).trans rfl
theorem b (li : BitVec 24) (aa : Bool) (lk : Bool) : Statement (.b li aa lk) := (mask_I ..).trans rfl
theorem bclr (bo : BitVec 5) (bi : BitVec 5) (lk : Bool) : Statement (.bclr bo bi lk) := (mask_X ..).trans rfl
theorem bcctr (bo : BitVec 5) (bi : BitVec 5) (lk : Bool) : Statement (.bcctr bo bi lk) := (mask_X ..).trans rfl
theorem bc (bo : BitVec 5) (bi : BitVec 5) (bd : BitVec 14) (aa : Bool) (lk : Bool) : Statement (.bc bo bi bd aa lk) := (mask_B ..).trans rfl
theorem crand (bt : BitVec 5) (ba : BitVec 5) (bb : BitVec 5) : Statement (.crand bt ba bb) := (mask_X ..).trans rfl
theorem crandc (bt : BitVec 5) (ba : BitVec 5) (bb : BitVec 5) : Statement (.crandc bt ba bb) := (mask_X ..).trans rfl
theorem creqv (bt : BitVec 5) (ba : BitVec 5) (bb : BitVec 5) : Statement (.creqv bt ba bb) := (mask_X ..).trans rfl
theorem crnand (bt : BitVec 5) (ba : BitVec 5) (bb : BitVec 5) : Statement (.crnand bt ba bb) := (mask_X ..).trans rfl
theorem crnor (bt : BitVec 5) (ba : BitVec 5) (bb : BitVec 5) : Statement (.crnor bt ba bb) := (mask_X ..).trans rfl
theorem cror (bt : BitVec 5) (ba : BitVec 5) (bb : BitVec 5) : Statement (.cror bt ba bb) := (mask_X ..).trans rfl
theorem crorc (bt : BitVec 5) (ba : BitVec 5) (bb : BitVec 5) : Statement (.crorc bt ba bb) := (mask_X ..).trans rfl
theorem crxor (bt : BitVec 5) (ba : BitVec 5) (bb : BitVec 5) : Statement (.crxor bt ba bb) := (mask_X ..).trans rfl
theorem mcrf (bf : BitVec 3) (bfa : BitVec 3) : Statement (.mcrf bf bfa) := (mask_X ..).trans rfl
theorem rlwimi (ra : Reg) (rs : Reg) (sh : BitVec 5) (mb : BitVec 5) (me : BitVec 5) (rc : Bool) : Statement (.rlwimi ra rs sh mb me rc) := (mask_M ..).trans rfl
theorem rlwinm (ra : Reg) (rs : Reg) (sh : BitVec 5) (mb : BitVec 5) (me : BitVec 5) (rc : Bool) : Statement (.rlwinm ra rs sh mb me rc) := (mask_M ..).trans rfl
theorem rlwnm (ra : Reg) (rs : Reg) (rb : Reg) (mb : BitVec 5) (me : BitVec 5) (rc : Bool) : Statement (.rlwnm ra rs rb mb me rc) := (mask_M ..).trans rfl
theorem slw (ra : Reg) (rs : Reg) (rb : Reg) (rc : Bool) : Statement (.slw ra rs rb rc) := (mask_X ..).trans rfl
theorem srw (ra : Reg) (rs : Reg) (rb : Reg) (rc : Bool) : Statement (.srw ra rs rb rc) := (mask_X ..).trans rfl
theorem sraw (ra : Reg) (rs : Reg) (rb : Reg) (rc : Bool) : Statement (.sraw ra rs rb rc) := (mask_X ..).trans rfl
theorem srawi (ra : Reg) (rs : Reg) (sh : BitVec 5) (rc : Bool) : Statement (.srawi ra rs sh rc) := (mask_X ..).trans rfl
theorem icbi (ra : Reg) (rb : Reg) : Statement (.icbi ra rb) := (mask_X ..).trans rfl
theorem icbt (ra : Reg) (rb : Reg) : Statement (.icbt ra rb) := (mask_X ..).trans rfl
theorem iccci (ra : Reg) (rb : Reg) : Statement (.iccci ra rb) := (mask_X ..).trans rfl
theorem icread (ra : Reg) (rb : Reg) : Statement (.icread ra rb) := (mask_X ..).trans rfl
theorem dcbf (ra : Reg) (rb : Reg) : Statement (.dcbf ra rb) := (mask_X ..).trans rfl
theorem dcbi (ra : Reg) (rb : Reg) : Statement (.dcbi ra rb) := (mask_X ..).trans rfl
theorem dcbz (ra : Reg) (rb : Reg) : Statement (.dcbz ra rb) := (mask_X ..).trans rfl
theorem dcbst (ra : Reg) (rb : Reg) : Statement (.dcbst ra rb) := (mask_X ..).trans rfl
theorem dcbt (ra : Reg) (rb : Reg) : Statement (.dcbt ra rb) := (mask_X ..).trans rfl
theorem dcbtst (ra : Reg) (rb : Reg) : Statement (.dcbtst ra rb) := (mask_X ..).trans rfl
theorem dccci (ra : Reg) (rb : Reg) : Statement (.dccci ra rb) := (mask_X ..).trans rfl
theorem dcba (ra : Reg) (rb : Reg) : Statement (.dcba ra rb) := (mask_X ..).trans rfl
theorem dcread (rt : Reg) (ra : Reg) (rb : Reg) : Statement (.dcread rt ra rb) := (mask_X ..).trans rfl
theorem mfmsr (rt : Reg) : Statement (.mfmsr rt) := (mask_X ..).trans rfl
theorem rfi : Statement (.rfi) := (mask_X ..).trans rfl
theorem rfci : Statement (.rfci) := (mask_X ..).trans rfl
theorem mtmsr (rs : Reg) : Statement (.mtmsr rs) := (mask_X ..).trans rfl
theorem wrtee (rs : Reg) : Statement (.wrtee rs) := (mask_X ..).trans rfl
theorem wrteei (e : Bool) : Statement (.wrteei e) := (mask_X ..).trans rfl
theorem tlbsx (rt : Reg) (ra : Reg) (rb : Reg) (rc : Bool) : Statement (.tlbsx rt ra rb rc) := (mask_X ..).trans rfl
theorem tlbia : Statement (.tlbia) := (mask_X ..).trans rfl
theorem tlbre (rt : Reg) (ra : Reg) (ws : BitVec 5) : Statement (.tlbre rt ra ws) := (mask_X ..).trans rfl
theorem tlbwe (rs : Reg) (ra : Reg) (ws : BitVec 5) : Statement (.tlbwe rs ra ws) := (mask_X ..).trans rfl
theorem tlbsync : Statement (.tlbsync) := (mask_X ..).trans rfl
theorem eieio : Statement (.eieio) := (mask_X ..).trans rfl
theorem isync : Statement (.isync) := (mask_X ..).trans rfl
theorem sync : Statement (.sync) := (mask_X ..).trans rfl
theorem mcrxr (bf : BitVec 3) : Statement (.mcrxr bf) := (mask_X ..).trans rfl
theorem mfcr (rt : Reg) : Statement (.mfcr rt) := (mask_X ..).trans rfl
theorem mfdcr (rt : Reg) (dcrn : BitVec 10) : Statement (.mfdcr rt dcrn) := (mask_X ..).trans rfl
theorem mfspr (rt : Reg) (sprn : BitVec 10) : Statement (.mfspr rt sprn) := (mask_X ..).trans rfl
theorem mftb (rt : Reg) (tbrn : BitVec 10) : Statement (.mftb rt tbrn) := (mask_X ..).trans rfl
theorem mtcrf (fxm : BitVec 8) (rs : Reg) : Statement (.mtcrf fxm rs) := (mask_X ..).trans rfl
theorem mtdcr (dcrn : BitVec 10) (rs : Reg) : Statement (.mtdcr dcrn rs) := (mask_X ..).trans rfl
theorem mtspr (sprn : BitVec 10) (rs : Reg) : Statement (.mtspr sprn rs) := (mask_X ..).trans rfl
theorem sc : Statement (.sc) := rfl
theorem tw (tocond : BitVec 5) (ra : Reg) (rb : Reg) : Statement (.tw tocond ra rb) := (mask_X ..).trans rfl
theorem twi (tocond : BitVec 5) (ra : Reg) (si : Half) : Statement (.twi tocond ra si) := (mask_D ..).trans rfl

end Sys2Proof.Laws.TableRow
end

