-- ==== Sys2Proof/Laws/Step.lean ====
section
/-! SUPPORT. A step in which the outside is quiet, said once: what becomes of the state before anything is taken or run;
and what reading ahead does at one word. -/

namespace Sys2Proof.Machine

/-- Bus masters that write nothing change nothing. -/
theorem busMasters_nil (s : State) : s.busMasters [] = s := by
  have hk : s.unsettled.map (dropOverwritten []) = s.unsettled :=
    (List.map_congr_left fun w _ => List.filter_eq_self.2 fun _ _ => rfl).trans (List.map_id _)
  have ho : ((s.unsettled.map (overwritten [])).any fun w => w.any fun o => isUnbacked s.memMap o.addr) = false := by
    simp [overwritten]
  simp [State.busMasters, State.arrived, hk, ho, memPutCells]

/-- A quiet outside: every bus write of the core arrives, and nothing else happens. -/
theorem applyInput_quiet (s : State) (h : s.inputs = []) :
    applyInput s.nextInput s = { s.settle 0 with between := [] } := by
  have hi : s.nextInput = s.quiet := by simp [State.nextInput, h]
  have hb : (s.settle 0).busMasters [] = s.settle 0 := busMasters_nil _
  have hd : applyDevices s.quiet s = { s.settle 0 with inputs := [] } := by
    show ({ (s.settle 0).busMasters [] with
      inputs := s.inputs.tail, dcrs := s.dcrs, criticalLine := s.criticalLine, externalLine := s.externalLine } : State) = _
    rw [hb, h]
    rfl
  rw [hi]
  show ({ applyDevices s.quiet s with between := [] } : State) = _
  rw [hd, show ([] : List Input) = (s.settle 0).inputs from h.symm]

/-- A step with a quiet outside, from a state that is not stuck. -/
theorem step_quiet (s : State) (h : s.inputs = []) (hs : s.stuck = false) :
    step s =
      match pendingInterrupt (s.settle 0) false with
      | some k => .next (takeInterrupt k s.pc { s.settle 0 with between := [] }.passBoundary)
      | none =>
        if s.msrWE then .next { s.settle 0 with between := [] }.passBoundary
        else runNext 0 0 { s.settle 0 with between := [] }.passBoundary := by
  have hi : s.nextInput = s.quiet := by simp [State.nextInput, h]
  unfold step
  rw [applyInput_quiet s h, hi]
  show (if s.stuck then _ else _) = _
  rw [hs]
  rfl

/-- A word that may be read ahead joins the set. -/
theorem fetchAhead_unguarded {c : FetchContext} {a : Word} (s : State) (h : mayPrefetch c a = true) :
    s.fetchAhead c a = ((s.fetchAt c a).1, { (s.fetchAt c a).2 with
      ahead := ⟨a, bitAt c.msr 17, (s.fetchAt c a).1⟩ :: (s.fetchAt c a).2.ahead }) := by
  simp [State.fetchAhead, h]

/-- A word in guarded storage is not read. -/
theorem fetchAhead_guarded {c : FetchContext} {a : Word} (s : State) (h : mayPrefetch c a = false) :
    s.fetchAhead c a = ((s.fetchAt c a).1, s) := by
  simp [State.fetchAhead, h]

/-- A wait goes on exactly where its way starts at the instruction that runs, and a branch is still ahead. -/
theorem wayOn_eq_some {pc : Word} {l m : List Word} : wayOn pc l = some m ↔ l = pc :: m ∧ m ≠ [] := by
  match l with
  | [] => simp [wayOn]
  | [a] =>
    simp only [wayOn, reduceCtorEq, List.cons.injEq, false_iff, not_and]
    rintro ⟨-, rfl⟩
    simp
  | a :: b :: l =>
    simp only [wayOn, Option.ite_none_right_eq_some, Option.some.injEq, List.cons.injEq]
    constructor
    · rintro ⟨rfl, rfl⟩
      simp
    · rintro ⟨⟨rfl, rfl⟩, -⟩
      simp

end Sys2Proof.Machine
end

