-- ==== Sys2Proof/Tests/Slice0.lean ====
section
/-! SUPPORT. Tests: the words of the spec's own examples decoded, one-step runs with the values its rules and test
vectors give, ill-formed terms refused, and a witness for the hypotheses of every statement. -/

namespace Sys2Proof.Tests

open Sys2Proof.Machine

/-! ### Decoding: words from the "Example" of each rule -/

/-- Every word of a table decodes to its instruction. -/
def decodes (rows : List (Nat × Instr)) : Bool := rows.all fun r => decodeTableWord 32 r.1 == some r.2

-- R203 to R234
theorem test_decode_scalar_storage : decodes
    [(0x88640005, .lbz 3 4 5), (0x8C640001, .lbzu 3 4 1), (0x7C6428AE, .lbzx 3 4 5), (0x7C6428EE, .lbzux 3 4 5),
     (0xA0640002, .lhz 3 4 2), (0xA4640002, .lhzu 3 4 2), (0x7C642A2E, .lhzx 3 4 5), (0x7C642A6E, .lhzux 3 4 5),
     (0xA864FFFE, .lha 3 4 0xFFFE), (0xAC640002, .lhau 3 4 2), (0x7C642AAE, .lhax 3 4 5), (0x7C642AEE, .lhaux 3 4 5),
     (0x80610008, .lwz 3 1 8), (0x84640004, .lwzu 3 4 4), (0x7C64282E, .lwzx 3 4 5), (0x7C64286E, .lwzux 3 4 5),
     (0x98640005, .stb 3 4 5), (0x9C640001, .stbu 3 4 1), (0x7C6429AE, .stbx 3 4 5), (0x7C6429EE, .stbux 3 4 5),
     (0xB064001C, .sth 3 4 0x1C), (0xB4640002, .sthu 3 4 2), (0x7C642B2E, .sthx 3 4 5), (0x7C642B6E, .sthux 3 4 5),
     (0x90610008, .stw 3 1 8), (0x9421FFF0, .stwu 1 1 0xFFF0), (0x7C64292E, .stwx 3 4 5), (0x7C64296E, .stwux 3 4 5),
     (0x7C642E2C, .lhbrx 3 4 5), (0x7C642C2C, .lwbrx 3 4 5), (0x7C642F2C, .sthbrx 3 4 5),
     (0x7C642D2C, .stwbrx 3 4 5)] = true := by decide

-- R235 to R245
theorem test_decode_multiple_string_reserve : decodes
    [(0xBBA10000, .lmw 29 1 0), (0xBFA10000, .stmw 29 1 0), (0x7CA434AA, .lswi 5 4 6), (0x7CA41C2A, .lswx 5 4 3),
     (0x7CA435AA, .stswi 5 4 6), (0x7CA41D2A, .stswx 5 4 3), (0x7C602028, .lwarx 3 0 4),
     (0x7C60212D, .stwcxDot 3 0 4)] = true := by decide

-- R261 to R290
theorem test_decode_arithmetic : decodes
    [(0x7CE72214, .add 7 7 4 false false), (0x7C642E15, .add 3 4 5 true true), (0x7C642814, .addc 3 4 5 false false),
     (0x7C642914, .adde 3 4 5 false false), (0x38600064, .addi 3 0 100), (0x30640001, .addic 3 4 1),
     (0x3464FFFF, .addicDot 3 4 0xFFFF), (0x3C641234, .addis 3 4 0x1234), (0x7C6401D4, .addme 3 4 false false),
     (0x7C640194, .addze 3 4 false false), (0x7C642850, .subf 3 4 5 false false),
     (0x7C642810, .subfc 3 4 5 false false), (0x7C642910, .subfe 3 4 5 false false), (0x2064000A, .subfic 3 4 10),
     (0x7C6401D0, .subfme 3 4 false false), (0x7C640190, .subfze 3 4 false false), (0x7C6400D0, .neg 3 4 false false),
     (0x7C6404D1, .neg 3 4 true true), (0x1C64FFFD, .mulli 3 4 0xFFFD), (0x7C6429D6, .mullw 3 4 5 false false),
     (0x7C642896, .mulhw 3 4 5 false), (0x7C642816, .mulhwu 3 4 5 false), (0x7C642BD6, .divw 3 4 5 false false),
     (0x7C642FD7, .divw 3 4 5 true true), (0x7C642B96, .divwu 3 4 5 false false)] = true := by decide

-- R303 to R326
theorem test_decode_mac : decodes
    [(0x10642958, .macchw 3 4 5 false false), (0x10642D59, .macchw 3 4 5 true true),
     (0x106429D8, .macchws 3 4 5 false false), (0x10642998, .macchwsu 3 4 5 false false),
     (0x10642918, .macchwu 3 4 5 false false), (0x10642858, .machhw 3 4 5 false false),
     (0x106428D8, .machhws 3 4 5 false false), (0x10642898, .machhwsu 3 4 5 false false),
     (0x10642818, .machhwu 3 4 5 false false), (0x10642B58, .maclhw 3 4 5 false false),
     (0x10642BD8, .maclhws 3 4 5 false false), (0x10642B98, .maclhwsu 3 4 5 false false),
     (0x10642F99, .maclhwsu 3 4 5 true true), (0x10642B18, .maclhwu 3 4 5 false false),
     (0x1064295C, .nmacchw 3 4 5 false false), (0x106429DC, .nmacchws 3 4 5 false false),
     (0x1064285C, .nmachhw 3 4 5 false false), (0x106428DC, .nmachhws 3 4 5 false false),
     (0x10642B5C, .nmaclhw 3 4 5 false false), (0x10642BDC, .nmaclhws 3 4 5 false false),
     (0x10642951, .mulchw 3 4 5 true), (0x10642910, .mulchwu 3 4 5 false), (0x10642850, .mulhhw 3 4 5 false),
     (0x10642810, .mulhhwu 3 4 5 false), (0x10642B50, .mullhw 3 4 5 false),
     (0x10642B10, .mullhwu 3 4 5 false)] = true := by decide

-- R341 to R364
theorem test_decode_logical_compare : decodes
    [(0x7C832839, .and 3 4 5 true), (0x7C832878, .andc 3 4 5 false), (0x708300FF, .andiDot 3 4 0xFF),
     (0x748300FF, .andisDot 3 4 0xFF), (0x7C830034, .cntlzw 3 4 false), (0x7C832A38, .eqv 3 4 5 false),
     (0x7C830774, .extsb 3 4 false), (0x7C830734, .extsh 3 4 false), (0x7C832BB8, .nand 3 4 5 false),
     (0x7C8328F8, .nor 3 4 5 false), (0x7C832B79, .or 3 4 5 true), (0x7C832B38, .orc 3 4 5 false),
     (0x608300FF, .ori 3 4 0xFF), (0x648300FF, .oris 3 4 0xFF), (0x7C832A78, .xor 3 4 5 false),
     (0x688300FF, .xori 3 4 0xFF), (0x6C8300FF, .xoris 3 4 0xFF), (0x7F842800, .cmp 7 false 4 5),
     (0x2D840064, .cmpi 3 false 4 100), (0x7C842840, .cmpl 1 false 4 5),
     (0x2904FFFF, .cmpli 2 false 4 0xFFFF)] = true := by decide

-- R382 to R399
theorem test_decode_branch : decodes
    [(0x48000008, .b 2 false false), (0x48000101, .b 0x40 false true), (0x4BFFFFFE, .b 0xFFFFFF true false),
     (0x4E800020, .bclr 20 0 false), (0x4D820020, .bclr 12 2 false), (0x4E800421, .bcctr 20 0 true),
     (0x41820008, .bc 12 2 2 false false), (0x4200FFF8, .bc 16 0 0x3FFE false false),
     (0x4280FFFE, .bc 20 0 0x3FFF true false), (0x429F0005, .bc 20 31 1 false true), (0x4C465202, .crand 2 6 10),
     (0x4C465102, .crandc 2 6 10), (0x4C465242, .creqv 2 6 10), (0x4C4651C2, .crnand 2 6 10),
     (0x4C465042, .crnor 2 6 10), (0x4C465382, .cror 2 6 10), (0x4C465342, .crorc 2 6 10),
     (0x4C465182, .crxor 2 6 10), (0x4C1C0000, .mcrf 0 7), (0x4D840000, .mcrf 3 1)] = true := by decide

-- R411 to R417
theorem test_decode_rotate_shift : decodes
    [(0x5064442E, .rlwimi 4 3 8 16 23 false), (0x5464C23E, .rlwinm 4 3 24 8 31 false),
     (0x54640001, .rlwinm 4 3 0 0 0 true), (0x5C64283E, .rlwnm 4 3 5 0 31 false), (0x7C642830, .slw 4 3 5 false),
     (0x7C642C30, .srw 4 3 5 false), (0x7C642E30, .sraw 4 3 5 false), (0x7C642670, .srawi 4 3 4 false),
     (0x7C640671, .srawi 4 3 0 true)] = true := by decide

-- R432 to R447
theorem test_decode_cache : decodes
    [(0x7C002FAC, .icbi 0 5), (0x7C004A0C, .icbt 0 9), (0x7C002F8C, .iccci 0 5), (0x7C0537CC, .icread 5 6),
     (0x7C0028AC, .dcbf 0 5), (0x7C002BAC, .dcbi 0 5), (0x7C002FEC, .dcbz 0 5), (0x7C00286C, .dcbst 0 5),
     (0x7C002A2C, .dcbt 0 5), (0x7C0029EC, .dcbtst 0 5), (0x7C002B8C, .dccci 0 5), (0x7C002DEC, .dcba 0 5),
     (0x7C602BCC, .dcread 3 0 5)] = true := by decide

-- R461 to R472
theorem test_decode_interrupt_control_tlb : decodes
    [(0x7C6000A6, .mfmsr 3), (0x4C000064, .rfi), (0x4C000066, .rfci), (0x7C600124, .mtmsr 3), (0x7C600106, .wrtee 3),
     (0x7C008146, .wrteei true), (0x7C000146, .wrteei false), (0x7C602F25, .tlbsx 3 0 5 true), (0x7C0002E4, .tlbia),
     (0x7C640764, .tlbre 3 4 0), (0x7C640F64, .tlbre 3 4 1), (0x7C640FA4, .tlbwe 3 4 1), (0x7C6407A4, .tlbwe 3 4 0),
     (0x7C00046C, .tlbsync)] = true := by decide

-- R491 to R504
theorem test_decode_processor : decodes
    [(0x7C0006AC, .eieio), (0x4C00012C, .isync), (0x7C0004AC, .sync), (0x7F800400, .mcrxr 7), (0x7C600026, .mfcr 3),
     (0x7C602A86, .mfdcr 3 0xA0), (0x7CBA02A6, .mfspr 5 26), (0x7C7F42A6, .mfspr 3 0x11F), (0x7C6C42E6, .mftb 3 268),
     (0x7C680120, .mtcrf 0x80 3), (0x7C601120, .mtcrf 0x01 3), (0x7C602B86, .mtdcr 0xA0 3),
     (0x7C76F3A6, .mtspr 0x3D6 3), (0x7C7C43A6, .mtspr 0x11C 3), (0x44000002, .sc), (0x7C832008, .tw 4 3 4),
     (0x0E03FFFF, .twi 16 3 0xFFFF)] = true := by decide

-- R171, R172: no row matches; a row matches but a reserved bit is set (R229: XO 151 with bit 31; R245: XO 150 without)
theorem test_decode_illegal : decode 0x00000000 = .error .illegal ∧ decode 0xFC000000 = .error .illegal := by decide
theorem test_decode_reserved_bits :
    decode 0x7C64292F = .error .reservedBits ∧ decode 0x7C60212C = .error .reservedBits := by decide

/-! ### Ill-formed terms, one for each check of 30_encoding.md R173 -/

theorem test_wf_load_update :
    (Instr.lwzu 3 0 4).wf = false ∧ (Instr.lwzu 3 3 4).wf = false ∧ (Instr.lwzu 3 4 4).wf = true := by decide
theorem test_wf_store_update : (Instr.stwu 3 0 4).wf = false ∧ (Instr.stwu 4 4 4).wf = true := by decide
theorem test_wf_load_multiple : (Instr.lmw 29 30 0).wf = false ∧ (Instr.lmw 0 0 0).wf = false ∧
    (Instr.lmw 29 1 0).wf = true := by decide
theorem test_wf_load_string : (Instr.lswi 5 6 8).wf = false ∧ (Instr.lswi 0 0 4).wf = false ∧
    (Instr.lswi 31 0 8).wf = true ∧ (Instr.lswi 5 4 6).wf = true := by decide
theorem test_wf_load_string_indexed : (Instr.lswx 0 0 4).wf = false ∧ (Instr.lswx 5 4 3).wf = true := by decide
theorem test_wf_branch_options : (Instr.bc 0b11100 0 2 false false).wf = false ∧
    (Instr.bclr 0b00110 0 false).wf = false ∧ (Instr.bc 0b11000 0 2 false false).wf = false ∧
    (Instr.bc 0b01101 2 2 false false).wf = true := by decide
theorem test_wf_branch_ctr : (Instr.bcctr 16 0 false).wf = false ∧ (Instr.bcctr 20 0 false).wf = true := by decide
theorem test_wf_compare : (Instr.cmp 0 true 4 5).wf = false ∧ (Instr.cmpli 0 true 4 5).wf = false ∧
    (Instr.cmpi 0 false 4 5).wf = true := by decide
theorem test_wf_spr : (Instr.mfspr 3 0x11C).wf = false ∧ (Instr.mtspr 0x104 3).wf = false ∧
    (Instr.mtspr 0x11F 3).wf = false ∧ (Instr.mfspr 3 0x104).wf = true := by decide
theorem test_wf_tbr : (Instr.mftb 3 270).wf = false ∧ (Instr.mftb 3 269).wf = true := by decide
theorem test_wf_tlb : (Instr.tlbre 3 4 2).wf = false ∧ (Instr.tlbwe 3 4 31).wf = false ∧
    (Instr.tlbwe 3 4 1).wf = true := by decide

/-! ### One instruction on a small state -/

/-- The machine after reset at pc 0x1000 with some registers loaded. -/
def machine (regs : List (Reg × Word)) : State :=
  regs.foldl (fun s r => s.setGpr r.1 r.2) { State.reset with pc := 0x1000 }

/-- The same with bytes in memory. -/
def withBytes (s : State) (ra : Nat) (bs : List Byte) : State := { s with mem := memPutList s.mem ra bs }

/-- The outcome is a next state of which `f` holds. -/
def ends (r : Result) (f : State → Bool) : Bool :=
  match r with
  | .next t => f t
  | _ => false

/-- Each row: the instruction, the registers it finds, the register it leaves a value in. -/
def results (rows : List (Instr × List (Reg × Word) × Reg × Word)) : Bool :=
  rows.all fun (i, regs, r, v) => ends (exec i (machine regs)) fun t => t.gpr r == v && t.pc == 0x1004

-- R261 to R273: examples of the rules
theorem test_add_subtract : results
    [(.add 3 4 5 false false, [(4, 2), (5, 3)], 3, 5), (.addc 3 4 5 false false, [(4, 0xFFFFFFFF), (5, 1)], 3, 0),
     (.addi 3 4 0xFFFF, [(4, 0)], 3, 0xFFFFFFFF), (.addi 3 0 100, [(0, 7)], 3, 100),
     (.addic 3 4 1, [(4, 0xFFFFFFFF)], 3, 0), (.addicDot 3 4 0xFFFF, [(4, 1)], 3, 0),
     (.addis 3 4 0x1234, [(4, 0x5678)], 3, 0x12345678), (.addme 3 4 false false, [(4, 5)], 3, 4),
     (.addze 3 4 false false, [(4, 7)], 3, 7), (.subf 3 4 5 false false, [(4, 3), (5, 10)], 3, 7),
     (.subfc 3 4 5 false false, [(4, 10), (5, 3)], 3, 0xFFFFFFF9), (.subfe 3 4 5 false false, [], 3, 0xFFFFFFFF),
     (.adde 3 4 5 false false, [(4, 0xFFFFFFFF)], 3, 0xFFFFFFFF), (.subfic 3 4 10, [(4, 3)], 3, 7),
     (.subfme 3 4 false false, [], 3, 0xFFFFFFFE), (.subfze 3 4 false false, [(4, 5)], 3, 0xFFFFFFFA),
     (.neg 3 4 false false, [(4, 1)], 3, 0xFFFFFFFF)] = true := by decide

-- R262, R271: CA; R276: `nego.` of 0x80000000; R261: `addo.` of two most negative numbers gives EQ and SO
theorem test_carry : ends (exec (.addc 3 4 5 false false) (machine [(4, 0xFFFFFFFF), (5, 1)])) State.xerCA = true ∧
    ends (exec (.subfc 3 4 5 false false) (machine [(4, 10), (5, 3)])) State.xerCA = false := by decide
theorem test_overflow :
    ends (exec (.neg 3 4 true true) (machine [(4, 0x80000000)]))
      (fun t => t.gpr 3 == 0x80000000 && t.xerOV && t.xerSO && crField t.cr 0 == 0b1001) = true ∧
    ends (exec (.add 3 4 5 true true) (machine [(4, 0x80000000), (5, 0x80000000)]))
      (fun t => t.gpr 3 == 0 && t.xerOV && crField t.cr 0 == 0b0011) = true := by decide

-- R285 to R290
theorem test_multiply_divide : results
    [(.mulli 3 4 0xFFFD, [(4, 5)], 3, 0xFFFFFFF1), (.mullw 3 4 5 false false, [(4, 0xFFFFFFFF), (5, 2)], 3, 0xFFFFFFFE),
     (.mulhw 3 4 5 false, [(4, 0x80000000), (5, 0x80000000)], 3, 0x40000000),
     (.mulhw 3 4 5 false, [(4, 0xFFFFFFFF), (5, 1)], 3, 0xFFFFFFFF),
     (.mulhwu 3 4 5 false, [(4, 0xFFFFFFFF), (5, 0xFFFFFFFF)], 3, 0xFFFFFFFE),
     (.divw 3 4 5 false false, [(4, 0xFFFFFFF9), (5, 2)], 3, 0xFFFFFFFD),
     (.divwu 3 4 5 false false, [(4, 0xFFFFFFF9), (5, 2)], 3, 0x7FFFFFFC)] = true := by decide
-- R289: a division without a quotient runs, its o form sets OV and SO
theorem test_divide_by_zero : ends (exec (.divw 3 4 5 true false) (machine [(4, 7)]))
    (fun t => t.xerOV && t.xerSO && t.pc == 0x1004) = true := by decide

/-- The operands of the examples of R303 to R326. -/
def macRow (i : Instr) (acc v : Word) : Instr × List (Reg × Word) × Reg × Word :=
  (i, [(3, acc), (4, 0xFFFE0003), (5, 0x0005FFFC)], 3, v)

-- R303 to R314
theorem test_mac : results
    [macRow (.macchw 3 4 5 false false) 0x7FFFFFFF 0x8000000E, macRow (.macchws 3 4 5 false false) 0x7FFFFFFF 0x7FFFFFFF,
     macRow (.macchwsu 3 4 5 false false) 0xFFFFFFFF 0xFFFFFFFF, macRow (.macchwu 3 4 5 false false) 0xFFFFFFFF 0x0000000E,
     macRow (.machhw 3 4 5 false false) 0x80000000 0x7FFFFFF6, macRow (.machhws 3 4 5 false false) 0x80000000 0x80000000,
     macRow (.machhwsu 3 4 5 false false) 0x64 0x0005005A, macRow (.machhwu 3 4 5 false false) 0xFFFFFFFF 0x0004FFF5,
     macRow (.maclhw 3 4 5 false false) 0x64 0x58, macRow (.maclhws 3 4 5 false false) 0x80000000 0x80000000,
     macRow (.maclhwsu 3 4 5 false false) 0xFFFFFFFF 0xFFFFFFFF,
     macRow (.maclhwu 3 4 5 false false) 0xFFFFFFFF 0x0002FFF3] = true := by decide
-- R315 to R326
theorem test_negative_mac_and_halfword_multiply : results
    [macRow (.nmacchw 3 4 5 false false) 0x80000000 0x7FFFFFF1, macRow (.nmacchws 3 4 5 false false) 0x80000000 0x80000000,
     macRow (.nmachhw 3 4 5 false false) 0x64 0x6E, macRow (.nmachhws 3 4 5 false false) 0x7FFFFFFF 0x7FFFFFFF,
     macRow (.nmaclhw 3 4 5 false false) 0x7FFFFFFF 0x8000000B,
     macRow (.nmaclhws 3 4 5 false false) 0x7FFFFFFF 0x7FFFFFFF, macRow (.mulchw 3 4 5 false) 0 0xF,
     macRow (.mulchwu 3 4 5 false) 0 0xF, macRow (.mulhhw 3 4 5 false) 0 0xFFFFFFF6,
     macRow (.mulhhwu 3 4 5 false) 0 0x0004FFF6, macRow (.mullhw 3 4 5 false) 0 0xFFFFFFF4,
     macRow (.mullhwu 3 4 5 false) 0 0x0002FFF4] = true := by decide
-- R301: the o form of a saturating multiply-accumulate
theorem test_mac_overflow : ends (exec (.macchws 3 4 5 true true) (machine [(3, 0x7FFFFFFF), (4, 3), (5, 0x00050000)]))
    (fun t => t.xerOV && t.xerSO && crField t.cr 0 == 0b0101) = true := by decide

-- R341 to R357
theorem test_logical : results
    [(.and 3 4 5 false, [(4, 0xFF00FF00), (5, 0x0FF00FF0)], 3, 0x0F000F00),
     (.andc 3 4 5 false, [(4, 0x0002B030), (5, 0x00028000)], 3, 0x00003030),
     (.andiDot 3 4 0xFF, [(4, 0x12345678)], 3, 0x78), (.andisDot 3 4 0xFF, [(4, 0x12345678)], 3, 0x00340000),
     (.cntlzw 3 4 false, [(4, 0x00010000)], 3, 15), (.cntlzw 3 4 false, [], 3, 32),
     (.eqv 3 4 5 false, [(4, 0x0F0F0F0F), (5, 0x00FF00FF)], 3, 0xF00FF00F),
     (.extsb 3 4 false, [(4, 0x12345680)], 3, 0xFFFFFF80), (.extsh 3 4 false, [(4, 0xFFFF7FFF)], 3, 0x00007FFF),
     (.nand 3 4 5 false, [(4, 0xFFFF0000), (5, 0xFF00FF00)], 3, 0x00FFFFFF),
     (.nor 3 4 5 false, [(4, 0xF0F00000), (5, 0x0F000000)], 3, 0x000FFFFF),
     (.or 3 4 5 false, [(4, 0xFF00), (5, 0xFF)], 3, 0xFFFF), (.orc 3 4 5 false, [(5, 0xFFFF0000)], 3, 0xFFFF),
     (.ori 3 4 0xFF, [(4, 0x12340000)], 3, 0x123400FF), (.oris 3 4 0xFF, [(4, 0x1234)], 3, 0x00FF1234),
     (.xor 3 4 5 false, [(4, 0xFF00FF00), (5, 0x0FF00FF0)], 3, 0xF0F0F0F0),
     (.xori 3 4 0xFF, [(4, 0xF0)], 3, 0xF), (.xoris 3 4 0xFF, [(4, 0x00FF0000)], 3, 0)] = true := by decide

-- R361 to R364
theorem test_compare :
    ends (exec (.cmp 0 false 4 5) (machine [(5, 0xFFFFFFFF)])) (fun t => t.cr == 0x40000000) = true ∧
    ends (exec (.cmpi 3 false 4 100) ((machine [(4, 99)]).setSpr .xer 0x80000000)) (fun t => t.cr == 0x00090000) = true ∧
    ends (exec (.cmpl 1 false 4 5) (machine [(5, 0xFFFFFFFF)])) (fun t => t.cr == 0x08000000) = true ∧
    ends (exec (.cmpli 2 false 4 0xFFFF) (machine [(4, 0x00010000)])) (fun t => t.cr == 0x00400000) = true := by decide

-- R411 to R417
theorem test_rotate_shift : results
    [(.rlwimi 4 3 8 16 23 false, [(3, 0x12345678), (4, 0xAABBCCDD)], 4, 0xAABB78DD),
     (.rlwinm 4 3 0 28 3 false, [(3, 0xFFFFFFFF)], 4, 0xF000000F), (.rlwinm 4 3 24 8 31 false, [(3, 0x12345678)], 4, 0x123456),
     (.rlwnm 4 3 5 0 31 false, [(3, 0x12345678), (5, 0x24)], 4, 0x23456781),
     (.slw 4 3 5 false, [(3, 0x12345678), (5, 32)], 4, 0), (.slw 4 3 5 false, [(3, 0x12345678), (5, 64)], 4, 0x12345678),
     (.srw 4 3 5 false, [(3, 0x80000000), (5, 31)], 4, 1), (.sraw 4 3 5 false, [(3, 0xFFFFFFF5), (5, 2)], 4, 0xFFFFFFFD),
     (.srawi 4 3 4 false, [(3, 0x80000018)], 4, 0xF8000001)] = true := by decide
theorem test_shift_carry :
    ends (exec (.sraw 4 3 5 false) (machine [(3, 0xFFFFFFF5), (5, 2)])) State.xerCA = true ∧
    ends (exec (.sraw 4 3 5 false) (machine [(3, 0xFFFFFFF4), (5, 2)])) State.xerCA = false ∧
    ends (exec (.sraw 4 3 5 false) (machine [(3, 0x80000000), (5, 63)])) State.xerCA = true := by decide

-- R382 to R385
theorem test_branch :
    ends (exec (.b 2 false false) (machine [])) (fun t => t.pc == 0x1008) = true ∧
    ends (exec (.b 0x40 true true) (machine [])) (fun t => t.pc == 0x100 && t.spr .lr == 0x1004) = true ∧
    ends (exec (.bclr 20 0 true) ((machine []).setSpr .lr 0x2007)) (fun t => t.pc == 0x2004 && t.spr .lr == 0x1004) = true ∧
    ends (exec (.bcctr 20 0 false) ((machine []).setSpr .ctr 0x3000)) (fun t => t.pc == 0x3000) = true ∧
    ends (exec (.bc 12 2 2 false false) (machine [])) (fun t => t.pc == 0x1004) = true := by decide
theorem test_branch_count :
    ends (exec (.bc 16 0 0x3FFE false false) ((machine []).setSpr .ctr 2)) (fun t => t.pc == 0xFF8 && t.spr .ctr == 1) = true ∧
    ends (exec (.bc 16 0 0x3FFE false false) ((machine []).setSpr .ctr 1)) (fun t => t.pc == 0x1004 && t.spr .ctr == 0) = true ∧
    ends (exec (.bc 16 0 0x3FFE false false) (machine [])) (fun t => t.pc == 0xFF8 && t.spr .ctr == 0xFFFFFFFF) = true := by
  decide

/-- The machine with CR[6] and CR[10] as given. -/
def crBits (a b : Bool) : State := { machine [] with cr := withBit (withBit 0 6 a) 10 b }

-- R391 to R399
theorem test_cr_logic :
    ends (exec (.crand 2 6 10) (crBits true true)) (fun t => bitAt t.cr 2) = true ∧
    ends (exec (.crandc 2 6 10) (crBits true false)) (fun t => bitAt t.cr 2) = true ∧
    ends (exec (.creqv 2 6 10) (crBits false false)) (fun t => bitAt t.cr 2) = true ∧
    ends (exec (.crnand 2 6 10) (crBits true true)) (fun t => bitAt t.cr 2) = false ∧
    ends (exec (.crnor 2 6 10) (crBits false false)) (fun t => bitAt t.cr 2) = true ∧
    ends (exec (.cror 2 6 10) (crBits false true)) (fun t => bitAt t.cr 2) = true ∧
    ends (exec (.crorc 2 6 10) (crBits false true)) (fun t => bitAt t.cr 2) = false ∧
    ends (exec (.crxor 2 6 10) (crBits true true)) (fun t => bitAt t.cr 2) = false ∧
    ends (exec (.mcrf 0 7) { machine [] with cr := 0xA }) (fun t => t.cr == 0xA000000A) = true := by decide

/-! ### Storage -/

/-- Each row: the instruction, the registers, bytes at 0x1000, the register loaded. All storage is big endian and
caching inhibited, as after reset. -/
def loads (rows : List (Instr × List (Reg × Word) × List Byte × Reg × Word)) : Bool :=
  rows.all fun (i, regs, bs, r, v) => ends (exec i (withBytes (machine regs) 0x1000 bs)) fun t => t.gpr r == v

-- R203 to R218, R231, R232
theorem test_loads : loads
    [(.lbz 3 4 1, [(4, 0x1000)], [0, 0xAB], 3, 0xAB), (.lbzu 3 4 1, [(4, 0xFFF)], [0x7F], 4, 0x1000),
     (.lbzx 3 0 5, [(0, 9), (5, 0x1000)], [1], 3, 1), (.lbzux 3 4 5, [(4, 0x1001), (5, 0xFFFFFFFF)], [0x80], 3, 0x80),
     (.lhz 3 4 1, [(4, 0x1000)], [0, 0x12, 0x34], 3, 0x1234), (.lhzu 3 4 0, [(4, 0x1000)], [0xFF, 0xFE], 3, 0xFFFE),
     (.lhzx 3 4 5, [(4, 0x1000)], [0x80, 0], 3, 0x8000), (.lhzux 3 4 5, [(4, 0xFF8), (5, 8)], [0, 1], 4, 0x1000),
     (.lha 3 4 0xFFFE, [(4, 0x1002)], [0x80, 1], 3, 0xFFFF8001), (.lhau 3 4 0, [(4, 0x1000)], [0x7F, 0xFF], 3, 0x7FFF),
     (.lhax 3 4 5, [(4, 0x1000)], [0xFF, 0xFF], 3, 0xFFFFFFFF), (.lhaux 3 4 5, [(4, 0x1000)], [0x80, 0], 3, 0xFFFF8000),
     (.lwz 3 1 0, [(1, 0x1000)], [0x11, 0x12, 0x13, 0x14], 3, 0x11121314),
     (.lwzu 3 4 0, [(4, 0x1000)], [0xDE, 0xAD, 0xBE, 0xEF], 3, 0xDEADBEEF),
     (.lwzx 3 4 5, [(4, 0xFFFFFFFE), (5, 0x1002)], [0, 0, 0, 5], 3, 5),
     (.lwzux 3 4 5, [(4, 0xFFC), (5, 4)], [0, 0, 1, 0], 3, 0x100), (.lhbrx 3 4 5, [(4, 0x1000)], [0x21, 0x22], 3, 0x2221),
     (.lwbrx 3 4 5, [(4, 0x1000)], [0x11, 0x12, 0x13, 0x14], 3, 0x14131211)] = true := by decide

/-- Each row: the instruction, the registers, the bytes at 0x1000 afterwards. -/
def stores (rows : List (Instr × List (Reg × Word) × List Byte)) : Bool :=
  rows.all fun (i, regs, bs) => ends (exec i (machine regs)) fun t =>
    (List.range bs.length).map (fun n => t.dataByte (BitVec.ofNat 32 (0x1000 + n))) == bs

-- R219 to R230, R233, R234
theorem test_stores : stores
    [(.stb 3 4 0, [(3, 0x12345678), (4, 0x1000)], [0x78, 0]), (.stbu 3 4 1, [(3, 0xFF), (4, 0xFFF)], [0xFF]),
     (.stbx 3 4 5, [(3, 0x41), (4, 0x1000)], [0x41]), (.stbux 3 4 5, [(3, 0x5A), (4, 0x1000)], [0x5A]),
     (.sth 3 4 0, [(3, 0xAABB5152), (4, 0x1000)], [0x51, 0x52, 0]), (.sthu 3 4 0, [(3, 0x1234), (4, 0x1000)], [0x12, 0x34]),
     (.sthx 3 4 5, [(3, 0xFFFF0001), (4, 0x1000)], [0, 1]), (.sthux 3 4 5, [(3, 0xBEEF), (4, 0xFFE), (5, 2)], [0xBE, 0xEF]),
     (.stw 3 1 0, [(3, 0x11121314), (1, 0x1000)], [0x11, 0x12, 0x13, 0x14]),
     (.stwu 1 1 0xFFF0, [(1, 0x1010)], [0, 0, 0x10, 0x10]),
     (.stwx 3 4 5, [(3, 0xCAFEF00D), (4, 0x1000)], [0xCA, 0xFE, 0xF0, 0x0D]),
     (.stwux 3 4 5, [(3, 1), (4, 0x1004), (5, 0xFFFFFFFC)], [0, 0, 0, 1]),
     (.sthbrx 3 4 5, [(3, 0x2122), (4, 0x1000)], [0x22, 0x21]),
     (.stwbrx 3 4 5, [(3, 0x11121314), (4, 0x1000)], [0x14, 0x13, 0x12, 0x11])] = true := by decide

-- R215, R227: little-endian storage (SLER)
theorem test_little_endian :
    ends (exec (.lwz 3 1 0) (withBytes ((machine [(1, 0x1000)]).setSpr .sler 0x80000000) 0x1000 [0x11, 0x12, 0x13, 0x14]))
      (fun t => t.gpr 3 == 0x14131211) = true ∧
    ends (exec (.stw 3 1 0) ((machine [(1, 0x1000), (3, 0x11121314)]).setSpr .sler 0x80000000))
      (fun t => t.dataByte 0x1000 == 0x14 && t.dataByte 0x1003 == 0x11) = true := by decide

-- R235 to R240
theorem test_multiple_string : loads
    [(.lmw 29 1 0, [(1, 0x1000)], [0, 0, 0, 1, 0, 0, 0, 2, 0, 0, 0, 3], 31, 3),
     (.lswi 5 4 6, [(4, 0x1000)], [0x41, 0x42, 0x43, 0x44, 0x45, 0x46], 6, 0x45460000)] = true ∧
    ends (exec (.lswx 5 4 3) ((withBytes (machine [(4, 0x1000)]) 0x1000 [1, 2, 3]).setSpr .xer 3))
      (fun t => t.gpr 5 == 0x01020300) = true := by decide
theorem test_store_multiple_string : stores
    [(.stmw 29 1 0, [(1, 0x1000), (29, 0xA), (30, 0xB), (31, 0xC)], [0, 0, 0, 0xA, 0, 0, 0, 0xB, 0, 0, 0, 0xC]),
     (.stswi 5 4 6, [(5, 0x41424344), (6, 0x45467777), (4, 0x1000)], [0x41, 0x42, 0x43, 0x44, 0x45, 0x46, 0])] = true ∧
    ends (exec (.stswx 5 4 3) ((machine [(5, 0x01020304), (6, 0x05FFFFFF), (4, 0x1000)]).setSpr .xer 5))
      (fun t => t.dataByte 0x1004 == 5 && t.dataByte 0x1005 == 0) = true := by decide

-- R244, R245
theorem test_reservation :
    ends (exec (.lwarx 3 0 4) (withBytes (machine [(4, 0x2000)]) 0x2000 [0, 0, 0, 7]))
      (fun t => t.gpr 3 == 7 && t.reserve) = true ∧
    ends (exec (.stwcxDot 3 0 4) { machine [(3, 8), (4, 0x2000)] with reserve := true })
      (fun t => t.dataByte 0x2003 == 8 && !t.reserve && crField t.cr 0 == 0b0010) = true ∧
    ends (exec (.stwcxDot 3 0 4) (machine [(3, 8), (4, 0x2000)]))
      (fun t => t.dataByte 0x2003 == 0 && crField t.cr 0 == 0b0000) = true ∧
    ends (exec (.stwcxDot 3 0 4) (machine [(3, 8), (4, 0x2001)]))
      (fun t => t.pc == 0x600 && t.spr .dear == 0x2001 && t.spr .srr0 == 0x1000) = true := by decide

/-! ### Caches -/

/-- A machine whose data storage is cachable (DCCR), with a byte at 0x1000. -/
def cached : State := withBytes ((machine [(4, 0x1000), (3, 0x55)]).setSpr .dccr 0xFFFFFFFF) 0x1000 [0x11]

-- R135, R438, R441: a store stays in the cache until its block is stored or flushed; R439: `dcbi` loses it
theorem test_write_back :
    ends (exec (.stb 3 4 0) cached) (fun t => t.dataByte 0x1000 == 0x55 && memGet t.mem 0x1000 == 0x11 &&
      ends (exec (.dcbst 0 4) t) (fun u => memGet u.mem 0x1000 == 0x55 && (u.dFind 0x80).isSome) &&
      ends (exec (.dcbf 0 4) t) (fun u => memGet u.mem 0x1000 == 0x55 && (u.dFind 0x80).isNone) &&
      ends (exec (.dcbi 0 4) t) (fun u => u.dataByte 0x1000 == 0x11) &&
      ends (exec (.dccci 0 4) t) (fun u => u.dataByte 0x1000 == 0x11)) = true := by decide
-- R440, R442, R446
theorem test_block_fill :
    ends (exec (.dcbz 0 4) cached) (fun t => t.dataByte 0x1000 == 0 && t.dataByte 0x101F == 0) = true ∧
    ends (exec (.dcbz 0 4) (machine [(4, 0x1004)])) (fun t => t.pc == 0x600 && t.spr .dear == 0x1004) = true ∧
    ends (exec (.dcbt 0 4) cached) (fun t => (t.dFind 0x80).isSome && t.dataByte 0x1000 == 0x11) = true ∧
    ends (exec (.dcbtst 0 4) (machine [(4, 0x1000)])) (fun t => (t.dFind 0x80).isNone) = true ∧
    ends (exec (.dcba 0 4) cached) (fun t => (t.dFind 0x80).isSome && t.pc == 0x1004) = true := by decide
-- R447, R445: word 0 and the tag word of way A of class 0 after a fill
theorem test_dcread :
    ends (exec (.dcbt 0 4) cached) (fun t =>
      ends (exec (.dcread 5 0 4) t) (fun u => u.gpr 5 == 0x11000000) && dTagWord (t.dset 0x80) .a == 0x00001011) = true := by
  decide

/-- A machine that fetches cachable code (ICCR), a line touched. -/
def touched : Result := exec (.icbt 0 4) ((withBytes (machine [(4, 0x1000)]) 0x1000 [0x38, 0x60, 0, 100]).setSpr .dccr 0xFFFFFFFF)

-- R432, R433, R434, R437
theorem test_icache :
    ends touched (fun t =>
      ends (exec (.icread 0 4) t) (fun u => u.spr .icdbdr == 0x38600064) &&
      ends (exec (.icread 0 4) (t.setSpr .ccr0 0x10)) (fun u => u.spr .icdbdr == 0x00001011 && u.readMask .icdbdr == 0xFFFFFC11) &&
      !((isetGet t.icache 0x80).drop (iTag 0x101C)).a.valid &&
      ends (exec (.iccci 0 0) t) (fun u => !(isetGet u.icache 0x80).a.valid)) = true := by decide

/-! ### Interrupts, the TLB, special registers -/

/-- The state of the worked example R594: user mode, translation on, EVPR set. -/
def user : State := ({ machine [] with msr := 0xC030 } : State).setSpr .evpr 0xFFF00000

-- R594, R502, R503; R22 (b): reserved bits of the saved MSR are free bits
theorem test_privileged : ends (exec (.mfmsr 3) user) (fun t => t.spr .srr0 == 0x1000 &&
    t.spr .esr == 0x04000000 && t.msr == 0 && t.pc == 0xFFF00700) = true := by decide
theorem test_saved_msr : (takeInterrupt .program 0x1000 user).spr .srr1 =
    (0xC030 ||| (Config.freeWord 0 &&& 0xFDF100CF)) &&& 0xFFFFFFFF := rfl
theorem test_sc_and_traps :
    ends (exec .sc user) (fun t => t.spr .srr0 == 0x1004 && t.pc == 0xFFF00C00) = true ∧
    ends (exec (.tw 4 3 4) user) (fun t => t.pc == 0xFFF00700 && t.spr .esr == 0x02000000) = true ∧
    ends (exec (.twi 16 3 0xFFFF) user) (fun t => t.pc == 0x1004) = true := by decide
-- R462 to R466
theorem test_returns :
    ends (exec .rfi (((machine []).setSpr .srr0 0x1234).setSpr .srr1 0xC000))
      (fun t => t.pc == 0x1234 && t.msr == 0xC000) = true ∧
    ends (exec .rfci (((machine []).setSpr .srr2 0xFFF00103).setSpr .srr3 0x21000))
      (fun t => t.pc == 0xFFF00100 && t.msr == 0x21000) = true := by decide
theorem test_msr_moves :
    ends (exec (.mtmsr 3) (machine [(3, 0x29000)])) (fun t => t.msr == 0x29000 &&
      ends (exec (.wrtee 5) t) (fun u => u.msr == 0x21000)) = true ∧
    ends (exec (.wrteei true) (machine [])) (fun t => t.msr == 0x8000) = true := by decide

-- R461: reserved bits of the MSR read as free bits
theorem test_mfmsr : (match exec (.mfmsr 4) { machine [] with msr := 0x29000 } with
    | .next t => t.gpr 4
    | _ => 0) = 0x29000 ||| (Config.freeWord 0 &&& 0xFDF100CF) := rfl

/-- The machine after the mapping of R471's example. -/
def mapped : Result :=
  match exec (.tlbwe 3 4 1) (machine [(3, 0x12345100), (4, 9)]) with
  | .next t => exec (.tlbwe 3 4 0) (t.setGpr 3 0x004000C0)
  | r => r

-- R468 to R472
theorem test_tlb :
    ends mapped (fun t =>
      ends (exec (.tlbsx 3 0 5 true) (t.setGpr 5 0x400ABC)) (fun u => u.gpr 3 == 9 && crField u.cr 0 == 0b0010) &&
      ends (exec (.tlbsx 3 0 5 true) (t.setGpr 5 0x401000)) (fun u => crField u.cr 0 == 0b0000) &&
      ends (exec (.tlbre 6 4 0) t) (fun u => u.gpr 6 == 0x004000C0) &&
      ends (exec (.tlbre 6 4 1) t) (fun u => u.gpr 6 == 0x12345100) &&
      ends (exec .tlbia t) (fun u => !u.tlb[9].v && u.tlb[9].epn == 0x1000)) = true := by decide
-- R114, R545: the mapping used by a load, and a miss
theorem test_translation :
    ends mapped (fun t =>
      ends (exec (.lbz 3 5 0) (withBytes { (t.setGpr 5 0x400ABC) with msr := 0x10 } 0x12345ABC [0x77]))
        (fun u => u.gpr 3 == 0x77) &&
      ends (exec (.stb 3 5 0) { (t.setGpr 5 0x500000) with msr := 0x10 })
        (fun u => u.pc == 0x1100 && u.spr .dear == 0x500000 && u.spr .esr == 0x00800000)) = true := by decide
theorem test_no_operations : (List.map (fun i => ends (exec i (machine [])) fun t => t.pc == 0x1004)
    [.tlbsync, .sync, .eieio, .isync]).all id = true := by decide

-- R494, R495, R499
theorem test_cr_moves :
    ends (exec (.mcrxr 0) ((machine []).setSpr .xer 0xC0000005))
      (fun t => t.cr == 0xC0000000 && t.spr .xer == 0x00000005) = true ∧
    ends (exec (.mfcr 3) { machine [] with cr := 0x20000008 }) (fun t => t.gpr 3 == 0x20000008) = true ∧
    ends (exec (.mtcrf 0x80 3) (machine [(3, 0xA5A5A5A5)])) (fun t => t.cr == 0xA0000000) = true ∧
    ends (exec (.mtcrf 0x01 3) (machine [(3, 0xA5A5A5A5)])) (fun t => t.cr == 5) = true := by decide
-- R496 to R501, R505
theorem test_register_moves :
    ends (exec (.mtspr 8 3) (machine [(3, 0x2007)])) (fun t => ends (exec (.mfspr 4 8) t) (fun u => u.gpr 4 == 0x2007)) = true ∧
    ends (exec (.mtspr 0x3D8 3) ((machine [(3, 0x08000000)]).setSpr .tsr 0x0C000000)) (fun t => t.spr .tsr == 0x04000000) = true ∧
    ends (exec (.mtspr 0x3DB 3) (machine [(3, 5)])) (fun t => t.spr .pit == 5 && t.pitReload == 5) = true ∧
    ends (exec (.mftb 3 268) { machine [] with tb := 0x100000002 }) (fun t => t.gpr 3 == 2) = true ∧
    ends (exec (.mftb 3 269) { machine [] with tb := 0x100000002 }) (fun t => t.gpr 3 == 1) = true := by decide
-- R496, R500: what a device control register holds after a write, and what a read gives, is the platform's
theorem test_device_registers :
    (match exec (.mtdcr 0xA0 3) { machine [(3, 9)] with dcrs := [(0xA0, 1)] } with
      | .next t => dcrGet t.dcrs 0xA0
      | _ => none) = some (Config.dcrWrite 0xA0 1 9) ∧
    (match exec (.mfdcr 4 0xA0) { machine [] with dcrs := [(0xA0, 1)] } with
      | .next t => t.gpr 4
      | _ => 0) = Config.dcrRead 0xA0 1 := ⟨rfl, rfl⟩
-- R600: a reset request through DBCR0
theorem test_reset_request : ends (exec (.mtspr 0x3F2 3) (machine [(3, 0x20000000)]))
    (fun t => t.pc == 0xFFFFFFFC && t.spr .dbsr == 0x200 && t.spr .sgr == 0xFFFFFFFF) = true := by decide

/-! ### Steps -/

-- R603: the first step after reset runs the word at 0xFFFFFFFC: `ba 0xFFFF0000`
theorem test_first_step : ends (step (State.reset.withFetchWord 32 0x4BFF0002)) (fun t => t.pc == 0xFFFF0000) = true := by
  decide
-- R535, R550: an external interrupt instead of the next instruction; R585: the wait state
theorem test_interrupt_step :
    ends (step { machine [] with msr := 0x8000, inputs := [{ (machine []).quiet with externalLine := true }] })
      (fun t => t.pc == 0x500 && t.spr .srr0 == 0x1000 && t.msr == 0) = true ∧
    ends (step { machine [] with msr := 0x40000 }) (fun t => t.pc == 0x1000) = true := by decide
-- R571, R573: the PIT expires on a count of 1; a second watchdog time-out resets
theorem test_timers :
    (tick ((machine []).setSpr .pit 1)).spr .tsr = 0x08000000 ∧
    (tick (({ machine [] with tb := 0xFFFF } : State).setSpr .tsr 0xC0000000 |>.setSpr .tcr 0x20000000)).pc = 0xFFFFFFFC := by
  decide

/-- The outcome is this fault. -/
def faults (r : Result) (f : Fault) : Bool :=
  match r with
  | .fault g => g == f
  | _ => false

/-- A machine about to fetch a word at whose third byte nothing answers. -/
def unbackedFetch (msr : Word) : State := { machine [] with msr := msr, memMap := [⟨0x1002, 1, .unbacked⟩] }

-- R532: with MSR[ME] = 0 ESR[MCI] is set and there is no next step; with ME = 1 it is the machine check
theorem test_instruction_machine_check :
    ends (step (unbackedFetch 0)) (fun t => t.spr .esr == 0x80000000 && t.pc == 0x1000 &&
      faults (step t) .instructionMachineCheck) = true ∧
    ends (step (unbackedFetch 0x1000)) (fun t => t.pc == 0x200 && t.spr .esr == 0x80000000 && t.spr .srr2 == 0x1000) = true := by
  decide
-- R628: after an `icbt` the `isync` of Sequence 1 and the `sync` of Sequence 2 let `mtspr` to CCR0 change U0XE; without
-- them that hangs
theorem test_ccr0_sequence :
    ends (exec (.icbt 0 4) (cached.setGpr 6 0x00020000)) (fun t => faults (exec (.mtspr 0x3B3 6) t) .ccr0Hang &&
      ends (exec .isync t) (fun u => ends (exec (.mtspr 0x3B3 6) u) fun v => v.spr .ccr0 == 0x00020000) &&
      ends (exec .sync t) (fun u => ends (exec (.mtspr 0x3B3 6) u) fun v => v.spr .ccr0 == 0x00020000)) = true := by
  decide
-- R583, R67: a DBCR0 write that only qualifies a range is plain; one that enables IA1 is refused
theorem test_dbcr0 :
    ends (exec (.mtspr 0x3F2 3) (machine [(3, 0x0011C000)])) (fun t => t.spr .dbcr0 == 0x0011C000) = true ∧
    exec (.mtspr 0x3F2 3) (machine [(3, 0x00800000)]) = .refused .debugEnabled := ⟨by decide, rfl⟩
-- R131, R622: a word stored past the cache may reach memory after the fetch that follows; `sync` lets it arrive
theorem test_store_in_flight :
    ends (exec (.stw 3 4 0) (machine [(3, 0x38600064), (4, 0x1000)])) (fun t =>
      memWord t.busMem false 0x1000 == 0 && t.dataByte 0x1000 == 0x38 &&
      ends (exec .sync t) (fun u => memWord u.busMem false 0x1000 == 0x38600064)) = true := by decide
-- R128, U6: a store where nothing answers meets the memory map before or after the change that makes its address plain
theorem test_store_and_map :
    ends (exec (.stw 3 4 0) { machine [(3, 0x38600064), (4, 0x1000)] with memMap := [⟨0x1000, 32, .unbacked⟩] }) (fun t =>
      !t.busError && (t.settle 0).busError && memGet ((t.settle 0).remap []).mem 0x1000 == 0 &&
      memGet (t.remap []).mem 0x1000 == 0x38 && !((t.remap []).settle 0).busError) = true := by decide
-- R141: a cached store whose line fill errs reports that at once, whatever becomes of the store's own byte
theorem test_store_fill_errs :
    ends (exec (.stb 3 4 0) { cached with memMap := [⟨0x1000, 1, .unbacked⟩] }) (fun t =>
      t.busError && (t.remap []).busError && (t.dFind 0x80).isSome) = true := by decide
-- R527, R536, D28: without a TLB entry a misaligned access misses, but for `stwcx.`, which tests alignment before all
theorem test_alignment_order :
    let s := { machine [(4, 0x1401)] with msr := 0x10 }
    (ends (exec (.lwarx 3 0 4) s) (fun t => t.pc == 0x1100 && t.spr .dear == 0x1401) &&
      ends (exec (.stwcxDot 3 0 4) { s with reserve := true }) (fun t => t.pc == 0x0600) &&
      ends (exec (.dcread 3 0 4) s) (fun t => t.pc == 0x1100) &&
      ends (exec (.lwarx 3 0 4) (machine [(4, 0x1401)])) (fun t => t.pc == 0x0600 && t.spr .dear == 0x1401) &&
      ends (exec (.dcread 3 0 4) (machine [(4, 0x1401)])) (fun t => t.pc == 0x0600)) = true := by decide

/-- The machine after one path of 40 words was read ahead in unguarded storage. -/
def readOne (s : State) : State := readPath s.fetchContext (List.replicate 40 true) 20 s.pc [] false false s

-- R624: 19 words past the one at the program counter; from guarded storage on into the next region; 0x1000 is `bcctr`
-- behind an `mtctr` that has run, or behind one on a path not taken
theorem test_read_ahead_depth :
    let s := readOne { (machine []).setSpr .sgr 0 with pc := 0x1000 }
    (s.ahead.length == 20 && s.ahead.head?.map (·.addr) == some 0x104C) = true := by decide
theorem test_read_ahead_guarded :
    let s := readOne { (machine []).setSpr .sgr 0x80000000 with pc := 0x07FFFFF8 }
    (s.ahead.length == 18 && s.ahead.getLast?.map (·.addr) == some 0x08000000) = true := by decide
theorem test_read_ahead_wait :
    let m : Memory := memPutList [] 0x0FFC [0x7C, 0x89, 0x03, 0xA6, 0x4E, 0x80, 0x04, 0x20]
    let s := readOne { (machine [(4, 0x2000)]).setSpr .sgr 0 with pc := 0x0FFC, mem := m }
    let after := readOne { s.resolve with pc := 0x1000, ahead := [] }
    let other := readOne { { s.resolve with pc := 0x3000 }.resolve with pc := 0x1000, ahead := [] }
    (s.waited == [[0x0FFC, 0x1000]] && s.ahead.length == 2 && after.ahead.length == 6 && other.ahead.length == 20) =
      true := by decide
-- R620: a word read ahead runs although memory changed since
theorem test_stale_word :
    let s := ((machine [(3, 9)]).setSpr .sgr 0).withFetchWord 32 0x38600064
    let i := { s.quiet with readAhead := [[true]] }
    let j := { s.quiet with busWrites := [(0x1003, 7)], useAhead := 1 }
    ends (step { (applyInput i s) with inputs := [j] }) (fun t => t.gpr 3 == 100 && t.dataByte 0x1003 == 7) = true := by
  decide

/-! ### Witnesses: states and operands that meet the hypotheses of each statement, at the edges of its clauses -/

-- UndecodableWords
theorem witness_undecodable_words : decode 0x00000000 = .error .illegal ∧ decode 0xFFFFFFFF = .error .illegal ∧
    decode 0x7C64292F = .error .reservedBits := by decide

/-- Storage answers an access of `n` bytes with located bytes that are settled, and is coherent. -/
def Ready (s : State) (ea : Word) (n : Nat) (store : Bool) : Prop :=
  ∃ ps, access s ea n store = .ok ps ∧ s.coherent ∧ settled s ps

/-- The same as a test, for a state with an empty data cache and fill buffer. -/
def ready (s : State) (ea : Word) (n : Nat) (store : Bool) : Bool :=
  decide (s.dcache = []) && decide (s.memMap = []) && s.fillBuffer.isNone && decide (s.between = []) &&
    match access s ea n store with
    | .ok ps => ps.all (fun p => !p.attrs.i) || ps.all fun p => p.attrs.i && (s.dFind (blockOf p.ra)).isNone
    | _ => false

theorem Ready.of_ready {s : State} {ea : Word} {n : Nat} {store : Bool} (h : ready s ea n store = true) :
    Ready s ea n store := by
  unfold ready at h
  cases ha : access s ea n store with
  | error e => simp [ha] at h
  | ok ps =>
    simp only [ha, Bool.and_eq_true, Bool.or_eq_true, decide_eq_true_eq, List.all_eq_true, Bool.not_eq_true',
      Option.isNone_iff_eq_none] at h
    exact ⟨ps, ha, .of_empty h.1.1.1.1 h.1.1.1.2 h.1.1.2 h.1.2, h.2⟩

/-- What a quiet step of an ordinary machine asks for, as a test. -/
def runsNext (s : State) : Bool :=
  decide (s.inputs = []) && !s.stuck && decide (pendingInterrupt (s.settle 0) false = none) && !s.msrWE

theorem runsNext_of {s : State} (h : runsNext s = true) : RunsNext s := by
  simp only [runsNext, Bool.and_eq_true, decide_eq_true_eq, Bool.not_eq_true'] at h
  exact ⟨h.1.1.1, h.1.1.2, h.1.2, h.2⟩

-- StepRunsDecoded: `addi 3,0,100` at an ordinary place and at the last word
theorem witness_step :
    let s := (machine []).withFetchWord 32 0x38600064
    let t := State.reset.withFetchWord 32 0x38600064
    (RunsNext s ∧ ((quietBoundary s).fetchNow 0).1 = .word 0x38600064 ∧ decode 0x38600064 = .ok (.addi 3 0 100)) ∧
    (RunsNext t ∧ ((quietBoundary t).fetchNow 0).1 = .word 0x38600064) :=
  ⟨⟨runsNext_of (by decide), by decide, by decide⟩, runsNext_of (by decide), by decide⟩

/-- The machine about to fetch `addi 3,0,100` from 0x1000 in storage that is cachable or not (ICCR). -/
def fetching (iccr : Word) : State := (withBytes (machine []) 0x1000 [0x38, 0x60, 0, 100]).setSpr .iccr iccr

/-- The same with the line in the array. -/
def fetchingHeld : State := (fetching 0xFFFFFFFF).iFill [] 0x1000 0x1000 false

-- StepFetches in real mode: inhibited; cachable and not held, as the line's first and last word; held; under CCR0[FWOA]
theorem witness_fetch :
    (RunsNext (fetching 0) ∧ FetchesFrom (fetching 0) 0x1000 true false) ∧
    (RunsNext (fetching 0xFFFFFFFF) ∧ FetchesFrom (fetching 0xFFFFFFFF) 0x1000 false false) ∧
    (RunsNext fetchingHeld ∧ FetchesFrom fetchingHeld 0x1000 false false) :=
  ⟨⟨runsNext_of (by decide), .inl (by decide)⟩, ⟨runsNext_of (by decide), .inl (by decide)⟩, runsNext_of (by decide), .inl (by decide)⟩
theorem witness_fetch_line :
    let s := fetching 0xFFFFFFFF
    (isetGet s.icache (iIndex s.pc)).find (iTag 0x1000) = none ∧
    (∀ j < 4, regionAt s.memMap ((0x1000 : Word).toNat + j) = none) ∧
    decode (memWord s.mem false (0x1000 : Word).toNat) = .ok (.addi 3 0 100) ∧ bitAt (s.spr .ccr0) 23 = false ∧
    bitAt ((s.setSpr .ccr0 0x100).spr .ccr0) 23 = true ∧
    (isetGet fetchingHeld.icache (iIndex fetchingHeld.pc)).find (iTag 0x1000) = some .a ∧
    decode (((isetGet fetchingHeld.icache (iIndex fetchingHeld.pc)).way .a).words)[iWord fetchingHeld.pc] =
      .ok (.addi 3 0 100) := by decide

-- DivideResults: a defined quotient at the edge (the most negative number by 1), and each undefined case
theorem witness_divide :
    let s := machine [(4, 0x80000000), (5, 1), (6, 0xFFFFFFFF)]
    ¬(s.gpr 5 = 0 ∨ (s.gpr 4 = 0x80000000 ∧ s.gpr 5 = 0xFFFFFFFF)) ∧ s.gpr 5 ≠ 0 ∧
      (s.gpr 4 = 0x80000000 ∧ s.gpr 6 = 0xFFFFFFFF) ∧ s.gpr 7 = 0 := by decide

-- SummaryOverflow (none of them a reset): an addition that overflows with SO clear, one that does not with SO set, `mtspr` to the XER, `mcrxr`
theorem witness_summary_overflow :
    ends (exec (.add 3 4 5 true false) (machine [(4, 0x7FFFFFFF), (5, 1)])) State.xerSO = true ∧
    ends (exec (.add 3 4 5 true false) ((machine []).setSpr .xer 0x80000000)) State.xerSO = true ∧
    ends (exec (.mtspr 1 3) (machine [(3, 0xC0000000)])) State.xerSO = true ∧
    ends (exec (.mcrxr 0) ((machine []).setSpr .xer 0xC0000000)) (fun t => !t.xerSO) = true := by decide
theorem witness_no_reset (s : State) : ¬resetsMachine s (.add 3 4 5 true false) ∧ ¬resetsMachine s (.mtspr 1 3) ∧
    ¬resetsMachine s (.mcrxr 0) := by
  refine ⟨?_, ?_, ?_⟩ <;> rintro (⟨_, h, _⟩ | ⟨_, h, _⟩) <;> revert h <;> simp

-- BranchResults, BranchTargetsAligned: each kind of BO, the condition met and not met
theorem witness_branch :
    (branchOptionsOk 0b00000 = true ∧ branchOptionsOk 0b10100 = true ∧ branchOptionsOk 0b10101 = false) ∧
    (branchCtrOk 0b10100 = true ∧ branchCtrOk 0b01101 = true ∧ branchCtrOk 0b10000 = false) ∧
    (boBit 0b10000 0 = true ∧ ctrAfter ((machine []).setSpr .ctr 1) 0b10000 = 0 ∧
      ctrAfter (machine []) 0b10000 = 0xFFFFFFFF ∧ boBit 0b10000 3 = false) ∧
    (isBranch (.bclr 20 0 false) = true ∧ (machine []).pc &&& 3 = 0 ∧
      ends (exec (.bclr 20 0 false) (machine [])) (fun t => t.pc == 0) = true) := by decide
theorem witness_branch_holds : branchHolds (machine []) 0b10100 31 ∧ ¬branchHolds (machine []) 0b01100 0 ∧
    branchHolds (machine []) 0b10000 0 ∧ ¬branchHolds ((machine []).setSpr .ctr 1) 0b10000 0 := by
  unfold branchHolds; decide

-- The loads and stores without update, LoadResults, StoreResults, ReserveResults: the top of the address space, an item
-- across two regions, cachable and little-endian storage
theorem witness_access : Ready (machine []) 0xFFFFFFFF 1 false ∧ Ready (machine []) 0xFFFFFFFE 4 true ∧
    Ready (machine []) 0x07FFFFFF 2 true ∧ Ready cached 0x1000 4 true ∧ Ready cached 0x101F 2 false ∧
    Ready ((machine []).setSpr .sler 0xFFFFFFFF) 0x1001 4 false :=
  ⟨.of_ready (by decide), .of_ready (by decide), .of_ready (by decide), .of_ready (by decide), .of_ready (by decide),
    .of_ready (by decide)⟩
-- LoadUpdateResults, StoreUpdateResults: RA allowed; RA = 0; RA = RT
theorem witness_update :
    Ready (machine [(4, 0x1000)]) ((machine [(4, 0x1000)]).gpr 4 + (0xFFFF : Half).signExtend 32) 4 false ∧
    Ready (machine [(4, 0x1000)]) ((machine [(4, 0x1000)]).gpr 4 + (machine []).gpr 5) 2 true ∧
    ((4 : Reg) ≠ 0 ∧ (4 : Reg) ≠ 3) := ⟨.of_ready (by decide), .of_ready (by decide), by decide⟩
-- ByteOrder: both byte orders, a word and a halfword, stored and loaded, the bytes at distinct places
theorem witness_byte_order :
    Ready (machine []) 0x1000 4 true ∧ Ready (machine []) 0x1000 2 true ∧ Ready (machine []) 0x1000 4 false ∧
    Ready (machine []) 0x1000 2 false ∧ Ready ((machine []).setSpr .sler 0x80000000) 0x1000 4 true ∧
    Ready ((machine []).setSpr .sler 0x80000000) 0x1000 2 false :=
  ⟨.of_ready (by decide), .of_ready (by decide), .of_ready (by decide),
    .of_ready (by decide), .of_ready (by decide), .of_ready (by decide)⟩
theorem witness_byte_order_places :
    (match access ((machine []).setSpr .sler 1) 0xFFFFFFFE 2 true with
      | .ok ps => ps.all (fun q => q.attrs.e) && decide (ps.map (·.ra)).Nodup
      | _ => false) = true ∧
    (match access (machine []) 0x1001 4 true with
      | .ok ps => ps.all (fun p => !p.attrs.e) && decide (ps.map (·.ra)).Nodup
      | _ => false) = true := by decide
-- MultipleResults: RA below RT, at it; one register, all thirty-two
theorem witness_multiple : (1 : Reg).toNat < (31 : Reg).toNat ∧ (0 : Reg).toNat < (1 : Reg).toNat ∧
    (31 : Reg).toNat ≤ (31 : Reg).toNat ∧ Ready (machine []) 0x1000 (4 * (32 - 31)) false ∧
    Ready (machine []) 0x1000 (4 * (32 - 1)) false ∧ Ready (machine []) 0xFFFFFF80 (4 * (32 - 0)) true :=
  ⟨by decide, by decide, by decide, .of_ready (by decide), .of_ready (by decide), .of_ready (by decide)⟩
-- StringResults: counts of 1 and 32, none and 127 from the XER, forms allowed and refused
theorem witness_string :
    (stringBaseOk 5 4 1 = true ∧ stringBaseOk 31 4 32 = false ∧ stringIndexedOk 5 4 3 0 = true) ∧
    (stringIndexedOk 5 4 3 1 = true ∧ stringIndexedOk 5 4 5 1 = false ∧ stringIndexedOk 5 4 6 8 = false) ∧
    ((machine []).xerTBC = 0 ∧ ((machine []).setSpr .xer 127).xerTBC = 127) ∧
    Ready (machine []) 0x1000 1 false ∧ Ready (machine []) 0x1000 32 true ∧ Ready (machine []) 0xFFFFFFF0 127 true :=
  ⟨by decide, by decide, by decide, .of_ready (by decide), .of_ready (by decide), .of_ready (by decide)⟩
-- ReserveResults, ReservationKept: aligned addresses, with and without a reservation
theorem witness_reserve :
    ((machine [(4, 0x1000)]).gpr 4 + (machine []).gpr 5) &&& 3 = 0 ∧ (machine []).reserve = false ∧
    Ready (machine []) 0x1000 4 false ∧ Ready { machine [] with reserve := true } 0x1000 4 true ∧
    ends (exec (.add 3 4 5 true true) { machine [] with reserve := true }) State.reserve = true :=
  ⟨by decide, by decide, .of_ready (by decide), .of_ready (by decide), by decide⟩

/-- A machine whose storage is write-through and caching inhibited from 0x08000000 up to 0x10000000. -/
def conflicting : State := (machine [(4, 0x2000)]).setSpr .dcwr 0x40000000

-- DataAccess, AccessStops: accesses that end just before a conflict, and that reach it; U0 storage under CCR0[U0XE]
theorem witness_real_mode : conflicting.msrDR = false ∧ bitAt (conflicting.spr .ccr0) 14 = false ∧
    (∀ k < 4, ¬((realAttrs conflicting (0x07FFFFFC + BitVec.ofNat 32 k)).w = true ∧
      (realAttrs conflicting (0x07FFFFFC + BitVec.ofNat 32 k)).i = true)) ∧
    (∃ k < 4, (realAttrs conflicting (0x07FFFFFD + BitVec.ofNat 32 k)).w = true ∧
      (realAttrs conflicting (0x07FFFFFD + BitVec.ofNat 32 k)).i = true) ∧
    ∀ k < 4, (realAttrs (conflicting.setSpr .ccr0 0x00020000) (0x1000 + BitVec.ofNat 32 k)).u0 = false := by decide

/-- A machine with data translation on and one TLB entry, for the page at 0x1000. -/
def paged (msr zpr : Word) (e : TlbEntry) : State :=
  { (machine [(4, 0x1000), (5, 0x1400)]).setSpr .zpr zpr with msr := msr ||| 0x10, tlb := State.reset.tlb.set 5 e }

/-- A 1KB page at 0x1000 that may be written. -/
def page : TlbEntry := { TlbEntry.zero with v := true, epn := 4, rpn := 8, wr := true, i := true }

/-- Entry 5 of a state, and no other, matches 0x1000 and the last byte of its page, and not the byte after. -/
def onlyFive (s : State) (ea : Word) : Bool :=
  tlbMatches ((s.spr .pid).setWidth 8) ea s.tlb[5] &&
    (List.finRange 64).all fun j => j == 5 || !tlbMatches ((s.spr .pid).setWidth 8) ea s.tlb[j]

-- R138, R444: `dccci` at 0x1000, mapped to 0x2400 of another class, ends what the fill buffer holds of the block there
theorem test_dccci_fill_buffer :
    ends (exec (.dccci 0 4) { paged 0 0 { page with rpn := 9 } with fillBuffer := some ⟨0x120, Vector.replicate 32 7⟩ })
      (fun t => t.fillBuffer == none) = true := by decide

-- DataAccess, AccessStops, DataExceptions: a translated access that may be made, a miss, a zone of 00, a page without WR, U0 storage
theorem witness_paged_access : Ready (paged 0 0 page) 0x13FF 1 true := .of_ready (by decide)
theorem witness_data_exceptions :
    (wholeAccess (paged 0 0 page) (.stw 3 4 0) = some (0x1000, 4, true) ∧ (Instr.stw 3 4 0).wf = true ∧
      firstAccess (paged 0 0 page) (.stw 3 4 0) = some (0x1000, true) ∧ (paged 0 0 page).msrDR = true) ∧
    (access (paged 0 0 page) 0x1400 1 false = .error (.exc (.dataTlbMiss 0x1400 false)) ∧
      ∀ k : Fin 64, tlbMatches (((paged 0 0 page).spr .pid).setWidth 8) 0x1400 (paged 0 0 page).tlb[k] = false) ∧
    (onlyFive (paged 0x4000 0 page) 0x1000 = true ∧ (paged 0x4000 0 page).msrPR = true ∧
      zoneField ((paged 0x4000 0 page).spr .zpr) page.zsel = 0) ∧
    (onlyFive (paged 0 0x40000000 { page with wr := false }) 0x13FF = true ∧
      zoneField ((paged 0 0x40000000 page).spr .zpr) page.zsel = 1) ∧
    (onlyFive ((paged 0 0 { page with u0 := true }).setSpr .ccr0 0x00020000) 0x1000 = true ∧
      bitAt (((paged 0 0 { page with u0 := true }).setSpr .ccr0 0x00020000).spr .ccr0) 14 = true) := by decide
theorem witness_data_misses :
    let s := paged 0 0 page
    (missAccess s (.icbt 0 5) = some (0x1400, false) ∧ missAccess s (.iccci 0 5) = some (0x1400, false) ∧
      missAccess s (.icread 0 5) = some (0x1400, false) ∧ missAccess s (.dccci 0 5) = some (0x1400, true) ∧
      missAccess s (.dcread 3 0 5) = some (0x1400, false) ∧ missAccess s (.stb 3 5 0) = some (0x1400, true)) ∧
    (s.userMode = false ∧ ∀ k : Fin 64, tlbMatches ((s.spr .pid).setWidth 8) 0x1400 s.tlb[k] = false) := by decide
theorem witness_real_u0 :
    let s := ((machine [(4, 0x1000)]).setSpr .su0r 0x80000000).setSpr .ccr0 0x00020000
    firstAccess s (.stw 3 4 0) = some (0x1000, true) ∧ firstAccess s (.dcbi 0 4) = some (0x1000, true) ∧
      s.msrDR = false ∧ (realAttrs s 0x1000).u0 = true ∧ bitAt (s.spr .ccr0) 14 = true := by decide
theorem witness_access_refused :
    access conflicting 0x08000000 4 false = .error (.refuse .writeThroughInhibited) ∧
    access { paged 0 0 page with tlb := (paged 0 0 page).tlb.set 63 page } 0x1000 1 true =
      .error (.refuse .tlbMultipleMatch) := by decide

-- AlignmentInterrupts: misaligned; `dcbz` at inhibited storage not cached and cached, and at write-through storage
theorem witness_alignment : (machine [(4, 0xFFFFFFFD)]).eaX 4 5 &&& 3 ≠ 0 ∧ (machine []).userMode = false ∧
    (access (machine []) 0xFFFFFFFD 4 false).toOption.isSome = true ∧ (match lookupData (machine []) 0xFFFFFFFD with
      | .page _ => true
      | _ => false) = true ∧
    ((machine []).dFind 0x80 = none ∧ (((cached.dFill 0x80).setSpr .dccr 0).dFind 0x80).isSome = true) ∧
    (match locate (machine []) 0x1000 true with
      | .ok p => p.attrs.i
      | _ => false) = true ∧
    (match locate ((cached).setSpr .dcwr 0x80000000) 0x1000 true with
      | .ok p => p.attrs.w && !p.attrs.i
      | _ => false) = true := by decide

/-- The page an address is located in. -/
def located (s : State) (ea : Word) (store : Bool) (f : Page → Bool) : Bool :=
  match locate s ea store with
  | .ok p => f p
  | _ => false

-- FlushBlocks, InvalidateBlocks, ZeroBlock, TouchBlocks: cachable storage, inhibited, write-through, a miss
theorem witness_cache_ops :
    located cached 0x1000 false (fun p => !p.attrs.i && !p.attrs.w) = true ∧
    located cached 0xFFFFFFFF true (fun p => !p.attrs.i && !p.attrs.w) = true ∧ cached.userMode = false ∧
    located (machine []) 0x1000 true (fun p => p.attrs.i) = true ∧
    located (cached.setSpr .dcwr 0x80000000) 0x1000 true (fun p => p.attrs.w) = true ∧
    locate (paged 0 0 page) 0x1400 false = .error (.exc (.dataTlbMiss 0x1400 false)) ∧
    locate (paged 0 0 page) 0x1400 true = .error (.exc (.dataTlbMiss 0x1400 true)) := by decide
theorem witness_coherent : cached.coherent ∧ ∀ i, (dsetGet cached.dcache i).distinct :=
  have h : cached.coherent := .of_empty (by decide) (by decide) (by decide) (by decide)
  ⟨h, h.distinct⟩

/-- What looking a data address up gives is a page of which `f` holds. -/
def looksUp (s : State) (ea : Word) (f : Page → Bool) : Bool :=
  match lookupData s ea with
  | .page p => f p
  | _ => false

-- InstructionCacheOps, CacheReads, InvalidateBlocks: cachable, inhibited, a zone that denies, a page without WR
theorem witness_icache_ops :
    looksUp cached 0x1000 (fun p => !p.zoneDenied false && !p.attrs.i && !p.writeDenied false) = true ∧
    looksUp (machine []) 0 (fun p => p.attrs.i) = true ∧
    looksUp (paged 0x4000 0 page) 0x1000 (fun p => p.zoneDenied true) = true ∧
    looksUp (paged 0 0x40000000 { page with wr := false }) 0x1000 (fun p => p.writeDenied false) = true ∧
    bitAt ((machine []).spr .ccr0) 27 = false ∧ bitAt (((machine []).setSpr .ccr0 0x11).spr .ccr0) 27 = true ∧
    (0xFFFFFFFC : Word) &&& 3 = 0 := by decide

-- ReadAhead: unguarded storage at the program counter; a word in the set, of which the outside asks for the newest; what memory holds there is no matter
theorem witness_read_ahead :
    let f : Fetched := ⟨0x1000, true, .word 0x38600064⟩
    let s : State := { machine [] with ahead := [f], inputs := [{ (machine []).quiet with useAhead := 0 + 1 }] }
    mayPrefetch ((machine []).setSpr .sgr 0).fetchContext (machine []).pc = true ∧
      s.inputs = [{ s.quiet with useAhead := 0 + 1 }] ∧ s.stuck = false ∧
      pendingInterrupt (s.settle 0) false = none ∧ s.msrWE = false ∧ s.aheadHere[0]? = some f ∧ decode 0x38600064 = .ok (.addi 3 0 100) := by decide

-- MsrMovesAndReturns, TlbMoves, TimeBaseAndDcrs: supervisor mode; WS above 1 at both ends
theorem witness_supervisor : (machine []).userMode = false ∧ 1 < (2 : BitVec 5).toNat ∧ 1 < (31 : BitVec 5).toNat := by
  decide
-- TlbSearch: one entry, none, two
theorem witness_tlb_search : onlyFive (paged 0 0 page) 0x1000 = true ∧
    (∀ k : Fin 64, tlbMatches 0 0x1400 (paged 0 0 page).tlb[k] = false) ∧
    (let tlb := (paged 0 0 page).tlb.set 63 page; (5 : Fin 64) ≠ 63 ∧ tlbMatches 0 0x1000 tlb[5] = true ∧
      tlbMatches 0 0x1000 tlb[63] = true) := by decide

-- SprReads, SprWrites: a number of each kind, in each mode
theorem witness_spr :
    (sprPrivileged 1 = false ∧ user.userMode = true ∧ ∀ r, (0x3FF, r) ∉ readNumbers) ∧
    ((8, .lr) ∈ readNumbers ∧ (0x3D3, .icdbdr) ∈ readNumbers ∧ (machine []).icdbdrPending = false) ∧
    ((0x3D8, .tsr) ∈ sprNumbers ∧ (0x3DA, .tcr) ∈ sprNumbers ∧ (0x3DB, .pit) ∈ sprNumbers ∧ ∀ r, (0x3D3, r) ∉ sprNumbers) :=
  ⟨⟨by decide, by decide, fun r => by cases r <;> decide⟩, by decide, by decide, by decide, by decide,
    fun r => by cases r <;> decide⟩
theorem witness_spr_values :
    ((machine []).msrCE = false ∧ (machine []).msrEE = false ∧ (machine []).drained = true ∧
      (machine []).icbtPending = false) ∧
    (bitAt (0x00020000 : Word) 14 = true ∧ bitAt ((machine []).spr .ccr0) 14 = false ∧
      ({ machine [] with msr := 0x8000 } : State).msrEE = true) ∧
    ((0x0011FFFF : Word) &&& 0xFFEE0000 = 0 ∧ (0x40000000 : Word) &&& 0xCFEE0000 ≠ 0 ∧
      (0x00020000 : Word) &&& 0xCFEE0000 ≠ 0) ∧
    ((0x10 : Word) &&& Spr.mask .dbcr1 = 0 ∧ (0x80000000 : Word) &&& Spr.mask .dbcr1 ≠ 0) := by decide
-- TimeBaseAndDcrs: a TBL write that sets no watched bit; a DCR the platform has, one it has not
theorem witness_tbl : (∀ b ∈ [3, 7, 11, 15, 19, 23], bitAt (0 : Word) b = false → bitAt (0xEEEEEEFF : Word) b = false) ∧
    dcrGet [(0x3FF, 9)] 0x3FF = some 9 ∧ dcrGet [(0x3FF, 9)] 0 = none ∧ (270 : RegNum) ≠ 268 ∧ (270 : RegNum) ≠ 269 := by
  decide

/-- A machine with instruction translation on and one TLB entry, for the page at 0x1000. -/
def pagedFetch (msr zpr : Word) (e : TlbEntry) : State := { paged (msr ||| 0x20) zpr e with pc := 0x1000 }

-- FetchExceptions: no entry just past the page; a zone of 00; EX = 0 and guarded storage; StepFetches, translated
theorem witness_fetch_exceptions :
    let x := { page with ex := true }
    (RunsNext { pagedFetch 0 0 x with pc := 0x1400 } ∧ noEntry { pagedFetch 0 0 x with pc := 0x1400 } 0x1400) ∧
    (RunsNext (pagedFetch 0x4000 0 x) ∧ onlyFive (pagedFetch 0x4000 0 x) 0x1000 = true ∧
      zoneDenies (pagedFetch 0x4000 0 x) x) ∧
    (RunsNext (pagedFetch 0 0 page) ∧ onlyFive (pagedFetch 0 0 page) 0x1000 = true ∧
      ¬zoneDenies (pagedFetch 0 0 page) page ∧ ¬zoneAllows (pagedFetch 0 0 page) page ∧ page.ex = false) ∧
    (RunsNext (pagedFetch 0 0xC0000000 x) ∧ zoneAllows (pagedFetch 0 0xC0000000 x) x ∧ x.g = false) :=
  ⟨⟨runsNext_of (by decide), by unfold noEntry; decide⟩,
    ⟨runsNext_of (by decide), by decide, by unfold zoneDenies; decide⟩,
    ⟨runsNext_of (by decide), by decide, by unfold zoneDenies; decide, by unfold zoneAllows; decide, rfl⟩,
    runsNext_of (by decide), by unfold zoneAllows; decide, rfl⟩
-- StepFetches, translated: the page's last word, inhibited and cachable
theorem witness_fetch_translated :
    let s := fun i => { pagedFetch 0 0 { page with ex := true, i := i } with pc := 0x13FC }
    RunsNext (s true) ∧ FetchesFrom (s true) 0x23FC true false ∧ FetchesFrom (s false) 0x23FC false false :=
  ⟨runsNext_of (by decide), .inr ⟨by decide, 5, by unfold onlyEntry zoneDenies zoneAllows; decide⟩,
    .inr ⟨by decide, 5, by unfold onlyEntry zoneDenies zoneAllows; decide⟩⟩
-- FetchExceptions: nothing answers at the last byte of the word, MSR[ME] clear and set
theorem witness_fetch_unbacked :
    let s := fun msr : Word => { fetching 0 with msr := msr, memMap := [⟨0x1003, 1, .unbacked⟩] }
    RunsNext (s 0) ∧ RunsNext (s 0x1000) ∧ FetchesFrom (s 0) 0x1000 true false ∧
      (isetGet (s 0).icache (iIndex (s 0).pc)).find (iTag 0x1000) = none ∧
      (∃ j < 4, regionAt (s 0).memMap ((0x1000 : Word).toNat + j) = some .unbacked) ∧
      (s 0).msrME = false ∧ (s 0x1000).msrME = true :=
  ⟨runsNext_of (by decide), runsNext_of (by decide), .inl (by decide), by decide, ⟨3, by decide⟩, by decide, by decide⟩

-- FetchExceptions: a page both write-through and caching inhibited, two entries
theorem witness_fetch_refused :
    let x := { page with ex := true, w := true }
    let two := { pagedFetch 0 0 x with tlb := (pagedFetch 0 0 x).tlb.set 63 x }
    (RunsNext (pagedFetch 0 0 x) ∧ onlyFive (pagedFetch 0 0 x) 0x1000 = true ∧ ¬zoneDenies (pagedFetch 0 0 x) x ∧
      x.ex = true ∧ x.g = false ∧ x.w = true ∧ x.i = true) ∧
    (RunsNext two ∧ two.msrIR = true ∧ (5 : Fin 64) ≠ 63 ∧
      tlbMatches ((two.spr .pid).setWidth 8) two.pc two.tlb[5] = true ∧
      tlbMatches ((two.spr .pid).setWidth 8) two.pc two.tlb[63] = true) :=
  ⟨⟨runsNext_of (by decide), by decide, by unfold zoneDenies; decide, rfl, rfl, rfl, rfl⟩, runsNext_of (by decide),
    by decide, by decide, by decide, by decide⟩

-- SystemCallAndTraps: each condition alone, and none
theorem witness_traps : trapCondition 0b10000 0x80000000 0x7FFFFFFF ∧ trapCondition 0b01000 0x7FFFFFFF 0x80000000 ∧
    trapCondition 0b00100 5 5 ∧ trapCondition 0b00010 0 0xFFFFFFFF ∧ trapCondition 0b00001 0xFFFFFFFF 0 ∧
    ¬trapCondition 0b00000 5 5 ∧ ¬trapCondition 0b11011 5 5 :=
  ⟨.inl (by decide), .inr (.inl (by decide)), .inr (.inr (.inl (by decide))), .inr (.inr (.inr (.inl (by decide)))),
    .inr (.inr (.inr (.inr (by decide)))), by unfold trapCondition; decide, by unfold trapCondition; decide⟩
-- PrivilegedTraps, UserIsolation
theorem witness_user : user.userMode = true ∧ privilegedInstr .rfi = true ∧ privilegedInstr (.mtspr 0x3F2 3) = true ∧
    privilegedInstr (.mfspr 3 0x3FF) = true ∧ ends (exec (.add 3 4 5 false false) user) (fun t => t.pc == 0x1004) = true := by
  decide
/-- A bus write to an address where nothing answers is under way. -/
def erring (msr : Word) : State :=
  { machine [] with msr := msr, memMap := [⟨0x5000, 1, .unbacked⟩], unsettled := [[⟨0x5000, 0, 7⟩]] }

-- Synchronization, AsynchronousInterrupts: a bus error reported, one that comes with a write under way, none
theorem witness_errs : errsOnArrival { machine [] with busError := true } ∧ errsOnArrival (erring 0x1000) ∧
    ¬errsOnArrival (machine []) ∧ (erring 0x1000).msrME = true :=
  ⟨.inl rfl, .inr ⟨_, .head _, _, .head _, by decide⟩, fun h => h.elim (by decide) (fun ⟨_, h, _⟩ => nomatch h), by decide⟩

/-- Pending in this state: machine check, debug, critical input, watchdog, external, FIT, PIT, in that order, by the bits
of a number. -/
def pending (n : BitVec 7) (msr : Word) : State :=
  { (((({ machine [] with
    msr := msr, busError := n[6], criticalLine := n[4], externalLine := n[2] } : State).setSpr .dbsr
      (if n[5] then 0x00040000 else 0)).setSpr .dbcr0 0x40000000).setSpr .tcr 0x0CC00000).setSpr .tsr
      ((if n[3] then 0x40000000 else 0) ||| (if n[1] then 0x04000000 else 0) ||| (if n[0] then 0x08000000 else 0)) with
    inputs := [] }

-- AsynchronousInterrupts: each alone, with every one of lower priority pending too; none, in the wait state
theorem witness_asynchronous :
    let all : Word := 0x00029200
    ([0b1111111, 0b0111111, 0b0011111, 0b0001111, 0b0000111, 0b0000011, 0b0000001, 0].map fun n =>
      pendingInterrupt (pending n all) false) =
    [some .machineCheck, some .debug, some .criticalInput, some .watchdog, some .external, some .fit, some .pit, none] ∧
    (pending 0 0x40000).inputs = [] ∧ (pending 0 0x40000).stuck = false ∧ (pending 0 0x40000).msrWE = true := by decide
-- TimerTick: a frozen tick, one without and one with a time-out, the PIT at 0, 1 and its largest value
theorem witness_tick_kinds :
    (((machine []).setSpr .dbcr0 1).setSpr .dbsr 0x00040000).timersFrozen = true ∧
    ¬watchdogRises (machine []) (((machine []).tb + 1).setWidth 32) ∧
    watchdogRises { machine [] with tb := 0xFFFF } ((0xFFFF + 1 : BitVec 64).setWidth 32) ∧
    watchdogRises ((machine []).setSpr .tcr 0xC0000000) 0x10000000 := by unfold watchdogRises; decide
theorem witness_tick : (machine []).timersFrozen = false ∧
    ((machine []).setSpr .pit 1).spr .pit = 1 ∧ 1 < (((machine []).setSpr .pit 0xFFFFFFFF).spr .pit).toNat ∧
    (machine []).spr .pit = 0 := by decide
-- Watchdog: each state of TSR[ENW], TSR[WIS], with and without a reset selected
theorem witness_watchdog :
    let s := (machine []).setSpr .tsr 0xC0000000
    bitAt ((machine []).spr .tsr) 0 = false ∧ bitAt (((machine []).setSpr .tsr 0x80000000).spr .tsr) 0 = true ∧
    bitAt (((machine []).setSpr .tsr 0x80000000).spr .tsr) 1 = false ∧ bitAt (s.spr .tsr) 1 = true ∧
    fieldTo (s.spr .tcr) 3 2 = 0 ∧ fieldTo ((s.setSpr .tcr 0x30000000).spr .tcr) 3 2 = 3 := by decide
-- Watchdog: a TBL write in which the watchdog's bit rises, one in which the FIT's alone does, one in which neither does
theorem witness_watchdog_write :
    watchdogRises (machine []) 0x00010000 ∧ ¬watchdogRises (machine []) 0x00000100 ∧ ¬watchdogRises (machine []) 0 ∧
      bitAt (0x00000100 : Word) (23 - 4 * (fieldTo ((machine []).spr .tcr) 7 2).toNat) = true ∧
      (machine [(3, 0x00010000)]).gpr 3 = 0x00010000 := by unfold watchdogRises; decide
-- ResetState: DBCR0[RST] of each kind
theorem witness_reset_request : ResetKind.core.code.setWidth 32 <<< 28 = (0x10000000 : Word) ∧
    (machine [(3, 0x30000000)]).gpr 3 = ResetKind.system.code.setWidth 32 <<< 28 := by decide

-- InvStep: a machine about to run `stwu 1,-16(1)`, which goes on
theorem witness_invariant :
    let s := (machine [(1, 0x2000)]).withFetchWord 32 0x9421FFF0
    s.Inv ∧ ends (step s) (fun t => t.pc == 0x1004 && t.gpr 1 == 0x1FF0) = true :=
  have hd : ((machine [(1, 0x2000)]).withFetchWord 32 0x9421FFF0).dcache = [] := by decide
  have hi : ((machine [(1, 0x2000)]).withFetchWord 32 0x9421FFF0).icache = [] := by decide
  have hu : ((machine [(1, 0x2000)]).withFetchWord 32 0x9421FFF0).unsettled = [] := by decide
  have ha : ((machine [(1, 0x2000)]).withFetchWord 32 0x9421FFF0).ahead = [] := by decide
  ⟨⟨by decide, by decide, fun r => (by cases r <;> decide), by decide, by decide, by decide,
    fun i h => (by rw [hd] at h; cases h.1), fun i h => (by rw [hi] at h; cases h.1),
    fun w hw => (by rw [hu] at hw; cases hw), fun f hf => (by rw [ha] at hf; cases hf)⟩, by decide⟩

end Sys2Proof.Tests
end

section
/-! SUPPORT. What a fetch changes, and the step of a quiet outside as the decoded instruction. -/

namespace Sys2Proof.Machine

/-! ### What a fetch leaves alone -/

/-- Two states that differ in the instruction cache and the free values only. -/
def FetchOnly (s t : State) : Prop := t = { s with icache := t.icache, draws := t.draws }

theorem FetchOnly.refl (s : State) : FetchOnly s s := rfl

/-- Any part of the state, after a fetch. -/
theorem FetchOnly.part {s t : State} {α : Sort _} (h : FetchOnly s t) (f : State → α) :
    f t = f { s with icache := t.icache, draws := t.draws } := congrArg f h

theorem FetchOnly.trans {s t u : State} (h1 : FetchOnly s t) (h2 : FetchOnly t u) : FetchOnly s u :=
  Eq.trans h2 (h1.part fun x : State => { x with icache := u.icache, draws := u.draws })

theorem fetchOnly_drawn (s : State) : FetchOnly s s.drawn := rfl

theorem fetchOnly_setIset (s : State) (i : Nat) (x : ISet) : FetchOnly s (s.setIset i x) := rfl

theorem fetchOnly_afterFetch (s : State) (map : List Region) (ras : List Nat) : FetchOnly s (s.afterFetch map ras) := by
  unfold State.afterFetch
  split
  · exact .refl s
  · exact fetchOnly_drawn s

theorem fetchOnly_iUse (s : State) (ea ra : Word) : FetchOnly s (s.iUse ea ra) := by
  unfold State.iUse
  split
  · exact fetchOnly_setIset ..
  · exact .refl s

theorem fetchOnly_iFill (s : State) (map : List Region) (ea ra : Word) (e : Bool) : FetchOnly s (s.iFill map ea ra e) := by
  have ha := fetchOnly_afterFetch s map (blockAddrs (blockOf ra))
  unfold State.iFill
  dsimp only
  split
  · exact ha
  · exact ha.trans (fetchOnly_setIset ..)

theorem fetchOnly_fetchBus (s : State) (map : List Region) (p : Page) : FetchOnly s (s.fetchBus map p).2 := by
  unfold State.fetchBus
  dsimp only
  split
  · exact .refl s
  · exact fetchOnly_afterFetch ..

theorem fetchOnly_fetchPage (s : State) (c : FetchContext) (ea : Word) (p : Page) :
    FetchOnly s (s.fetchPage c ea p).2 := by
  unfold State.fetchPage
  split
  · exact fetchOnly_iUse ..
  · split
    · exact fetchOnly_drawn s
    · exact (fetchOnly_drawn s).trans (fetchOnly_fetchBus ..)
  · exact fetchOnly_fetchBus ..
  · split
    · exact fetchOnly_fetchBus ..
    · exact fetchOnly_iFill ..

/-- A fetch is refused by its checks, or it is made from a page. -/
theorem fetchAt_cases (s : State) (c : FetchContext) (ea : Word) :
    (s.fetchAt c ea).2 = s ∨ ∃ p, s.fetchAt c ea = s.fetchPage c ea p := by
  unfold State.fetchAt
  split
  · exact .inl rfl
  · exact .inl rfl
  · rename_i p _
    split
    · exact .inl rfl
    · split
      · exact .inl rfl
      · split
        · exact .inl rfl
        · exact .inr ⟨p, rfl⟩

theorem fetchOnly_fetchAt (s : State) (c : FetchContext) (ea : Word) : FetchOnly s (s.fetchAt c ea).2 := by
  obtain h | ⟨p, h⟩ := fetchAt_cases s c ea <;> rw [h]
  · exact .refl s
  · exact fetchOnly_fetchPage s c ea p

/-! ### A quiet step -/

/-- The state a quiet step fetches from. -/
theorem passBoundary_settle (s : State) :
    ({ s.settle 0 with between := [] } : State).passBoundary = quietBoundary s := rfl

/-- The fetch of a quiet step changes nothing an instruction reads. -/
theorem fetchedFrom_fetchNow (s : State) : FetchedFrom s ((quietBoundary s).fetchNow 0).2.resolve := by
  have h : FetchOnly { quietBoundary s with fetchedUser := none } ((quietBoundary s).fetchNow 0).2 :=
    fetchOnly_fetchAt ..
  exact ⟨h.part State.gprs, h.part State.pc, h.part State.cr, h.part State.msr, h.part State.sprs, h.part State.tb,
    h.part State.pitReload, h.part State.reserve, h.part State.tlb, h.part State.mem, h.part State.dcache,
    h.part State.fillBuffer, h.part State.dcrs, h.part State.memMap⟩

/-- A quiet step with nothing pending fetches and runs the next instruction. -/
theorem step_of_runsNext {s : State} (h : RunsNext s) : step s = runNext 0 0 (quietBoundary s) := by
  rw [step_quiet s h.inputs h.free, h.nothing]
  simp only [h.awake, Bool.false_eq_true, if_false, passBoundary_settle]

/-- Settles O4. -/
theorem stepRunsDecoded : Obligations.StepRunsDecoded := by
  intro s i w hs hw hi
  refine ⟨?_, fetchedFrom_fetchNow s⟩
  rw [step_of_runsNext hs]
  show runFetched ((quietBoundary s).fetchNow 0).1 ((quietBoundary s).fetchNow 0).2.resolve = _
  simp only [hw, runFetched, hi]

end Sys2Proof.Machine
end

section
/-! SUPPORT. The invariant through fetching, reading ahead and what the outside does. -/

namespace Sys2Proof.Machine

/-- A state that agrees with one that has the invariant in every part the invariant reads. -/
theorem State.Inv.congr {s t : State} (h : s.Inv) (hpc : t.pc = s.pc) (hmsr : t.msr = s.msr) (hsprs : t.sprs = s.sprs)
    (hmem : t.mem = s.mem) (hd : t.dcache = s.dcache) (hi : t.icache = s.icache) (hu : t.unsettled = s.unsettled)
    (ha : t.ahead = s.ahead) : t.Inv where
  pc_aligned := hpc ▸ h.pc_aligned
  msr_reserved := hmsr ▸ h.msr_reserved
  spr_reserved := fun r => by
    have hr : t.spr r = s.spr r := by simp only [State.spr, hsprs]
    exact hr ▸ h.spr_reserved r
  mem_wf := hmem ▸ h.mem_wf
  dcache_wf := hd ▸ h.dcache_wf
  icache_wf := hi ▸ h.icache_wf
  dcache_distinct := hd ▸ h.dcache_distinct
  icache_distinct := hi ▸ h.icache_distinct
  unsettled_bound := hu ▸ h.unsettled_bound
  ahead_aligned := ha ▸ h.ahead_aligned

/-! ### One fetch -/

theorem State.Inv.iUse {s : State} (h : s.Inv) (ea ra : Word) : (s.iUse ea ra).Inv := by
  unfold State.iUse
  split
  · exact h.setIset (iIndex_lt ea) ((ISet.distinct_touch _ _).2 (h.icache_distinct _))
  · exact h

theorem State.Inv.fetchBus {s : State} (h : s.Inv) (map : List Region) (p : Page) : (s.fetchBus map p).2.Inv := by
  unfold State.fetchBus
  dsimp only
  split
  · exact h
  · exact h.afterFetch _ _

/-- A cache that answers no word has no way with the line's tag. -/
theorem find_none_of_cachedWord {c : List (Nat × ISet)} {ea ra : Word} (h : cachedWord c ea ra = none) :
    (isetGet c (iIndex ea)).find (iTag ra) = none := Option.map_eq_none_iff.1 h

theorem State.Inv.fetchPage {s : State} (h : s.Inv) (c : FetchContext) (ea : Word) (p : Page) :
    (s.fetchPage c ea p).2.Inv := by
  unfold State.fetchPage
  split
  · exact h.iUse _ _
  · split
    · exact h.drawn
    · exact h.drawn.fetchBus _ _
  · exact h.fetchBus _ _
  · rename_i hnone _
    split
    · exact h.fetchBus _ _
    · exact h.iFill _ _ _ _ (find_none_of_cachedWord (Option.or_eq_none_iff.1 hnone).2)

theorem State.Inv.fetchAt {s : State} (h : s.Inv) (c : FetchContext) (ea : Word) : (s.fetchAt c ea).2.Inv := by
  obtain hs | ⟨p, hs⟩ := fetchAt_cases s c ea <;> rw [hs]
  · exact h
  · exact h.fetchPage c ea p

theorem State.Inv.setFetchedUser {s : State} (h : s.Inv) (u : Option Bool) :
    ({ s with fetchedUser := u } : State).Inv := h.congr rfl rfl rfl rfl rfl rfl rfl rfl

theorem State.Inv.fetchNow {s : State} (h : s.Inv) (n : Nat) : (s.fetchNow n).2.Inv :=
  (h.setFetchedUser _).fetchAt _ _

theorem State.Inv.fetchNext {s : State} (h : s.Inv) (use n : Nat) : (s.fetchNext use n).2.Inv := by
  unfold State.fetchNext
  split
  · exact h.fetchNow n
  · split
    · exact h.setFetchedUser _
    · exact h.fetchNow n

/-! ### Branch targets are aligned -/

/-- A displacement with two zero bits below it is a multiple of four. -/
theorem signExtend_append_aligned {n : Nat} (d : BitVec n) (hn : n + 2 ≤ 32) :
    (d ++ (0 : BitVec 2)).signExtend 32 &&& (3 : Word) = 0 := by
  refine BitVec.eq_of_getLsbD_eq fun j hj => ?_
  refine Eq.trans BitVec.getLsbD_and (Eq.trans ?_ BitVec.getLsbD_zero.symm)
  by_cases h2 : j < 2
  · have hn2 : j < n + 2 := by omega
    have hd : ((d ++ (0 : BitVec 2)).signExtend 32).getLsbD j = false := by
      rw [BitVec.getLsbD_signExtend, if_pos hn2, BitVec.getLsbD_append, if_pos h2]
      simp
    rw [hd, Bool.false_and]
  · have h3 : (3 : Word).getLsbD j = false := Nat.testBit_lt_two_pow (lt_of_lt_of_le (by decide : 3 < 2 ^ 2)
      (Nat.pow_le_pow_right (by decide) (by omega)))
    rw [h3, Bool.and_false]

theorem dispLI_aligned (li : BitVec 24) : dispLI li &&& 3 = 0 := signExtend_append_aligned li (by decide)

theorem dispBD_aligned (bd : BitVec 14) : dispBD bd &&& 3 = 0 := signExtend_append_aligned bd (by decide)

/-- The base of a branch target, absolute or relative. -/
theorem ite_zero_aligned {a : Word} (ha : a &&& 3 = 0) (aa : Bool) : (if aa then 0 else a) &&& 3 = 0 := by
  cases aa
  · exact ha
  · simp

theorem onward_aligned (s : State) {a : Word} (ha : a &&& 3 = 0) (i : Option Instr) (d : Bool) :
    s.onward a i d &&& 3 = 0 := by
  have h4 : (a + 4) &&& 3 = 0 := aligned_add ha (by decide)
  unfold State.onward
  split
  · exact aligned_add (ite_zero_aligned ha _) (dispLI_aligned _)
  · split
    · exact aligned_add (ite_zero_aligned ha _) (dispBD_aligned _)
    · exact h4
  · split
    · exact alignPc_aligned _
    · exact h4
  · split
    · exact alignPc_aligned _
    · exact h4
  · exact h4

/-! ### Reading ahead -/

theorem State.Inv.cons_ahead {s : State} (h : s.Inv) {f : Fetched} (hf : f.addr &&& 3 = 0) :
    ({ s with ahead := f :: s.ahead } : State).Inv :=
  { h with
    spr_reserved := h.spr_reserved
    ahead_aligned := fun g hg => by
      obtain rfl | hg := List.mem_cons.1 hg
      · exact hf
      · exact h.ahead_aligned g hg }

theorem State.Inv.fetchAhead {s : State} (h : s.Inv) (c : FetchContext) {a : Word} (ha : a &&& 3 = 0) :
    (s.fetchAhead c a).2.Inv := by
  cases hg : mayPrefetch c a with
  | true =>
    rw [fetchAhead_unguarded s hg]
    exact (h.fetchAt c a).cons_ahead ha
  | false =>
    rw [fetchAhead_guarded s hg]
    exact h

theorem State.Inv.readPath {s : State} (h : s.Inv) (c : FetchContext) (ds : List Bool) (room : Nat) {a : Word}
    (ha : a &&& 3 = 0) (past : List Word) (lr ctr : Bool) : (readPath c ds room a past lr ctr s).Inv := by
  induction ds generalizing s room a past lr ctr with
  | nil => exact h
  | cons d ds ih =>
    cases room with
    | zero => exact h
    | succ room =>
      have hf := h.fetchAhead c ha
      unfold Sys2Proof.Machine.readPath
      dsimp only
      split
      · exact hf.congr rfl rfl rfl rfl rfl rfl rfl rfl
      · exact ih hf _ (onward_aligned _ ha _ _) _ _ _

theorem State.Inv.readAhead {s : State} (h : s.Inv) (c : FetchContext) (paths : List (List Bool)) :
    (s.readAhead c paths).Inv := by
  unfold State.readAhead
  induction paths generalizing s with
  | nil => exact h
  | cons p ps ih => exact ih (h.readPath c p 20 h.pc_aligned [] false false)

/-! ### Ticks -/

theorem State.Inv.setTsrBit {s : State} (h : s.Inv) (b : Nat) : (s.setTsrBit b).Inv := h.setSpr _ _

theorem State.Inv.watchdogTimeOut {s : State} (h : s.Inv) : (watchdogTimeOut s).Inv := by
  unfold Sys2Proof.Machine.watchdogTimeOut
  split
  · exact h.setTsrBit 0
  · split
    · exact h.setTsrBit 1
    · split
      · exact h.resetFrom _ _
      · exact h

theorem State.Inv.tbEvents {s : State} (h : s.Inv) (old new : Word) : (tbEvents old new s).Inv := by
  have hfit : (if rises (fitBit (s.spr .tcr)) old new then s.setTsrBit 5 else s).Inv := by
    split
    · exact h.setTsrBit 5
    · exact h
  unfold Sys2Proof.Machine.tbEvents
  dsimp only
  split
  · exact hfit.watchdogTimeOut
  · exact hfit

theorem State.Inv.pitStep {s : State} (h : s.Inv) : (pitStep s).Inv := by
  unfold Sys2Proof.Machine.pitStep
  split
  · exact h
  · split
    · exact (h.setTsrBit 4).setSpr _ _
    · exact h.setSpr _ _

theorem State.Inv.setTb {s : State} (h : s.Inv) (v : BitVec 64) : ({ s with tb := v } : State).Inv :=
  h.congr rfl rfl rfl rfl rfl rfl rfl rfl

theorem State.Inv.tick {s : State} (h : s.Inv) : (tick s).Inv := by
  unfold Sys2Proof.Machine.tick
  split
  · exact h
  · exact (h.setTb _).pitStep.tbEvents _ _

theorem State.Inv.ticks {s : State} (h : s.Inv) (n : Nat) : (ticks n s).Inv := by
  induction n generalizing s with
  | zero => exact h
  | succ n ih => exact ih h.tick

/-! ### Bus masters, devices, resets -/

theorem State.Inv.busMasters {s : State} (h : s.Inv) (cells : List Host.Cell) : (s.busMasters cells).Inv :=
  h.of_storage (h.storage.busMasters cells) rfl

theorem State.Inv.applyDevices {s : State} (h : s.Inv) (i : Input) : (applyDevices i s).Inv :=
  State.Inv.congr ((h.settle i.inFlight).busMasters i.busWrites) rfl rfl rfl rfl rfl rfl rfl rfl

theorem State.Inv.resetIf {s : State} (h : s.Inv) (k : Option ResetKind) : (resetIf k s).Inv := by
  cases k with
  | none => exact h
  | some k => exact h.resetFrom k 0

theorem State.Inv.setBetween {s : State} (h : s.Inv) (cells : List (List Host.Cell)) :
    ({ s with between := cells } : State).Inv := h.congr rfl rfl rfl rfl rfl rfl rfl rfl

theorem State.Inv.applyInput {s : State} (h : s.Inv) (i : Input) : (applyInput i s).Inv :=
  ((((h.applyDevices i).ticks i.ticks).resetIf i.reset).setBetween i.between).readAhead _ _

end Sys2Proof.Machine
end

section
/-! SUPPORT. The invariant through the integer unit, branches, loads and stores. -/

namespace Sys2Proof.Machine

/-- An outcome keeps the invariant: its next state, if it has one, meets it. -/
def KeepsInv (r : Result) : Prop := ∀ t, r = .next t → t.Inv

/-! ### The ways an instruction ends -/

theorem keepsInv_next {t : State} (h : t.Inv) : KeepsInv (.next t) := fun _ ht => by cases ht; exact h

theorem keepsInv_fault (f : Fault) : KeepsInv (.fault f) := fun _ ht => by cases ht

theorem keepsInv_refused (r : Refusal) : KeepsInv (.refused r) := fun _ ht => by cases ht

theorem State.Inv.done {s : State} (h : s.Inv) : KeepsInv (done s) := keepsInv_next h.advance

theorem State.Inv.raise {s : State} (h : s.Inv) (e : Exc) : KeepsInv (.next (Machine.takeException e s)) :=
  keepsInv_next (h.takeException e)

theorem State.Inv.stopWith {s : State} (h : s.Inv) (e : Stop) : KeepsInv (stopWith s e) := by
  cases e with
  | exc x => exact h.raise x
  | refuse r => exact keepsInv_refused r

theorem State.Inv.privileged {s : State} (h : s.Inv) {k : Result} (hk : KeepsInv k) : KeepsInv (privileged s k) := by
  unfold Machine.privileged
  split
  · exact h.raise _
  · exact hk

theorem KeepsInv.validForm {k : Result} (hk : KeepsInv k) (ok : Bool) (r : Refusal) : KeepsInv (validForm ok r k) := by
  unfold Machine.validForm
  split
  · exact hk
  · exact keepsInv_refused r

/-! ### Integer instructions -/

theorem State.Inv.setCr {s : State} (h : s.Inv) (v : Word) : ({ s with cr := v } : State).Inv :=
  h.congr rfl rfl rfl rfl rfl rfl rfl rfl

theorem State.Inv.writeResult {s : State} (h : s.Inv) (rt : Reg) (v : Word) (oe ov : Bool) (ca : Option Bool)
    (rc : Bool) : (s.writeResult rt v oe ov ca rc).Inv := by
  unfold State.writeResult
  refine State.Inv.setCr ?_ _
  split
  · exact (h.setGpr rt v).setSpr _ _
  · exact h.setGpr rt v

theorem State.Inv.writeLogical {s : State} (h : s.Inv) (ra : Reg) (v : Word) (rc : Bool) :
    (s.writeLogical ra v rc).Inv := (h.setGpr ra v).setCr _

theorem State.Inv.writeUndefinedQuotient {s : State} (h : s.Inv) (rt : Reg) (oe rc : Bool) :
    (s.writeUndefinedQuotient rt oe rc).Inv := by
  have hx : (if oe then (s.drawn.setGpr rt s.freshWord).setSpr .xer (overflowXer oe true (s.spr .xer))
      else s.drawn.setGpr rt s.freshWord).Inv := by
    split
    · exact (h.drawn.setGpr _ _).setSpr _ _
    · exact h.drawn.setGpr _ _
  unfold State.writeUndefinedQuotient
  dsimp only
  split
  · exact hx.drawn.setCr _
  · exact hx

theorem State.Inv.divide {s : State} (h : s.Inv) (undefined : Bool) (rt : Reg) (v : Word) (oe rc : Bool) :
    KeepsInv (if undefined then Machine.done (s.writeUndefinedQuotient rt oe rc)
      else Machine.done (s.writeResult rt v oe false none rc)) := by
  split
  · exact (h.writeUndefinedQuotient rt oe rc).done
  · exact (h.writeResult ..).done

theorem State.Inv.compareInto {s : State} (h : s.Inv) (bf : BitVec 3) (l : Bool) (f : BitVec 4) :
    KeepsInv (compareInto s bf l f) := (h.setCrField bf f).done.validForm _ _

/-! ### Branches -/

theorem State.Inv.link {s : State} (h : s.Inv) (lk : Bool) : (s.link lk).Inv := by
  unfold State.link
  split
  · exact h.setSpr _ _
  · exact h

theorem State.Inv.countDown {s : State} (h : s.Inv) (bo : BitVec 5) : (s.countDown bo).Inv := by
  unfold State.countDown
  split
  · exact h
  · exact h.setSpr _ _

theorem State.Inv.branchTo {s : State} (h : s.Inv) (lk taken : Bool) {target : Word} (ht : target &&& 3 = 0) :
    KeepsInv (branchTo s lk taken target) := by
  refine keepsInv_next ((h.link lk).setPc ?_)
  split
  · exact ht
  · exact aligned_add h.pc_aligned (by decide)

/-- A displacement from the base of a branch is aligned. -/
theorem State.Inv.target_aligned {s : State} (h : s.Inv) (aa : Bool) {d : Word} (hd : d &&& 3 = 0) :
    (s.branchBase aa + d) &&& 3 = 0 := aligned_add (ite_zero_aligned h.pc_aligned aa) hd

/-! ### Loads and stores -/

theorem State.Inv.withLoad {s : State} (h : s.Inv) (ea : Word) (n : Nat) {k : Word → State → Result}
    (hk : ∀ v t, t.Inv → KeepsInv (k v t)) : KeepsInv (withLoad s ea n k) := by
  unfold Machine.withLoad
  split
  · exact h.stopWith _
  · exact hk _ _ (h.loadItem _).busy

theorem State.Inv.withStore {s : State} (h : s.Inv) (ea : Word) (bs : List Byte) {k : State → Result}
    (hk : ∀ t, t.Inv → KeepsInv (k t)) : KeepsInv (withStore s ea bs k) := by
  unfold Machine.withStore
  split
  · exact h.stopWith _
  · exact hk _ (h.storeItem _ _).busy

theorem State.Inv.loadInto {s : State} (h : s.Inv) (rt : Reg) (ea : Word) (n : Nat) (f : Word → Word) :
    KeepsInv (loadInto s rt ea n f) := h.withLoad ea n fun _ _ ht => (ht.setGpr _ _).done

theorem State.Inv.loadUpdate {s : State} (h : s.Inv) (rt ra : Reg) (ea : Word) (n : Nat) (f : Word → Word) :
    KeepsInv (loadUpdate s rt ra ea n f) :=
  (h.withLoad ea n fun _ _ ht => ((ht.setGpr _ _).setGpr _ _).done).validForm _ _

theorem State.Inv.storeAt {s : State} (h : s.Inv) (ea : Word) (bs : List Byte) : KeepsInv (storeAt s ea bs) :=
  h.withStore ea bs fun _ ht => ht.done

theorem State.Inv.storeUpdate {s : State} (h : s.Inv) (ra : Reg) (ea : Word) (bs : List Byte) :
    KeepsInv (storeUpdate s ra ea bs) := (h.withStore ea bs fun _ ht => (ht.setGpr _ _).done).validForm _ _

theorem State.Inv.loadString {s : State} (h : s.Inv) (rt : Reg) (ea : Word) (n : Nat) :
    KeepsInv (loadString s rt ea n) := by
  unfold Machine.loadString
  split
  · exact h.stopWith _
  · exact ((h.loadBytes _).fillRegisters _ _ _).busy.done

theorem State.Inv.storeString {s : State} (h : s.Inv) (rs : Reg) (ea : Word) (n : Nat) :
    KeepsInv (storeString s rs ea n) := by
  unfold Machine.storeString
  split
  · exact h.stopWith _
  · exact (h.storeBytes _ _).busy.done

theorem State.Inv.execLmw {s : State} (h : s.Inv) (rt ra : Reg) (d : Half) : KeepsInv (execLmw rt ra d s) := by
  refine KeepsInv.validForm ?_ _ _
  split
  · exact h.stopWith _
  · exact (h.loadWords _ _ _).busy.done

theorem State.Inv.execStmw {s : State} (h : s.Inv) (rs ra : Reg) (d : Half) : KeepsInv (execStmw rs ra d s) := by
  unfold Machine.execStmw
  split
  · exact h.stopWith _
  · exact (h.storeWords _ _ _).busy.done

theorem State.Inv.execLswx {s : State} (h : s.Inv) (rt ra rb : Reg) : KeepsInv (execLswx rt ra rb s) := by
  refine KeepsInv.validForm ?_ _ _
  split
  · exact (h.drawn.setGpr _ _).done
  · exact h.loadString _ _ _

theorem State.Inv.execStswx {s : State} (h : s.Inv) (rs ra rb : Reg) : KeepsInv (execStswx rs ra rb s) := by
  unfold Machine.execStswx
  split
  · exact h.done
  · exact h.storeString _ _ _

theorem State.Inv.setReserve {s : State} (h : s.Inv) (b : Bool) : ({ s with reserve := b } : State).Inv :=
  h.congr rfl rfl rfl rfl rfl rfl rfl rfl

theorem State.Inv.setStored {s : State} (h : s.Inv) (b : Bool) : (s.setStored b).Inv :=
  h.congr rfl rfl rfl rfl rfl rfl rfl rfl

theorem State.Inv.execLwarx {s : State} (h : s.Inv) (rt ra rb : Reg) : KeepsInv (execLwarx rt ra rb s) := by
  unfold Machine.execLwarx
  split
  · unfold alignmentAfterChecks
    split
    · exact h.stopWith _
    · exact h.raise _
  · exact h.withLoad _ _ fun _ _ ht => ((ht.setGpr _ _).setReserve true).done

theorem State.Inv.execStwcxDot {s : State} (h : s.Inv) (rs ra rb : Reg) : KeepsInv (execStwcxDot rs ra rb s) := by
  unfold Machine.execStwcxDot
  split
  · exact h.raise _
  · split
    · exact h.withStore _ _ fun _ ht => (ht.setStored true).done
    · exact (h.setStored false).done

end Sys2Proof.Machine
end

section
/-! SUPPORT. The invariant through cache, system and processor management instructions. -/

namespace Sys2Proof.Machine

/-! ### Cache instructions -/

theorem State.Inv.missOnly {s : State} (h : s.Inv) (ea : Word) (store : Bool) {k : Page → Result}
    (hk : ∀ p, KeepsInv (k p)) : KeepsInv (missOnly s ea store k) := by
  unfold Machine.missOnly
  split
  · exact h.raise _
  · exact keepsInv_refused _
  · exact hk _

theorem State.Inv.withBlock {s : State} (h : s.Inv) (ea : Word) (store : Bool) {k : Page → Result}
    (hk : ∀ p, KeepsInv (k p)) : KeepsInv (withBlock s ea store k) := by
  unfold Machine.withBlock
  split
  · exact h.stopWith _
  · exact hk _

theorem State.Inv.ifAllowed {s : State} (h : s.Inv) (ea : Word) (store : Bool) {k : Page → Result}
    (hk : ∀ p, KeepsInv (k p)) : KeepsInv (ifAllowed s ea store k) := by
  unfold Machine.ifAllowed
  split
  · exact h.done
  · exact keepsInv_refused _
  · exact hk _

/-- An entry listed in a map whose keys rise is what the map holds at its key. -/
theorem sparseGet_of_mem {β : Type} (d : β) {m : List (Nat × β)} (hm : m.Pairwise fun a b => a.1 < b.1)
    {e : Nat × β} (he : e ∈ m) : sparseGet d m e.1 = e.2 := by
  induction m with
  | nil => cases he
  | cons f t ih =>
    obtain ⟨hf, ht⟩ := List.pairwise_cons.1 hm
    obtain rfl | he := List.mem_cons.1 he
    · exact if_pos rfl
    · exact (if_neg (hf e he).ne).trans (ih ht he)

/-- What the invariant says of an instruction cache. -/
structure ICacheInv (c : List (Nat × ISet)) : Prop where
  wf : sparseWf ISet.empty Config.icacheSets c = true
  distinct : ∀ i, (isetGet c i).distinct

theorem State.Inv.icacheInv {s : State} (h : s.Inv) : ICacheInv s.icache := ⟨h.icache_wf, h.icache_distinct⟩

theorem State.Inv.setICache {s : State} (h : s.Inv) {c : List (Nat × ISet)} (hc : ICacheInv c) :
    ({ s with icache := c } : State).Inv :=
  { h with
    spr_reserved := h.spr_reserved
    icache_wf := hc.wf
    icache_distinct := hc.distinct }

theorem ICacheInv.put {c : List (Nat × ISet)} (h : ICacheInv c) {i : Nat} (hi : i < Config.icacheSets) {x : ISet}
    (hx : x.distinct) : ICacheInv (isetPut c i x) where
  wf := isetPut_wf _ _ _ h.wf hi
  distinct := fun j => by
    rw [isetGet_put]
    split
    · exact hx
    · exact h.distinct j

/-- The classes listed in an instruction cache. -/
theorem ICacheInv.of_mem {c : List (Nat × ISet)} (h : ICacheInv c) {e : Nat × ISet} (he : e ∈ c) :
    e.1 < Config.icacheSets ∧ e.2.distinct := by
  obtain ⟨hrise, hall⟩ := (sparseWf_iff _ _ _).1 h.wf
  refine ⟨(hall e he).1, ?_⟩
  rw [← sparseGet_of_mem ISet.empty hrise he]
  exact h.distinct e.1

theorem ICacheInv.invalidateAll {c : List (Nat × ISet)} (h : ICacheInv c) {l : List (Nat × ISet)}
    (hl : ∀ e ∈ l, e.1 < Config.icacheSets) : ICacheInv (iInvalidateAll c l) := by
  induction l generalizing c with
  | nil => exact h
  | cons e l ih =>
    exact ih (h.put (hl e List.mem_cons_self) (ISet.distinct_invalid _)) fun f hf => hl f (List.mem_cons_of_mem _ hf)

theorem ICacheInv.dropAll {c : List (Nat × ISet)} (h : ICacheInv c) (tag : BitVec 22) (low : Nat)
    {l : List (Nat × ISet)} (hl : ∀ e ∈ l, e.1 < Config.icacheSets ∧ e.2.distinct) : ICacheInv (iDropAll tag low c l) := by
  induction l generalizing c with
  | nil => exact h
  | cons e l ih =>
    obtain ⟨hi, hx⟩ := hl e List.mem_cons_self
    have hc : ICacheInv (if e.1 % 32 = low then isetPut c e.1 (e.2.drop tag) else c) := by
      split
      · exact h.put hi (ISet.distinct_drop hx tag)
      · exact h
    exact ih hc fun f hf => hl f (List.mem_cons_of_mem _ hf)

theorem State.Inv.iDropBlock {s : State} (h : s.Inv) (ea ra : Word) : (s.iDropBlock ea ra).Inv := by
  have hd : (s.setIset (iIndex ea) ((isetGet s.icache (iIndex ea)).drop (iTag ra))).Inv :=
    h.setIset (iIndex_lt ea) (ISet.distinct_drop (h.icache_distinct _) _)
  unfold State.iDropBlock
  dsimp only
  split
  · exact hd.drawn.setICache (hd.icacheInv.dropAll _ _ fun _ he => hd.icacheInv.of_mem he)
  · exact hd.drawn

theorem State.Inv.execIcbi {s : State} (h : s.Inv) (ra rb : Reg) : KeepsInv (execIcbi ra rb s) :=
  h.withBlock _ _ fun p => (h.openWindow.iDropBlock _ p.ra).done

theorem State.Inv.iTouch {s : State} (h : s.Inv) (ea : Word) (p : Page) : (s.iTouch ea p).Inv := by
  unfold State.iTouch
  split
  · exact h
  · rename_i hf
    exact (h.iFill _ _ _ _ (by simpa using hf)).congr rfl rfl rfl rfl rfl rfl rfl rfl

theorem State.Inv.execIcbt {s : State} (h : s.Inv) (ra rb : Reg) : KeepsInv (execIcbt ra rb s) := by
  refine h.privileged (h.missOnly _ _ fun p => ?_)
  split
  · exact h.done
  · exact (h.iTouch _ p).done

theorem State.Inv.execIccci {s : State} (h : s.Inv) (ra rb : Reg) : KeepsInv (execIccci ra rb s) :=
  h.privileged (h.missOnly _ _ fun _ => (h.openWindow.setICache
    (h.icacheInv.invalidateAll fun _ he => (h.icacheInv.of_mem he).1)).done)

theorem State.Inv.setIcdbdrMarks {s : State} (h : s.Inv) (pending tag : Bool) :
    ({ s with icdbdrPending := pending, icdbdrTag := tag } : State).Inv := h.congr rfl rfl rfl rfl rfl rfl rfl rfl

theorem State.Inv.execIcread {s : State} (h : s.Inv) (ra rb : Reg) : KeepsInv (execIcread ra rb s) :=
  h.privileged (h.missOnly _ _ fun _ => ((h.setSpr _ _).setIcdbdrMarks _ _).done)

theorem State.Inv.dropFillBuffer {s : State} (h : s.Inv) (b : Nat) : (s.dropFillBuffer b).Inv :=
  h.of_storage (h.storage.dropFillBuffer b) (storageOnly_dropFillBuffer s b)

theorem State.Inv.dFill {s : State} (h : s.Inv) {b : Nat} (hb : s.dFind b = none) : (s.dFill b).Inv :=
  h.of_storage (h.storage.dFill hb) (storageOnly_dFill s b)

theorem State.Inv.dZero {s : State} (h : s.Inv) (ra : Word) : (s.dZero (blockOf ra)).Inv :=
  h.of_storage (h.storage.dZero (blockOf_lt ra)) (storageOnly_dZero s _)

theorem State.Inv.dInvalidateClass {s : State} (h : s.Inv) (b : Nat) : (s.dInvalidateClass (dIndex b)).Inv :=
  h.of_storage (h.storage.dInvalidateClass (dIndex_lt b)) (storageOnly_dInvalidateClass s _)

theorem State.Inv.execDcbf {s : State} (h : s.Inv) (ra rb : Reg) : KeepsInv (execDcbf ra rb s) :=
  h.withBlock _ _ fun p =>
    (h.of_storage (h.storage.dFlush (blockOf p.ra)) (storageOnly_dFlush s _)).busy.done

theorem State.Inv.execDcbst {s : State} (h : s.Inv) (ra rb : Reg) : KeepsInv (execDcbst ra rb s) :=
  h.withBlock _ _ fun p =>
    (h.of_storage (h.storage.dClean (blockOf p.ra)) (storageOnly_dClean s _)).busy.done

theorem State.Inv.execDcbi {s : State} (h : s.Inv) (ra rb : Reg) : KeepsInv (execDcbi ra rb s) :=
  h.privileged (h.withBlock _ _ fun p =>
    ((h.of_storage (h.storage.dInvalidate (blockOf p.ra)) (storageOnly_dInvalidate s _)).dropFillBuffer _).done)

theorem State.Inv.execDcbz {s : State} (h : s.Inv) (ra rb : Reg) : KeepsInv (execDcbz ra rb s) := by
  refine h.withBlock _ _ fun p => ?_
  split
  · exact h.raise _
  · split
    · split
      · exact (h.drawn.dZero p.ra).busy.done
      · exact h.drawn.raise _
    · exact (h.dZero p.ra).busy.done

theorem State.Inv.dataTouch {s : State} (h : s.Inv) (ea : Word) : KeepsInv (dataTouch s ea) := by
  refine h.ifAllowed _ _ fun p => ?_
  split
  · exact h.done
  · rename_i hcond
    simp only [Bool.or_eq_true, not_or, Bool.not_eq_true, Option.isSome_eq_false_iff, Option.isNone_iff_eq_none] at hcond
    exact (h.dFill hcond.2).busy.done

theorem State.Inv.execDccci {s : State} (h : s.Inv) (ra rb : Reg) : KeepsInv (execDccci ra rb s) := by
  refine h.privileged (h.missOnly _ _ fun p => ?_)
  have invalidated : ∀ {t : State}, t.Inv → KeepsInv
      (Machine.done ((t.dInvalidateClass (dIndex (blockOf (s.eaX ra rb)))).dropFillBuffer (blockOf p.ra))) :=
    fun ht => ((ht.dInvalidateClass _).dropFillBuffer _).done
  dsimp only
  split
  · split
    · exact h.drawn.raise _
    · exact invalidated h.drawn
  · exact invalidated h

theorem State.Inv.execDcba {s : State} (h : s.Inv) (ra rb : Reg) : KeepsInv (execDcba ra rb s) := by
  refine h.ifAllowed _ _ fun p => ?_
  split
  · exact h.done
  · exact ((h.of_storage (h.storage.dAllocate (blockOf p.ra)) (storageOnly_dAllocate s _)).dropFillBuffer _).busy.done

theorem State.Inv.afterMasked {s : State} (h : s.Inv) (mask : Word) : (s.afterMasked mask).Inv := by
  unfold State.afterMasked
  split
  · exact h
  · exact h.drawn

theorem State.Inv.execDcread {s : State} (h : s.Inv) (rt ra rb : Reg) : KeepsInv (execDcread rt ra rb s) := by
  refine h.privileged (h.missOnly _ _ fun p => ?_)
  split
  · exact h.raise _
  · split
    · exact ((h.afterMasked _).setGpr _ _).done
    · exact (h.setGpr _ _).done

/-! ### Interrupt control and the TLB -/

theorem State.Inv.setEeWindow {s : State} (h : s.Inv) (n : Nat) : ({ s with eeWindow := n } : State).Inv :=
  h.congr rfl rfl rfl rfl rfl rfl rfl rfl

theorem State.Inv.setTlb {s : State} (h : s.Inv) (tlb : Vector TlbEntry 64) : ({ s with tlb := tlb } : State).Inv :=
  h.congr rfl rfl rfl rfl rfl rfl rfl rfl

theorem State.Inv.writeEE {s : State} (h : s.Inv) (v : Bool) : (s.writeEE v).Inv := (h.setMsr _).setEeWindow _

theorem State.Inv.setFound {s : State} (h : s.Inv) (rc found : Bool) : (s.setFound rc found).Inv := by
  unfold State.setFound
  split
  · exact h.setCr _
  · exact h

theorem State.Inv.execTlbsx {s : State} (h : s.Inv) (rt ra rb : Reg) (rc : Bool) : KeepsInv (execTlbsx rt ra rb rc s) := by
  refine h.privileged ?_
  split
  · exact ((h.drawn.setGpr _ _).setFound _ _).done
  · exact ((h.setGpr _ _).setFound _ _).done
  · exact keepsInv_refused _

theorem State.Inv.execTlbre {s : State} (h : s.Inv) (rt ra : Reg) (ws : BitVec 5) : KeepsInv (execTlbre rt ra ws s) := by
  refine h.privileged (KeepsInv.validForm ?_ _ _)
  split
  · exact ((h.openWindow.setGpr _ _).setSpr _ _).done
  · exact (h.setGpr _ _).done

/-! ### Processor management -/

theorem State.Inv.sprAccess {s : State} (h : s.Inv) (n : RegNum) {k : Result} (hk : KeepsInv k) :
    KeepsInv (sprAccess n s k) := by
  unfold Machine.sprAccess
  split
  · exact h.raise _
  · exact hk

theorem State.Inv.readSpr {s : State} (h : s.Inv) (rt : Reg) (r : Spr) : (s.readSpr rt r).Inv := by
  unfold State.readSpr
  split
  · exact h.drawn.setGpr _ _
  · exact (h.afterMasked _).setGpr _ _

theorem State.Inv.execMfspr {s : State} (h : s.Inv) (rt : Reg) (n : RegNum) : KeepsInv (execMfspr rt n s) := by
  refine h.sprAccess n ?_
  split
  · exact (h.readSpr rt _).done
  · exact (h.setGpr rt _).done
  · exact keepsInv_refused _

theorem State.Inv.setPitReload {s : State} (h : s.Inv) (v : Word) : ({ s with pitReload := v } : State).Inv :=
  h.congr rfl rfl rfl rfl rfl rfl rfl rfl

theorem State.Inv.writeSpr {s : State} (h : s.Inv) (r : Spr) (v : Word) : (s.writeSpr r v).Inv := by
  have hw : ((if r.isContext then s.openWindow else s).setSpr r (r.written (s.spr r) v)).Inv := by
    refine State.Inv.setSpr ?_ _ _
    split
    · exact h.openWindow
    · exact h
  unfold State.writeSpr
  dsimp only
  split
  · exact hw.setPitReload v
  · exact hw

theorem State.Inv.mtsprReg {s : State} (h : s.Inv) (r : Spr) (v : Word) : KeepsInv (mtsprReg r v s) := by
  unfold Machine.mtsprReg
  split
  · split
    · exact keepsInv_fault _
    · exact (h.writeSpr _ _).done
  · split
    · exact keepsInv_refused _
    · split
      · exact keepsInv_next (h.resetFrom _ _)
      · exact (h.writeSpr _ _).done
  · split
    · exact keepsInv_refused _
    · exact (h.writeSpr _ _).done
  · exact (h.writeSpr _ _).done

theorem State.Inv.execMtspr {s : State} (h : s.Inv) (n : RegNum) (rs : Reg) : KeepsInv (execMtspr n rs s) := by
  refine h.sprAccess n ?_
  split
  · exact h.mtsprReg _ _
  · exact keepsInv_next ((h.advance.setTb _).tbEvents _ _)
  · exact (h.setTb _).done
  · exact keepsInv_refused _

theorem State.Inv.setDcrs {s : State} (h : s.Inv) (d : List (RegNum × Word)) : ({ s with dcrs := d } : State).Inv :=
  h.congr rfl rfl rfl rfl rfl rfl rfl rfl

theorem State.Inv.execMfdcr {s : State} (h : s.Inv) (rt : Reg) (n : RegNum) : KeepsInv (execMfdcr rt n s) := by
  refine h.privileged ?_
  split
  · exact ((h.setDcrs _).setGpr _ _).done
  · exact keepsInv_refused _

theorem storageOnly_redoAll (ws : List (List Overwrite)) (s : State) :
    StorageOnly s (ws.foldr (fun w t => t.redo w) s) := by
  induction ws with
  | nil => exact .refl s
  | cons w ws ih => exact ih.trans (storageOnly_busWrite _ _)

/-- A new memory map is a storage operation under the new map. -/
theorem storageOnly_remap (s : State) (map : List Region) : StorageOnly { s with memMap := map } (s.remap map) :=
  (show StorageOnly { s with memMap := map } { s with mem := s.busMem, memMap := map, unsettled := [] } from rfl).trans
    (storageOnly_redoAll s.unsettled _)

theorem State.Inv.setMemMap {s : State} (h : s.Inv) (map : List Region) : ({ s with memMap := map } : State).Inv :=
  h.congr rfl rfl rfl rfl rfl rfl rfl rfl

theorem State.Inv.remap {s : State} (h : s.Inv) (map : List Region) : (s.remap map).Inv :=
  (h.setMemMap map).of_storage (h.storage.remap map) (storageOnly_remap s map)

theorem State.Inv.execMtdcr {s : State} (h : s.Inv) (n : RegNum) (rs : Reg) : KeepsInv (execMtdcr n rs s) := by
  refine h.privileged ?_
  split
  · exact ((h.openWindow.setDcrs _).remap _).done
  · exact keepsInv_refused _

theorem State.Inv.trapIf {s : State} (h : s.Inv) (c : Bool) : KeepsInv (trapIf c s) := by
  unfold Machine.trapIf
  split
  · exact h.raise _
  · exact h.done

end Sys2Proof.Machine
end

section
/-! SUPPORT. The invariant at reset, through every instruction and through a step. -/

namespace Sys2Proof.Machine

/-! ### The invariant at reset -/

/-- Settles O59. -/
theorem invReset : Obligations.InvReset where
  pc_aligned := by decide
  msr_reserved := by decide
  spr_reserved := fun r => by cases r <;> decide
  mem_wf := reset_mem_wf
  dcache_wf := by decide
  icache_wf := by decide
  dcache_distinct := fun _ hd => by cases hd.1
  icache_distinct := fun _ hd => by cases hd.1
  unsettled_bound := fun _ hw => by cases hw
  ahead_aligned := fun _ hf => by cases hf

/-! ### Every instruction -/

/-- Every instruction keeps the invariant. -/
theorem State.Inv.exec {s : State} (h : s.Inv) (i : Instr) : KeepsInv (exec i s) := by
  cases i with
  -- Storage reference
  | lbz | lbzx | lhz | lhzx | lha | lhax | lwz | lwzx | lhbrx | lwbrx => exact h.loadInto _ _ _ _
  | lbzu | lbzux | lhzu | lhzux | lhau | lhaux | lwzu | lwzux => exact h.loadUpdate _ _ _ _ _
  | stb | stbx | sth | sthx | stw | stwx | sthbrx | stwbrx => exact h.storeAt _ _
  | stbu | stbux | sthu | sthux | stwu | stwux => exact h.storeUpdate _ _ _
  | lmw => exact h.execLmw _ _ _
  | stmw => exact h.execStmw _ _ _
  | lswi => exact (h.loadString _ _ _).validForm _ _
  | lswx => exact h.execLswx _ _ _
  | stswi => exact h.storeString _ _ _
  | stswx => exact h.execStswx _ _ _
  | lwarx => exact h.execLwarx _ _ _
  | stwcxDot => exact h.execStwcxDot _ _ _
  -- Arithmetic and multiply-accumulate
  | add | addc | adde | addic | addicDot | addme | addze | subf | subfc | subfe | subfic | subfme | subfze | neg | mullw
  | macchw | macchws | macchwsu | macchwu | machhw | machhws | machhwsu | machhwu | maclhw | maclhws | maclhwsu | maclhwu
  | nmacchw | nmacchws | nmachhw | nmachhws | nmaclhw | nmaclhws =>
    exact (h.writeResult _ _ _ _ _ _).done
  | addi | addis | mulli => exact (h.setGpr _ _).done
  | mulhw | mulhwu | mulchw | mulchwu | mulhhw | mulhhwu | mullhw | mullhwu => exact (h.writeLogical _ _ _).done
  | divw | divwu => exact h.divide _ _ _ _ _
  -- Logical, compare, rotate and shift
  | and | andc | andiDot | andisDot | cntlzw | eqv | extsb | extsh | nand | nor | or | orc | xor
  | rlwimi | rlwinm | rlwnm | slw | srw =>
    exact (h.writeLogical _ _ _).done
  | ori | oris | xori | xoris => exact (h.setGpr _ _).done
  | cmp | cmpi | cmpl | cmpli => exact h.compareInto _ _ _
  | sraw | srawi => exact (h.writeResult _ _ _ _ _ _).done
  -- Branches and condition register logic
  | b => exact h.branchTo _ _ (h.target_aligned _ (dispLI_aligned _))
  | bc => exact ((h.countDown _).branchTo _ _ (h.target_aligned _ (dispBD_aligned _))).validForm _ _
  | bclr => exact ((h.countDown _).branchTo _ _ (alignPc_aligned _)).validForm _ _
  | bcctr => exact (h.branchTo _ _ (alignPc_aligned _)).validForm _ _
  | crand | crandc | creqv | crnand | crnor | cror | crorc | crxor => exact (h.setCr _).done
  | mcrf => exact (h.setCrField _ _).done
  -- Cache management
  | icbi => exact h.execIcbi _ _
  | icbt => exact h.execIcbt _ _
  | iccci => exact h.execIccci _ _
  | icread => exact h.execIcread _ _
  | dcbf => exact h.execDcbf _ _
  | dcbi => exact h.execDcbi _ _
  | dcbz => exact h.execDcbz _ _
  | dcbst => exact h.execDcbst _ _
  | dcbt | dcbtst => exact h.dataTouch _
  | dccci => exact h.execDccci _ _
  | dcba => exact h.execDcba _ _
  | dcread => exact h.execDcread _ _ _
  -- Interrupt control and TLB
  | mfmsr => exact h.privileged ((h.afterMasked _).setGpr _ _).done
  | rfi | rfci => exact h.privileged (keepsInv_next (h.returnFrom _ _))
  | mtmsr => exact h.privileged ((h.openWindow.setMsr _).setEeWindow _).done
  | wrtee | wrteei => exact h.privileged (h.writeEE _).done
  | tlbsx => exact h.execTlbsx _ _ _ _
  | tlbia => exact h.privileged (h.openWindow.setTlb _).done
  | tlbre => exact h.execTlbre _ _ _
  | tlbwe => exact h.privileged ((h.openWindow.setTlb _).done.validForm _ _)
  | tlbsync => exact h.privileged h.done
  -- Processor management
  | eieio | sync => exact h.complete.done
  | isync => exact h.contextSync.done
  | mcrxr => exact ((h.setCrField _ _).setSpr _ _).done
  | mfcr => exact (h.setGpr _ _).done
  | mfdcr => exact h.execMfdcr _ _
  | mfspr => exact h.execMfspr _ _
  | mftb => exact (h.setGpr _ _).done.validForm _ _
  | mtcrf => exact (h.setCr _).done
  | mtdcr => exact h.execMtdcr _ _
  | mtspr => exact h.execMtspr _ _
  | sc => exact h.raise _
  | tw | twi => exact h.trapIf _

/-! ### A step -/

theorem State.Inv.setStuck {s : State} (h : s.Inv) (b : Bool) : ({ s with stuck := b } : State).Inv :=
  h.congr rfl rfl rfl rfl rfl rfl rfl rfl

theorem State.Inv.instructionBusError {s : State} (h : s.Inv) : (instructionBusError s).Inv := by
  unfold Machine.instructionBusError
  split
  · exact h.takeException _
  · exact (h.setSpr _ _).setStuck true

theorem State.Inv.runFetched {s : State} (h : s.Inv) (r : FetchResult) : KeepsInv (runFetched r s) := by
  cases r with
  | word w =>
    unfold Machine.runFetched
    dsimp only
    split
    · exact h.exec _
    · exact h.raise _
    · exact keepsInv_refused _
  | busError => exact keepsInv_next h.instructionBusError
  | tlbMiss => exact h.raise _
  | denied zone => exact h.raise _
  | refused r => exact keepsInv_refused r

theorem State.Inv.boundary {s : State} (h : s.Inv) (i : Input) : KeepsInv (boundary i s) := by
  unfold Machine.boundary
  split
  · exact keepsInv_fault _
  · split
    · exact keepsInv_next (h.passBoundary.takeInterrupt _ _)
    · split
      · exact keepsInv_next h.passBoundary
      · exact (h.passBoundary.fetchNext _ _).resolve.runFetched _

/-- Settles O60: the outside keeps the invariant, and so does whatever the boundary then takes or runs. -/
theorem invStep : Obligations.InvStep := fun s t h ht => (h.applyInput s.nextInput).boundary s.nextInput t ht

end Sys2Proof.Machine
end

section
/-! SUPPORT. The time base and the device control registers. -/

namespace Sys2Proof.Machine

/-! ### The device control registers -/

/-- A listed register read after it is written. -/
theorem dcrGet_put_self {d : List (RegNum × Word)} {n : RegNum} {w : Word} (h : dcrGet d n = some w) (v : Word) :
    dcrGet (dcrPut d n v) n = some v := by
  induction d with
  | nil => cases h
  | cons e t ih =>
    obtain ⟨m, u⟩ := e
    by_cases hm : m = n
    · simp [dcrPut, dcrGet, hm]
    · simp only [dcrGet, hm, if_false] at h
      simpa [dcrPut, dcrGet, hm] using ih h

/-- Another register read after one is written. -/
theorem dcrGet_put_ne (d : List (RegNum × Word)) {n m : RegNum} (h : m ≠ n) (v : Word) :
    dcrGet (dcrPut d n v) m = dcrGet d m := by
  induction d with
  | nil => rfl
  | cons e t ih =>
    obtain ⟨k, u⟩ := e
    by_cases hk : k = n
    · have hkm : ¬ k = m := fun e => h (e.symm.trans hk)
      simp [dcrPut, dcrGet, hk, h.symm, ih]
    · simp [dcrPut, dcrGet, hk, ih]

/-! ### A new memory map -/

/-- A byte that no bus write names is not changed by undoing them. -/
theorem memGet_undoWrites (m : Memory) {ws : List (List Overwrite)} {a : Nat} (h : ∀ w ∈ ws, ∀ o ∈ w, o.addr ≠ a) :
    memGet (undoWrites m ws) a = memGet m a := by
  induction ws generalizing m with
  | nil => rfl
  | cons w ws ih =>
    refine (ih _ fun v hv => h v (List.mem_cons_of_mem _ hv)).trans (memGet_putAll_ne _ _ _ fun c hc => ?_)
    obtain ⟨o, ho, rfl⟩ := List.mem_map.1 hc
    exact h w List.mem_cons_self o ho

/-- A byte that a bus write does not name is not changed by doing it again. -/
theorem memGet_redo (s : State) {w : List Overwrite} {a : Nat} (h : ∀ o ∈ w, o.addr ≠ a) :
    memGet (s.redo w).mem a = memGet s.mem a := by
  refine memGet_putAll_ne _ _ _ fun c hc => ?_
  obtain ⟨o, ho, rfl⟩ := List.mem_map.1 (List.mem_filter.1 hc).1
  exact h o ho

/-- Bus writes done again leave the data cache, and every byte that none of them names. -/
theorem redoAll_bytes (s : State) {ws : List (List Overwrite)} {a : Nat} (h : ∀ w ∈ ws, ∀ o ∈ w, o.addr ≠ a) :
    (ws.foldr (fun w t => t.redo w) s).dcache = s.dcache ∧
      memGet (ws.foldr (fun w t => t.redo w) s).mem a = memGet s.mem a := by
  induction ws with
  | nil => exact ⟨rfl, rfl⟩
  | cons w ws ih =>
    obtain ⟨hd, hm⟩ := ih fun v hv => h v (List.mem_cons_of_mem _ hv)
    exact ⟨hd, (memGet_redo _ (h w List.mem_cons_self)).trans hm⟩

/-- What the program sees of a byte depends on the data cache and on that byte of memory alone. -/
theorem dataByte_congr_at {s t : State} {a : Word} (hd : t.dcache = s.dcache)
    (hm : memGet t.mem a.toNat = memGet s.mem a.toNat) : t.dataByte a = s.dataByte a := by
  simp only [State.dataByte, State.dLine, State.dFind, State.dset, hd, hm]

/-- Under a new memory map a byte reads as before where no write that has not arrived names it. -/
theorem dataByte_remap (s : State) (map : List Region) {a : Word}
    (h : ∀ w ∈ s.unsettled, ∀ o ∈ w, o.addr ≠ a.toNat) : (s.remap map).dataByte a = s.dataByte a := by
  obtain ⟨hd, hm⟩ := redoAll_bytes { s with mem := s.busMem, memMap := map, unsettled := [] } h
  exact dataByte_congr_at hd (hm.trans (memGet_undoWrites s.mem h))

/-! ### The time base -/

/-- The bits of TBL that the FIT and the watchdog can watch. -/
theorem watched_bits (tcr : Word) :
    fitBit tcr ∈ [3, 7, 11, 15, 19, 23] ∧ watchdogBit tcr ∈ [3, 7, 11, 15, 19, 23] := by
  have key : ∀ x : BitVec 2, 23 - 4 * x.toNat ∈ [3, 7, 11, 15, 19, 23] ∧ 15 - 4 * x.toNat ∈ [3, 7, 11, 15, 19, 23] := by
    decide
  exact ⟨(key _).1, (key _).2⟩

/-- Where no watched bit rises, a change of TBL sets nothing off. -/
theorem tbEvents_quiet {old new : Word} (h : ∀ b ∈ [3, 7, 11, 15, 19, 23], bitAt old b = false → bitAt new b = false)
    (s : State) : tbEvents old new s = s := by
  have hr : ∀ b ∈ [3, 7, 11, 15, 19, 23], rises b old new = false := fun b hb => by
    unfold rises
    cases ho : bitAt old b
    · rw [h b hb ho]; rfl
    · rfl
  obtain ⟨hf, hw⟩ := watched_bits (s.spr .tcr)
  simp only [tbEvents, hr _ hf, hr _ hw, Bool.false_eq_true, if_false]

/-- An SPR number in supervisor mode goes to its register. -/
theorem sprAccess_supervisor {s : State} (h : s.userMode = false) (n : RegNum) (k : Result) : sprAccess n s k = k := by
  simp [sprAccess, h]

theorem keepsBytesAndGprs_setTb (s : State) (v : BitVec 64) :
    KeepsBytesAndGprs s ({ s with tb := v } : State).advance := ⟨fun _ => rfl, rfl, rfl, rfl, fun _ => rfl⟩

/-- `mtspr` to TBU. -/
theorem exec_mtspr_tbu {s : State} (h : s.userMode = false) (r : Reg) :
    exec (.mtspr 0x11D r) s = .next ({ s with tb := s.gpr r ++ s.tbl } : State).advance :=
  sprAccess_supervisor h _ _

/-- `mtspr` to TBL, where no watched bit rises. -/
theorem exec_mtspr_tbl {s : State} (h : s.userMode = false) {r : Reg}
    (hb : ∀ b ∈ [3, 7, 11, 15, 19, 23], bitAt s.tbl b = false → bitAt (s.gpr r) b = false) :
    exec (.mtspr 0x11C r) s = .next ({ s with tb := s.tbu ++ s.gpr r } : State).advance :=
  (sprAccess_supervisor h _ _).trans (congrArg Host.Outcome.next (tbEvents_quiet hb _))

/-- `mftb` of a number that is no half of the time base. -/
theorem exec_mftb_refused (s : State) (r : Reg) {n : RegNum} (hl : n ≠ 268) (hu : n ≠ 269) :
    exec (.mftb r n) s = .refused .tbrNotImplemented := by
  have hn : tbrOk n = false := by simpa [tbrOk] using ⟨hl, hu⟩
  show validForm (tbrOk n) _ _ = _
  rw [hn]
  rfl

/-! ### Moves to and from the device control registers -/

/-- The state after `mfdcr` of a register that holds `w`. -/
def afterMfdcr (s : State) (r : Reg) (n : RegNum) (w : Word) : State :=
  ({ s with dcrs := dcrPut s.dcrs n (Config.dcrAfterRead n w) }.setGpr r (Config.dcrRead n w)).advance

/-- The state after `mtdcr` to a register that holds `w`. -/
def afterMtdcr (s : State) (r : Reg) (n : RegNum) (w : Word) : State :=
  ({ s.openWindow with dcrs := dcrPut s.dcrs n (Config.dcrWrite n w (s.gpr r)) }.remap
    (Config.dcrMap n (s.gpr r) s.memMap)).advance

theorem exec_mfdcr {s : State} (h : s.userMode = false) (r : Reg) {n : RegNum} {w : Word} (hw : dcrGet s.dcrs n = some w) :
    exec (.mfdcr r n) s = .next (afterMfdcr s r n w) := by
  refine (privileged_supervisor h _).trans ?_
  rw [hw]
  rfl

theorem exec_mtdcr {s : State} (h : s.userMode = false) (r : Reg) {n : RegNum} {w : Word} (hw : dcrGet s.dcrs n = some w) :
    exec (.mtdcr n r) s = .next (afterMtdcr s r n w) := by
  refine (privileged_supervisor h _).trans ?_
  rw [hw]
  rfl

theorem exec_mfdcr_refused {s : State} (h : s.userMode = false) (r : Reg) {n : RegNum} (hn : dcrGet s.dcrs n = none) :
    exec (.mfdcr r n) s = .refused .dcrNotImplemented := by
  refine (privileged_supervisor h _).trans ?_
  rw [hn]

theorem exec_mtdcr_refused {s : State} (h : s.userMode = false) (r : Reg) {n : RegNum} (hn : dcrGet s.dcrs n = none) :
    exec (.mtdcr n r) s = .refused .dcrNotImplemented := by
  refine (privileged_supervisor h _).trans ?_
  rw [hn]

/-- Settles O49: each clause is the state its instruction leaves, read part by part. -/
theorem timeBaseAndDcrs : Obligations.TimeBaseAndDcrs := by
  intro s r n v
  refine ⟨⟨_, rfl, setGpr_spec s r _⟩, ⟨_, rfl, setGpr_spec s r _⟩, exec_mftb_refused s r, fun hs => ⟨?_, ?_, ?_, ?_⟩⟩
  · exact ⟨_, exec_mtspr_tbu hs r, rfl, fun _ => rfl, rfl, rfl, rfl, rfl, keepsBytesAndGprs_setTb s _⟩
  · exact fun hb => ⟨_, exec_mtspr_tbl hs hb, rfl, fun _ => rfl, rfl, rfl, rfl, rfl, keepsBytesAndGprs_setTb s _⟩
  · intro w hw
    refine ⟨⟨_, exec_mfdcr hs r hw, ?_⟩, ⟨_, exec_mtdcr hs r hw, ?_⟩⟩
    · exact ⟨State.gpr_setGpr_self _ r _, fun q hq => State.gpr_setGpr_ne _ _ hq, dcrGet_put_self hw _,
        fun m hm => dcrGet_put_ne _ hm _, fun _ => rfl, rfl, rfl, rfl, rfl, rfl, rfl, rfl, fun _ => rfl⟩
    · let u : State := { s.openWindow with dcrs := dcrPut s.dcrs n (Config.dcrWrite n w v) }
      have hr : StorageOnly { u with memMap := Config.dcrMap n v s.memMap } (u.remap (Config.dcrMap n v s.memMap)) :=
        storageOnly_remap u _
      have hdcrs : (afterMtdcr s r n w).dcrs = dcrPut s.dcrs n (Config.dcrWrite n w v) := hr.part State.dcrs
      exact ⟨hdcrs ▸ dcrGet_put_self hw _, fun m hm => hdcrs ▸ dcrGet_put_ne _ hm _, hr.memMap, hr.gpr, hr.spr,
        hr.part State.cr, congrArg (· + 4) (hr.part State.pc), hr.part State.msr, hr.part State.tlb, hr.part State.tb,
        hr.part State.pitReload, hr.part State.reserve, hr.part State.icache, fun a ha => dataByte_remap u _ ha⟩
  · exact fun hn => ⟨exec_mfdcr_refused hs r hn, exec_mtdcr_refused hs r hn⟩

end Sys2Proof.Machine
end

section
/-! SUPPORT. The numbers of the special purpose registers: what `mfspr` and `mtspr` find at a number, as the lists of
10_state.md R54. -/

namespace Sys2Proof.Machine

/-- A number that reads and writes one register is listed with it. -/
theorem mem_sprNumbers_of_sprBoth {k : Nat} {r : Spr} (h : sprBoth k = some r) :
    (BitVec.ofNat 10 k, r) ∈ sprNumbers := by
  unfold sprBoth at h
  split at h
  case h_43 => cases h
  all_goals
    cases h
    decide

/-- What `mtspr` finds at a number: a half of the time base, a listed register, or nothing. -/
theorem sprTarget_cases {n : RegNum} {x : SprTarget} (h : sprTarget n = some x) :
    (x = .tbl ∧ n = 0x11C) ∨ (x = .tbu ∧ n = 0x11D) ∨ ∃ r, x = .reg r ∧ (n, r) ∈ sprNumbers := by
  unfold sprTarget at h
  split at h
  · cases h
    exact .inl ⟨rfl, BitVec.eq_of_toNat_eq ‹_›⟩
  · cases h
    exact .inr (.inl ⟨rfl, BitVec.eq_of_toNat_eq ‹_›⟩)
  · obtain ⟨r, hr, rfl⟩ := Option.map_eq_some_iff.1 h
    exact .inr (.inr ⟨r, rfl, by simpa using mem_sprNumbers_of_sprBoth hr⟩)

/-- `mtspr` finds a stored register exactly at the numbers listed with it. -/
theorem sprTarget_reg_iff {n : RegNum} {r : Spr} : sprTarget n = some (.reg r) ↔ (n, r) ∈ sprNumbers := by
  have table : ∀ e ∈ sprNumbers, sprTarget e.1 = some (.reg e.2) := by decide
  refine ⟨fun h => ?_, table (n, r)⟩
  obtain ⟨hx, -⟩ | ⟨hx, -⟩ | ⟨q, hx, hq⟩ := sprTarget_cases h
  · cases hx
  · cases hx
  · cases hx
    exact hq

/-- `mtspr` finds nothing at a number that is neither listed nor a half of the time base. -/
theorem sprTarget_none {n : RegNum} (hl : n ≠ 0x11C) (hu : n ≠ 0x11D) (h : ∀ r, (n, r) ∉ sprNumbers) :
    sprTarget n = none := by
  rw [Option.eq_none_iff_forall_ne_some]
  intro x hx
  obtain ⟨-, hn⟩ | ⟨-, hn⟩ | ⟨r, -, hr⟩ := sprTarget_cases hx
  · exact hl hn
  · exact hu hn
  · exact h r hr

/-- What `mfspr` finds at a number: the PVR, a listed register, or nothing. -/
theorem sprSource_cases {n : RegNum} {x : SprSource} (h : sprSource n = some x) :
    (x = .pvr ∧ n = 0x11F) ∨ ∃ r, x = .reg r ∧ (n, r) ∈ readNumbers := by
  have named : ∀ {r : Spr} {k : RegNum}, n.toNat = k.toNat → (k, r) ∈ readNumbers → (n, r) ∈ readNumbers :=
    fun hk hm => BitVec.eq_of_toNat_eq hk ▸ hm
  unfold sprSource at h
  split at h
  case h_5 => exact .inl ⟨by cases h; rfl, BitVec.eq_of_toNat_eq ‹_›⟩
  case h_7 =>
    obtain ⟨r, hr, rfl⟩ := Option.map_eq_some_iff.1 h
    exact .inr ⟨r, rfl, List.mem_append_left _ (by simpa using mem_sprNumbers_of_sprBoth hr)⟩
  case h_1 hn => cases h; exact .inr ⟨_, rfl, named (k := 0x104) hn (by decide)⟩
  case h_2 hn => cases h; exact .inr ⟨_, rfl, named (k := 0x105) hn (by decide)⟩
  case h_3 hn => cases h; exact .inr ⟨_, rfl, named (k := 0x106) hn (by decide)⟩
  case h_4 hn => cases h; exact .inr ⟨_, rfl, named (k := 0x107) hn (by decide)⟩
  case h_6 hn => cases h; exact .inr ⟨_, rfl, named (k := 0x3D3) hn (by decide)⟩

/-- `mfspr` finds a stored register exactly at the numbers listed with it. -/
theorem sprSource_reg_iff {n : RegNum} {r : Spr} : sprSource n = some (.reg r) ↔ (n, r) ∈ readNumbers := by
  have table : ∀ e ∈ readNumbers, sprSource e.1 = some (.reg e.2) := by decide
  refine ⟨fun h => ?_, table (n, r)⟩
  obtain ⟨hx, -⟩ | ⟨q, hx, hq⟩ := sprSource_cases h
  · cases hx
  · cases hx
    exact hq

end Sys2Proof.Machine
end

section
/-! SUPPORT. What an instruction does to the registers the supervisor controls: said once for every instruction. -/

namespace Sys2Proof.Machine

/-! ### The control registers -/

/-- The part of a state that is the supervisor's, with the special purpose registers of the user: MSR, special purpose
registers, time base, PIT_RELOAD, TLB, DCRs and memory map, everything else as after reset. -/
def State.control (s : State) : State :=
  { State.reset with
    msr := s.msr, sprs := s.sprs, tb := s.tb, pitReload := s.pitReload, tlb := s.tlb, dcrs := s.dcrs
    memMap := s.memMap }

/-- Two states with the same control registers. -/
def SameControl (s t : State) : Prop := t.control = s.control

/-- Two states with the same control registers, but for the special purpose registers of `W`. -/
def SameControlBut (W : Spr → Prop) (s t : State) : Prop :=
  { t.control with sprs := s.sprs } = s.control ∧ ∀ r, ¬W r → t.spr r = s.spr r

theorem SameControl.refl (s : State) : SameControl s s := rfl

theorem SameControl.trans {s t u : State} (h : SameControl s t) (k : SameControl t u) : SameControl s u := Eq.trans k h

theorem SameControl.spr {s t : State} (h : SameControl s t) (r : Spr) : t.spr r = s.spr r := congrArg (·.spr r) h

theorem SameControl.but {s t : State} (h : SameControl s t) (W : Spr → Prop) : SameControlBut W s t :=
  ⟨congrArg (fun x : State => { x with sprs := s.sprs }) h, fun r _ => h.spr r⟩

/-- Another register of `W` written. -/
theorem SameControlBut.setSpr {W : Spr → Prop} {s t : State} (h : SameControlBut W s t) {r : Spr} (hr : W r)
    (v : Word) : SameControlBut W s (t.setSpr r v) :=
  ⟨h.1, fun q hq =>
    (State.spr_setSpr_ne t v (show q ≠ r from fun e => hq (e ▸ hr))).trans (h.2 q hq)⟩

theorem sameControlBut_setSpr {W : Spr → Prop} (s : State) {r : Spr} (hr : W r) (v : Word) :
    SameControlBut W s (s.setSpr r v) := ((SameControl.refl s).but W).setSpr hr v

/-- Any part of the control registers but the special purpose registers. -/
theorem SameControlBut.part {W : Spr → Prop} {s t : State} {α : Sort _} (h : SameControlBut W s t) (f : State → α) :
    f { t.control with sprs := s.sprs } = f s.control := congrArg f h.1

theorem SameControlBut.spr {W : Spr → Prop} {s t : State} (h : SameControlBut W s t) {r : Spr} (hr : ¬W r) :
    t.spr r = s.spr r := h.2 r hr

theorem SameControlBut.msr {W : Spr → Prop} {s t : State} (h : SameControlBut W s t) : t.msr = s.msr := h.part State.msr

theorem SameControlBut.trans {W : Spr → Prop} {s t u : State} (h : SameControlBut W s t) (k : SameControlBut W t u) :
    SameControlBut W s u :=
  ⟨(congrArg (fun x : State => { x with sprs := s.sprs }) k.1).trans h.1, fun r hr => (k.2 r hr).trans (h.2 r hr)⟩

theorem SameControlBut.mono {W X : Spr → Prop} {s t : State} (h : SameControlBut W s t) (hw : ∀ r, W r → X r) :
    SameControlBut X s t := ⟨h.1, fun r hr => h.2 r fun hx => hr (hw r hx)⟩

/-- A storage access keeps the control registers. -/
theorem AccessOnly.sameControl {s t : State} (h : AccessOnly s t) : SameControl s t := h.part State.control

theorem StorageOnly.sameControl {s t : State} (h : StorageOnly s t) : SameControl s t := h.part State.control

/-- A fetch keeps the control registers. -/
theorem FetchOnly.sameControl {s t : State} (h : FetchOnly s t) : SameControl s t := h.part State.control

/-! ### How an instruction ends -/

/-- Every exception but the instruction machine check, which no instruction raises, enters with class non-critical. -/
def Exc.nonCritical : Exc → Bool
  | .instructionMachineCheck => false
  | _ => true

/-- An exception is taken from a state with the same control registers. -/
def Raises (s t : State) : Prop := ∃ e u, e.nonCritical = true ∧ SameControl s u ∧ t = takeException e u

/-- The next state of an outcome, if it has one, is that of an exception taken, or meets `P`. -/
def RaisesOr (s : State) (P : State → Prop) (r : Result) : Prop := ∀ t, r = .next t → Raises s t ∨ P t

variable {s : State} {P : State → Prop}

theorem raisesOr_next {t : State} (h : P t) : RaisesOr s P (.next t) := fun _ ht => by cases ht; exact .inr h

theorem raisesOr_refused (r : Refusal) : RaisesOr s P (.refused r) := fun _ ht => by cases ht

theorem raisesOr_fault (f : Fault) : RaisesOr s P (.fault f) := fun _ ht => by cases ht

theorem raisesOr_raise {u : State} (hu : SameControl s u) {e : Exc} (he : e.nonCritical = true) :
    RaisesOr s P (.next (takeException e u)) := fun _ ht => by cases ht; exact .inl ⟨e, u, he, hu, rfl⟩

/-- An instruction that goes on to the next one with the control registers as they were. -/
theorem raisesOr_done {t : State} (h : SameControl s t) : RaisesOr s (SameControl s) (done t) := raisesOr_next h

theorem RaisesOr.privileged {k : Result} (h : RaisesOr s P k) : RaisesOr s P (privileged s k) := by
  unfold Machine.privileged
  split
  · exact raisesOr_raise (.refl s) rfl
  · exact h

/-- A privileged instruction does nothing but trap in user mode. -/
theorem raisesOr_privileged_user (h : s.userMode = true) (k : Result) : RaisesOr s P (Machine.privileged s k) :=
  privileged_user h k ▸ raisesOr_raise (.refl s) rfl

theorem RaisesOr.sprAccess {k : Result} (n : RegNum) (h : RaisesOr s P k) : RaisesOr s P (sprAccess n s k) := by
  unfold Machine.sprAccess
  split
  · exact raisesOr_raise (.refl s) rfl
  · exact h

theorem RaisesOr.validForm {k : Result} (h : RaisesOr s P k) (ok : Bool) (r : Refusal) :
    RaisesOr s P (validForm ok r k) := by
  unfold Machine.validForm
  split
  · exact h
  · exact raisesOr_refused r

/-! ### Accesses -/

/-- A stop is a refusal, or an exception of the non-critical class. -/
def Stop.nonCritical : Stop → Bool
  | .exc e => e.nonCritical
  | .refuse _ => true

theorem locate_error {ea : Word} {store : Bool} {e : Stop} (h : locate s ea store = .error e) :
    e.nonCritical = true := by
  unfold locate at h
  split at h
  · cases h; rfl
  · cases h; rfl
  · split at h
    · cases h; rfl
    · split at h
      · cases h; rfl
      · split at h
        · cases h; rfl
        · cases h

theorem locateBytes_error {store : Bool} {n : Nat} {ea : Word} {e : Stop} (h : locateBytes s store n ea = .error e) :
    e.nonCritical = true := by
  induction n generalizing ea with
  | zero => cases h
  | succ n ih =>
    unfold locateBytes at h
    split at h
    · rename_i hl; cases h; exact locate_error hl
    · split at h
      · rename_i hl; cases h; exact ih hl
      · cases h

theorem access_error {ea : Word} {n : Nat} {store : Bool} {e : Stop} (h : access s ea n store = .error e) :
    e.nonCritical = true := by
  unfold access at h
  split at h
  · rename_i hl; cases h; exact locateBytes_error hl
  · split at h
    · cases h; rfl
    · cases h

theorem raisesOr_stopWith {e : Stop} (h : e.nonCritical = true) : RaisesOr s P (stopWith s e) := by
  cases e with
  | exc x => exact raisesOr_raise (.refl s) h
  | refuse r => exact raisesOr_refused r

theorem raisesOr_withLoad (ea : Word) (n : Nat) {k : Word → State → Result}
    (hk : ∀ v t, SameControl s t → RaisesOr s P (k v t)) : RaisesOr s P (withLoad s ea n k) := by
  unfold Machine.withLoad
  split
  · exact raisesOr_stopWith (access_error ‹_›)
  · exact hk _ _ (accessOnly_loadItem s _).sameControl

theorem raisesOr_withStore (ea : Word) (bs : List Byte) {k : State → Result}
    (hk : ∀ t, SameControl s t → RaisesOr s P (k t)) : RaisesOr s P (withStore s ea bs k) := by
  unfold Machine.withStore
  split
  · exact raisesOr_stopWith (access_error ‹_›)
  · exact hk _ (accessOnly_storeItem s _ _).sameControl

theorem raisesOr_missOnly (ea : Word) (store : Bool) {k : Page → Result} (hk : ∀ p, RaisesOr s P (k p)) :
    RaisesOr s P (missOnly s ea store k) := by
  unfold Machine.missOnly
  split
  · exact raisesOr_raise (.refl s) rfl
  · exact raisesOr_refused _
  · exact hk _

theorem raisesOr_withBlock (ea : Word) (store : Bool) {k : Page → Result} (hk : ∀ p, RaisesOr s P (k p)) :
    RaisesOr s P (withBlock s ea store k) := by
  unfold Machine.withBlock
  split
  · exact raisesOr_stopWith (locate_error ‹_›)
  · exact hk _

theorem raisesOr_ifAllowed (ea : Word) (store : Bool) {k : Page → Result}
    (hk : ∀ p, RaisesOr s (SameControl s) (k p)) : RaisesOr s (SameControl s) (ifAllowed s ea store k) := by
  unfold Machine.ifAllowed
  split
  · exact raisesOr_done (.refl s)
  · exact raisesOr_refused _
  · exact hk _

theorem sameControl_loadWords (k : Nat) (s : State) (r : Reg) (ps : List PByte) :
    SameControl s (s.loadWords k r ps) := by
  induction k generalizing s r ps with
  | zero => exact .refl s
  | succ k ih => exact (accessOnly_loadBytes s (ps.take 4)).sameControl.trans (ih _ _ _)

theorem sameControl_storeWords (k : Nat) (s : State) (r : Reg) (ps : List PByte) :
    SameControl s (s.storeWords k r ps) := by
  induction k generalizing s r ps with
  | zero => exact .refl s
  | succ k ih => exact (accessOnly_storeBytes s (ps.take 4) _).sameControl.trans (ih _ _ _)

theorem sameControl_fillRegisters (k : Nat) (s : State) (r : Reg) (bs : List Byte) :
    SameControl s (s.fillRegisters k r bs) := by
  induction k generalizing s r bs with
  | zero => exact .refl s
  | succ k ih => exact ih (s.setGpr r _) (r + 1) (bs.drop 4)

theorem raisesOr_loadInto (rt : Reg) (ea : Word) (n : Nat) (f : Word → Word) :
    RaisesOr s (SameControl s) (loadInto s rt ea n f) := raisesOr_withLoad ea n fun _ _ h => raisesOr_done h

theorem raisesOr_loadUpdate (rt ra : Reg) (ea : Word) (n : Nat) (f : Word → Word) :
    RaisesOr s (SameControl s) (loadUpdate s rt ra ea n f) := by
  refine RaisesOr.validForm ?_ _ _
  exact raisesOr_withLoad ea n fun _ _ h => raisesOr_done h

theorem raisesOr_storeAt (ea : Word) (bs : List Byte) : RaisesOr s (SameControl s) (storeAt s ea bs) :=
  raisesOr_withStore ea bs fun _ h => raisesOr_done h

theorem raisesOr_storeUpdate (ra : Reg) (ea : Word) (bs : List Byte) :
    RaisesOr s (SameControl s) (storeUpdate s ra ea bs) := by
  refine RaisesOr.validForm ?_ _ _
  exact raisesOr_withStore ea bs fun _ h => raisesOr_done h

theorem raisesOr_loadString (rt : Reg) (ea : Word) (n : Nat) : RaisesOr s (SameControl s) (loadString s rt ea n) := by
  unfold Machine.loadString
  split
  · exact raisesOr_stopWith (access_error ‹_›)
  · exact raisesOr_done ((accessOnly_loadBytes s _).sameControl.trans (sameControl_fillRegisters ..))

theorem raisesOr_storeString (rs : Reg) (ea : Word) (n : Nat) : RaisesOr s (SameControl s) (storeString s rs ea n) := by
  unfold Machine.storeString
  split
  · exact raisesOr_stopWith (access_error ‹_›)
  · exact raisesOr_done (accessOnly_storeBytes s _ _).sameControl

theorem raisesOr_execLmw (rt ra : Reg) (d : Half) : RaisesOr s (SameControl s) (execLmw rt ra d s) := by
  refine RaisesOr.validForm ?_ _ _
  split
  · exact raisesOr_stopWith (access_error ‹_›)
  · exact raisesOr_done (sameControl_loadWords ..)

theorem raisesOr_execStmw (rs ra : Reg) (d : Half) : RaisesOr s (SameControl s) (execStmw rs ra d s) := by
  unfold Machine.execStmw
  split
  · exact raisesOr_stopWith (access_error ‹_›)
  · exact raisesOr_done (sameControl_storeWords ..)

theorem raisesOr_execLswx (rt ra rb : Reg) : RaisesOr s (SameControl s) (execLswx rt ra rb s) := by
  refine RaisesOr.validForm ?_ _ _
  split
  · exact raisesOr_done (.refl s)
  · exact raisesOr_loadString _ _ _

theorem raisesOr_execStswx (rs ra rb : Reg) : RaisesOr s (SameControl s) (execStswx rs ra rb s) := by
  unfold Machine.execStswx
  split
  · exact raisesOr_done (.refl s)
  · exact raisesOr_storeString _ _ _

theorem raisesOr_execLwarx (rt ra rb : Reg) : RaisesOr s (SameControl s) (execLwarx rt ra rb s) := by
  unfold Machine.execLwarx
  split
  · unfold alignmentAfterChecks
    split
    · exact raisesOr_stopWith (access_error ‹_›)
    · exact raisesOr_raise (.refl s) rfl
  · exact raisesOr_withLoad _ _ fun _ _ h => raisesOr_done h

theorem raisesOr_execStwcxDot (rs ra rb : Reg) : RaisesOr s (SameControl s) (execStwcxDot rs ra rb s) := by
  unfold Machine.execStwcxDot
  split
  · exact raisesOr_raise (.refl s) rfl
  · split
    · exact raisesOr_withStore _ _ fun _ h => raisesOr_done h
    · exact raisesOr_done (.refl s)

end Sys2Proof.Machine
end

section
/-! SUPPORT. The control registers through every instruction, by what it may write of them. -/

namespace Sys2Proof.Machine

variable {s : State}

/-! ### Cache and system instructions that keep the control registers -/

theorem sameControl_iDropBlock (s : State) (ea ra : Word) : SameControl s (s.iDropBlock ea ra) := by
  unfold State.iDropBlock
  dsimp only
  split <;> rfl

theorem sameControl_iTouch (s : State) (ea : Word) (p : Page) : SameControl s (s.iTouch ea p) := by
  unfold State.iTouch
  split
  · exact .refl s
  · exact (fetchOnly_iFill s _ _ _ _).sameControl

theorem sameControl_afterMasked (s : State) (mask : Word) : SameControl s (s.afterMasked mask) := by
  unfold State.afterMasked
  split <;> rfl

theorem sameControl_setFound (s : State) (rc found : Bool) : SameControl s (s.setFound rc found) := by
  unfold State.setFound
  split <;> rfl

theorem sameControl_readSpr (s : State) (rt : Reg) (r : Spr) : SameControl s (s.readSpr rt r) := by
  unfold State.readSpr
  split
  · rfl
  · exact sameControl_afterMasked s _

theorem sameControl_dropFillBuffer {t : State} (h : SameControl s t) (b : Nat) : SameControl s (t.dropFillBuffer b) :=
  h.trans (storageOnly_dropFillBuffer t b).sameControl

theorem raisesOr_execIcbt (ra rb : Reg) : RaisesOr s (SameControl s) (execIcbt ra rb s) := by
  refine RaisesOr.privileged (raisesOr_missOnly _ _ fun p => ?_)
  split
  · exact raisesOr_done (.refl s)
  · exact raisesOr_done (sameControl_iTouch ..)

theorem raisesOr_execDcbz (ra rb : Reg) : RaisesOr s (SameControl s) (execDcbz ra rb s) := by
  refine raisesOr_withBlock _ _ fun p => ?_
  split
  · exact raisesOr_raise (.refl s) rfl
  · split
    · split
      · exact raisesOr_done (storageOnly_dZero s.drawn _).sameControl
      · exact raisesOr_raise (u := s.drawn) rfl rfl
    · exact raisesOr_done (storageOnly_dZero s _).sameControl

theorem raisesOr_dataTouch (ea : Word) : RaisesOr s (SameControl s) (dataTouch s ea) := by
  refine raisesOr_ifAllowed _ _ fun p => ?_
  split
  · exact raisesOr_done (.refl s)
  · exact raisesOr_done (storageOnly_dFill s _).sameControl

theorem raisesOr_execDccci (ra rb : Reg) : RaisesOr s (SameControl s) (execDccci ra rb s) := by
  have invalidated : ∀ t : State, SameControl s t → ∀ i b,
      RaisesOr s (SameControl s) (done ((t.dInvalidateClass i).dropFillBuffer b)) := fun t ht i b =>
    raisesOr_done (sameControl_dropFillBuffer (ht.trans (storageOnly_dInvalidateClass t i).sameControl) b)
  refine RaisesOr.privileged (raisesOr_missOnly _ _ fun p => ?_)
  dsimp only
  split
  · split
    · exact raisesOr_raise (u := s.drawn) rfl rfl
    · exact invalidated s.drawn rfl _ _
  · exact invalidated s (.refl s) _ _

theorem raisesOr_execDcba (ra rb : Reg) : RaisesOr s (SameControl s) (execDcba ra rb s) := by
  refine raisesOr_ifAllowed _ _ fun p => ?_
  split
  · exact raisesOr_done (.refl s)
  · exact raisesOr_done (t := State.busy _) (sameControl_dropFillBuffer (storageOnly_dAllocate s _).sameControl _)

theorem raisesOr_execDcread (rt ra rb : Reg) : RaisesOr s (SameControl s) (execDcread rt ra rb s) := by
  refine RaisesOr.privileged (raisesOr_missOnly _ _ fun p => ?_)
  split
  · exact raisesOr_raise (.refl s) rfl
  · split
    · exact raisesOr_done (sameControl_afterMasked s _)
    · exact raisesOr_done (.refl s)

theorem raisesOr_execTlbsx (rt ra rb : Reg) (rc : Bool) : RaisesOr s (SameControl s) (execTlbsx rt ra rb rc s) := by
  refine RaisesOr.privileged ?_
  split
  · exact raisesOr_done (sameControl_setFound (s.drawn.setGpr rt _) rc false)
  · exact raisesOr_done (sameControl_setFound (s.setGpr rt _) rc true)
  · exact raisesOr_refused _

theorem raisesOr_execMfspr (rt : Reg) (n : RegNum) : RaisesOr s (SameControl s) (execMfspr rt n s) := by
  refine RaisesOr.sprAccess n ?_
  split
  · exact raisesOr_done (sameControl_readSpr ..)
  · exact raisesOr_done (.refl s)
  · exact raisesOr_refused _

theorem raisesOr_compareInto (bf : BitVec 3) (l : Bool) (f : BitVec 4) :
    RaisesOr s (SameControl s) (compareInto s bf l f) :=
  RaisesOr.validForm (raisesOr_done (t := s.setCrField bf f) rfl) _ _

theorem raisesOr_trapIf (c : Bool) : RaisesOr s (SameControl s) (trapIf c s) := by
  unfold Machine.trapIf
  split
  · exact raisesOr_raise (.refl s) rfl
  · exact raisesOr_done (.refl s)

/-! ### Flags -/

/-- SO is sticky, and OV is written by an o form alone (10_state.md R39, R40). -/
def Sticky (oe : Bool) (s t : State) : Prop :=
  t.xerSO = (s.xerSO || (oe && t.xerOV)) ∧ (oe = false → t.xerOV = s.xerOV)

/-- An outcome is a next state in which the XER alone of the control registers may differ, with SO sticky. -/
def WritesFlags (oe : Bool) (s : State) (r : Result) : Prop :=
  ∀ t, r = .next t → SameControlBut (· = .xer) s t ∧ Sticky oe s t

theorem SameControl.sticky {t : State} (h : SameControl s t) : Sticky false s t := by
  have hx : t.spr .xer = s.spr .xer := h.spr .xer
  simp [Sticky, State.xerSO, State.xerOV, hx]

theorem writesFlags_writeResult (rt : Reg) (v : Word) (oe ov : Bool) (ca : Option Bool) (rc : Bool) :
    WritesFlags oe s (done (s.writeResult rt v oe ov ca rc)) := by
  intro t ht
  cases ht
  have hw := writeResult_spec s rt v oe ov ca rc
  refine ⟨⟨?_, fun r hr => hw.rest.sprs r hr⟩, ?_, fun h => ?_⟩
  · cases oe <;> cases ca <;> rfl
  · rw [hw.so, hw.overflow]
    cases oe <;> rfl
  · rw [hw.overflow, h]
    rfl

theorem Sticky.trans_same {oe : Bool} {t u : State} (h : Sticky oe s t) (k : SameControl t u) : Sticky oe s u := by
  have hx : u.spr .xer = t.spr .xer := k.spr .xer
  simpa only [Sticky, State.xerSO, State.xerOV, hx] using h

/-- The overflow of an o form recorded. -/
theorem sticky_setOverflow (s : State) : Sticky true s (s.setSpr .xer (overflowXer true true (s.spr .xer))) := by
  have hb : ∀ b < 3, bitAt ((s.setSpr .xer (overflowXer true true (s.spr .xer))).spr .xer) b =
      bitAt (overflowXer true true (s.spr .xer)) b := fun b hb => by rw [State.spr_setSpr_self, bitAt_xer _ b hb]
  have hso : (s.setSpr .xer (overflowXer true true (s.spr .xer))).xerSO = true := by
    rw [State.xerSO, hb 0 (by decide)]
    simp [overflowXer, bitAt_withBit]
  have hov : (s.setSpr .xer (overflowXer true true (s.spr .xer))).xerOV = true := by
    rw [State.xerOV, hb 1 (by decide)]
    simp [overflowXer, bitAt_withBit]
  exact ⟨by rw [hso, hov]; simp, fun h => by cases h⟩

/-- A quotient that is not defined sets SO and OV in an o form, and leaves the XER in another. -/
theorem sameControl_writeUndefinedQuotient (s : State) (rt : Reg) (oe rc : Bool) :
    SameControl (if oe then s.setSpr .xer (overflowXer true true (s.spr .xer)) else s)
      (s.writeUndefinedQuotient rt oe rc).advance := by
  cases oe <;> cases rc <;> rfl

theorem writesFlags_undefined (rt : Reg) (oe rc : Bool) :
    WritesFlags oe s (done (s.writeUndefinedQuotient rt oe rc)) := by
  intro t ht
  cases ht
  have h := sameControl_writeUndefinedQuotient s rt oe rc
  cases oe with
  | false => exact ⟨SameControl.but h _, SameControl.sticky h⟩
  | true =>
    have hx : SameControlBut (· = .xer) s (s.setSpr .xer (overflowXer true true (s.spr .xer))) :=
      sameControlBut_setSpr (W := (· = .xer)) s rfl _
    exact ⟨hx.trans (SameControl.but h _), (sticky_setOverflow s).trans_same h⟩

theorem writesFlags_divide (undefined : Bool) (rt : Reg) (v : Word) (oe rc : Bool) :
    WritesFlags oe s (if undefined then done (s.writeUndefinedQuotient rt oe rc)
      else done (s.writeResult rt v oe false none rc)) := by
  split
  · exact writesFlags_undefined _ _ _
  · exact writesFlags_writeResult _ _ _ _ _ _

/-! ### Every instruction -/

/-- What an instruction may write of the control registers. -/
inductive ControlEffect where
  /-- Nothing. -/
  | keeps
  /-- The XER, by its result. -/
  | flags
  /-- The LR and the CTR. -/
  | branch
  /-- Registers its operands or its own rule name. -/
  | moves
  deriving DecidableEq

/-- What each instruction may write of the control registers. -/
def controlEffect : Instr → ControlEffect
  | .add .. | .addc .. | .adde .. | .addic .. | .addicDot .. | .addme .. | .addze .. | .subf .. | .subfc .. | .subfe ..
  | .subfic .. | .subfme .. | .subfze .. | .neg .. | .mullw .. | .divw .. | .divwu .. => .flags
  | .macchw .. | .macchws .. | .macchwsu .. | .macchwu .. | .machhw .. | .machhws .. | .machhwsu .. | .machhwu ..
  | .maclhw .. | .maclhws .. | .maclhwsu .. | .maclhwu .. | .nmacchw .. | .nmacchws .. | .nmachhw .. | .nmachhws ..
  | .nmaclhw .. | .nmaclhws .. | .sraw .. | .srawi .. => .flags
  | .b .. | .bc .. | .bclr .. | .bcctr .. => .branch
  | .mcrxr .. | .mtspr .. | .mfdcr .. | .mtdcr .. | .mtmsr .. | .rfi | .rfci | .wrtee .. | .wrteei .. | .tlbia
  | .tlbre .. | .tlbwe .. | .icread .. => .moves
  | _ => .keeps

/-- An instruction that writes no control register raises an exception or leaves them all as they were. -/
theorem exec_keeps {i : Instr} (hi : controlEffect i = .keeps) : RaisesOr s (SameControl s) (exec i s) := by
  cases i with
  -- Storage reference
  | lbz | lbzx | lhz | lhzx | lha | lhax | lwz | lwzx | lhbrx | lwbrx => exact raisesOr_loadInto _ _ _ _
  | lbzu | lbzux | lhzu | lhzux | lhau | lhaux | lwzu | lwzux => exact raisesOr_loadUpdate _ _ _ _ _
  | stb | stbx | sth | sthx | stw | stwx | sthbrx | stwbrx => exact raisesOr_storeAt _ _
  | stbu | stbux | sthu | sthux | stwu | stwux => exact raisesOr_storeUpdate _ _ _
  | lmw => exact raisesOr_execLmw _ _ _
  | stmw => exact raisesOr_execStmw _ _ _
  | lswi => exact RaisesOr.validForm (raisesOr_loadString _ _ _) _ _
  | lswx => exact raisesOr_execLswx _ _ _
  | stswi => exact raisesOr_storeString _ _ _
  | stswx => exact raisesOr_execStswx _ _ _
  | lwarx => exact raisesOr_execLwarx _ _ _
  | stwcxDot => exact raisesOr_execStwcxDot _ _ _
  -- Integer results without flags in the XER, condition register moves, the time base
  | addi | addis | mulli | ori | oris | xori | xoris | mfcr => exact raisesOr_done (t := s.setGpr _ _) rfl
  | mulhw | mulhwu | mulchw | mulchwu | mulhhw | mulhhwu | mullhw | mullhwu
  | and | andc | andiDot | andisDot | cntlzw | eqv | extsb | extsh | nand | nor | or | orc | xor
  | rlwimi | rlwinm | rlwnm | slw | srw => exact raisesOr_done (t := s.writeLogical _ _ _) rfl
  | cmp | cmpi | cmpl | cmpli => exact raisesOr_compareInto _ _ _
  | crand | crandc | creqv | crnand | crnor | cror | crorc | crxor | mtcrf =>
    exact raisesOr_done (t := { s with cr := _ }) rfl
  | mcrf => exact raisesOr_done (t := s.setCrField _ _) rfl
  | mftb => exact RaisesOr.validForm (raisesOr_done (t := s.setGpr _ _) rfl) _ _
  | mfmsr => exact RaisesOr.privileged (raisesOr_done (sameControl_afterMasked s _))
  | mfspr => exact raisesOr_execMfspr _ _
  -- Cache management
  | icbi => exact raisesOr_withBlock _ _ fun p => raisesOr_done (sameControl_iDropBlock s.openWindow _ _)
  | icbt => exact raisesOr_execIcbt _ _
  | iccci => exact RaisesOr.privileged (raisesOr_missOnly _ _ fun _ => raisesOr_done rfl)
  | dcbf => exact raisesOr_withBlock _ _ fun p => raisesOr_done (storageOnly_dFlush s _).sameControl
  | dcbi =>
    exact RaisesOr.privileged (raisesOr_withBlock _ _ fun p =>
      raisesOr_done (sameControl_dropFillBuffer (storageOnly_dInvalidate s _).sameControl _))
  | dcbz => exact raisesOr_execDcbz _ _
  | dcbst => exact raisesOr_withBlock _ _ fun p => raisesOr_done (storageOnly_dClean s _).sameControl
  | dcbt | dcbtst => exact raisesOr_dataTouch _
  | dccci => exact raisesOr_execDccci _ _
  | dcba => exact raisesOr_execDcba _ _
  | dcread => exact raisesOr_execDcread _ _ _
  -- The TLB, synchronization, traps
  | tlbsx => exact raisesOr_execTlbsx _ _ _ _
  | tlbsync => exact RaisesOr.privileged (raisesOr_done (.refl s))
  | eieio | sync => exact raisesOr_done (t := s.complete) rfl
  | isync => exact raisesOr_done (t := s.contextSync) rfl
  | sc => exact raisesOr_raise (.refl s) rfl
  | tw | twi => exact raisesOr_trapIf _
  | _ => cases hi

/-- An instruction with a result and flags writes the XER alone, SO sticky. -/
theorem exec_flags {i : Instr} (hi : controlEffect i = .flags) : WritesFlags (overflowEnabled i) s (exec i s) := by
  cases i with
  | add | addc | adde | addic | addicDot | addme | addze | subf | subfc | subfe | subfic | subfme | subfze | neg | mullw
  | macchw | macchws | macchwsu | macchwu | machhw | machhws | machhwsu | machhwu | maclhw | maclhws | maclhwsu | maclhwu
  | nmacchw | nmacchws | nmachhw | nmachhws | nmaclhw | nmaclhws | sraw | srawi =>
    exact writesFlags_writeResult _ _ _ _ _ _
  | divw | divwu => exact writesFlags_divide _ _ _ _ _
  | _ => cases hi

/-- The registers a branch may write. -/
def branchSpr (r : Spr) : Prop := r = .lr ∨ r = .ctr

theorem SameControlBut.link {t : State} (h : SameControlBut branchSpr s t) (lk : Bool) :
    SameControlBut branchSpr s (t.link lk) := by
  unfold State.link
  split
  · exact h.setSpr (.inl rfl) _
  · exact h

theorem sameControlBut_countDown (s : State) (bo : BitVec 5) : SameControlBut branchSpr s (s.countDown bo) := by
  unfold State.countDown
  split
  · exact (SameControl.refl s).but _
  · exact sameControlBut_setSpr s (.inr rfl) _

theorem SameControlBut.branchTo {t : State} (h : SameControlBut branchSpr s t) (lk taken : Bool) (target : Word) :
    RaisesOr s (SameControlBut branchSpr s) (branchTo t lk taken target) :=
  raisesOr_next (t := (t.link lk).setPc _) (h.link lk)

/-- A branch writes the LR and the CTR alone. -/
theorem exec_branch {i : Instr} (hi : controlEffect i = .branch) :
    RaisesOr s (SameControlBut branchSpr s) (exec i s) := by
  have same : SameControlBut branchSpr s s := (SameControl.refl s).but _
  cases i with
  | b => exact same.branchTo _ _ _
  | bc bo | bclr bo => exact RaisesOr.validForm ((sameControlBut_countDown s bo).branchTo _ _ _) _ _
  | bcctr => exact RaisesOr.validForm (same.branchTo _ _ _) _ _
  | _ => cases hi

end Sys2Proof.Machine
end

section
/-! SUPPORT. A user program and the supervisor's registers (60_exceptions.md R561). -/

namespace Sys2Proof.Machine

/-- An exception of the non-critical class rewrites ESR and DEAR and takes an interrupt of that class. -/
theorem takeException_interrupt {e : Exc} (he : e.nonCritical = true) (s : State) :
    ∃ k ret u, k.kind = .nonCritical ∧ SameControlBut (fun r => r = .esr ∨ r = .dear) s u ∧
      takeException e s = takeInterrupt k ret u := by
  have same : SameControlBut (fun r => r = .esr ∨ r = .dear) s s := (SameControl.refl s).but _
  cases e with
  | dataStorage ea | dataTlbMiss ea => exact ⟨_, _, _, rfl, (same.setSpr (.inr rfl) ea).setSpr (.inl rfl) _, rfl⟩
  | alignment ea => exact ⟨_, _, _, rfl, same.setSpr (.inr rfl) ea, rfl⟩
  | program | instructionStorage => exact ⟨_, _, _, rfl, same.setSpr (.inl rfl) _, rfl⟩
  | systemCall | instructionTlbMiss => exact ⟨_, _, _, rfl, same, rfl⟩
  | instructionMachineCheck => cases he

/-- What no user program writes, whatever becomes of its instruction. -/
structure SystemKept (s t : State) : Prop where
  tlb : t.tlb = s.tlb
  tb : t.tb = s.tb
  pitReload : t.pitReload = s.pitReload
  dcrs : t.dcrs = s.dcrs
  memMap : t.memMap = s.memMap

theorem SameControlBut.systemKept {W : Spr → Prop} {s t : State} (h : SameControlBut W s t) : SystemKept s t :=
  ⟨h.part State.tlb, h.part State.tb, h.part State.pitReload, h.part State.dcrs, h.part State.memMap⟩

/-- An interrupt of the non-critical class has been entered: at its vector, in supervisor mode, translation and external
interrupts off; the save registers, ESR and DEAR alone may have changed. -/
structure AtVector (s t : State) (k : Interrupt) : Prop where
  pc : t.pc = (s.spr .evpr &&& 0xFFFF0000) ||| k.offset
  supervisor : t.msrPR = false
  fetchReal : t.msrIR = false
  dataReal : t.msrDR = false
  masked : t.msrEE = false
  srr1 : t.spr .srr1 &&& msrMask = s.msr &&& msrMask
  sprs : ∀ r, r ≠ .srr0 → r ≠ .srr1 → r ≠ .esr → r ≠ .dear → t.spr r = s.spr r

theorem Raises.atVector {s t : State} (h : Raises s t) : SystemKept s t ∧ ∃ k, AtVector s t k := by
  obtain ⟨e, v, he, hv, rfl⟩ := h
  obtain ⟨k, ret, u, hk, hu, ht⟩ := takeException_interrupt he v
  have hsu := (hv.but (fun r => r = .esr ∨ r = .dear)).trans hu
  have kept := hsu.systemKept
  have enters := takeInterrupt_spec k ret u hk
  have cleared : ∀ b, bitAt 0x00021200 b = false → bitAt (takeInterrupt k ret u).msr b = false := fun b hb => by
    rw [enters.msr, bitAt_and, hb, Bool.and_false]
  rw [ht]
  refine ⟨⟨?_, ?_, ?_, ?_, ?_⟩, k, ⟨?_, ?_, ?_, ?_, ?_, ?_, ?_⟩⟩
  · exact enters.tlb.trans kept.tlb
  · exact enters.tb.trans kept.tb
  · exact enters.pitReload.trans kept.pitReload
  · exact enters.dcrs.trans kept.dcrs
  · exact enters.memMap.trans kept.memMap
  · rw [enters.pc, hsu.spr (r := .evpr) (by simp)]
  · exact cleared 17 (by decide)
  · exact cleared 26 (by decide)
  · exact cleared 27 (by decide)
  · exact cleared 16 (by decide)
  · rw [enters.srr1, hsu.msr]
  · intro r h0 h1 he hd
    exact (enters.sprs r h0 h1 he hd).trans (hsu.spr (by simp [he, hd]))

/-! ### Moves in user mode -/

theorem not_privileged_target {n : RegNum} {r : Spr} (h : (n, r) ∈ sprNumbers) (hp : sprPrivileged n = false) :
    userSpr r = true := by
  have table : ∀ e ∈ sprNumbers, sprPrivileged e.1 = false → userSpr e.2 = true := by decide
  exact table (n, r) h hp

variable {s : State}

/-- `mtspr` in user mode writes one of the user's registers, or traps. -/
theorem execMtspr_user (h : s.userMode = true) (n : RegNum) (rs : Reg) :
    RaisesOr s (SameControlBut (userSpr · = true) s) (execMtspr n rs s) := by
  unfold execMtspr Machine.sprAccess
  rw [h]
  cases hp : sprPrivileged n with
  | true => exact raisesOr_raise (.refl s) rfl
  | false =>
    cases ht : sprTarget n with
    | none => exact raisesOr_refused _
    | some x =>
      obtain ⟨-, rfl⟩ | ⟨-, rfl⟩ | ⟨r, rfl, hr⟩ := sprTarget_cases ht
      · cases hp
      · cases hp
      · have hu := not_privileged_target hr hp
        cases r with
        | xer | lr | ctr | usprg0 =>
          exact raisesOr_next (t := State.advance (s.setSpr _ _)) (sameControlBut_setSpr s hu _)
        | _ => cases hu

/-- An instruction run in user mode traps, or writes no control register but the user's. -/
theorem exec_user (h : s.userMode = true) (i : Instr) : RaisesOr s (SameControlBut (userSpr · = true) s) (exec i s) := by
  intro t ht
  cases hi : controlEffect i with
  | keeps => exact (exec_keeps hi t ht).imp_right fun k => k.but _
  | flags => exact .inr ((exec_flags hi t ht).1.mono fun r hr => by cases hr; rfl)
  | branch => exact (exec_branch hi t ht).imp_right fun k => k.mono fun r hr => by rcases hr with rfl | rfl <;> rfl
  | moves =>
    revert t
    cases i with
    | mcrxr bf =>
      have same : SameControlBut (userSpr · = true) s (s.setCrField bf (condField s.xerSO s.xerOV s.xerCA false)) :=
        (SameControl.refl s).but _
      exact raisesOr_next (t := State.advance (State.setSpr _ _ _)) (same.setSpr rfl _)
    | mtspr n rs => exact execMtspr_user h n rs
    | mfdcr | mtdcr | mtmsr | rfi | rfci | wrtee | wrteei | tlbia | tlbre | tlbwe | icread =>
      exact raisesOr_privileged_user h _
    | _ => cases hi

/-- Settles O53: an instruction run in user mode raises an exception, which enters at a vector, or writes no control
register but the user's. -/
theorem userIsolation : Obligations.UserIsolation := by
  intro i s t hs ht
  obtain hr | hk := exec_user hs i t ht
  · obtain ⟨kept, k, v⟩ := hr.atVector
    exact ⟨kept.tlb, kept.tb, kept.pitReload, kept.dcrs, kept.memMap, .inr
      ⟨k, v.pc, v.supervisor, v.fetchReal, v.dataReal, v.masked, v.srr1, v.sprs⟩⟩
  · have kept := hk.systemKept
    exact ⟨kept.tlb, kept.tb, kept.pitReload, kept.dcrs, kept.memMap, .inl
      ⟨hk.msr, fun r hr => hk.spr (by simp [hr])⟩⟩

end Sys2Proof.Machine
end

section
/-! SUPPORT. XER[SO] through every instruction (10_state.md R40). -/

namespace Sys2Proof.Machine

variable {s : State}

/-! ### Instructions that write other control registers -/

/-- An exception leaves the XER. -/
theorem Raises.xer {t : State} (h : Raises s t) : t.spr .xer = s.spr .xer := by
  obtain ⟨-, k, hk⟩ := h.atVector
  exact hk.sprs .xer (by decide) (by decide) (by decide) (by decide)

/-- The XER after a register that is not the XER is written. -/
theorem xer_setSpr (s : State) {r : Spr} (hr : .xer ≠ r) (v : Word) : (s.setSpr r v).spr .xer = s.spr .xer :=
  State.spr_setSpr_ne s v hr

theorem xer_setTsrBit (s : State) (b : Nat) : (s.setTsrBit b).spr .xer = s.spr .xer := xer_setSpr s (by decide) _

/-- A reset leaves the XER as it was: undefined after a reset by 70_reset_and_hazards.md R602, kept by the model. -/
theorem xer_resetFrom (k : ResetKind) (wrs : BitVec 2) (s : State) : (resetFrom k wrs s).spr .xer = s.spr .xer := by
  simp only [resetFrom, State.spr_setSpr, reduceCtorEq, if_false]
  rfl

theorem xer_watchdogTimeOut (s : State) : (watchdogTimeOut s).spr .xer = s.spr .xer := by
  unfold watchdogTimeOut
  split
  · exact xer_setTsrBit s 0
  · split
    · exact xer_setTsrBit s 1
    · split
      · exact xer_resetFrom ..
      · rfl

theorem xer_tbEvents (old new : Word) (s : State) : (tbEvents old new s).spr .xer = s.spr .xer := by
  have hf : (if rises (fitBit (s.spr .tcr)) old new then s.setTsrBit 5 else s).spr .xer = s.spr .xer := by
    split
    · exact xer_setTsrBit s 5
    · rfl
  unfold tbEvents
  dsimp only
  split
  · exact (xer_watchdogTimeOut _).trans hf
  · exact hf

theorem xer_writeSpr (s : State) {r : Spr} (hr : .xer ≠ r) (v : Word) : (s.writeSpr r v).spr .xer = s.spr .xer := by
  have hw : ((if r.isContext then s.openWindow else s).setSpr r (r.written (s.spr r) v)).spr .xer = s.spr .xer := by
    refine (xer_setSpr _ hr _).trans ?_
    split <;> rfl
  unfold State.writeSpr
  dsimp only
  split <;> exact hw

/-- An outcome is no next state, or one that raises an exception or keeps the XER. -/
def KeepsXer (s : State) (r : Result) : Prop := RaisesOr s (fun t => t.spr .xer = s.spr .xer) r

theorem keepsXer_mtsprReg {r : Spr} (hr : .xer ≠ r) (v : Word) : KeepsXer s (mtsprReg r v s) := by
  unfold Machine.mtsprReg
  split
  · split
    · exact raisesOr_fault _
    · exact raisesOr_next (xer_writeSpr s hr v)
  · split
    · exact raisesOr_refused _
    · split
      · exact raisesOr_next (xer_resetFrom ..)
      · exact raisesOr_next (xer_writeSpr s hr v)
  · split
    · exact raisesOr_refused _
    · exact raisesOr_next (xer_writeSpr s hr v)
  · exact raisesOr_next (xer_writeSpr s hr v)

/-- The XER has one number. -/
theorem eq_one_of_xer {n : RegNum} (h : (n, Spr.xer) ∈ sprNumbers) : n = 1 := by
  have table : ∀ e ∈ sprNumbers, e.2 = .xer → e.1 = 1 := by decide
  exact table (n, .xer) h rfl

theorem keepsXer_execMtspr {n : RegNum} (hn : n ≠ 1) (rs : Reg) : KeepsXer s (execMtspr n rs s) := by
  refine RaisesOr.sprAccess n ?_
  split
  · rename_i r hr
    exact keepsXer_mtsprReg (fun e => hn (eq_one_of_xer (e ▸ sprTarget_reg_iff.1 hr))) _
  · exact raisesOr_next (xer_tbEvents _ _ _)
  · exact raisesOr_next rfl
  · exact raisesOr_refused _

theorem keepsXer_execTlbre (rt ra : Reg) (ws : BitVec 5) : KeepsXer s (execTlbre rt ra ws s) := by
  refine RaisesOr.privileged (RaisesOr.validForm ?_ _ _)
  split
  · exact raisesOr_next (xer_setSpr (s.openWindow.setGpr rt _) (by decide) _)
  · exact raisesOr_next rfl

theorem keepsXer_execMfdcr (rt : Reg) (n : RegNum) : KeepsXer s (execMfdcr rt n s) := by
  refine RaisesOr.privileged ?_
  split
  · exact raisesOr_next rfl
  · exact raisesOr_refused _

theorem keepsXer_execMtdcr (n : RegNum) (rs : Reg) : KeepsXer s (execMtdcr n rs s) := by
  refine RaisesOr.privileged ?_
  split
  · exact raisesOr_next ((storageOnly_remap { s.openWindow with dcrs := _ } _).spr .xer)
  · exact raisesOr_refused _

/-- An instruction whose rule names the registers it writes keeps the XER, but for `mcrxr` and `mtspr` to the XER. -/
theorem keepsXer_of_moves {i : Instr} (hi : controlEffect i = .moves) (hc : ∀ bf, i ≠ .mcrxr bf)
    (hx : ∀ rs, i ≠ .mtspr 1 rs) : KeepsXer s (exec i s) := by
  cases i with
  | mcrxr bf => exact absurd rfl (hc bf)
  | mtspr n rs => exact keepsXer_execMtspr (fun e => hx rs (e ▸ rfl)) rs
  | mfdcr => exact keepsXer_execMfdcr _ _
  | mtdcr => exact keepsXer_execMtdcr _ _
  | mtmsr | wrtee | wrteei | tlbia | rfi | rfci => exact RaisesOr.privileged (raisesOr_next rfl)
  | tlbre => exact keepsXer_execTlbre _ _ _
  | tlbwe =>
    refine RaisesOr.privileged (RaisesOr.validForm ?_ _ _)
    exact raisesOr_next rfl
  | icread =>
    exact RaisesOr.privileged (raisesOr_missOnly _ _ fun _ => raisesOr_next (xer_setSpr s (by decide) _))
  | _ => cases hi

/-! ### Every instruction -/

theorem sticky_of_xer {t : State} (h : t.spr .xer = s.spr .xer) : Sticky false s t := by
  simp [Sticky, State.xerSO, State.xerOV, h]

/-- OE belongs to instructions with flags alone. -/
theorem overflowEnabled_eq_false {i : Instr} (hi : controlEffect i ≠ .flags) : overflowEnabled i = false := by
  cases i with
  | add | addc | adde | addme | addze | subf | subfc | subfe | subfme | subfze | neg | mullw | divw | divwu
  | macchw | macchws | macchwsu | macchwu | machhw | machhws | machhwsu | machhwu | maclhw | maclhws | maclhwsu | maclhwu
  | nmacchw | nmacchws | nmachhw | nmachhws | nmaclhw | nmaclhws => exact absurd rfl hi
  | _ => rfl

/-- SO is sticky through every instruction but the two that write it. -/
theorem exec_sticky {i : Instr} {t : State} (ht : exec i s = .next t) (hc : ∀ bf, i ≠ .mcrxr bf)
    (hx : ∀ rs, i ≠ .mtspr 1 rs) : Sticky (overflowEnabled i) s t := by
  have keeps : controlEffect i ≠ .flags → t.spr .xer = s.spr .xer → Sticky (overflowEnabled i) s t :=
    fun hi h => overflowEnabled_eq_false hi ▸ sticky_of_xer h
  cases hi : controlEffect i with
  | flags => exact (exec_flags hi t ht).2
  | keeps => exact keeps (by simp [hi]) ((exec_keeps hi t ht).elim Raises.xer fun h => h.spr .xer)
  | branch =>
    exact keeps (by simp [hi]) ((exec_branch hi t ht).elim Raises.xer fun h => h.spr (by simp [branchSpr]))
  | moves => exact keeps (by simp [hi]) ((keepsXer_of_moves hi hc hx t ht).elim Raises.xer id)

theorem exec_mtspr_xer (rs : Reg) (s : State) : exec (.mtspr 1 rs) s = done (s.setSpr .xer (s.gpr rs)) := by
  have hp : sprPrivileged 1 = false := by decide
  show sprAccess 1 s _ = _
  simp only [Machine.sprAccess, hp, Bool.and_false, Bool.false_eq_true, if_false]
  rfl

/-- Settles O11: `mtspr` to the XER and `mcrxr` write SO and OV outright, every other instruction keeps SO sticky. The
excluded resets keep the XER too in the model. -/
theorem summaryOverflow : Obligations.SummaryOverflow := by
  intro i s t ht _
  refine ⟨fun hc hx => exec_sticky ht hc hx, ?_, ?_⟩
  · rintro rs rfl
    rw [exec_mtspr_xer] at ht
    cases ht
    have hb : ∀ b < 3, bitAt ((s.setSpr .xer (s.gpr rs)).spr .xer) b = bitAt (s.gpr rs) b := fun b hb => by
      rw [State.spr_setSpr_self, bitAt_xer _ b hb]
    exact ⟨hb 0 (by decide), hb 1 (by decide)⟩
  · rintro bf rfl
    cases ht
    have hb : ∀ b < 3, bitAt ((s.setSpr .xer (s.spr .xer &&& 0x1FFFFFFF)).spr .xer) b = false := fun b hb => by
      rw [State.spr_setSpr_self, bitAt_xer _ b hb, bitAt_and]
      have : bitAt 0x1FFFFFFF b = false := by interval_cases b <;> rfl
      rw [this, Bool.and_false]
    exact ⟨hb 0 (by decide), hb 1 (by decide)⟩

end Sys2Proof.Machine
end

section
/-! SUPPORT. Moves to and from the special purpose registers (48 R497, R501, R505, R506). -/

namespace Sys2Proof.Machine

variable {s : State}

/-- A number that may be accessed goes to its register. -/
theorem sprAccess_of_mayAccess {n : RegNum} (h : mayAccess s n) (k : Result) : sprAccess n s k = k := by
  obtain hu | hp := h
  · simp [Machine.sprAccess, hu]
  · simp [Machine.sprAccess, hp]

/-! ### Reads -/

theorem exec_mfspr_reg {n : RegNum} {r : Spr} (h : mayAccess s n) (hr : (n, r) ∈ readNumbers) (rt : Reg) :
    exec (.mfspr rt n) s = done (s.readSpr rt r) := by
  refine (sprAccess_of_mayAccess h _).trans ?_
  rw [sprSource_reg_iff.2 hr]

theorem exec_mfspr_refused {n : RegNum} (h : mayAccess s n) (hn : sprSource n = none) (rt : Reg) :
    exec (.mfspr rt n) s = .refused .sprNotImplemented := by
  refine (sprAccess_of_mayAccess h _).trans ?_
  rw [hn]

/-- One general register written, one free value later. -/
theorem setGpr_drawn_spec (s : State) (rt : Reg) (v : Word) : WritesGpr s (s.drawn.setGpr rt v).advance rt v where
  result := State.gpr_setGpr_self _ rt v
  others _ h := State.gpr_setGpr_ne s.drawn v h
  next := rfl
  cr := rfl
  sprs _ := rfl
  system := keepsSystem_of rfl rfl rfl rfl rfl rfl rfl rfl rfl rfl

/-- A read with free reserved bits writes RT alone. -/
theorem writesGpr_afterMasked (s : State) (mask : Word) (rt : Reg) (v : Word) :
    WritesGpr s ((s.afterMasked mask).setGpr rt v).advance rt v := by
  unfold State.afterMasked
  split
  · exact setGpr_spec s rt v
  · exact setGpr_drawn_spec s rt v

/-- `mfspr` writes RT alone, a free word where ICDBDR is not settled, else the register's bits. -/
theorem readSpr_spec (s : State) (rt : Reg) (r : Spr) :
    ∃ v, WritesGpr s (s.readSpr rt r).advance rt v ∧
      ((r = .icdbdr → s.icdbdrPending = false) → v &&& s.readMask r = s.spr r &&& s.readMask r) := by
  unfold State.readSpr
  split
  · rename_i hp
    obtain ⟨hr, hpend⟩ : r = .icdbdr ∧ s.icdbdrPending = true := by simpa using hp
    exact ⟨_, setGpr_drawn_spec s rt _, fun hs => by cases (hs hr).symm.trans hpend⟩
  · exact ⟨_, writesGpr_afterMasked s _ rt _, fun _ => readMasked_and ..⟩

/-- Settles O47. -/
theorem sprReads : Obligations.SprReads := by
  intro s rt n h
  refine ⟨fun r hr => ?_, ?_, fun hp hn => ?_⟩
  · obtain ⟨v, hw, hv⟩ := readSpr_spec s rt r
    have hm : s.readMask r = if r = .icdbdr ∧ s.icdbdrTag = true then 0xFFFFFC11 else r.mask := by
      simp [State.readMask]
    exact ⟨_, exec_mfspr_reg h hr rt, hw.result ▸ hw, fun hs => by rw [hw.result, ← hm]; exact hv hs⟩
  · rintro rfl
    exact ⟨_, sprAccess_of_mayAccess h _, setGpr_spec s rt _⟩
  · refine exec_mfspr_refused h (Option.eq_none_iff_forall_ne_some.2 fun x hx => ?_) rt
    obtain ⟨-, hn'⟩ | ⟨r, -, hr⟩ := sprSource_cases hx
    · exact hp hn'
    · exact hn r hr

/-! ### Writes -/

theorem exec_mtspr_reg {n : RegNum} {r : Spr} (h : mayAccess s n) (hr : (n, r) ∈ sprNumbers) (rs : Reg) :
    exec (.mtspr n rs) s = mtsprReg r (s.gpr rs) s := by
  refine (sprAccess_of_mayAccess h _).trans ?_
  rw [sprTarget_reg_iff.2 hr]

theorem exec_mtspr_refused {n : RegNum} (h : mayAccess s n) (hn : sprTarget n = none) (rs : Reg) :
    exec (.mtspr n rs) s = .refused .sprNotImplemented := by
  refine (sprAccess_of_mayAccess h _).trans ?_
  rw [hn]

theorem Spr.written_eq (r : Spr) (old v : Word) : r.written old v = afterWrite r old v := by
  cases r <;> rfl

/-- A register written, whatever context-change windows are open then. -/
theorem writesSpr_setSpr (s : State) (windows : List FetchContext) (r : Spr) (w : Word) {p : Word}
    (hp : p = if r = .pit then w &&& r.mask else s.pitReload) :
    WritesSpr s { { s with oldContexts := windows }.setSpr r w with pitReload := p }.advance r (w &&& r.mask) where
  value := State.spr_setSpr_self _ r w
  others _ hq := State.spr_setSpr_ne { s with oldContexts := windows } w hq
  next := rfl
  msr := rfl
  tb := rfl
  pitReload := hp
  tlb := rfl
  dcrs := rfl
  memMap := rfl
  rest := ⟨fun _ => rfl, rfl, rfl, rfl, fun _ => rfl⟩

/-- What `mtspr` to a stored register does, whole. -/
theorem writeSpr_spec (s : State) (r : Spr) (v : Word) :
    WritesSpr s (s.writeSpr r v).advance r (afterWrite r (s.spr r) v &&& r.mask) := by
  have windows : ∃ c, (if r.isContext then s.openWindow else s) = { s with oldContexts := c } := by
    split
    · exact ⟨_, rfl⟩
    · exact ⟨s.oldContexts, rfl⟩
  obtain ⟨c, hc⟩ := windows
  have reload : ∀ {p : Word}, (p = if r = .pit then v else s.pitReload) →
      p = if r = .pit then afterWrite r (s.spr r) v &&& r.mask else s.pitReload := by
    rintro p rfl
    split
    · rename_i hr
      subst hr
      exact BitVec.and_allOnes.symm
    · rfl
  unfold State.writeSpr
  dsimp only
  rw [hc, Spr.written_eq]
  split
  · exact writesSpr_setSpr s c r _ (reload (if_pos ‹_›).symm)
  · exact writesSpr_setSpr s c r _ (reload (if_neg ‹_›).symm)

/-- The registers `mtspr` writes without a condition. -/
theorem mtsprReg_of_ne {r : Spr} (hc : r ≠ .ccr0) (h0 : r ≠ .dbcr0) (h1 : r ≠ .dbcr1) (v : Word) (s : State) :
    mtsprReg r v s = done (s.writeSpr r v) := by
  cases r with
  | ccr0 => exact absurd rfl hc
  | dbcr0 => exact absurd rfl h0
  | dbcr1 => exact absurd rfl h1
  | _ => rfl

/-- A CCR0 write hangs exactly where it changes U0XE while interrupts are on or the cache units may be transferring. -/
theorem ccr0Errant_iff (s : State) (v : Word) :
    s.ccr0Errant v = true ↔ bitAt v 14 ≠ bitAt (s.spr .ccr0) 14 ∧
      (s.msrCE = true ∨ s.msrEE = true ∨ s.drained = false ∨ s.icbtPending = true) := by
  simp only [State.ccr0Errant, Bool.and_eq_true, bne_iff_ne, ne_eq, Bool.not_eq_true', Bool.and_eq_false_iff,
    Bool.not_eq_false', or_assoc, eq_comm (a := bitAt (s.spr .ccr0) 14)]

theorem mtsprReg_ccr0 {v : Word} (h : s.ccr0Errant v = false) : mtsprReg .ccr0 v s = done (s.writeSpr .ccr0 v) := by
  simp [mtsprReg, h]

theorem mtsprReg_ccr0_hang {v : Word} (h : s.ccr0Errant v = true) : mtsprReg .ccr0 v s = .fault .ccr0Hang := by
  simp [mtsprReg, h]

theorem mtsprReg_dbcr0 {v : Word} (h : v &&& 0xFFEE0000 = 0) : mtsprReg .dbcr0 v s = done (s.writeSpr .dbcr0 v) := by
  have hm : v &&& 0xCFEE0000 = (v &&& 0xFFEE0000) &&& 0xCFEE0000 := (BitVec.and_assoc v 0xFFEE0000 0xCFEE0000).symm
  have he : dbcr0Enables v = false := by rw [dbcr0Enables, hm, h]; rfl
  have hf : fieldTo v 3 2 = fieldTo (v &&& 0xFFEE0000) 3 2 := by
    simp only [fieldTo, BitVec.ushiftRight_and_distrib, BitVec.setWidth_and]
    exact BitVec.and_allOnes.symm
  have hr : resetKindOf (fieldTo v 3 2) = none := by rw [hf, h]; rfl
  simp [mtsprReg, he, hr]

theorem mtsprReg_dbcr0_refused {v : Word} (h : v &&& 0xCFEE0000 ≠ 0) : mtsprReg .dbcr0 v s = .refused .debugEnabled := by
  have he : dbcr0Enables v = true := by simpa [dbcr0Enables] using h
  simp [mtsprReg, he]

theorem mtsprReg_dbcr1 {v : Word} (h : v &&& Spr.mask .dbcr1 = 0) :
    mtsprReg .dbcr1 v s = done (s.writeSpr .dbcr1 v) := by
  simp [mtsprReg, dbcr1Enables, h]

theorem mtsprReg_dbcr1_refused {v : Word} (h : v &&& Spr.mask .dbcr1 ≠ 0) :
    mtsprReg .dbcr1 v s = .refused .debugEnabled := by
  have he : dbcr1Enables v = true := by simpa [dbcr1Enables] using h
  simp [mtsprReg, he]

/-- Settles O48. -/
theorem sprWrites : Obligations.SprWrites := by
  intro s rs n h v
  refine ⟨fun r hr hc h0 h1 => ?_, ?_, ?_, ?_, ?_, ?_, ?_, ?_⟩
  · exact ⟨_, (exec_mtspr_reg h hr rs).trans (mtsprReg_of_ne hc h0 h1 v s), writeSpr_spec s r v⟩
  · rintro rfl hv
    have he : s.ccr0Errant v = false := by
      rw [← Bool.not_eq_true, ccr0Errant_iff]
      rintro ⟨hb, ho⟩
      obtain hb' | ⟨hce, hee, hd, hi⟩ := hv
      · exact hb hb'
      · simp [hce, hee, hd, hi] at ho
    exact ⟨_, (exec_mtspr_reg h (by decide) rs).trans (mtsprReg_ccr0 he), writeSpr_spec s .ccr0 v⟩
  · rintro rfl hb ho
    exact (exec_mtspr_reg h (by decide) rs).trans (mtsprReg_ccr0_hang ((ccr0Errant_iff s v).2 ⟨hb, ho⟩))
  · rintro rfl hv
    exact ⟨_, (exec_mtspr_reg h (by decide) rs).trans (mtsprReg_dbcr0 hv), writeSpr_spec s .dbcr0 v⟩
  · rintro rfl hv
    have hw := writeSpr_spec s .dbcr1 v
    exact ⟨_, (exec_mtspr_reg h (by decide) rs).trans (mtsprReg_dbcr1 hv), hv ▸ hw⟩
  · rintro rfl hv
    exact (exec_mtspr_reg h (by decide) rs).trans (mtsprReg_dbcr0_refused hv)
  · rintro rfl hv
    exact (exec_mtspr_reg h (by decide) rs).trans (mtsprReg_dbcr1_refused hv)
  · exact fun hl hu hn => exec_mtspr_refused h (sprTarget_none hl hu hn) rs

end Sys2Proof.Machine
end

section
/-! SUPPORT. Looking an address up: the one entry that matches, what its page allows, and the bytes of an access located
one by one (20_memory.md R102, R114 to R119). -/

namespace Sys2Proof.Machine

/-! ### The entries that match -/

theorem mem_tlbHits {tlb : Vector TlbEntry 64} {pid ea : Word} {e : TlbEntry × Nat} :
    e ∈ tlbHits tlb pid ea ↔ ∃ k : Fin 64, e = (tlb[k], k.val) ∧ tlbMatches (pid.setWidth 8) ea tlb[k] = true := by
  obtain ⟨t, i⟩ := e
  simp only [tlbHits, List.mem_filter, List.mem_zipIdx_iff_getElem?, Prod.mk.injEq]
  constructor
  · rintro ⟨hi, hm⟩
    obtain ⟨h, rfl⟩ := List.getElem?_eq_some_iff.1 hi
    exact ⟨⟨i, by simpa using h⟩, ⟨by simp, rfl⟩, by simpa using hm⟩
  · rintro ⟨k, ⟨rfl, rfl⟩, hm⟩
    exact ⟨by simp, hm⟩

theorem tlbHits_nodup (tlb : Vector TlbEntry 64) (pid ea : Word) : (tlbHits tlb pid ea).Nodup := by
  refine List.Nodup.filter _ (List.Nodup.of_map Prod.snd ?_)
  rw [List.zipIdx_map_snd]
  exact List.nodup_range'

/-- Exactly one entry is found where one matches and no other does. -/
theorem tlbHits_eq_singleton {s : State} {ea : Word} {e : TlbEntry × Nat} :
    tlbHits s.tlb (s.spr .pid) ea = [e] ↔ ∃ k : Fin 64, e = (s.tlb[k], k.val) ∧ onlyEntry s ea k := by
  constructor
  · intro h
    obtain ⟨k, rfl, hk⟩ := mem_tlbHits.1 (h ▸ List.mem_singleton_self e)
    refine ⟨k, rfl, hk, fun j hj => Bool.eq_false_iff.2 fun hm => hj ?_⟩
    have hmem : (s.tlb[j], j.val) ∈ tlbHits s.tlb (s.spr .pid) ea := mem_tlbHits.2 ⟨j, rfl, hm⟩
    rw [h, List.mem_singleton, Prod.mk.injEq] at hmem
    exact Fin.ext hmem.2
  · rintro ⟨k, rfl, hk, hothers⟩
    have same_nodup := List.perm_ext_iff_of_nodup (tlbHits_nodup s.tlb (s.spr .pid) ea)
      (List.nodup_singleton (s.tlb[k], k.val))
    refine List.perm_singleton.1 (same_nodup.2 fun e => ?_)
    rw [mem_tlbHits, List.mem_singleton]
    constructor
    · rintro ⟨j, rfl, hj⟩
      by_cases hjk : j = k
      · rw [hjk]
      · exact absurd hj (Bool.eq_false_iff.1 (hothers j hjk))
    · rintro rfl
      exact ⟨k, rfl, hk⟩

/-! ### The page of an entry -/

/-- What an entry maps an address to. -/
def entryPage (s : State) (t : TlbEntry) (ea : Word) : Page :=
  ⟨tlbRealAddress t ea, ⟨t.w, t.i, t.m, t.g, t.u0, t.e⟩, true, t.ex, t.wr, zoneField (s.spr .zpr) t.zsel⟩

/-- Looking an address up finds the page of the one entry that matches. -/
theorem tlbLookup_page_iff {s : State} {ea : Word} {p : Page} :
    tlbLookup s.tlb (s.spr .pid) (s.spr .zpr) ea = .page p ↔
      ∃ k : Fin 64, onlyEntry s ea k ∧ p = entryPage s s.tlb[k] ea := by
  constructor
  · intro h
    unfold tlbLookup at h
    split at h
    · cases h
    · rename_i hh
      obtain ⟨k, he, hk⟩ := tlbHits_eq_singleton.1 hh
      cases he
      cases h
      exact ⟨k, hk, rfl⟩
    · cases h
  · rintro ⟨k, hk, rfl⟩
    rw [tlbLookup, tlbHits_eq_singleton.2 ⟨k, rfl, hk⟩]
    rfl

theorem entryPage_zoneDenied (s : State) (t : TlbEntry) (ea : Word) :
    (entryPage s t ea).zoneDenied s.msrPR = true ↔ zoneDenies s t := by
  simp [Page.zoneDenied, entryPage, zoneDenies]

theorem entryPage_fullAccess (s : State) (t : TlbEntry) (ea : Word) :
    (entryPage s t ea).fullAccess s.msrPR = true ↔ zoneAllows s t := by
  simp [Page.fullAccess, entryPage, zoneAllows]

theorem entryPage_writeDenied (s : State) (t : TlbEntry) (ea : Word) :
    (entryPage s t ea).writeDenied s.msrPR = true ↔ ¬(t.wr = true ∨ zoneAllows s t) := by
  rw [← entryPage_fullAccess s t ea]
  simp [Page.writeDenied, entryPage]

theorem entryPage_fetchDenied (s : State) (t : TlbEntry) (ea : Word) :
    (entryPage s t ea).fetchDenied s.msrPR = true ↔ ¬(t.ex = true ∨ zoneAllows s t) ∨ t.g = true := by
  rw [← entryPage_fullAccess s t ea]
  simp [Page.fetchDenied, entryPage]

/-! ### Data -/

/-- An address is accessible exactly where it has a page that allows the access. -/
theorem locate_ok_iff {s : State} {ea : Word} {store : Bool} {p : Page} :
    locate s ea store = .ok p ↔ lookupData s ea = .page p ∧ p.zoneDenied s.msrPR = false ∧
      (store = true → p.writeDenied s.msrPR = false) ∧ (store = true → s.u0Denied p = false) := by
  unfold locate
  split
  · simp [*]
  · simp [*]
  · rename_i q hq
    rw [hq, Lookup.page.injEq]
    constructor
    · intro h
      split at h
      · cases h
      · split at h
        · cases h
        · split at h
          · cases h
          · cases h
            simp_all
    · rintro ⟨rfl, hz, hw, hu⟩
      cases store
      · simp [hz]
      · simp [hz, hw, hu]

theorem regionOf_eq (ea : Word) : regionOf ea = ea.toNat / 2 ^ 27 := by
  simp [regionOf, Nat.shiftRight_eq_div_pow]

/-- The page of a data address in real mode. -/
def realPage (s : State) (ea : Word) : Page := ⟨ea, realAttrs s ea, false, true, true, 0⟩

theorem lookupData_real {s : State} (h : s.msrDR = false) (ea : Word) : lookupData s ea = .page (realPage s ea) := by
  simp only [lookupData, h, Bool.false_eq_true, if_false, regionOf_eq]
  rfl

theorem byteAddr_succ (ea : Word) (j : Nat) : ea + BitVec.ofNat 32 (j + 1) = ea + 1 + BitVec.ofNat 32 j := by
  rw [Nat.add_comm, BitVec.ofNat_add, ← BitVec.add_assoc]
  rfl

/-- The bytes of an access are located one by one. -/
theorem locateBytes_ok_iff {s : State} {store : Bool} {n : Nat} {ea : Word} {ps : List PByte} :
    locateBytes s store n ea = .ok ps ↔ ps.length = n ∧ ∀ j p, ps[j]? = some p →
      ∃ q, locate s (ea + BitVec.ofNat 32 j) store = .ok q ∧ p = ⟨q.ra, q.attrs⟩ := by
  induction n generalizing ea ps with
  | zero =>
    constructor
    · intro h
      cases h
      exact ⟨rfl, fun j p h => by cases h⟩
    · rintro ⟨hl, -⟩
      rw [List.length_eq_zero_iff.1 hl]
      rfl
  | succ n ih =>
    constructor
    · intro h
      unfold locateBytes at h
      split at h
      · cases h
      · rename_i q hq
        split at h
        · cases h
        · rename_i ps' hps
          cases h
          obtain ⟨hl, hb⟩ := ih.1 hps
          refine ⟨by simp [hl], fun j p hj => ?_⟩
          cases j with
          | zero =>
            cases hj
            exact ⟨q, by simpa using hq, rfl⟩
          | succ j =>
            rw [byteAddr_succ]
            exact hb j p hj
    · rintro ⟨hl, hb⟩
      cases ps with
      | nil => cases hl
      | cons p ps =>
        obtain ⟨q, hq, rfl⟩ := hb 0 p rfl
        have hps : locateBytes s store n (ea + 1) = .ok ps :=
          ih.2 ⟨by simpa using hl, fun j p hj => byteAddr_succ ea j ▸ hb (j + 1) p hj⟩
        have hq' : locate s ea store = .ok q := by simpa using hq
        simp only [locateBytes, hq', hps]

theorem access_ok_iff {s : State} {ea : Word} {n : Nat} {store : Bool} {ps : List PByte} :
    access s ea n store = .ok ps ↔ locateBytes s store n ea = .ok ps ∧ anyWriteThroughInhibited ps = false := by
  unfold access
  split
  · simp [*]
  · rename_i qs hqs
    rw [hqs, Except.ok.injEq]
    split
    · rename_i hc
      simp only [reduceCtorEq, false_iff, not_and, Bool.not_eq_false]
      rintro rfl
      exact hc
    · rename_i hc
      simp only [Except.ok.injEq, iff_self_and]
      rintro rfl
      simpa using hc

/-! ### Real mode -/

/-- In real mode every byte is accessible at its own address, where no U0 exception stands in the way. -/
theorem locate_real {s : State} (h : s.msrDR = false) {ea : Word} {store : Bool}
    (hu : store = true → bitAt (s.spr .ccr0) 14 = true → (realAttrs s ea).u0 = false) :
    locate s ea store = .ok (realPage s ea) := by
  refine locate_ok_iff.2 ⟨lookupData_real h ea, rfl, fun _ => rfl, fun hs => ?_⟩
  cases hb : bitAt (s.spr .ccr0) 14
  · simp [State.u0Denied, hb]
  · simp [State.u0Denied, realPage, hu hs hb]

theorem locateBytes_real {s : State} (h : s.msrDR = false) {ea : Word} {n : Nat} {store : Bool}
    (hu : store = true ∧ bitAt (s.spr .ccr0) 14 = true → ∀ k < n, (realAttrs s (ea + BitVec.ofNat 32 k)).u0 = false) :
    locateBytes s store n ea = .ok ((List.range n).map fun k =>
      ⟨ea + BitVec.ofNat 32 k, realAttrs s (ea + BitVec.ofNat 32 k)⟩) := by
  refine locateBytes_ok_iff.2 ⟨by simp, fun j p hj => ?_⟩
  obtain ⟨hjn, rfl⟩ := List.getElem?_eq_some_iff.1 hj
  have hjn' : j < n := by simpa using hjn
  exact ⟨_, locate_real h fun hs hb => hu ⟨hs, hb⟩ j hjn', by simp [realPage]⟩

/-! ### Translated -/

theorem lookupData_translated {s : State} (h : s.msrDR = true) (ea : Word) :
    lookupData s ea = tlbLookup s.tlb (s.spr .pid) (s.spr .zpr) ea := by simp [lookupData, h]

/-- Every byte of a translated access lies where the one entry that matches it says. -/
theorem translated_of_locate {s : State} (h : s.msrDR = true) {ea : Word} {store : Bool} {q : Page}
    (hq : locate s ea store = .ok q) : ∃ k : Fin 64, onlyEntry s ea k ∧ ⟨q.ra, q.attrs⟩ = translated s.tlb[k] ea := by
  obtain ⟨hl, -⟩ := locate_ok_iff.1 hq
  obtain ⟨k, hk, rfl⟩ := tlbLookup_page_iff.1 (lookupData_translated h ea ▸ hl)
  exact ⟨k, hk, rfl⟩

/-- An entry allows a data access. -/
def allowsData (s : State) (t : TlbEntry) (store : Bool) : Prop :=
  ¬zoneDenies s t ∧ (store = true → t.wr = true ∨ zoneAllows s t) ∧
    (store = true ∧ bitAt (s.spr .ccr0) 14 = true → t.u0 = false)

theorem locate_translated {s : State} (h : s.msrDR = true) {ea : Word} {store : Bool} {k : Fin 64}
    (hk : onlyEntry s ea k) (ha : allowsData s s.tlb[k] store) : locate s ea store = .ok (entryPage s s.tlb[k] ea) := by
  obtain ⟨hz, hw, hu⟩ := ha
  refine locate_ok_iff.2 ⟨?_, ?_, fun hs => ?_, fun hs => ?_⟩
  · exact lookupData_translated h ea ▸ tlbLookup_page_iff.2 ⟨k, hk, rfl⟩
  · exact Bool.eq_false_iff.2 fun hd => hz ((entryPage_zoneDenied ..).1 hd)
  · exact Bool.eq_false_iff.2 fun hd => (entryPage_writeDenied ..).1 hd (hw hs)
  · cases hb : bitAt (s.spr .ccr0) 14
    · simp [State.u0Denied, hb]
    · simpa [State.u0Denied, hb, entryPage] using hu ⟨hs, hb⟩

/-- A translated access may be made where each byte has an entry that allows it. -/
theorem access_translated {s : State} (h : s.msrDR = true) {ea : Word} {n : Nat} {store : Bool}
    (ha : ∀ j < n, ∃ k : Fin 64, onlyEntry s (ea + BitVec.ofNat 32 j) k ∧ allowsData s s.tlb[k] store ∧
      (s.tlb[k].w && s.tlb[k].i) = false) : ∃ ps, access s ea n store = .ok ps := by
  choose k hk hallows hwi using ha
  let ps : List PByte := List.ofFn fun j : Fin n => translated s.tlb[k j j.isLt] (ea + BitVec.ofNat 32 j)
  refine ⟨ps, access_ok_iff.2 ⟨locateBytes_ok_iff.2 ⟨by simp [ps], fun j p hj => ?_⟩, ?_⟩⟩
  · obtain ⟨hjn, rfl⟩ := List.getElem?_eq_some_iff.1 hj
    have hjn' : j < n := by simpa [ps] using hjn
    exact ⟨_, locate_translated h (hk j hjn') (hallows j hjn'), by simp [ps, translated, entryPage]⟩
  · simp only [anyWriteThroughInhibited, List.any_eq_false, ps, List.mem_ofFn]
    rintro p ⟨j, rfl⟩
    simpa [translated] using hwi j j.isLt

/-- Settles O31. -/
theorem dataAccess : Obligations.DataAccess := by
  intro s ea n store byteAt u0
  refine ⟨?_, fun ht => ⟨fun ps hps => ?_, fun ha => ?_⟩⟩
  · intro hr hu conflict
    have located := locateBytes_real hr (ea := ea) hu
    have hc : anyWriteThroughInhibited ((List.range n).map fun k => ⟨byteAt k, realAttrs s (byteAt k)⟩) = true ↔
        conflict := by
      simp [anyWriteThroughInhibited, conflict]
    refine ⟨fun h => access_ok_iff.2 ⟨located, Bool.eq_false_iff.2 fun h' => h (hc.1 h')⟩, fun h => ?_⟩
    rw [access, located]
    exact if_pos (hc.2 h)
  · obtain ⟨hl, hb⟩ := locateBytes_ok_iff.1 (access_ok_iff.1 hps).1
    refine ⟨hl, fun j p hj => ?_⟩
    obtain ⟨q, hq, rfl⟩ := hb j p hj
    exact translated_of_locate ht hq
  · exact access_translated ht fun j hj => by
      obtain ⟨k, hk, hz, hw, hu, hwi⟩ := ha j hj
      exact ⟨k, hk, ⟨hz, hw, hu⟩, hwi⟩

end Sys2Proof.Machine
end

section
/-! SUPPORT. The word a quiet step fetches: from a line, from memory, by a line fill (20_memory.md R106, R114,
R119, R133). -/

namespace Sys2Proof.Machine

/-! ### From where -/

/-- The state a quiet step fetches in: no old context says in which mode the word was fetched. -/
def fetchState (s : State) : State := { quietBoundary s with fetchedUser := none }

/-- A fetch that its checks let through. -/
theorem fetchAt_page {s : State} {c : FetchContext} {ea : Word} {p : Page} (hl : lookupFetch c ea = .page p)
    (hz : p.zoneDenied (bitAt c.msr 17) = false) (hf : p.fetchDenied (bitAt c.msr 17) = false)
    (hw : (p.attrs.w && p.attrs.i) = false) : s.fetchAt c ea = s.fetchPage c ea p := by
  simp only [State.fetchAt, hl, hz, hf, hw, Bool.false_eq_true, if_false]

/-- A quiet step fetches past the checks from the page that `FetchesFrom` names. -/
theorem fetchNow_of_fetchesFrom {s : State} {ra : Word} {inhibited little : Bool}
    (h : FetchesFrom s ra inhibited little) : ∃ p : Page, p.ra = ra ∧ p.attrs.i = inhibited ∧ p.attrs.e = little ∧
      (quietBoundary s).fetchNow 0 = (fetchState s).fetchPage s.fetchContext s.pc p := by
  obtain ⟨hir, rfl, rfl, rfl⟩ | ⟨hir, k, hk, rfl, rfl, rfl, hz, hx, hg, hwi⟩ := h
  · have hl : lookupFetch s.fetchContext s.pc = .page ⟨s.pc, ⟨false, !bitAt (s.spr .iccr) (s.pc.toNat / 2 ^ 27), false,
        bitAt (s.spr .sgr) (s.pc.toNat / 2 ^ 27), bitAt (s.spr .su0r) (s.pc.toNat / 2 ^ 27),
        bitAt (s.spr .sler) (s.pc.toNat / 2 ^ 27)⟩, false, true, true, 0⟩ := by
      rw [← regionOf_eq, lookupFetch]
      exact if_neg (Bool.eq_false_iff.1 hir)
    exact ⟨_, rfl, rfl, rfl, fetchAt_page (s := fetchState s) hl rfl rfl rfl⟩
  · have hl : lookupFetch s.fetchContext s.pc = .page (entryPage s s.tlb[k] s.pc) := by
      rw [lookupFetch]
      exact (if_pos hir).trans (tlbLookup_page_iff.2 ⟨k, hk, rfl⟩)
    have hzone : (entryPage s s.tlb[k] s.pc).zoneDenied s.msrPR = false :=
      Bool.eq_false_iff.2 fun hd => hz ((entryPage_zoneDenied ..).1 hd)
    have hfetch : (entryPage s s.tlb[k] s.pc).fetchDenied s.msrPR = false :=
      Bool.eq_false_iff.2 fun hd => by
        obtain hn | ht := (entryPage_fetchDenied ..).1 hd
        · exact hn hx
        · cases hg.symm.trans ht
    exact ⟨_, rfl, rfl, rfl, fetchAt_page (s := fetchState s) hl hzone hfetch hwi⟩

/-- A quiet step that fetches a word runs the instruction it decodes to, in a mode no old context says. -/
theorem step_of_fetch {s : State} {i : Instr} {w : Word} (h : RunsNext s)
    (hw : ((quietBoundary s).fetchNow 0).1 = .word w) (hi : decode w = .ok i) {u : State} (hu : ((quietBoundary s).fetchNow 0).2 = u) :
    step s = exec i u.resolve ∧ FetchedFrom s u.resolve ∧ u.resolve.fetchedUser = none := by
  subst hu
  have only : FetchOnly (fetchState s) ((quietBoundary s).fetchNow 0).2 := fetchOnly_fetchAt ..
  obtain ⟨hstep, hfrom⟩ := stepRunsDecoded s i w h hw hi
  exact ⟨hstep, hfrom, only.part State.fetchedUser⟩

/-! ### From a line, from memory -/

theorem fetchPage_held {s : State} {c : FetchContext} {ea : Word} {p : Page} {k : Way}
    (h : (isetGet c.icache (iIndex ea)).find (iTag p.ra) = some k) (hi : p.attrs.i = false) :
    s.fetchPage c ea p = (.word ((isetGet c.icache (iIndex ea)).way k).words[iWord ea], s.iUse ea p.ra) := by
  have hc : cachedWord c.icache ea p.ra = some ((isetGet c.icache (iIndex ea)).way k).words[iWord ea] := by
    simp [cachedWord, h]
  simp only [State.fetchPage, hc, Option.some_or, hi]

/-- Where neither array has the line and nothing is to be allocated, the word comes over the bus. -/
theorem fetchPage_bus {s : State} {c : FetchContext} {ea : Word} {p : Page}
    (hc : (isetGet c.icache (iIndex ea)).find (iTag p.ra) = none)
    (hs : (isetGet s.icache (iIndex ea)).find (iTag p.ra) = none)
    (hi : p.attrs.i = true ∨ bitAt (s.spr .ccr0) 23 = true) : s.fetchPage c ea p = s.fetchBus c.memMap p := by
  have h1 : cachedWord c.icache ea p.ra = none := by simp [cachedWord, hc]
  have h2 : cachedWord s.icache ea p.ra = none := by simp [cachedWord, hs]
  rw [State.fetchPage, h1, h2]
  cases hp : p.attrs.i with
  | true => rfl
  | false => exact if_pos (hi.resolve_left (by simp [hp]))

/-- A cachable miss is a word over the bus and a line fill. -/
theorem fetchPage_fill {s : State} {c : FetchContext} {ea : Word} {p : Page}
    (hc : (isetGet c.icache (iIndex ea)).find (iTag p.ra) = none)
    (hs : (isetGet s.icache (iIndex ea)).find (iTag p.ra) = none) (hi : p.attrs.i = false)
    (hf : bitAt (s.spr .ccr0) 23 = false) :
    s.fetchPage c ea p = ((s.fetchBus c.memMap p).1, s.iFill c.memMap ea p.ra p.attrs.e) := by
  have h1 : cachedWord c.icache ea p.ra = none := by simp [cachedWord, hc]
  have h2 : cachedWord s.icache ea p.ra = none := by simp [cachedWord, hs]
  rw [State.fetchPage, h1, h2, hi]
  exact if_neg (Bool.eq_false_iff.1 hf)

theorem busByte_plain {map : List Region} {m : Memory} {ra : Nat} (h : regionAt map ra = none) (draws : Nat) :
    busByte map m draws ra = memGet m ra := by simp [busByte, isPlain, h]

/-- The bus gives the word memory holds where plain storage answers at its four bytes. -/
theorem busWord_plain {map : List Region} {m : Memory} {ra : Nat} (h : ∀ j < 4, regionAt map (ra + j) = none)
    (draws : Nat) (e : Bool) : busWord map m draws e ra = memWord m e ra := by
  have hb : ∀ j < 4, busByte map m draws (ra + j) = memGet m (ra + j) := fun j hj => busByte_plain (h j hj) draws
  have h0 : busByte map m draws ra = memGet m ra := hb 0 (by decide)
  simp only [busWord, memWord, h0, hb 1 (by decide), hb 2 (by decide), hb 3 (by decide)]

/-- A word fetched from plain storage is the one memory holds, and nothing else changes. -/
theorem fetchBus_plain {s : State} {map : List Region} {p : Page}
    (h : ∀ j < 4, regionAt map (p.ra.toNat + j) = none) :
    s.fetchBus map p = (.word (memWord s.busMem p.attrs.e p.ra.toNat), s) := by
  have hany : (((List.range 4).map fun i => p.ra.toNat + i).any (isUnbacked map)) = false := by
    simpa [isUnbacked] using fun j hj => by simp [h j hj]
  have hall : (((List.range 4).map fun i => p.ra.toNat + i).all (isPlain map)) = true := by
    simpa [isPlain] using h
  simp only [State.fetchBus, hany, Bool.false_eq_true, if_false, busWord_plain h, State.afterFetch, hall, if_true]

/-! ### A line fill -/

theorem ISet.way_setWay_touch (x : ISet) (k : Way) (w : IWay) : ((x.setWay k w).touch k).way k = w := by
  cases k <;> rfl

/-- A line written where no way held its tag is found in its way. -/
theorem ISet.find_setWay_touch {x : ISet} {tag : BitVec 22} (h : x.find tag = none) (k : Way) (ws : Vector Word 8) :
    ((x.setWay k ⟨true, tag, ws⟩).touch k).find tag = some k := by
  have ha : x.a.holds tag = false := by
    cases hx : x.a.holds tag
    · rfl
    · simp [ISet.find, hx] at h
  cases k with
  | a => simp [ISet.find, ISet.setWay, ISet.touch, IWay.holds]
  | b =>
    have hb : (⟨true, tag, ws⟩ : IWay).holds tag = true := by simp [IWay.holds]
    simp [ISet.find, ISet.setWay, ISet.touch, ha, hb]

/-- A line fill from plain storage. -/
theorem iFill_plain {s : State} {map : List Region} (h : ∀ a, regionAt map a = none) (ea ra : Word) (e : Bool) :
    s.iFill map ea ra e = s.setIset (iIndex ea)
      (((isetGet s.icache (iIndex ea)).setWay (isetGet s.icache (iIndex ea)).victim
        ⟨true, iTag ra, busLine map s.busMem s.draws e (blockOf ra)⟩).touch (isetGet s.icache (iIndex ea)).victim) := by
  have hall : (blockAddrs (blockOf ra)).all (isPlain map) = true := List.all_eq_true.2 fun a _ => isPlain_of h a
  simp only [State.iFill, blockErrs_of h, Bool.false_eq_true, if_false, State.afterFetch, hall, if_true]

theorem busLine_plain {map : List Region} (h : ∀ a, regionAt map a = none) (m : Memory) (draws : Nat) (e : Bool)
    (b : Nat) (j : Fin 8) : (busLine map m draws e b)[j] = memWord m e (32 * b + 4 * j) := by
  simp [busLine, busWord_plain fun i _ => h _]

/-- After a line fill from plain storage the array holds the line, with the words of memory. -/
theorem iFill_holds {s : State} {map : List Region} (h : ∀ a, regionAt map a = none) {ea ra : Word} (e : Bool)
    (hs : (isetGet s.icache (iIndex ea)).find (iTag ra) = none) :
    ∃ k, (isetGet (s.iFill map ea ra e).icache (iIndex ea)).find (iTag ra) = some k ∧
      ∀ j : Fin 8, ((isetGet (s.iFill map ea ra e).icache (iIndex ea)).way k).words[j] =
        memWord s.busMem e (32 * blockOf ra + 4 * j) := by
  rw [iFill_plain h, State.icache_setIset, isetGet_put, if_pos rfl]
  refine ⟨_, ISet.find_setWay_touch hs _ _, fun j => ?_⟩
  rw [ISet.way_setWay_touch]
  exact busLine_plain h ..

/-- Settles O5: the step runs what the fetch gives, and the fetch is a line's word, memory's word, or memory's word and a
line fill. -/
theorem stepFetches : Obligations.StepFetches := by
  intro s ra inhibited little i hs hfrom held words
  obtain ⟨p, rfl, rfl, rfl, hfetch⟩ := fetchNow_of_fetchesFrom hfrom
  refine ⟨fun k hk hi hd => ?_, fun hnone hplain hd => ⟨fun hno => ?_, fun hi hf hall => ?_⟩⟩
  · rw [fetchPage_held (c := s.fetchContext) hk hi] at hfetch
    exact ⟨_, step_of_fetch hs (congrArg Prod.fst hfetch) hd (congrArg Prod.snd hfetch)⟩
  · rw [fetchPage_bus (s := fetchState s) (c := s.fetchContext) hnone hnone hno,
      fetchBus_plain (map := s.fetchContext.memMap) hplain] at hfetch
    exact (step_of_fetch hs (congrArg Prod.fst hfetch) hd (congrArg Prod.snd hfetch)).1
  · rw [fetchPage_fill (s := fetchState s) (c := s.fetchContext) hnone hnone hi hf,
      fetchBus_plain (map := s.fetchContext.memMap) hplain] at hfetch
    obtain ⟨hstep, hfetched, huser⟩ := step_of_fetch hs (congrArg Prod.fst hfetch) hd (congrArg Prod.snd hfetch)
    obtain ⟨k, hk, hwords⟩ := iFill_holds (s := fetchState s) hall p.attrs.e hnone
    exact ⟨_, k, hstep, hfetched, huser, hk, hwords⟩

end Sys2Proof.Machine
end

section
/-! SUPPORT. What one TLB entry does to an address: the match of R114 and the real address, by division. -/

namespace Sys2Proof.Machine

/-- The page size as a power of two. -/
theorem pageSize_eq (t : TlbEntry) : pageSize t = 2 ^ (10 + 2 * t.size.toNat) := by
  rw [pageSize, pow_add, pow_mul]
  norm_num

/-- The mask keeps the low bits of an address. -/
theorem toNat_pageOffsetMask (size : BitVec 3) : (pageOffsetMask size).toNat = 2 ^ (10 + 2 * size.toNat) - 1 := by
  decide +revert

/-- Its complement keeps the bits above them. -/
theorem not_pageOffsetMask (size : BitVec 3) :
    ~~~(pageOffsetMask size) = BitVec.allOnes 32 <<< (10 + 2 * size.toNat) := by
  decide +revert

/-- The offset in the page. -/
theorem toNat_and_pageOffsetMask (x : Word) (t : TlbEntry) :
    (x &&& pageOffsetMask t.size).toNat = x.toNat % pageSize t := by
  rw [BitVec.toNat_and, toNat_pageOffsetMask, Nat.and_two_pow_sub_one_eq_mod, pageSize_eq]

/-- The start of the page. -/
theorem toNat_and_not_pageOffsetMask (x : Word) (t : TlbEntry) :
    (x &&& ~~~(pageOffsetMask t.size)).toNat = x.toNat / pageSize t * pageSize t := by
  rw [not_pageOffsetMask, ← BitVec.shiftLeft_ushiftRight, BitVec.toNat_shiftLeft, BitVec.toNat_ushiftRight,
    Nat.shiftLeft_eq, Nat.shiftRight_eq_div_pow, ← pageSize_eq]
  exact Nat.mod_eq_of_lt ((Nat.div_mul_le_self ..).trans_lt x.isLt)

/-- A page number followed by ten zero bits. -/
theorem toNat_append_ten (n : BitVec 22) : BitVec.toNat (w := 32) (n ++ (0 : BitVec 10)) = n.toNat * 1024 :=
  (BitVec.toNat_append n 0).trans (by simp [Nat.shiftLeft_eq])

/-- Two addresses lie in one page exactly when the page size divides them alike. -/
theorem samePage_iff (x y : Word) (t : TlbEntry) :
    x &&& ~~~(pageOffsetMask t.size) = y &&& ~~~(pageOffsetMask t.size) ↔
      x.toNat / pageSize t = y.toNat / pageSize t := by
  have hpos : 0 < pageSize t := by rw [pageSize_eq]; positivity
  rw [BitVec.toNat_inj.symm, toNat_and_not_pageOffsetMask, toNat_and_not_pageOffsetMask, Nat.mul_left_inj hpos.ne']

theorem tlbMatches_iff (t : TlbEntry) (pid : Byte) (ea : Word) :
    tlbMatches pid ea t = true ↔
      t.v = true ∧ (t.tid = 0 ∨ t.tid = pid) ∧ ea.toNat / pageSize t = t.epn.toNat * 1024 / pageSize t := by
  have hpage := samePage_iff ea (t.epn ++ (0 : BitVec 10)) t
  rw [toNat_append_ten] at hpage
  simp only [tlbMatches, Bool.and_eq_true, Bool.or_eq_true, beq_iff_eq, and_assoc]
  exact and_congr_right' (and_congr_right' (eq_comm.trans hpage))

theorem toNat_tlbRealAddress (t : TlbEntry) (ea : Word) :
    (tlbRealAddress t ea).toNat = t.rpn.toNat * 1024 / pageSize t * pageSize t + ea.toNat % pageSize t := by
  have hlt : ea.toNat % pageSize t < 2 ^ (10 + 2 * t.size.toNat) := by
    rw [pageSize_eq]
    exact Nat.mod_lt _ (by positivity)
  have hor := Nat.shiftLeft_add_eq_or_of_lt hlt (t.rpn.toNat * 1024 / pageSize t)
  rw [Nat.shiftLeft_eq, ← pageSize_eq] at hor
  rw [tlbRealAddress, BitVec.toNat_or, toNat_and_not_pageOffsetMask, toNat_and_pageOffsetMask, toNat_append_ten, hor]

/-- Settles O32: masks are division and remainder by the page size. -/
theorem tlbTranslation : Obligations.TlbTranslation := fun t pid ea =>
  ⟨tlbMatches_iff t pid ea, toNat_tlbRealAddress t ea⟩

end Sys2Proof.Machine
end

section
/-! SUPPORT. One scalar access as an instruction: what a load leaves in its register and a store at its bytes; and where
the bytes of an item stand in storage of either byte order (20_memory.md R103 to R107). -/

namespace Sys2Proof.Machine

variable {s t : State} {ps : List PByte}

/-! ### Scalar loads and stores -/

/-- A load whose access may be made completes, whole. -/
theorem loadInto_completes {ea : Word} {n : Nat} (h : access s ea n false = .ok ps) (rt : Reg) (f : Word → Word) :
    Completes (loadInto s rt ea n f) fun t => Loads s t rt [rt] ps f s.reserve := by
  have hacc := accessOnly_loadItem s ps
  refine ⟨((s.loadItem ps).2.busy.setGpr rt (f (s.loadItem ps).1)).advance, ?_, ?_, ?_, ?_, ?_, ?_, ?_, ?_⟩
  · simp only [loadInto, withLoad, h]
    rfl
  · intro hc hs
    rw [State.gpr_advance, State.gpr_setGpr_self, (loadItem_spec hc ps hs).1]
  · exact fun hc hs => (loadItem_spec hc ps hs).2.2.1
  · exact hacc.part State.cr
  · exact hacc.part State.reserve
  · exact fun r hr => (State.gpr_setGpr_ne _ _ (by simpa using hr)).trans (hacc.gpr r)
  · exact congrArg (· + 4) (hacc.part State.pc)
  · exact { hacc.control with }

/-- A store whose access may be made completes, whole. -/
theorem storeAt_completes {ea : Word} {bs : List Byte} (h : access s ea bs.length true = .ok ps) :
    Completes (storeAt s ea bs) fun t => Stores s t [] ps bs := by
  have hacc := accessOnly_storeItem s ps bs
  refine ⟨(s.storeItem ps bs).busy.advance, ?_, ?_, ?_, ?_, ?_, ?_, ?_⟩
  · simp only [storeAt, withStore, h]
    rfl
  · intro hc hs
    obtain ⟨hw, he⟩ := (storeItem_spec hc ps bs hs (access_ok h).2.symm).1
    exact ⟨hw, he⟩
  · exact hacc.part State.cr
  · exact hacc.part State.reserve
  · exact fun r _ => hacc.gpr r
  · exact congrArg (· + 4) (hacc.part State.pc)
  · exact { hacc.control with }

/-! ### The bytes of an item -/

theorem ordered_ordered (e : Bool) (bs : List Byte) : ordered e (ordered e bs) = bs := by
  cases e <;> simp [ordered]

/-- The byte order of an item whose bytes all have one. -/
theorem firstE_eq {little : Bool} (he : ∀ p ∈ ps, p.attrs.e = little) (hne : ps ≠ []) : firstE ps = little := by
  cases ps with
  | nil => exact absurd rfl hne
  | cons p ps => exact he p (by simp)

/-- Where the byte at place `k` of an item of `n` bytes stands by significance. -/
def bytePlace (little : Bool) (n k : Nat) : Nat := if little then n - 1 - k else k

/-- Bytes that stand at their addresses in one byte order stand by significance at their places. -/
theorem getElem?_bytePlace {f : PByte → Byte} {little : Bool} {bs : List Byte} (h : ps.map f = ordered little bs) {k : Nat}
    {p : PByte} (hk : ps[k]? = some p) : bs[bytePlace little bs.length k]? = some (f p) := by
  have hf : (ordered little bs)[k]? = some (f p) := by rw [← h, List.getElem?_map, hk]; rfl
  cases little with
  | false => exact hf
  | true =>
    obtain ⟨hlt, -⟩ := List.getElem?_eq_some_iff.1 hf
    rw [length_ordered] at hlt
    exact (List.getElem?_reverse hlt).symm.trans hf

/-- A byte of the list of a word's bytes. -/
theorem wordBytes_getElem? {v : Word} {j : Nat} {b : Byte} (h : (wordBytes v)[j]? = some b) : byteOf v j = b := by
  match j with
  | 0 | 1 | 2 | 3 => exact Option.some.inj h
  | j + 4 => cases h

/-- A byte of the list of a halfword's bytes. -/
theorem halfBytes_getElem? {v : Word} {j : Nat} {b : Byte} (h : (halfBytes v)[j]? = some b) : byteOf v (2 + j) = b := by
  match j with
  | 0 | 1 => exact Option.some.inj h
  | j + 2 => cases h

/-- The last byte of a word built by appending a byte. -/
theorem byteOf_append_last (acc : Word) (b : Byte) : byteOf ((acc <<< 8) ||| b.setWidth 32) 3 = b := by
  refine BitVec.eq_of_getLsbD_eq fun j hj => ?_
  simp [byteOf, hj]

/-- The bytes before it are those of the word it is appended to, one place on. -/
theorem byteOf_append (acc : Word) (b : Byte) {i : Nat} (hi : i < 3) :
    byteOf ((acc <<< 8) ||| b.setWidth 32) i = byteOf acc (i + 1) := by
  refine BitVec.eq_of_getLsbD_eq fun j hj => ?_
  have hlow : ¬ 24 - 8 * i + j < 8 := by omega
  have hin : 24 - 8 * i + j < 32 := by omega
  have hplace : 24 - 8 * i + j - 8 = 24 - 8 * (i + 1) + j := by omega
  have hb : b.getLsbD (24 - 8 * i + j) = false := BitVec.getLsbD_of_ge _ _ (by omega)
  simp only [byteOf, BitVec.getLsbD_setWidth, BitVec.getLsbD_ushiftRight, BitVec.getLsbD_or, BitVec.getLsbD_shiftLeft, hj,
    hlow, hin, hb, hplace, decide_true, decide_false, Bool.not_false, Bool.true_and, Bool.and_false, Bool.or_false]

/-- The bytes of a word built from four bytes. -/
theorem wordBytes_wordOf {bs : List Byte} (h : bs.length = 4) : wordBytes (wordOf bs) = bs := by
  obtain ⟨a, b, c, d, rfl⟩ : ∃ a b c d, bs = [a, b, c, d] := List.length_eq_four.1 h
  simp only [wordBytes, wordOf, List.foldl_cons, List.foldl_nil, byteOf_append_last, byteOf_append, Nat.reduceLT,
    Nat.reduceAdd]

/-- The bytes of a halfword built from two bytes. -/
theorem halfBytes_wordOf {bs : List Byte} (h : bs.length = 2) : halfBytes (wordOf bs) = bs := by
  obtain ⟨a, b, rfl⟩ := List.length_eq_two.1 h
  simp only [halfBytes, wordOf, List.foldl_cons, List.foldl_nil, byteOf_append_last, byteOf_append, Nat.reduceLT,
    Nat.reduceAdd]

/-! ### Items of one byte order -/

/-- A stored item stands at its addresses in the byte order of its storage. -/
theorem Stored.byteOrder {little : Bool} {bs : List Byte} (h : Stored s t ps (ordered (firstE ps) bs))
    (he : ∀ p ∈ ps, p.attrs.e = little) (hn : (ps.map (·.ra)).Nodup) {k : Nat} {p : PByte} (hk : ps[k]? = some p) :
    bs[bytePlace little bs.length k]? = some (t.dataByte p.ra) := by
  have hmap := h.written hn
  rw [firstE_eq he (List.ne_nil_of_mem (List.mem_of_getElem? hk))] at hmap
  exact getElem?_bytePlace hmap hk

/-- A loaded item is read from its addresses in the byte order of its storage. `bytes` splits the value of an item of `n`
bytes. -/
theorem Loads.byteOrder {rt : Reg} {changed : List Reg} {reserve little : Bool} {n : Nat} {bytes : Word → List Byte}
    (h : Loads s t rt changed ps id reserve) (hc : s.coherent) (hs : settled s ps) (hl : ps.length = n)
    (hbytes : ∀ bs : List Byte, bs.length = n → bytes (wordOf bs) = bs) (he : ∀ p ∈ ps, p.attrs.e = little) {k : Nat}
    {p : PByte} (hk : ps[k]? = some p) : (bytes (t.gpr rt))[bytePlace little n k]? = some (s.dataByte p.ra) := by
  have hlength : (ordered little (ps.map fun p => s.dataByte p.ra)).length = n := by
    rw [length_ordered, List.length_map, hl]
  have hb : bytes (t.gpr rt) = ordered little (ps.map fun p => s.dataByte p.ra) := by
    rw [h.value hc hs, id, itemAt, firstE_eq he (List.ne_nil_of_mem (List.mem_of_getElem? hk))]
    exact hbytes _ hlength
  rw [← hlength, ← hb]
  exact getElem?_bytePlace (f := fun p => s.dataByte p.ra) (by rw [hb, ordered_ordered]) hk

/-! ### After reset -/

/-- No bit of the register that makes storage little endian is set after reset. -/
theorem bitAt_reset_sler (n : Nat) : bitAt (State.reset.spr .sler) n = false := by
  have h0 : State.reset.spr .sler = 0 := by decide
  rw [h0]
  exact BitVec.getLsbD_zero

theorem locate_reset_bigEndian {ea : Word} {store : Bool} {p : Page} (h : locate State.reset ea store = .ok p) :
    p.attrs.e = false := by
  have hp := (locate_ok_iff.1 h).1
  rw [lookupData_real (by decide) ea] at hp
  cases hp
  exact bitAt_reset_sler _

theorem lookupFetch_reset_bigEndian {ea : Word} {p : Page} (h : lookupFetch State.reset.fetchContext ea = .page p) :
    p.attrs.e = false := by
  have hir : bitAt State.reset.fetchContext.msr 26 = false := by decide
  rw [lookupFetch, hir] at h
  cases h
  exact bitAt_reset_sler _

/-- Settles O26. -/
theorem byteOrder : Obligations.ByteOrder := by
  refine ⟨?_, fun _ _ _ => locate_reset_bigEndian, fun _ _ => lookupFetch_reset_bigEndian⟩
  intro s r ra d little ps ea v place hc hs he
  refine ⟨fun h hn => ?_, fun h hn => ?_, fun h => ?_, fun h => ?_⟩
  · obtain ⟨t, ht, hst⟩ := storeAt_completes (bs := wordBytes v) h
    exact ⟨t, ht, fun k p hk => (wordBytes_getElem? ((hst.stored hc hs).byteOrder he hn hk)).symm⟩
  · obtain ⟨t, ht, hst⟩ := storeAt_completes (bs := halfBytes v) h
    exact ⟨t, ht, fun k p hk => (halfBytes_getElem? ((hst.stored hc hs).byteOrder he hn hk)).symm⟩
  · obtain ⟨t, ht, hld⟩ := loadInto_completes h r id
    exact ⟨t, ht, fun k p hk => wordBytes_getElem?
      (hld.byteOrder hc hs (access_ok h).2 (fun _ => wordBytes_wordOf) he hk)⟩
  · obtain ⟨t, ht, hld⟩ := loadInto_completes h r id
    exact ⟨t, ht, fun k p hk => halfBytes_getElem?
      (hld.byteOrder hc hs (access_ok h).2 (fun _ => halfBytes_wordOf) he hk)⟩

end Sys2Proof.Machine
end

section
/-! SUPPORT. The alignment interrupt, and the four instructions that take it (60_exceptions.md R536). -/

namespace Sys2Proof.Machine

variable {s : State} {ea : Word}

/-- The alignment interrupt, whole. Free values drawn before it make no difference. -/
theorem takeAlignment_spec (s : State) (ea : Word) (n : Nat) :
    EntersNonCritical s (takeException (.alignment ea) { s with draws := n }) 0x0600 s.pc (s.spr .esr) ea := by
  have hkept : ∀ r, r ≠ .dear → (State.setSpr { s with draws := n } .dear ea).spr r = s.spr r := fun r hr =>
    State.spr_setSpr_ne _ ea hr
  have hdear : (State.setSpr { s with draws := n } .dear ea).spr .dear = ea :=
    (State.spr_setSpr_self _ .dear ea).trans BitVec.and_allOnes
  have h := takeInterrupt_spec .alignment s.pc (State.setSpr { s with draws := n } .dear ea) rfl
  rw [hdear, hkept .esr (by decide)] at h
  exact { h with
    pc := h.pc.trans (congrArg (fun v : Word => (v &&& 0xFFFF0000) ||| 0x0600) (hkept .evpr (by decide)))
    sprs := fun r h0 h1 he hd => (h.sprs r h0 h1 he hd).trans (hkept r hd) }

/-- An outcome is the alignment interrupt at `ea`. -/
def TakesAlignment (s : State) (ea : Word) (r : Result) : Prop :=
  Completes r fun t => EntersNonCritical s t 0x0600 s.pc (s.spr .esr) ea

theorem takesAlignment_now (s : State) (ea : Word) : TakesAlignment s ea (.next (takeException (.alignment ea) s)) :=
  ⟨_, rfl, takeAlignment_spec s ea s.draws⟩

theorem takesAlignment_drawn (s : State) (ea : Word) :
    TakesAlignment s ea (.next (takeException (.alignment ea) s.drawn)) :=
  ⟨_, rfl, takeAlignment_spec s ea (s.draws + 1)⟩

theorem misaligned_iff : misaligned ea = true ↔ ea &&& 3 ≠ 0 := bne_iff_ne

/-! ### Misaligned words -/

variable {ra rb : Reg}

theorem execStwcxDot_misaligned (h : s.eaX ra rb &&& 3 ≠ 0) (rs : Reg) :
    TakesAlignment s (s.eaX ra rb) (execStwcxDot rs ra rb s) := by
  rw [execStwcxDot, if_pos (misaligned_iff.2 h)]
  exact takesAlignment_now s _

theorem execLwarx_misaligned (h : s.eaX ra rb &&& 3 ≠ 0) {ps : List PByte} (hp : access s (s.eaX ra rb) 4 false = .ok ps)
    (rt : Reg) : TakesAlignment s (s.eaX ra rb) (execLwarx rt ra rb s) := by
  rw [execLwarx, if_pos (misaligned_iff.2 h), alignmentAfterChecks, hp]
  exact takesAlignment_now s _

theorem execDcread_misaligned (h : s.eaX ra rb &&& 3 ≠ 0) (hu : s.userMode = false) {p : Page}
    (hp : lookupData s (s.eaX ra rb) = .page p) (rt : Reg) :
    TakesAlignment s (s.eaX ra rb) (execDcread rt ra rb s) := by
  simp only [execDcread, privileged_supervisor hu, missOnly, hp, if_pos (misaligned_iff.2 h)]
  exact takesAlignment_now s _

/-! ### `dcbz` -/

variable {p : Page}

/-- `dcbz` to write-through storage, and to inhibited storage whose block is not cached. -/
theorem execDcbz_alignment (hp : locate s (s.eaX ra rb) true = .ok p)
    (h : p.attrs.w = true ∨ (p.attrs.i = true ∧ s.dFind (blockOf p.ra) = none)) :
    TakesAlignment s (s.eaX ra rb) (execDcbz ra rb s) := by
  simp only [execDcbz, withBlock, hp]
  cases hw : p.attrs.w with
  | true => exact takesAlignment_now s _
  | false =>
    rcases h with hw' | ⟨hi, hf⟩
    · simp [hw] at hw'
    · simp only [hi, hf, if_true, Option.isSome_none, Bool.false_and, Bool.false_eq_true, if_false]
      exact takesAlignment_drawn s _

/-- `dcbz` to inhibited storage takes the interrupt or zeroes the line. -/
theorem execDcbz_inhibited (hp : locate s (s.eaX ra rb) true = .ok p) (hw : p.attrs.w = false) (hi : p.attrs.i = true) :
    TakesAlignment s (s.eaX ra rb) (execDcbz ra rb s) ∨
      execDcbz ra rb s = done (s.drawn.dZero (blockOf p.ra)).busy := by
  simp only [execDcbz, withBlock, hp, hw, hi, if_true, Bool.false_eq_true, if_false]
  split
  · exact .inr rfl
  · exact .inl (takesAlignment_drawn s _)

/-- A storage operation that ends an instruction changes no register. -/
theorem StorageOnly.dataCacheOp {t : State} (h : StorageOnly s t) : DataCacheOp s t.busy.advance :=
  ⟨⟨fun r _ => h.gpr r, congrArg (· + 4) (h.part State.pc), { h.control with }⟩, h.part State.cr, h.part State.reserve⟩

/-- Every byte after a block is zeroed. -/
theorem dataByte_dZero (h : Coh s) (ra a : Word) :
    (s.dZero (blockOf ra)).dataByte a = if blockOf a = blockOf ra then 0 else s.dataByte a := by
  rw [dataByte_view, (dZero_spec h (blockOf_lt ra)).1 _ (blockOf_lt a), dataByte_view]
  split
  · exact Vector.getElem_replicate _
  · rfl

/-- The line that `dcbz` zeroes after a free choice: registers, bytes and the line's state. -/
theorem dZero_drawn_spec (s : State) (ra : Word) : DataCacheOp s (s.drawn.dZero (blockOf ra)).busy.advance ∧
    (s.coherent → (∀ a, (s.drawn.dZero (blockOf ra)).busy.advance.dataByte a =
        if blockOf a = blockOf ra then 0 else s.dataByte a) ∧
      ∃ w, (s.drawn.dZero (blockOf ra)).busy.advance.dLine (blockOf ra) = some w ∧ w.dirty = true) := by
  have hdrawn : StorageOnly s s.drawn := rfl
  refine ⟨(hdrawn.trans (storageOnly_dZero ..)).dataCacheOp, fun h => ?_⟩
  have hc : Coh s.drawn := ⟨h.plain, h.quiet, h.coh.clean, h.distinct⟩
  exact ⟨dataByte_dZero hc ra, (dZero_spec hc (blockOf_lt ra)).2⟩

/-- Settles O35. -/
theorem alignmentInterrupts : Obligations.AlignmentInterrupts := by
  intro s r ra rb
  refine ⟨fun h => execStwcxDot_misaligned h r, fun h ps hp => execLwarx_misaligned h hp r,
    fun h hu p hp => execDcread_misaligned h hu hp r, fun p hp => ⟨execDcbz_alignment hp, fun hw hi => ?_⟩⟩
  rcases execDcbz_inhibited hp hw hi with ⟨t, ht, h⟩ | hz
  · exact ⟨t, ht, .inl h⟩
  · exact ⟨_, hz, .inr (dZero_drawn_spec s p.ra)⟩

end Sys2Proof.Machine
end

section
/-! SUPPORT. Reading ahead along one path, and the step that runs a word read ahead (20_memory.md R120;
70_reset_and_hazards.md R620, R624). -/

namespace Sys2Proof.Machine

variable {s t : State} {c : FetchContext}

/-! ### What reading ahead leaves alone -/

/-- Two states that differ in the instruction cache, the free values and what the fetcher keeps only. -/
def FetcherOnly (s t : State) : Prop :=
  t = { s with icache := t.icache, draws := t.draws, ahead := t.ahead, waited := t.waited }

theorem FetcherOnly.refl (s : State) : FetcherOnly s s := rfl

/-- Any part of the state, after reading ahead. -/
theorem FetcherOnly.part {α : Sort _} (h : FetcherOnly s t) (f : State → α) :
    f t = f { s with icache := t.icache, draws := t.draws, ahead := t.ahead, waited := t.waited } := congrArg f h

theorem FetcherOnly.trans {u : State} (h1 : FetcherOnly s t) (h2 : FetcherOnly t u) : FetcherOnly s u :=
  Eq.trans h2 (h1.part fun x : State =>
    { x with icache := u.icache, draws := u.draws, ahead := u.ahead, waited := u.waited })

theorem FetchOnly.fetcherOnly (h : FetchOnly s t) : FetcherOnly s t := by
  unfold FetcherOnly
  rw [h.part State.ahead, h.part State.waited]
  exact h

theorem FetcherOnly.fetchedFrom (h : FetcherOnly s t) : FetchedFrom s t :=
  ⟨h.part State.gprs, h.part State.pc, h.part State.cr, h.part State.msr, h.part State.sprs, h.part State.tb,
    h.part State.pitReload, h.part State.reserve, h.part State.tlb, h.part State.mem, h.part State.dcache,
    h.part State.fillBuffer, h.part State.dcrs, h.part State.memMap⟩

theorem fetcherOnly_fetchAhead (s : State) (c : FetchContext) (a : Word) : FetcherOnly s (s.fetchAhead c a).2 := by
  cases hg : mayPrefetch c a with
  | true =>
    rw [fetchAhead_unguarded s hg]
    exact (fetchOnly_fetchAt s c a).fetcherOnly.trans rfl
  | false =>
    rw [fetchAhead_guarded s hg]
    exact .refl s

/-! ### One path -/

/-- The first word of a path joins the set; the path ends there, or goes on with one word less to read. -/
theorem readPath_cons (d : Bool) (ds : List Bool) (room : Nat) (a : Word) (past : List Word) (lr ctr : Bool) (s : State) :
    (∃ w, readPath c (d :: ds) (room + 1) a past lr ctr s = { (s.fetchAhead c a).2 with waited := w }) ∨
      ∃ n ≤ room, ∃ b past' lr' ctr',
        readPath c (d :: ds) (room + 1) a past lr ctr s = readPath c ds n b past' lr' ctr' (s.fetchAhead c a).2 := by
  simp only [readPath]
  split
  · exact .inl ⟨_, rfl⟩
  · refine .inr ⟨_, ?_, _, _, _, _, rfl⟩
    split
    · exact Nat.min_le_right ..
    · exact Nat.le_refl _

theorem fetcherOnly_readPath (ds : List Bool) (room : Nat) (a : Word) (past : List Word) (lr ctr : Bool) (s : State) :
    FetcherOnly s (readPath c ds room a past lr ctr s) := by
  induction ds generalizing room a past lr ctr s with
  | nil => exact .refl s
  | cons d ds ih =>
    cases room with
    | zero => exact .refl s
    | succ room =>
      have hfirst := fetcherOnly_fetchAhead s c a
      obtain ⟨w, h⟩ | ⟨n, -, b, past', lr', ctr', h⟩ := readPath_cons d ds room a past lr ctr s <;> rw [h]
      · exact hfirst.trans rfl
      · exact hfirst.trans (ih ..)

/-- What one word adds to the fetched-ahead set: itself, or nothing where it is guarded. -/
theorem ahead_fetchAhead (s : State) (c : FetchContext) (a : Word) :
    (∃ f, f.addr = a ∧ mayPrefetch c a = true ∧ (s.fetchAhead c a).2.ahead = f :: s.ahead) ∨
      mayPrefetch c a = false ∧ (s.fetchAhead c a).2.ahead = s.ahead := by
  cases hg : mayPrefetch c a with
  | true =>
    rw [fetchAhead_unguarded s hg]
    exact .inl ⟨_, rfl, rfl, congrArg _ ((fetchOnly_fetchAt s c a).part State.ahead)⟩
  | false =>
    rw [fetchAhead_guarded s hg]
    exact .inr ⟨rfl, rfl⟩

/-- The set `u` is the set `v` with at most `room` words more, none of them guarded. -/
def AddsAhead (c : FetchContext) (room : Nat) (u v : List Fetched) : Prop :=
  ∃ new, u = new ++ v ∧ new.length ≤ room ∧ ∀ f ∈ new, mayPrefetch c f.addr = true

theorem addsAhead_fetchAhead (s : State) (c : FetchContext) (a : Word) :
    AddsAhead c 1 (s.fetchAhead c a).2.ahead s.ahead := by
  obtain ⟨f, rfl, hg, h⟩ | ⟨-, h⟩ := ahead_fetchAhead s c a
  · exact ⟨[f], h, Nat.le_refl 1, by simpa using hg⟩
  · exact ⟨[], h, Nat.zero_le 1, by simp⟩

theorem AddsAhead.trans {m n : Nat} {u v w : List Fetched} (h1 : AddsAhead c m u v) (h2 : AddsAhead c n v w) :
    AddsAhead c (m + n) u w := by
  obtain ⟨x, rfl, hx, hgx⟩ := h1
  obtain ⟨y, rfl, hy, hgy⟩ := h2
  refine ⟨x ++ y, by simp, by simpa using Nat.add_le_add hx hy, fun f hf => ?_⟩
  rcases List.mem_append.1 hf with hf | hf
  · exact hgx f hf
  · exact hgy f hf

theorem AddsAhead.mono {m n : Nat} {u v : List Fetched} (h : AddsAhead c m u v) (hmn : m ≤ n) : AddsAhead c n u v := by
  obtain ⟨x, hu, hx, hg⟩ := h
  exact ⟨x, hu, hx.trans hmn, hg⟩

/-- A path adds at most as many words as it has room for. -/
theorem addsAhead_readPath (ds : List Bool) (room : Nat) (a : Word) (past : List Word) (lr ctr : Bool) (s : State) :
    AddsAhead c room (readPath c ds room a past lr ctr s).ahead s.ahead := by
  induction ds generalizing room a past lr ctr s with
  | nil => exact ⟨[], rfl, Nat.zero_le _, by simp⟩
  | cons d ds ih =>
    cases room with
    | zero => exact ⟨[], rfl, Nat.zero_le _, by simp⟩
    | succ room =>
      have hfirst := addsAhead_fetchAhead s c a
      obtain ⟨w, h⟩ | ⟨n, hn, b, past', lr', ctr', h⟩ := readPath_cons d ds room a past lr ctr s <;> rw [h]
      · exact hfirst.mono (by omega)
      · exact ((ih n b past' lr' ctr' _).trans hfirst).mono (by omega)

/-- A path that starts at an unguarded word adds that word first. -/
theorem addsAhead_readPath_first {a : Word} (hg : mayPrefetch c a = true) (d : Bool) (ds : List Bool) (room : Nat)
    (past : List Word) (lr ctr : Bool) (s : State) :
    ∃ f : Fetched, f.addr = a ∧
      AddsAhead c room (readPath c (d :: ds) (room + 1) a past lr ctr s).ahead (f :: s.ahead) := by
  obtain ⟨f, ha, -, hf⟩ | ⟨hg', -⟩ := ahead_fetchAhead s c a
  · refine ⟨f, ha, ?_⟩
    rw [← hf]
    obtain ⟨w, h⟩ | ⟨n, hn, b, past', lr', ctr', h⟩ := readPath_cons d ds room a past lr ctr s <;> rw [h]
    · exact ⟨[], rfl, Nat.zero_le _, by simp⟩
    · exact (addsAhead_readPath ds n b past' lr' ctr' _).mono hn
  · rw [hg] at hg'
    cases hg'

/-- What a path adds to the fetched-ahead set: as many words as it has room for, none guarded, the oldest the one it starts
at where that may be read. -/
theorem readPath_ahead (ds : List Bool) (room : Nat) (a : Word) (past : List Word) (lr ctr : Bool) (s : State) :
    ∃ new, (readPath c ds (room + 1) a past lr ctr s).ahead = new ++ s.ahead ∧ new.length ≤ room + 1 ∧
      (mayPrefetch c a = true → ds ≠ [] → new.getLast?.map (·.addr) = some a) ∧
      ∀ f ∈ new, mayPrefetch c f.addr = true := by
  by_cases hfirst : mayPrefetch c a = true ∧ ds ≠ []
  · obtain ⟨hg, hne⟩ := hfirst
    obtain ⟨d, ds, rfl⟩ := List.exists_cons_of_ne_nil hne
    obtain ⟨f, rfl, new, hnew, hlen, hfree⟩ := addsAhead_readPath_first hg d ds room past lr ctr s
    refine ⟨new ++ [f], by simp [hnew], by simpa using hlen, fun _ _ => by simp, fun g hmem => ?_⟩
    rcases List.mem_append.1 hmem with hmem | hmem
    · exact hfree g hmem
    · rw [List.mem_singleton.1 hmem]
      exact hg
  · obtain ⟨new, hnew, hlen, hfree⟩ := addsAhead_readPath (c := c) ds (room + 1) a past lr ctr s
    exact ⟨new, hnew, hlen, fun hg hne => absurd ⟨hg, hne⟩ hfirst, hfree⟩

/-- In real mode the word at an address that may be read ahead lies in a region that is not guarded. -/
theorem unguarded_region {a : Word} (h : mayPrefetch c a = true) (hir : bitAt c.msr 26 = false) :
    bitAt c.sgr (a.toNat / 2 ^ 27) = false := by
  simpa [mayPrefetch, lookupFetch, hir, regionOf_eq] using h

/-! ### Running a word read ahead -/

/-- An outside that is quiet but for the word the step is to run: the writes of the core arrive, nothing is read ahead. -/
theorem applyInput_useAhead (s : State) (m : Nat) (h : s.inputs = [{ s.quiet with useAhead := m }]) :
    applyInput { s.quiet with useAhead := m } s = { s.settle 0 with between := [], inputs := [] } := by
  have hquiet := applyInput_quiet { s with inputs := [] } rfl
  refine Eq.trans ?_ hquiet
  simp only [applyInput, applyDevices, h]
  rfl

/-- A step that runs a word of the fetched-ahead set, whatever memory holds at the program counter now. -/
theorem step_useAhead {f : Fetched} {w : Word} {i : Instr} {n : Nat}
    (hin : s.inputs = [{ s.quiet with useAhead := n + 1 }]) (hstuck : s.stuck = false)
    (hpend : pendingInterrupt (s.settle 0) false = none) (hwe : s.msrWE = false) (hf : s.aheadHere[n]? = some f)
    (hw : f.result = .word w) (hi : decode w = .ok i) :
    step s = exec i
      { quietBoundary s with inputs := [], fetchedUser := some f.user, waited := s.waited.filterMap (wayOn s.pc) } := by
  have hnext : s.nextInput = { s.quiet with useAhead := n + 1 } := by simp [State.nextInput, hin]
  have hfetch : State.fetchNext { quietBoundary s with inputs := [] } (n + 1) 0 =
      (f.result, { quietBoundary s with inputs := [], fetchedUser := some f.user }) := by
    have hf' : (State.aheadHere { quietBoundary s with inputs := [] })[n]? = some f := hf
    simp only [State.fetchNext, hf']
  have hboundary : step s = runNext (n + 1) 0 { quietBoundary s with inputs := [] } := by
    let u : State := { s.settle 0 with between := [], inputs := [] }
    have hs : u.stuck = false := hstuck
    have hp : pendingInterrupt u false = none := hpend
    have hawake : u.msrWE = false := hwe
    have hu : boundary { s.quiet with useAhead := n + 1 } u = runNext (n + 1) 0 u.passBoundary := by
      simp only [boundary, State.quiet, hs, hp, hawake, Bool.false_eq_true, if_false]
    rw [step, hnext, applyInput_useAhead s _ hin]
    exact hu
  rw [hboundary, runNext, hfetch, hw]
  simp only [runFetched, hi]
  rfl

/-- Settles O43. -/
theorem readAhead : Obligations.ReadAhead := by
  refine ⟨fun s c path => ?_, fun s f w i n hin hstuck hpend hwe hf hw hi =>
    step_useAhead hin hstuck hpend hwe hf hw hi⟩
  obtain ⟨new, hnew, hlen, hfirst, hfree⟩ := readPath_ahead (c := c) path 19 s.pc [] false false s
  exact ⟨new, hnew, hlen, hfirst, fun f hf => ⟨hfree f hf, unguarded_region (hfree f hf)⟩,
    (fetcherOnly_readPath path 20 s.pc [] false false s).fetchedFrom⟩

end Sys2Proof.Machine
end

section
/-! SUPPORT. Decoding undoes encoding: the row an instruction's own word names, by its opcodes (30_encoding.md R160 to
R170). -/

namespace Sys2Proof

/-- The fields of an instruction's own word give the instruction back. The primary opcode names the row, or the map in
which the extended opcode names it; an XO-form row stands in its map twice, once for each value of OE. -/
theorem decodeFields_encode (i : Instr) : decodeFields (encode i) = some i := by
  cases i with
  -- The primary opcode alone
  | lbz | lbzu | lhz | lhzu | lha | lhau | lwz | lwzu | stb | stbu | sth | sthu | stw | stwu | lmw | stmw | addi
  | addic | addicDot | addis | subfic | mulli | andiDot | andisDot | ori | oris | xori | xoris | cmpi | cmpli | twi =>
    rw [encode, decodeFields, opcdOf_packD]
    exact congrArg some (by simp)
  | rlwimi | rlwinm | rlwnm =>
    rw [encode, decodeFields, opcdOf_packM]
    exact congrArg some (by simp)
  | b =>
    rw [encode, decodeFields, opcdOf_packI]
    exact congrArg some (by simp)
  | bc =>
    rw [encode, decodeFields, opcdOf_packB]
    exact congrArg some (by simp)
  | sc => rfl
  -- Opcode 4 (30_encoding.md R169)
  | mulchw | mulchwu | mulhhw | mulhhwu | mullhw | mullhwu =>
    rw [encode, decodeFields_4 _ (opcdOf_packX ..), decode4, xoOf_packX]
    exact congrArg some (by simp)
  | macchw _ _ _ oe | macchws _ _ _ oe | macchwsu _ _ _ oe | macchwu _ _ _ oe | machhw _ _ _ oe | machhws _ _ _ oe
  | machhwsu _ _ _ oe | machhwu _ _ _ oe | maclhw _ _ _ oe | maclhws _ _ _ oe | maclhwsu _ _ _ oe
  | maclhwu _ _ _ oe | nmacchw _ _ _ oe | nmacchws _ _ _ oe | nmachhw _ _ _ oe | nmachhws _ _ _ oe
  | nmaclhw _ _ _ oe | nmaclhws _ _ _ oe =>
    rw [encode, decodeFields_4 _ (opcdOf_packXO ..), decode4, xoOf_packXO]
    cases oe <;> exact congrArg some (by simp)
  -- Opcode 19 (30_encoding.md R167)
  | bclr | bcctr | crand | crandc | creqv | crnand | crnor | cror | crorc | crxor | mcrf | rfi | rfci | isync =>
    rw [encode, decodeFields_19 _ (opcdOf_packX ..), decode19, xoOf_packX]
    exact congrArg some (by simp)
  -- Opcode 31 (30_encoding.md R168)
  | lbzx | lbzux | lhzx | lhzux | lhax | lhaux | lwzx | lwzux | stbx | stbux | sthx | sthux | stwx | stwux | lhbrx
  | lwbrx | sthbrx | stwbrx | lswi | lswx | stswi | stswx | lwarx | stwcxDot | and | andc | cntlzw | eqv | extsb
  | extsh | nand | nor | or | orc | xor | cmp | cmpl | slw | srw | sraw | srawi | icbi | icbt | iccci | icread | dcbf
  | dcbi | dcbz | dcbst | dcbt | dcbtst | dccci | dcba | dcread | mfmsr | mtmsr | wrtee | wrteei | tlbsx | tlbia
  | tlbre | tlbwe | tlbsync | eieio | sync | mcrxr | mfcr | mfdcr | mfspr | mftb | mtcrf | mtdcr | mtspr | tw =>
    rw [encode, decodeFields_31 _ (opcdOf_packX ..), decode31, xoOf_packX]
    exact congrArg some (by simp)
  | add _ _ _ oe | addc _ _ _ oe | adde _ _ _ oe | addme _ _ oe | addze _ _ oe | subf _ _ _ oe | subfc _ _ _ oe
  | subfe _ _ _ oe | subfme _ _ oe | subfze _ _ oe | neg _ _ oe | mullw _ _ _ oe | divw _ _ _ oe | divwu _ _ _ oe =>
    rw [encode, decodeFields_31 _ (opcdOf_packXO ..), decode31, xoOf_packXO]
    cases oe <;> exact congrArg some (by simp)
  | mulhw | mulhwu =>
    rw [encode, decodeFields_31 _ (opcdOf_packXO ..), decode31, xoOf_packXO]
    exact congrArg some (by simp)

/-- A word decodes to an instruction that its opcodes name and whose own word it is. -/
theorem decode_ok_iff {w : Word} {i : Instr} : decode w = .ok i ↔ decodeFields w = some i ∧ encode i = w := by
  unfold decode
  cases decodeFields w with
  | none => simp
  | some j =>
    by_cases hj : encode j = w
    · simp only [hj, if_true, Except.ok.injEq, Option.some.injEq]
      exact ⟨fun h => ⟨h, h ▸ hj⟩, And.left⟩
    · simp only [hj, if_false, reduceCtorEq, Option.some.injEq, false_iff]
      exact fun ⟨h, hi⟩ => hj (h ▸ hi)

/-- Settles O2: the decoder keeps only a word that is its instruction's own, and an instruction's own word names it. -/
theorem decodeEncode : Obligations.DecodeEncode := fun _ i =>
  ⟨fun h => (decode_ok_iff.1 h).2, fun h => decode_ok_iff.2 ⟨h ▸ decodeFields_encode i, h⟩⟩

end Sys2Proof
end

section
/-! SUPPORT. The Program interrupt of an illegal word and of a privileged instruction in user mode (60_exceptions.md
R538, R539). -/

namespace Sys2Proof.Machine

/-- An interrupt of the non-critical class that rewrites the ESR, whole: MCI kept, the other bits as the cause says
(60_exceptions.md R593). -/
theorem takeInterrupt_setSyndrome_spec (k : Interrupt) (ret : Word) (s : State) (hk : k.kind = .nonCritical) {w : Word}
    (hw : w &&& Spr.mask .esr = w) :
    EntersNonCritical s (takeInterrupt k ret (s.setSyndrome w)) k.offset ret (s.keptSyndrome ||| w) (s.spr .dear) := by
  have hkept : ∀ r, r ≠ .esr → (s.setSyndrome w).spr r = s.spr r := fun r hr => State.spr_setSpr_ne _ _ hr
  have hmci : (0x80000000 : Word) &&& Spr.mask .esr = 0x80000000 := by decide
  have hesr : (s.setSyndrome w).spr .esr = s.keptSyndrome ||| w := by
    rw [State.setSyndrome, State.spr_setSpr_self, BitVec.and_or_distrib_right, BitVec.and_assoc, hmci, hw]
    rfl
  have h := takeInterrupt_spec k ret (s.setSyndrome w) hk
  rw [hesr, hkept .dear (by decide)] at h
  exact { h with
    pc := h.pc.trans (congrArg (fun v : Word => (v &&& 0xFFFF0000) ||| k.offset) (hkept .evpr (by decide)))
    sprs := fun r h0 h1 he hd => (h.sprs r h0 h1 he hd).trans (hkept r he) }

/-- The Program interrupt, whole. -/
theorem takeProgram_spec (c : ProgramCause) (s : State) :
    EntersNonCritical s (takeException (.program c) s) 0x0700 s.pc (s.keptSyndrome ||| c.syndrome) (s.spr .dear) :=
  takeInterrupt_setSyndrome_spec .program s.pc s rfl (by cases c <;> decide)

variable {s : State}

/-- Settles O3. -/
theorem undecodableWords : Obligations.UndecodableWords := by
  intro s w
  refine ⟨fun h => ⟨takeException (.program .illegal) s, ?_, takeProgram_spec .illegal s⟩, fun h => ?_⟩
  · simp only [runFetched, h]
  · simp only [runFetched, h]

/-- A move to or from a privileged SPR number traps in user mode, whatever the number names. -/
theorem sprAccess_user (h : s.userMode = true) {n : RegNum} (hn : sprPrivileged n = true) (k : Result) :
    sprAccess n s k = .next (takeException (.program .privileged) s) := by
  rw [sprAccess, h, hn]
  rfl

/-- A privileged instruction does nothing but trap in user mode. -/
theorem exec_privileged_user {i : Instr} (hi : privilegedInstr i = true) (hu : s.userMode = true) :
    exec i s = .next (takeException (.program .privileged) s) := by
  cases i with
  | mfspr | mtspr => exact sprAccess_user hu hi _
  | mfmsr | mtmsr | wrtee | wrteei | rfi | rfci | mfdcr | mtdcr | tlbsx | tlbia | tlbre | tlbwe | tlbsync | icbt | iccci
  | icread | dcbi | dccci | dcread => exact privileged_user hu _
  | _ => cases hi

/-- Settles O52. -/
theorem privilegedTraps : Obligations.PrivilegedTraps := fun _ s hi hu =>
  ⟨_, exec_privileged_user hi hu, takeProgram_spec .privileged s⟩

end Sys2Proof.Machine
end

section
/-! SUPPORT. The loads and stores with update (40_storage_reference.md R201, R204 to R230). -/

namespace Sys2Proof.Machine

variable {s : State} {i : Instr} {ps : List PByte} {rt ra : Reg} {ea : Word}

theorem loadUpdateOk_iff : loadUpdateOk rt ra = true ↔ ra ≠ 0 ∧ ra ≠ rt := by
  simp only [loadUpdateOk, Bool.and_eq_true, bne_iff_ne]

theorem storeUpdateOk_iff : storeUpdateOk ra = true ↔ ra ≠ 0 := bne_iff_ne

/-- An instruction of an allowed form runs. -/
theorem validForm_ok {ok : Bool} (h : ok = true) (r : Refusal) (k : Result) : validForm ok r k = k := if_pos h

/-- An instruction of a forbidden form is refused. -/
theorem validForm_refused {ok : Bool} (h : ¬ ok = true) (r : Refusal) (k : Result) : validForm ok r k = .refused r :=
  if_neg h

/-- A load stays one when a general register other than its own is written after it. -/
theorem Loads.update {t : State} {f : Word → Word} {reserve : Bool} (h : Loads s t rt [rt] ps f reserve)
    (hne : ra ≠ rt) (v : Word) : Loads s (t.setGpr ra v) rt [rt, ra] ps f reserve where
  value := fun hc hs => (State.gpr_setGpr_ne t v hne.symm).trans (h.value hc hs)
  bytes := h.bytes
  cr := h.cr
  reserve := h.reserve
  rest :=
    { gprs := fun r hr => by
        simp only [List.mem_cons, List.not_mem_nil, or_false, not_or] at hr
        exact (State.gpr_setGpr_ne t v hr.2).trans (h.rest.gprs r (by simpa using hr.1))
      next := h.rest.next
      control := { h.rest.control with } }

/-- A store stays one when a general register is written after it. -/
theorem Stores.update {t : State} {bs : List Byte} (h : Stores s t [] ps bs) (ra : Reg) (v : Word) :
    Stores s (t.setGpr ra v) [ra] ps bs where
  stored := fun hc hs => ⟨(h.stored hc hs).written, (h.stored hc hs).elsewhere⟩
  cr := h.cr
  reserve := h.reserve
  rest :=
    { gprs := fun r hr => (State.gpr_setGpr_ne t v (by simpa using hr)).trans (h.rest.gprs r (by simp))
      next := h.rest.next
      control := { h.rest.control with } }

/-- What `loadUpdate` does where its form is allowed and the load it makes completes. -/
theorem loadUpdate_of_loadInto {t : State} {n : Nat} {f : Word → Word} (hok : loadUpdateOk rt ra = true)
    (h : loadInto s rt ea n f = .next t) (hacc : access s ea n false = .ok ps) :
    loadUpdate s rt ra ea n f = .next (t.setGpr ra ea) := by
  simp only [loadInto, withLoad, hacc, done] at h
  cases h
  simp only [loadUpdate, validForm_ok hok, withLoad, hacc]
  rfl

/-- `loadUpdate` as the statement has it. -/
theorem loadsUpdating_of_exec {n : Nat} {f : Word → Word} (h : exec i s = loadUpdate s rt ra ea n f) :
    loadsUpdating s i rt ra ea n f := by
  rw [loadsUpdating, h]
  refine ⟨fun hbad => validForm_refused ?_ _ _, fun h0 hrt ps hacc => ?_⟩
  · rw [loadUpdateOk_iff, not_and_or, not_not, not_not]
    exact hbad
  · obtain ⟨t, ht, hl⟩ := loadInto_completes hacc rt f
    exact ⟨t.setGpr ra ea, loadUpdate_of_loadInto (loadUpdateOk_iff.2 ⟨h0, hrt⟩) ht hacc, hl.update hrt ea,
      State.gpr_setGpr_self t ra ea⟩

/-- What `storeUpdate` does where its form is allowed and the store it makes completes. -/
theorem storeUpdate_of_storeAt {t : State} {bs : List Byte} (hok : storeUpdateOk ra = true)
    (h : storeAt s ea bs = .next t) (hacc : access s ea bs.length true = .ok ps) :
    storeUpdate s ra ea bs = .next (t.setGpr ra ea) := by
  simp only [storeAt, withStore, hacc, done] at h
  cases h
  simp only [storeUpdate, validForm_ok hok, withStore, hacc]
  rfl

/-- `storeUpdate` as the statement has it. -/
theorem storesUpdating_of_exec {bs : List Byte} (h : exec i s = storeUpdate s ra ea bs) :
    storesUpdating s i ra ea bs := by
  rw [storesUpdating, h]
  refine ⟨fun h0 => validForm_refused ?_ _ _, fun h0 ps hacc => ?_⟩
  · rw [storeUpdateOk_iff, not_not]
    exact h0
  · obtain ⟨t, ht, hst⟩ := storeAt_completes hacc
    exact ⟨t.setGpr ra ea, storeUpdate_of_storeAt (storeUpdateOk_iff.2 h0) ht hacc, hst.update ra ea,
      State.gpr_setGpr_self t ra ea⟩

/-- Settles O23: each of the eight is `loadUpdate` at its width and its extension. -/
theorem loadUpdateResults : Obligations.LoadUpdateResults := fun _ _ _ _ _ =>
  ⟨loadsUpdating_of_exec rfl, loadsUpdating_of_exec rfl, loadsUpdating_of_exec rfl, loadsUpdating_of_exec rfl,
    loadsUpdating_of_exec rfl, loadsUpdating_of_exec rfl, loadsUpdating_of_exec rfl, loadsUpdating_of_exec rfl⟩

/-- Settles O25: each of the six is `storeUpdate` of the bytes of its width. -/
theorem storeUpdateResults : Obligations.StoreUpdateResults := fun _ _ _ _ _ =>
  ⟨storesUpdating_of_exec rfl, storesUpdating_of_exec rfl, storesUpdating_of_exec rfl, storesUpdating_of_exec rfl,
    storesUpdating_of_exec rfl, storesUpdating_of_exec rfl⟩

end Sys2Proof.Machine
end

section
/-! SUPPORT. The loads and stores without update; and what becomes of a load or a store whose access may not be made
(40_storage_reference.md R202, R203 to R234, R241). -/

namespace Sys2Proof.Machine

variable {s : State} {i : Instr} {ea : Word} {n : Nat} {store : Bool}

/-! ### Loads and stores without update -/

/-- `loadInto` as the statement has it. -/
theorem loadsItem_of_exec {rt : Reg} {f : Word → Word} (h : exec i s = loadInto s rt ea n f) :
    loadsItem s i rt [rt] ea n f := by
  intro ps hacc
  rw [h]
  exact loadInto_completes hacc rt f

/-- `storeAt` as the statement has it. -/
theorem storesItem_of_exec {bs : List Byte} (h : exec i s = storeAt s ea bs) : storesItem s i ea bs := by
  intro ps hacc
  rw [h]
  exact storeAt_completes hacc

/-- Settles O22: each of the ten is `loadInto` at its width and its adjustment. -/
theorem loadResults : Obligations.LoadResults := fun _ _ _ _ _ =>
  ⟨loadsItem_of_exec rfl, loadsItem_of_exec rfl, loadsItem_of_exec rfl, loadsItem_of_exec rfl, loadsItem_of_exec rfl,
    loadsItem_of_exec rfl, loadsItem_of_exec rfl, loadsItem_of_exec rfl, loadsItem_of_exec rfl, loadsItem_of_exec rfl⟩

/-- Settles O24: each of the eight is `storeAt` of the bytes of its width, the reversed ones in reverse. -/
theorem storeResults : Obligations.StoreResults := fun _ _ _ _ _ =>
  ⟨storesItem_of_exec rfl, storesItem_of_exec rfl, storesItem_of_exec rfl, storesItem_of_exec rfl,
    storesItem_of_exec rfl, storesItem_of_exec rfl, storesItem_of_exec rfl, storesItem_of_exec rfl⟩

/-! ### Accesses that may not be made -/

/-- Looking one byte up refuses two matching TLB entries alone. -/
theorem locate_refuse {r : Refusal} (h : locate s ea store = .error (.refuse r)) : r = .tlbMultipleMatch := by
  unfold locate at h
  split at h
  · cases h
  · cases h; rfl
  · split at h
    · cases h
    · split at h
      · cases h
      · split at h <;> cases h

theorem locateBytes_refuse {r : Refusal} (h : locateBytes s store n ea = .error (.refuse r)) :
    r = .tlbMultipleMatch := by
  induction n generalizing ea with
  | zero => cases h
  | succ n ih =>
    unfold locateBytes at h
    split at h
    · rename_i hl; cases h; exact locate_refuse hl
    · split at h
      · rename_i hl; cases h; exact ih hl
      · cases h

/-- What an access may be refused for. -/
theorem access_refuse {r : Refusal} (h : access s ea n store = .error (.refuse r)) :
    r = .tlbMultipleMatch ∨ r = .writeThroughInhibited := by
  unfold access at h
  split at h
  · rename_i hl; cases h; exact .inl (locateBytes_refuse hl)
  · split at h
    · cases h; exact .inr rfl
    · cases h

variable {e : Stop}

theorem withLoad_error (h : access s ea n false = .error e) (k : Word → State → Result) :
    withLoad s ea n k = stopWith s e := by
  simp only [withLoad, h]

theorem withStore_error {bs : List Byte} (h : access s ea bs.length true = .error e) (k : State → Result) :
    withStore s ea bs k = stopWith s e := by
  simp only [withStore, h]

theorem loadInto_error (h : access s ea n false = .error e) (rt : Reg) (f : Word → Word) :
    loadInto s rt ea n f = stopWith s e := withLoad_error h _

theorem storeAt_error {bs : List Byte} (h : access s ea bs.length true = .error e) :
    storeAt s ea bs = stopWith s e := withStore_error h _

theorem loadUpdate_error {rt ra : Reg} (hok : loadUpdateOk rt ra = true) (h : access s ea n false = .error e)
    (f : Word → Word) : loadUpdate s rt ra ea n f = stopWith s e :=
  (validForm_ok hok _ _).trans (withLoad_error h _)

theorem storeUpdate_error {ra : Reg} {bs : List Byte} (hok : storeUpdateOk ra = true)
    (h : access s ea bs.length true = .error e) : storeUpdate s ra ea bs = stopWith s e :=
  (validForm_ok hok _ _).trans (withStore_error h _)

theorem loadString_error (h : access s ea n false = .error e) (rt : Reg) : loadString s rt ea n = stopWith s e := by
  simp only [loadString, h]

theorem storeString_error (h : access s ea n true = .error e) (rs : Reg) : storeString s rs ea n = stopWith s e := by
  simp only [storeString, h]

theorem execLmw_error {rt ra : Reg} {d : Half} (hok : loadMultipleOk rt ra = true)
    (h : access s (s.eaD ra d) (4 * (32 - rt.toNat)) false = .error e) : execLmw rt ra d s = stopWith s e := by
  simp only [execLmw, validForm_ok hok, h]

theorem execStmw_error {rs ra : Reg} {d : Half}
    (h : access s (s.eaD ra d) (4 * (32 - rs.toNat)) true = .error e) : execStmw rs ra d s = stopWith s e := by
  simp only [execStmw, h]

/-- A misaligned `lwarx` stops at its access before its alignment (log entry 18). -/
theorem execLwarx_error {rt ra rb : Reg} (h : access s (s.eaX ra rb) 4 false = .error e) :
    execLwarx rt ra rb s = stopWith s e := by
  unfold execLwarx
  split
  · simp only [alignmentAfterChecks, h]
  · exact withLoad_error h _

theorem execStwcxDot_error {rs ra rb : Reg} (ha : s.eaX ra rb &&& 3 = 0) (hr : s.reserve = true)
    (h : access s (s.eaX ra rb) 4 true = .error e) : execStwcxDot rs ra rb s = stopWith s e := by
  rw [execStwcxDot, if_neg (fun hm => misaligned_iff.1 hm ha), if_pos hr]
  exact withStore_error (bs := wordBytes (s.gpr rs)) h _

theorem execLswx_error {rt ra rb : Reg} (hok : stringIndexedOk rt ra rb s.xerTBC = true) (hn : s.xerTBC ≠ 0)
    (h : access s (s.eaX ra rb) s.xerTBC false = .error e) : execLswx rt ra rb s = stopWith s e := by
  rw [execLswx, validForm_ok hok, if_neg hn]
  exact loadString_error h rt

theorem execStswx_error {rs ra rb : Reg} (hn : s.xerTBC ≠ 0)
    (h : access s (s.eaX ra rb) s.xerTBC true = .error e) : execStswx rs ra rb s = stopWith s e := by
  rw [execStswx, if_neg hn]
  exact storeString_error h rs

/-- A load or a store of an allowed form whose access stops is that stop. -/
theorem exec_of_wholeAccess_error (hw : wholeAccess s i = some (ea, n, store)) (hok : i.wf = true)
    (h : access s ea n store = .error e) : exec i s = stopWith s e := by
  cases i with
  | lbz | lbzx | lhz | lhzx | lha | lhax | lwz | lwzx | lhbrx | lwbrx => cases hw; exact loadInto_error h _ _
  | lbzu | lbzux | lhzu | lhzux | lhau | lhaux | lwzu | lwzux => cases hw; exact loadUpdate_error hok h _
  | stb | stbx | sth | sthx | stw | stwx | sthbrx | stwbrx => cases hw; exact storeAt_error h
  | stbu | stbux | sthu | sthux | stwu | stwux => cases hw; exact storeUpdate_error hok h
  | lmw => cases hw; exact execLmw_error hok h
  | stmw => cases hw; exact execStmw_error h
  | lswi rt => cases hw; exact (validForm_ok hok _ _).trans (loadString_error h rt)
  | stswi rs => cases hw; exact storeString_error h rs
  | lswx rt ra rb =>
    obtain ⟨⟨hform, hn⟩, heq⟩ := Option.ite_none_right_eq_some.1 hw
    cases heq
    exact execLswx_error hform hn h
  | stswx rs ra rb =>
    obtain ⟨hn, heq⟩ := Option.ite_none_right_eq_some.1 hw
    cases heq
    exact execStswx_error hn h
  | lwarx => cases hw; exact execLwarx_error h
  | stwcxDot rs ra rb =>
    obtain ⟨⟨ha, hr⟩, heq⟩ := Option.ite_none_right_eq_some.1 hw
    cases heq
    exact execStwcxDot_error ha hr h
  | _ => cases hw

/-- Settles O33: the stop of the access is the instruction's, from the state it found. -/
theorem accessStops : Obligations.AccessStops := fun _ _ _ _ _ hw hok =>
  ⟨fun _ h => exec_of_wholeAccess_error hw hok h,
    fun _ h => ⟨exec_of_wholeAccess_error hw hok h, access_refuse h⟩⟩

/-! ### Words written out in the spec's examples -/

/-- Settles O1: the nine words are decoded as they stand. -/
theorem decodeSampleWords : Obligations.DecodeSampleWords := by
  refine ⟨?_, ?_, ?_, ?_, ?_, ?_, ?_, ?_, ?_⟩ <;> decide

end Sys2Proof.Machine
end

section
/-! SUPPORT. Accesses that move several registers: `lmw`, `stmw` and the string instructions (40_storage_reference.md R235
to R242; 20_memory.md R109, R113). -/

namespace Sys2Proof.Machine

variable {s t u : State} {r q : Reg} {ps qs : List PByte} {bs cs : List Byte} {k : Nat}

/-! ### Consecutive registers -/

theorem register_succ (r : Reg) (j : Nat) : r + BitVec.ofNat 5 (j + 1) = r + 1 + BitVec.ofNat 5 j := by
  rw [Nat.add_comm, BitVec.ofNat_add, ← BitVec.add_assoc]
  rfl

theorem register_zero (r : Reg) : r + BitVec.ofNat 5 0 = r := BitVec.add_zero r

theorem registersFrom_succ (r : Reg) (k : Nat) : registersFrom r (k + 1) = r :: registersFrom (r + 1) k := by
  simp only [registersFrom, List.range_succ_eq_map, List.map_cons, List.map_map, register_zero]
  exact congrArg (r :: ·) (List.map_congr_left fun j _ => register_succ r j)

/-- Up to 32 consecutive registers are distinct. -/
theorem not_mem_registersFrom (r : Reg) (hk : k + 1 ≤ 32) : r ∉ registersFrom (r + 1) k := by
  intro hm
  obtain ⟨j, hj, hr⟩ := List.mem_map.1 hm
  have hlt := List.mem_range.1 hj
  bv_omega

/-! ### Registers and storage -/

/-- Two states that differ by an access and in general registers only. -/
def LoadOnly (s t : State) : Prop := AccessOnly { s with gprs := t.gprs } t

theorem AccessOnly.loadOnly (h : AccessOnly s t) : LoadOnly s t := by
  unfold LoadOnly
  rw [h.part State.gprs]
  exact h

theorem LoadOnly.refl (s : State) : LoadOnly s s := rfl

theorem loadOnly_setGpr (s : State) (r : Reg) (v : Word) : LoadOnly s (s.setGpr r v) := rfl

/-- Any part of the state, after such a change. -/
theorem LoadOnly.part {α : Sort _} (h : LoadOnly s t) (f : State → α) : f t = f { s with
    mem := t.mem, dcache := t.dcache, fillBuffer := t.fillBuffer, unsettled := t.unsettled, busError := t.busError,
    draws := t.draws, between := t.between, gprs := t.gprs } := congrArg f h

theorem LoadOnly.trans (h1 : LoadOnly s t) (h2 : LoadOnly t u) : LoadOnly s u := by
  have := h1.part (fun x : State => { x with
    mem := u.mem, dcache := u.dcache, fillBuffer := u.fillBuffer, unsettled := u.unsettled, busError := u.busError,
    draws := u.draws, between := u.between, gprs := u.gprs })
  exact Eq.trans h2 this

/-- An instruction that ends with such a change keeps everything but the registers it names. -/
theorem LoadOnly.keepsForAccess (h : LoadOnly s t) {changed : List Reg} (hg : ∀ q, q ∉ changed → t.gpr q = s.gpr q) :
    KeepsForAccess s t.busy.advance changed where
  gprs := hg
  next := congrArg (· + 4) (h.part State.pc)
  control := { AccessOnly.control h with }

/-- The bytes a program sees decide what an item is. -/
theorem itemAt_congr (h : ∀ a, t.dataByte a = s.dataByte a) (ps : List PByte) : itemAt t ps = itemAt s ps := by
  simp only [itemAt, h]

/-- The bytes after the first few stay settled when those are loaded or stored. -/
theorem settled_drop (h : settled s ps) (n : Nat)
    (ht : (∀ p ∈ ps.take n, p.attrs.i = true) → t.dcache = s.dcache) : settled t (ps.drop n) := by
  rcases h with hc | hi
  · exact .inl fun p hp => hc p (List.mem_of_mem_drop hp)
  · have hd := ht fun p hp => (hi p (List.mem_of_mem_take hp)).1
    refine .inr fun p hp => ⟨(hi p (List.mem_of_mem_drop hp)).1, ?_⟩
    simpa only [State.dFind, State.dset, hd] using (hi p (List.mem_of_mem_drop hp)).2

theorem settled_take (h : settled s ps) (n : Nat) : settled s (ps.take n) :=
  h.imp (fun hc p hp => hc p (List.mem_of_mem_take hp)) fun hi p hp => hi p (List.mem_of_mem_take hp)

/-- Storage stays coherent when a general register is written. -/
theorem State.coherent.setGpr (h : s.coherent) (r : Reg) (v : Word) : (s.setGpr r v).coherent :=
  ⟨h.plain, h.quiet, h.fillBuffer, h.clean, h.distinct⟩

/-- Bytes stored, then others: those of both are stored. -/
theorem Stored.append (h1 : Stored s t ps bs) (h2 : Stored t u qs cs) : Stored s u (ps ++ qs) (bs ++ cs) where
  written := fun hn => by
    rw [List.map_append, List.nodup_append] at hn
    obtain ⟨hps, hqs, hdisjoint⟩ := hn
    have hkept : ∀ p ∈ ps, u.dataByte p.ra = t.dataByte p.ra := fun p hp =>
      h2.elsewhere p.ra fun hq => hdisjoint p.ra (List.mem_map_of_mem hp) p.ra hq rfl
    rw [List.map_append, h2.written hqs, List.map_congr_left hkept, h1.written hps]
  elsewhere := fun a ha => by
    simp only [List.map_append, List.mem_append, not_or] at ha
    exact (h2.elsewhere a ha.2).trans (h1.elsewhere a ha.1)

/-! ### Words of a multiple -/

theorem wordPlaces_zero (ps : List PByte) : wordPlaces ps 0 = ps.take 4 := rfl

theorem wordPlaces_succ (ps : List PByte) (j : Nat) : wordPlaces ps (j + 1) = wordPlaces (ps.drop 4) j := by
  rw [wordPlaces, wordPlaces, List.drop_drop, Nat.mul_succ, Nat.add_comm]

theorem firstE_take (ps : List PByte) : firstE (ps.take 4) = firstE ps := by
  cases ps <;> rfl

/-- One word of `loadWords`. -/
def State.loadWord (s : State) (r : Reg) (ps : List PByte) : State :=
  (s.loadBytes (ps.take 4)).2.setGpr r (wordOf (ordered (firstE ps) (s.loadBytes (ps.take 4)).1))

theorem loadWords_succ (s : State) (k : Nat) (r : Reg) (ps : List PByte) :
    s.loadWords (k + 1) r ps = (s.loadWord r ps).loadWords k (r + 1) (ps.drop 4) := rfl

theorem loadOnly_loadWord (s : State) (r : Reg) (ps : List PByte) : LoadOnly s (s.loadWord r ps) :=
  (accessOnly_loadBytes s (ps.take 4)).loadOnly.trans (loadOnly_setGpr _ _ _)

theorem loadOnly_loadWords (k : Nat) (s : State) (r : Reg) (ps : List PByte) : LoadOnly s (s.loadWords k r ps) := by
  induction k generalizing s r ps with
  | zero => exact .refl s
  | succ k ih => exact (loadOnly_loadWord s r ps).trans (ih _ _ _)

theorem gpr_loadWord_ne (s : State) (ps : List PByte) (h : q ≠ r) : (s.loadWord r ps).gpr q = s.gpr q :=
  (State.gpr_setGpr_ne _ _ h).trans ((accessOnly_loadBytes s (ps.take 4)).gpr q)

theorem gpr_loadWords_of_not_mem (k : Nat) (s : State) (r : Reg) (ps : List PByte) (h : q ∉ registersFrom r k) :
    (s.loadWords k r ps).gpr q = s.gpr q := by
  induction k generalizing s r ps with
  | zero => rfl
  | succ k ih =>
    rw [registersFrom_succ, List.mem_cons, not_or] at h
    exact (ih _ _ _ h.2).trans (gpr_loadWord_ne s ps h.1)

/-- One word loaded: its register holds the item, no byte changes, and the words after it can be loaded alike. -/
theorem loadWord_spec (h : s.coherent) (hs : settled s ps) (r : Reg) :
    (s.loadWord r ps).gpr r = itemAt s (ps.take 4) ∧ (∀ a, (s.loadWord r ps).dataByte a = s.dataByte a) ∧
      (s.loadWord r ps).coherent ∧ settled (s.loadWord r ps) (ps.drop 4) := by
  obtain ⟨hbytes, hcoherent, hkept, hcache⟩ := loadBytes_spec h (ps.take 4) (settled_take hs 4)
  refine ⟨?_, hkept, hcoherent.setGpr r _, settled_drop hs 4 hcache⟩
  rw [State.loadWord, State.gpr_setGpr_self, hbytes, itemAt, firstE_take]

/-- Words loaded: each register holds the item at its own word, and no byte changes. -/
theorem loadWords_spec (k : Nat) (r : Reg) (h : s.coherent) (hs : settled s ps) (hk : k ≤ 32) :
    (∀ a, (s.loadWords k r ps).dataByte a = s.dataByte a) ∧
      ∀ j < k, (s.loadWords k r ps).gpr (r + BitVec.ofNat 5 j) = itemAt s (wordPlaces ps j) := by
  induction k generalizing s r ps with
  | zero => exact ⟨fun _ => rfl, fun j hj => absurd hj (Nat.not_lt_zero j)⟩
  | succ k ih =>
    obtain ⟨hword, hkept, hcoherent, hsettled⟩ := loadWord_spec h hs r
    obtain ⟨hrest, hwords⟩ := ih (r + 1) hcoherent hsettled (by omega)
    rw [loadWords_succ]
    refine ⟨fun a => (hrest a).trans (hkept a), fun j hj => ?_⟩
    cases j with
    | zero =>
      rw [register_zero, gpr_loadWords_of_not_mem _ _ _ _ (not_mem_registersFrom r hk), hword, wordPlaces_zero]
    | succ j => rw [register_succ, hwords j (by omega), itemAt_congr hkept, wordPlaces_succ]

/-- The bytes of the registers from `r` up, each word in the byte order of its own first byte (20_memory.md R109). -/
def storedWords (s : State) (r : Reg) (k : Nat) (ps : List PByte) : List Byte :=
  (List.range k).flatMap fun j => ordered (firstE (wordPlaces ps j)) (wordBytes (s.gpr (r + BitVec.ofNat 5 j)))

theorem storedWords_succ (s : State) (r : Reg) (k : Nat) (ps : List PByte) : storedWords s r (k + 1) ps =
    ordered (firstE ps) (wordBytes (s.gpr r)) ++ storedWords s (r + 1) k (ps.drop 4) := by
  simp only [storedWords, List.range_succ_eq_map, List.flatMap_cons, List.flatMap_map, register_zero, wordPlaces_zero,
    firstE_take, register_succ, wordPlaces_succ]

theorem storedWords_congr (h : ∀ q, t.gpr q = s.gpr q) (r : Reg) (k : Nat) (ps : List PByte) :
    storedWords t r k ps = storedWords s r k ps := by
  simp only [storedWords, h]

theorem accessOnly_storeWords (k : Nat) (s : State) (r : Reg) (ps : List PByte) :
    AccessOnly s (s.storeWords k r ps) := by
  induction k generalizing s r ps with
  | zero => exact .refl s
  | succ k ih => exact (accessOnly_storeBytes s (ps.take 4) _).trans (ih _ _ _)

/-- Words stored: each at its own place, in the byte order of its own first byte. -/
theorem storeWords_spec (k : Nat) (r : Reg) (h : s.coherent) (hs : settled s ps) (hl : ps.length = 4 * k) :
    Stored s (s.storeWords k r ps) ps (storedWords s r k ps) := by
  induction k generalizing s r ps with
  | zero =>
    obtain rfl := List.length_eq_zero_iff.1 hl
    exact ⟨fun _ => rfl, fun _ _ => rfl⟩
  | succ k ih =>
    have hword : (ordered (firstE ps) (wordBytes (s.gpr r))).length = (ps.take 4).length := by
      rw [length_ordered, List.length_take, hl]
      simp only [wordBytes, List.length_cons, List.length_nil]
      omega
    obtain ⟨hstored, hcoherent, hcache⟩ := storeBytes_spec h (ps.take 4) _ (settled_take hs 4) hword
    have hrest := ih (r + 1) hcoherent (settled_drop hs 4 hcache) (by rw [List.length_drop, hl]; omega)
    rw [storedWords_congr (accessOnly_storeBytes s (ps.take 4) _).gpr] at hrest
    have hall := hstored.append hrest
    rwa [List.take_append_drop, ← storedWords_succ] at hall

theorem loadMultipleOk_iff {rt ra : Reg} : loadMultipleOk rt ra = true ↔ ra.toNat < rt.toNat := BitVec.ult_iff_lt

/-- Settles O27, by induction on the words moved. -/
theorem multipleResults : Obligations.MultipleResults := by
  intro s r ra d ea k
  have hk : k ≤ 32 := Nat.sub_le 32 r.toNat
  refine ⟨fun hform => ?_, fun hform ps hacc => ?_, fun ps hacc => ?_⟩
  · exact validForm_refused (fun hok => absurd (loadMultipleOk_iff.1 hok) (Nat.not_lt.2 hform)) _ _
  · have hload := loadOnly_loadWords k s r ps
    refine ⟨(s.loadWords k r ps).busy.advance, ?_, ?_, ?_, ?_, fun hc hs => ?_⟩
    · refine (validForm_ok (loadMultipleOk_iff.2 hform) _ _).trans ?_
      rw [show access s (s.eaD ra d) (4 * (32 - r.toNat)) false = .ok ps from hacc]
      rfl
    · exact hload.keepsForAccess fun q hq => gpr_loadWords_of_not_mem k s r ps hq
    · exact hload.part State.cr
    · exact hload.part State.reserve
    · exact loadWords_spec k r hc hs hk
  · have hstore := accessOnly_storeWords k s r ps
    refine ⟨(s.storeWords k r ps).busy.advance, ?_, ?_, ?_, ?_, fun hc hs => ?_⟩
    · show execStmw r ra d s = _
      rw [execStmw, show access s (s.eaD ra d) (4 * (32 - r.toNat)) true = .ok ps from hacc]
      rfl
    · exact hstore.loadOnly.keepsForAccess fun q _ => hstore.gpr q
    · exact hstore.part State.cr
    · exact hstore.part State.reserve
    · have hst := storeWords_spec k r hc hs (access_ok hacc).2
      exact ⟨hst.written, hst.elsewhere⟩

end Sys2Proof.Machine
end

section
/-! SUPPORT. The string instructions (40_storage_reference.md R237 to R242). -/

namespace Sys2Proof.Machine

variable {s : State} {i : Instr} {r q : Reg} {ea : Word} {n : Nat}

/-! ### Bytes put into registers -/

/-- The word of a register that is filled from some bytes: the first four, zeros after the last (40 R242). -/
def filledWord (bs : List Byte) : Word := wordOf (bs.take 4 ++ List.replicate (4 - bs.length) 0)

theorem fillRegisters_succ (s : State) (k : Nat) (r : Reg) (bs : List Byte) :
    s.fillRegisters (k + 1) r bs = (s.setGpr r (filledWord bs)).fillRegisters k (r + 1) (bs.drop 4) := rfl

/-- The same word, byte by byte. -/
theorem filledWord_eq (bs : List Byte) : filledWord bs = wordOf ((List.range 4).map fun b => (bs[b]?).getD 0) := by
  match bs with
  | [] | [_] | [_, _] | [_, _, _] => rfl
  | a :: b :: c :: d :: rest =>
    have hfull : 4 - (a :: b :: c :: d :: rest).length = 0 := by simp
    rw [filledWord, hfull]
    rfl

theorem loadOnly_fillRegisters (k : Nat) (s : State) (r : Reg) (bs : List Byte) :
    LoadOnly s (s.fillRegisters k r bs) := by
  induction k generalizing s r bs with
  | zero => exact .refl s
  | succ k ih => exact (loadOnly_setGpr s r _).trans (ih _ _ _)

theorem dataByte_fillRegisters (k : Nat) (s : State) (r : Reg) (bs : List Byte) (a : Word) :
    (s.fillRegisters k r bs).dataByte a = s.dataByte a := by
  induction k generalizing s r bs with
  | zero => rfl
  | succ k ih => exact ih (s.setGpr r _) _ _

theorem gpr_fillRegisters_of_not_mem (k : Nat) (s : State) (r : Reg) (bs : List Byte) (h : q ∉ registersFrom r k) :
    (s.fillRegisters k r bs).gpr q = s.gpr q := by
  induction k generalizing s r bs with
  | zero => rfl
  | succ k ih =>
    rw [registersFrom_succ, List.mem_cons, not_or] at h
    exact (ih _ _ _ h.2).trans (State.gpr_setGpr_ne s _ h.1)

/-- Each register filled holds its own four bytes. -/
theorem gpr_fillRegisters (k : Nat) (s : State) (r : Reg) (bs : List Byte) (hk : k ≤ 32) {j : Nat} (hj : j < k) :
    (s.fillRegisters k r bs).gpr (r + BitVec.ofNat 5 j) = filledWord (bs.drop (4 * j)) := by
  induction k generalizing s r bs j with
  | zero => exact absurd hj (Nat.not_lt_zero j)
  | succ k ih =>
    rw [fillRegisters_succ]
    cases j with
    | zero =>
      rw [register_zero, gpr_fillRegisters_of_not_mem _ _ _ _ (not_mem_registersFrom r hk), State.gpr_setGpr_self]
      rfl
    | succ j => rw [register_succ, ih _ _ _ (by omega) (by omega), List.drop_drop, Nat.mul_succ, Nat.add_comm]

/-- A word filled from bytes that stand at located addresses. -/
theorem filledWord_drop_map (f : PByte → Byte) (ps : List PByte) (m : Nat) : filledWord ((ps.map f).drop m) =
    wordOf ((List.range 4).map fun b => ((ps[m + b]?).map f).getD 0) := by
  simp only [filledWord_eq, List.getElem?_drop, List.getElem?_map]

/-! ### Strings -/

/-- `loadString` as the statement has it: `n` bytes fill at most all 32 registers. -/
theorem loadsString_of_exec (h : exec i s = loadString s r ea n) (hn : n ≤ 128) : loadsString s i r ea n := by
  intro ps hacc
  have hbytes := accessOnly_loadBytes s ps
  have hfill := loadOnly_fillRegisters ((n + 3) / 4) (s.loadBytes ps).2 r (s.loadBytes ps).1
  have hload := hbytes.loadOnly.trans hfill
  refine ⟨((s.loadBytes ps).2.fillRegisters ((n + 3) / 4) r (s.loadBytes ps).1).busy.advance, ?_, ?_, ?_, ?_,
    fun hc hs => ?_⟩
  · simp only [h, loadString, hacc]
    rfl
  · exact hload.keepsForAccess fun q hq => (gpr_fillRegisters_of_not_mem _ _ _ _ hq).trans (hbytes.gpr q)
  · exact hload.part State.cr
  · exact hload.part State.reserve
  · obtain ⟨hvalue, -, hkept, -⟩ := loadBytes_spec hc ps hs
    refine ⟨fun a => (dataByte_fillRegisters _ _ _ _ a).trans (hkept a), fun j hj => ?_⟩
    refine (gpr_fillRegisters _ _ r _ (by omega) hj).trans ?_
    rw [hvalue, filledWord_drop_map]

/-- `storeString` as the statement has it. -/
theorem storesString_of_exec (h : exec i s = storeString s r ea n) : storesString s i r ea n := by
  intro ps hacc
  have hlength : (s.registerBytes r n).length = ps.length := by
    rw [State.registerBytes, List.length_map, List.length_range, (access_ok hacc).2]
  have hstore := accessOnly_storeBytes s ps (s.registerBytes r n)
  refine ⟨(s.storeBytes ps (s.registerBytes r n)).busy.advance, ?_, ?_, ?_, ?_, fun hc hs => ?_⟩
  · simp only [h, storeString, hacc]
    rfl
  · exact hstore.loadOnly.keepsForAccess fun q _ => hstore.gpr q
  · exact hstore.part State.cr
  · exact hstore.part State.reserve
  · have hst := (storeBytes_spec hc ps _ hs hlength).1
    exact ⟨hst.written, hst.elsewhere⟩

theorem stringCount_le (nb : BitVec 5) : stringCount nb ≤ 128 := by
  unfold stringCount
  split <;> omega

theorem xerTBC_lt (s : State) : s.xerTBC < 128 := BitVec.isLt _

/-- `lswx` of no bytes: any value in RT, nothing else (log entry 33). -/
theorem lswx_empty {ra rb : Reg} (hok : stringIndexedOk r ra rb s.xerTBC = true) (hn : s.xerTBC = 0) :
    exec (.lswx r ra rb) s = done (s.drawn.setGpr r s.freshWord) :=
  (validForm_ok hok _ _).trans (if_pos hn)

theorem lswx_bytes {ra rb : Reg} (hok : stringIndexedOk r ra rb s.xerTBC = true) (hn : s.xerTBC ≠ 0) :
    exec (.lswx r ra rb) s = loadString s r (s.eaX ra rb) s.xerTBC :=
  (validForm_ok hok _ _).trans (if_neg hn)

/-- Settles O28: the strings of bytes are `loadString` and `storeString`; the forms and the empty strings stand apart. -/
theorem stringResults : Obligations.StringResults := by
  intro s r ra rb nb n base
  refine ⟨fun hok => ?_, fun hbad => ?_, ?_, fun hok hn => ?_, fun hbad => ?_, fun hok hn => ?_, fun hn => ?_,
    fun hn => ?_⟩
  · exact loadsString_of_exec (validForm_ok hok _ _) (stringCount_le nb)
  · exact validForm_refused (Bool.not_eq_true _ ▸ hbad) _ _
  · exact storesString_of_exec rfl
  · exact loadsString_of_exec (lswx_bytes hok hn) (xerTBC_lt s).le
  · exact validForm_refused (Bool.not_eq_true _ ▸ hbad) _ _
  · have hrest := (loadOnly_setGpr s r s.freshWord).keepsForAccess (changed := [r]) fun q hq =>
      State.gpr_setGpr_ne s _ (by simpa using hq)
    exact ⟨_, lswx_empty hok hn, ⟨hrest.gprs, hrest.next, { hrest.control with }⟩, rfl, rfl, fun _ => rfl⟩
  · exact storesString_of_exec (if_neg hn)
  · exact ⟨s.advance, if_pos hn, advance_spec s⟩

end Sys2Proof.Machine
end

section
/-! SUPPORT. `lwarx` and `stwcx.` at aligned addresses (40_storage_reference.md R244, R245). -/

namespace Sys2Proof.Machine

variable {s t : State} {ps : List PByte} {rt ra rb : Reg}

/-! ### `lwarx` -/

/-- A load stays one when RESERVE is set after it, but for RESERVE. -/
theorem Loads.reserving {changed : List Reg} {f : Word → Word} {b : Bool} (h : Loads s t rt changed ps f b) :
    Loads s { t with reserve := true } rt changed ps f true :=
  ⟨h.value, h.bytes, h.cr, rfl, ⟨h.rest.gprs, h.rest.next, { h.rest.control with }⟩⟩

/-- An aligned `lwarx` is the load of its word, after which RESERVE is set. -/
theorem execLwarx_aligned (ha : s.eaX ra rb &&& 3 = 0) (hacc : access s (s.eaX ra rb) 4 false = .ok ps)
    (ht : loadInto s rt (s.eaX ra rb) 4 id = .next t) : execLwarx rt ra rb s = .next { t with reserve := true } := by
  simp only [loadInto, withLoad, hacc, done] at ht
  cases ht
  rw [execLwarx, if_neg fun hm => misaligned_iff.1 hm ha]
  simp only [withLoad, hacc]
  rfl

/-! ### `stwcx.` -/

theorem crField_setStored (t : State) (b : Bool) (f : BitVec 3) : crField (t.setStored b).cr f =
    if f = 0 then condField false false b t.xerSO else crField t.cr f := crField_withCrField _ _ _ _

/-- What `stwcx.` leaves in RESERVE and the CR, from the CR and the XER its store left. -/
theorem setStored_spec (hk : KeepsForAccess s t []) (hcr : t.cr = s.cr) (b : Bool) :
    KeepsForAccess s (t.setStored b) [] ∧ (t.setStored b).reserve = false ∧
      crField (t.setStored b).cr 0 = condField false false b s.xerSO ∧
      ∀ f, f ≠ 0 → crField (t.setStored b).cr f = crField s.cr f := by
  have hxer : t.spr .xer = s.spr .xer := hk.control.sprs .xer
  have hso : t.xerSO = s.xerSO := congrArg (bitAt · 0) hxer
  refine ⟨⟨hk.gprs, hk.next, { hk.control with }⟩, rfl, ?_, fun f hf => ?_⟩
  · rw [crField_setStored, if_pos rfl, hso]
  · rw [crField_setStored, if_neg hf, hcr]

/-- An aligned `stwcx.` under a reservation is the store of its word, recorded. -/
theorem execStwcxDot_reserved {rs : Reg} (ha : s.eaX ra rb &&& 3 = 0) (hr : s.reserve = true)
    (hacc : access s (s.eaX ra rb) 4 true = .ok ps)
    (ht : storeAt s (s.eaX ra rb) (wordBytes (s.gpr rs)) = .next t) :
    execStwcxDot rs ra rb s = .next (t.setStored true) := by
  have hacc' : access s (s.eaX ra rb) (wordBytes (s.gpr rs)).length true = .ok ps := hacc
  simp only [storeAt, withStore, hacc', done] at ht
  cases ht
  rw [execStwcxDot, if_neg fun hm => misaligned_iff.1 hm ha, if_pos hr]
  simp only [withStore, hacc']
  rfl

/-- Without a reservation it stores nothing. -/
theorem execStwcxDot_unreserved {rs : Reg} (ha : s.eaX ra rb &&& 3 = 0) (hr : s.reserve = false) :
    execStwcxDot rs ra rb s = .next (s.advance.setStored false) := by
  rw [execStwcxDot, if_neg fun hm => misaligned_iff.1 hm ha, if_neg (ne_true_of_eq_false hr)]
  rfl

/-- Settles O29: an aligned `lwarx` is `loadInto`, an aligned `stwcx.` under a reservation `storeAt`, then recorded. -/
theorem reserveResults : Obligations.ReserveResults := by
  intro s r ra rb ea v ha
  refine ⟨fun ps hacc => ?_, fun hr ps hacc => ?_, fun hr => ?_⟩
  · obtain ⟨t, ht, hload⟩ := loadInto_completes hacc r id
    exact ⟨_, execLwarx_aligned ha hacc ht, hload.reserving⟩
  · obtain ⟨t, ht, hstore⟩ := storeAt_completes (bs := wordBytes v) hacc
    obtain ⟨hkept, hreserve, hcr0, hfields⟩ := setStored_spec hstore.rest hstore.cr true
    exact ⟨_, execStwcxDot_reserved ha hr hacc ht, hkept, hreserve, hcr0, hfields, fun hc hs =>
      ⟨(hstore.stored hc hs).written, (hstore.stored hc hs).elsewhere⟩⟩
  · have hsame : KeepsForAccess s s.advance [] := ⟨fun _ _ => rfl, rfl, { (StorageOnly.refl s).control with }⟩
    obtain ⟨hkept, hreserve, hcr0, hfields⟩ := setStored_spec hsame rfl false
    exact ⟨_, execStwcxDot_unreserved ha hr, hkept, hreserve, hcr0, hfields, fun _ => rfl⟩

end Sys2Proof.Machine
end

section
/-! SUPPORT. RESERVE through every instruction but `lwarx` and `stwcx.`, and through every interrupt
(40_storage_reference.md R246). -/

namespace Sys2Proof.Machine

variable {s : State} {b : Bool}

/-! ### Outcomes -/

/-- The next state of an outcome, if it has one, has `b` in RESERVE. -/
def HasReserve (b : Bool) (r : Result) : Prop := ∀ t, r = .next t → t.reserve = b

theorem hasReserve_next {t : State} (h : t.reserve = b) : HasReserve b (.next t) := fun _ ht => by cases ht; exact h

theorem hasReserve_refused (r : Refusal) : HasReserve b (.refused r) := fun _ ht => by cases ht

theorem hasReserve_fault (f : Fault) : HasReserve b (.fault f) := fun _ ht => by cases ht

theorem hasReserve_done {t : State} (h : t.reserve = b) : HasReserve b (done t) := hasReserve_next h

theorem HasReserve.validForm {r : Result} (h : HasReserve b r) (ok : Bool) (x : Refusal) :
    HasReserve b (validForm ok x r) := by
  unfold Machine.validForm
  split
  · exact h
  · exact hasReserve_refused x

/-! ### Interrupts and exceptions -/

/-- An interrupt of any class keeps RESERVE. -/
theorem reserve_takeInterrupt (k : Interrupt) (ret : Word) (s : State) : (takeInterrupt k ret s).reserve = s.reserve :=
  saveContext_part s k.kind ret State.reserve (fun _ _ _ => rfl) rfl

theorem reserve_takeException (e : Exc) (s : State) : (takeException e s).reserve = s.reserve := by
  cases e <;> exact reserve_takeInterrupt _ _ _

theorem hasReserve_raise {t : State} (h : t.reserve = b) (e : Exc) : HasReserve b (.next (takeException e t)) :=
  hasReserve_next ((reserve_takeException e t).trans h)

theorem hasReserve_stopWith (h : s.reserve = b) (e : Stop) : HasReserve b (stopWith s e) := by
  cases e with
  | exc x => exact hasReserve_raise h x
  | refuse r => exact hasReserve_refused r

theorem HasReserve.privileged {r : Result} (h : HasReserve s.reserve r) : HasReserve s.reserve (privileged s r) := by
  unfold Machine.privileged
  split
  · exact hasReserve_raise rfl _
  · exact h

theorem HasReserve.sprAccess {r : Result} (h : HasReserve s.reserve r) (n : RegNum) :
    HasReserve s.reserve (sprAccess n s r) := by
  unfold Machine.sprAccess
  split
  · exact hasReserve_raise rfl _
  · exact h

theorem hasReserve_trapIf (c : Bool) : HasReserve s.reserve (trapIf c s) := by
  unfold Machine.trapIf
  split
  · exact hasReserve_raise rfl _
  · exact hasReserve_done rfl

/-! ### Loads and stores -/

theorem LoadOnly.reserve {t : State} (h : LoadOnly s t) : t.reserve = s.reserve := h.part State.reserve

theorem AccessOnly.reserve {t : State} (h : AccessOnly s t) : t.reserve = s.reserve := h.part State.reserve

theorem StorageOnly.reserve {t : State} (h : StorageOnly s t) : t.reserve = s.reserve := h.part State.reserve

/-- A storage operation that ends an instruction. -/
theorem StorageOnly.hasReserve {t : State} (h : StorageOnly s t) : HasReserve s.reserve (done t.busy) :=
  hasReserve_done h.reserve

theorem hasReserve_withLoad (ea : Word) (n : Nat) {k : Word → State → Result}
    (hk : ∀ v t, t.reserve = s.reserve → HasReserve s.reserve (k v t)) : HasReserve s.reserve (withLoad s ea n k) := by
  unfold Machine.withLoad
  split
  · exact hasReserve_stopWith rfl _
  · exact hk _ _ (accessOnly_loadItem s _).reserve

theorem hasReserve_withStore (ea : Word) (bs : List Byte) {k : State → Result}
    (hk : ∀ t, t.reserve = s.reserve → HasReserve s.reserve (k t)) : HasReserve s.reserve (withStore s ea bs k) := by
  unfold Machine.withStore
  split
  · exact hasReserve_stopWith rfl _
  · exact hk _ (accessOnly_storeItem s _ _).reserve

theorem hasReserve_loadInto (rt : Reg) (ea : Word) (n : Nat) (f : Word → Word) :
    HasReserve s.reserve (loadInto s rt ea n f) := hasReserve_withLoad ea n fun _ _ h => hasReserve_done h

theorem hasReserve_loadUpdate (rt ra : Reg) (ea : Word) (n : Nat) (f : Word → Word) :
    HasReserve s.reserve (loadUpdate s rt ra ea n f) :=
  (hasReserve_withLoad ea n fun _ t h => hasReserve_done (t := (t.setGpr rt _).setGpr ra ea) h).validForm _ _

theorem hasReserve_storeAt (ea : Word) (bs : List Byte) : HasReserve s.reserve (storeAt s ea bs) :=
  hasReserve_withStore ea bs fun _ h => hasReserve_done h

theorem hasReserve_storeUpdate (ra : Reg) (ea : Word) (bs : List Byte) :
    HasReserve s.reserve (storeUpdate s ra ea bs) :=
  (hasReserve_withStore ea bs fun t h => hasReserve_done (t := t.setGpr ra ea) h).validForm _ _

theorem hasReserve_loadString (rt : Reg) (ea : Word) (n : Nat) : HasReserve s.reserve (loadString s rt ea n) := by
  unfold Machine.loadString
  split
  · exact hasReserve_stopWith rfl _
  · exact hasReserve_done ((accessOnly_loadBytes s _).loadOnly.trans (loadOnly_fillRegisters ..)).reserve

theorem hasReserve_storeString (rs : Reg) (ea : Word) (n : Nat) : HasReserve s.reserve (storeString s rs ea n) := by
  unfold Machine.storeString
  split
  · exact hasReserve_stopWith rfl _
  · exact hasReserve_done (accessOnly_storeBytes s _ _).reserve

theorem hasReserve_execLmw (rt ra : Reg) (d : Half) : HasReserve s.reserve (execLmw rt ra d s) := by
  refine HasReserve.validForm ?_ _ _
  split
  · exact hasReserve_stopWith rfl _
  · exact hasReserve_done (loadOnly_loadWords ..).reserve

theorem hasReserve_execStmw (rs ra : Reg) (d : Half) : HasReserve s.reserve (execStmw rs ra d s) := by
  unfold Machine.execStmw
  split
  · exact hasReserve_stopWith rfl _
  · exact hasReserve_done (accessOnly_storeWords ..).reserve

theorem hasReserve_execLswx (rt ra rb : Reg) : HasReserve s.reserve (execLswx rt ra rb s) := by
  refine HasReserve.validForm ?_ _ _
  split
  · exact hasReserve_done rfl
  · exact hasReserve_loadString _ _ _

theorem hasReserve_execStswx (rs ra rb : Reg) : HasReserve s.reserve (execStswx rs ra rb s) := by
  unfold Machine.execStswx
  split
  · exact hasReserve_done rfl
  · exact hasReserve_storeString _ _ _

/-! ### Results, compares and branches -/

theorem hasReserve_writeResult (rt : Reg) (v : Word) (oe ov : Bool) (ca : Option Bool) (rc : Bool) :
    HasReserve s.reserve (done (s.writeResult rt v oe ov ca rc)) :=
  hasReserve_next (writeResult_spec s rt v oe ov ca rc).rest.system.reserve

theorem hasReserve_writeLogical (ra : Reg) (v : Word) (rc : Bool) :
    HasReserve s.reserve (done (s.writeLogical ra v rc)) := hasReserve_done rfl

theorem reserve_writeUndefinedQuotient (s : State) (rt : Reg) (oe rc : Bool) :
    (s.writeUndefinedQuotient rt oe rc).reserve = s.reserve := by
  cases oe <;> cases rc <;> rfl

theorem hasReserve_divide (undefined : Bool) (rt : Reg) (v : Word) (oe rc : Bool) :
    HasReserve s.reserve (if undefined then done (s.writeUndefinedQuotient rt oe rc)
      else done (s.writeResult rt v oe false none rc)) := by
  split
  · exact hasReserve_done (reserve_writeUndefinedQuotient ..)
  · exact hasReserve_writeResult _ _ _ _ _ _

theorem hasReserve_compareInto (bf : BitVec 3) (l : Bool) (f : BitVec 4) :
    HasReserve s.reserve (compareInto s bf l f) := (hasReserve_done (t := s.setCrField bf f) rfl).validForm _ _

theorem reserve_countDown (s : State) (bo : BitVec 5) : (s.countDown bo).reserve = s.reserve := by
  unfold State.countDown
  split <;> rfl

theorem hasReserve_branchTo {t : State} (h : t.reserve = b) (lk taken : Bool) (target : Word) :
    HasReserve b (branchTo t lk taken target) := by
  cases lk <;> exact hasReserve_next h

/-! ### Cache management -/

theorem hasReserve_missOnly (ea : Word) (store : Bool) {k : Page → Result} (hk : ∀ p, HasReserve s.reserve (k p)) :
    HasReserve s.reserve (missOnly s ea store k) := by
  unfold Machine.missOnly
  split
  · exact hasReserve_raise rfl _
  · exact hasReserve_refused _
  · exact hk _

theorem hasReserve_withBlock (ea : Word) (store : Bool) {k : Page → Result} (hk : ∀ p, HasReserve s.reserve (k p)) :
    HasReserve s.reserve (withBlock s ea store k) := by
  unfold Machine.withBlock
  split
  · exact hasReserve_stopWith rfl _
  · exact hk _

theorem hasReserve_ifAllowed (ea : Word) (store : Bool) {k : Page → Result} (hk : ∀ p, HasReserve s.reserve (k p)) :
    HasReserve s.reserve (ifAllowed s ea store k) := by
  unfold Machine.ifAllowed
  split
  · exact hasReserve_done rfl
  · exact hasReserve_refused _
  · exact hk _

theorem reserve_dropFillBuffer (s : State) (n : Nat) : (s.dropFillBuffer n).reserve = s.reserve :=
  (storageOnly_dropFillBuffer s n).reserve

theorem reserve_iDropBlock (s : State) (ea ra : Word) : (s.iDropBlock ea ra).reserve = s.reserve := by
  unfold State.iDropBlock
  dsimp only
  split <;> rfl

theorem reserve_iTouch (s : State) (ea : Word) (p : Page) : (s.iTouch ea p).reserve = s.reserve := by
  unfold State.iTouch
  split
  · rfl
  · exact (fetchOnly_iFill s _ _ _ _).part State.reserve

theorem hasReserve_execIcbt (ra rb : Reg) : HasReserve s.reserve (execIcbt ra rb s) := by
  refine HasReserve.privileged (hasReserve_missOnly _ _ fun p => ?_)
  split
  · exact hasReserve_done rfl
  · exact hasReserve_done (reserve_iTouch ..)

theorem hasReserve_execDcbz (ra rb : Reg) : HasReserve s.reserve (execDcbz ra rb s) := by
  refine hasReserve_withBlock _ _ fun p => ?_
  split
  · exact hasReserve_raise rfl _
  · split
    · split
      · exact (storageOnly_dZero s.drawn _).hasReserve
      · exact hasReserve_raise (t := s.drawn) rfl _
    · exact (storageOnly_dZero s _).hasReserve

theorem hasReserve_dataTouch (ea : Word) : HasReserve s.reserve (dataTouch s ea) := by
  refine hasReserve_ifAllowed _ _ fun p => ?_
  split
  · exact hasReserve_done rfl
  · exact (storageOnly_dFill s _).hasReserve

theorem hasReserve_execDccci (ra rb : Reg) : HasReserve s.reserve (execDccci ra rb s) := by
  have invalidated : ∀ t : State, t.reserve = s.reserve → ∀ i n,
      HasReserve s.reserve (done ((t.dInvalidateClass i).dropFillBuffer n)) := fun t ht i n =>
    hasReserve_done ((reserve_dropFillBuffer _ n).trans ((storageOnly_dInvalidateClass t i).reserve.trans ht))
  refine HasReserve.privileged (hasReserve_missOnly _ _ fun p => ?_)
  dsimp only
  split
  · split
    · exact hasReserve_raise (t := s.drawn) rfl _
    · exact invalidated s.drawn rfl _ _
  · exact invalidated s rfl _ _

theorem hasReserve_execDcba (ra rb : Reg) : HasReserve s.reserve (execDcba ra rb s) := by
  refine hasReserve_ifAllowed _ _ fun p => ?_
  split
  · exact hasReserve_done rfl
  · exact ((storageOnly_dAllocate s _).trans (storageOnly_dropFillBuffer ..)).hasReserve

theorem reserve_afterMasked (s : State) (mask : Word) : (s.afterMasked mask).reserve = s.reserve := by
  unfold State.afterMasked
  split <;> rfl

theorem hasReserve_execDcread (rt ra rb : Reg) : HasReserve s.reserve (execDcread rt ra rb s) := by
  refine HasReserve.privileged (hasReserve_missOnly _ _ fun p => ?_)
  split
  · exact hasReserve_raise rfl _
  · split
    · exact hasReserve_done (reserve_afterMasked s _)
    · exact hasReserve_done rfl

/-! ### The TLB and processor management -/

theorem reserve_setFound (s : State) (rc found : Bool) : (s.setFound rc found).reserve = s.reserve := by
  cases rc <;> rfl

theorem hasReserve_execTlbsx (rt ra rb : Reg) (rc : Bool) : HasReserve s.reserve (execTlbsx rt ra rb rc s) := by
  refine HasReserve.privileged ?_
  split
  · exact hasReserve_done (reserve_setFound ..)
  · exact hasReserve_done (reserve_setFound ..)
  · exact hasReserve_refused _

theorem hasReserve_execTlbre (rt ra : Reg) (ws : BitVec 5) : HasReserve s.reserve (execTlbre rt ra ws s) := by
  refine HasReserve.privileged (HasReserve.validForm ?_ _ _)
  split
  · exact hasReserve_done rfl
  · exact hasReserve_done rfl

theorem reserve_readSpr (s : State) (rt : Reg) (r : Spr) : (s.readSpr rt r).reserve = s.reserve := by
  unfold State.readSpr
  split
  · rfl
  · exact reserve_afterMasked s _

theorem hasReserve_execMfspr (rt : Reg) (n : RegNum) : HasReserve s.reserve (execMfspr rt n s) := by
  refine HasReserve.sprAccess ?_ n
  split
  · exact hasReserve_done (reserve_readSpr ..)
  · exact hasReserve_done rfl
  · exact hasReserve_refused _

theorem reserve_writeSpr (s : State) (r : Spr) (v : Word) : (s.writeSpr r v).reserve = s.reserve := by
  have hwindow : (if r.isContext then s.openWindow else s).reserve = s.reserve := by
    split <;> rfl
  unfold State.writeSpr
  dsimp only
  split <;> exact hwindow

/-- A reset keeps RESERVE (log entry 11). -/
theorem reserve_resetFrom (k : ResetKind) (wrs : BitVec 2) (s : State) : (resetFrom k wrs s).reserve = s.reserve := rfl

theorem hasReserve_mtsprReg (r : Spr) (v : Word) : HasReserve s.reserve (mtsprReg r v s) := by
  unfold Machine.mtsprReg
  split
  · split
    · exact hasReserve_fault _
    · exact hasReserve_done (reserve_writeSpr ..)
  · split
    · exact hasReserve_refused _
    · split
      · exact hasReserve_next (reserve_resetFrom ..)
      · exact hasReserve_done (reserve_writeSpr ..)
  · split
    · exact hasReserve_refused _
    · exact hasReserve_done (reserve_writeSpr ..)
  · exact hasReserve_done (reserve_writeSpr ..)

theorem reserve_watchdogTimeOut (s : State) : (watchdogTimeOut s).reserve = s.reserve := by
  unfold watchdogTimeOut
  split
  · rfl
  · split
    · rfl
    · split
      · exact reserve_resetFrom ..
      · rfl

theorem reserve_tbEvents (old new : Word) (s : State) : (tbEvents old new s).reserve = s.reserve := by
  have hfit : (if rises (fitBit (s.spr .tcr)) old new then s.setTsrBit 5 else s).reserve = s.reserve := by
    split <;> rfl
  unfold tbEvents
  dsimp only
  split
  · exact (reserve_watchdogTimeOut _).trans hfit
  · exact hfit

theorem hasReserve_execMtspr (n : RegNum) (rs : Reg) : HasReserve s.reserve (execMtspr n rs s) := by
  refine HasReserve.sprAccess ?_ n
  split
  · exact hasReserve_mtsprReg _ _
  · exact hasReserve_next (reserve_tbEvents ..)
  · exact hasReserve_done rfl
  · exact hasReserve_refused _

theorem hasReserve_execMfdcr (rt : Reg) (n : RegNum) : HasReserve s.reserve (execMfdcr rt n s) := by
  refine HasReserve.privileged ?_
  split
  · exact hasReserve_done rfl
  · exact hasReserve_refused _

theorem hasReserve_execMtdcr (n : RegNum) (rs : Reg) : HasReserve s.reserve (execMtdcr n rs s) := by
  refine HasReserve.privileged ?_
  split
  · exact hasReserve_done (storageOnly_remap { s.openWindow with dcrs := _ } _).reserve
  · exact hasReserve_refused _

/-! ### Every instruction -/

/-- No instruction but `lwarx` and `stwcx.` changes RESERVE. -/
theorem exec_hasReserve {i : Instr} (hl : ∀ rt ra rb, i ≠ .lwarx rt ra rb) (hs : ∀ rs ra rb, i ≠ .stwcxDot rs ra rb) :
    HasReserve s.reserve (exec i s) := by
  cases i with
  -- Storage reference
  | lwarx rt ra rb => exact absurd rfl (hl rt ra rb)
  | stwcxDot rs ra rb => exact absurd rfl (hs rs ra rb)
  | lbz | lbzx | lhz | lhzx | lha | lhax | lwz | lwzx | lhbrx | lwbrx => exact hasReserve_loadInto _ _ _ _
  | lbzu | lbzux | lhzu | lhzux | lhau | lhaux | lwzu | lwzux => exact hasReserve_loadUpdate _ _ _ _ _
  | stb | stbx | sth | sthx | stw | stwx | sthbrx | stwbrx => exact hasReserve_storeAt _ _
  | stbu | stbux | sthu | sthux | stwu | stwux => exact hasReserve_storeUpdate _ _ _
  | lmw => exact hasReserve_execLmw _ _ _
  | stmw => exact hasReserve_execStmw _ _ _
  | lswi => exact (hasReserve_loadString _ _ _).validForm _ _
  | lswx => exact hasReserve_execLswx _ _ _
  | stswi => exact hasReserve_storeString _ _ _
  | stswx => exact hasReserve_execStswx _ _ _
  -- Results with flags
  | add | addc | adde | addic | addicDot | addme | addze | subf | subfc | subfe | subfic | subfme | subfze | neg | mullw
  | macchw | macchws | macchwsu | macchwu | machhw | machhws | machhwsu | machhwu | maclhw | maclhws | maclhwsu | maclhwu
  | nmacchw | nmacchws | nmachhw | nmachhws | nmaclhw | nmaclhws | sraw | srawi =>
    exact hasReserve_writeResult _ _ _ _ _ _
  | divw | divwu => exact hasReserve_divide _ _ _ _ _
  -- Results without flags in the XER
  | addi | addis | mulli | ori | oris | xori | xoris | mfcr => exact hasReserve_done (t := s.setGpr _ _) rfl
  | mulhw | mulhwu | mulchw | mulchwu | mulhhw | mulhhwu | mullhw | mullhwu
  | and | andc | andiDot | andisDot | cntlzw | eqv | extsb | extsh | nand | nor | or | orc | xor
  | rlwimi | rlwinm | rlwnm | slw | srw => exact hasReserve_writeLogical _ _ _
  -- The condition register and branches
  | cmp | cmpi | cmpl | cmpli => exact hasReserve_compareInto _ _ _
  | crand | crandc | creqv | crnand | crnor | cror | crorc | crxor | mtcrf =>
    exact hasReserve_done (t := { s with cr := _ }) rfl
  | mcrf => exact hasReserve_done (t := s.setCrField _ _) rfl
  | mcrxr => exact hasReserve_done (t := (s.setCrField _ _).setSpr _ _) rfl
  | b => exact hasReserve_branchTo rfl _ _ _
  | bc bo | bclr bo => exact (hasReserve_branchTo (reserve_countDown s bo) _ _ _).validForm _ _
  | bcctr => exact (hasReserve_branchTo (b := s.reserve) (t := s) rfl _ _ _).validForm _ _
  -- Cache management
  | icbi => exact hasReserve_withBlock _ _ fun p => hasReserve_done (reserve_iDropBlock s.openWindow _ _)
  | icbt => exact hasReserve_execIcbt _ _
  | iccci | icread => exact HasReserve.privileged (hasReserve_missOnly _ _ fun _ => hasReserve_done rfl)
  | dcbf => exact hasReserve_withBlock _ _ fun p => (storageOnly_dFlush s _).hasReserve
  | dcbi =>
    exact HasReserve.privileged (hasReserve_withBlock _ _ fun p =>
      hasReserve_done ((reserve_dropFillBuffer _ _).trans (storageOnly_dInvalidate s _).reserve))
  | dcbz => exact hasReserve_execDcbz _ _
  | dcbst => exact hasReserve_withBlock _ _ fun p => (storageOnly_dClean s _).hasReserve
  | dcbt | dcbtst => exact hasReserve_dataTouch _
  | dccci => exact hasReserve_execDccci _ _
  | dcba => exact hasReserve_execDcba _ _
  | dcread => exact hasReserve_execDcread _ _ _
  -- Interrupt control and the TLB
  | mfmsr => exact HasReserve.privileged (hasReserve_done (reserve_afterMasked s _))
  | rfi | rfci => exact HasReserve.privileged (hasReserve_next rfl)
  | mtmsr | wrtee | wrteei | tlbia | tlbsync => exact HasReserve.privileged (hasReserve_done rfl)
  | tlbsx => exact hasReserve_execTlbsx _ _ _ _
  | tlbre => exact hasReserve_execTlbre _ _ _
  | tlbwe => exact HasReserve.privileged ((hasReserve_done rfl).validForm _ _)
  -- Processor management
  | eieio | sync => exact hasReserve_done (t := s.complete) rfl
  | isync => exact hasReserve_done (t := s.contextSync) rfl
  | mfdcr => exact hasReserve_execMfdcr _ _
  | mfspr => exact hasReserve_execMfspr _ _
  | mftb => exact (hasReserve_done (t := s.setGpr _ _) rfl).validForm _ _
  | mtdcr => exact hasReserve_execMtdcr _ _
  | mtspr => exact hasReserve_execMtspr _ _
  | sc => exact hasReserve_raise rfl _
  | tw | twi => exact hasReserve_trapIf _

/-- Settles O30, by what each kind of outcome leaves in RESERVE. -/
theorem reservationKept : Obligations.ReservationKept :=
  ⟨fun _ _ t ht hl hs => exec_hasReserve hl hs t ht, reserve_takeInterrupt⟩

end Sys2Proof.Machine
end

section
/-! SUPPORT. The arithmetic instructions: sums and differences, immediates, products and quotients
(spec/41_arithmetic.md). -/

namespace Sys2Proof.Machine

variable {s : State}

/-! ### Completion -/

theorem completes_writeResult (s : State) (rt : Reg) (v : Word) (oe ov : Bool) (ca : Option Bool) (rc : Bool) :
    Completes (done (s.writeResult rt v oe ov ca rc)) fun t => WritesResult s t rt v oe ov ca rc :=
  ⟨_, rfl, writeResult_spec ..⟩

theorem completes_writeLogical (s : State) (rt : Reg) (v : Word) (rc : Bool) :
    Completes (done (s.writeLogical rt v rc)) fun t => WritesResult s t rt v false false none rc := by
  rw [writeLogical_eq]
  exact completes_writeResult ..

theorem completes_setGpr (s : State) (rt : Reg) (v : Word) :
    Completes (done (s.setGpr rt v)) fun t => WritesGpr s t rt v := ⟨_, rfl, setGpr_spec s rt v⟩

/-! ### Sums and differences -/

/-- An instruction that runs as `sumInto` of an addition adds. -/
theorem addsInto_of_exec {i : Instr} {rt : Reg} {a b : Word} {c oe carries rc : Bool}
    (h : exec i s = sumInto s rt (addC a b c) oe carries rc) : addsInto s i rt a b c oe carries rc := by
  rw [addsInto, h, ← addC_r, ← addC_ov, ← addC_ca]
  exact completes_writeResult ..

/-- Settles O6: every adding instruction is `sumInto` of one `addC`. -/
theorem addResults : Obligations.AddResults := fun _ _ _ _ _ _ _ =>
  ⟨addsInto_of_exec rfl, addsInto_of_exec rfl, addsInto_of_exec rfl, addsInto_of_exec rfl, addsInto_of_exec rfl,
    addsInto_of_exec rfl, addsInto_of_exec rfl⟩

/-- The complement as a signed number. -/
theorem toInt_complement (a : Word) : (~~~a).toInt = -a.toInt - 1 := by
  have ha := a.isLt
  simp only [BitVec.toInt_eq_toNat_cond, BitVec.toNat_not]
  split <;> split <;> omega

/-- Subtraction is the addition of the complement and 1. -/
theorem addC_complement_r (a b : Word) : (addC (~~~a) b true).r = b - a := by
  rw [addC_r, if_pos rfl, BitVec.sub_eq_add_neg, BitVec.neg_eq_not_add, BitVec.add_comm (~~~a), BitVec.add_assoc]
  rfl

/-- The carry of a subtraction is the absence of a borrow (R279). -/
theorem addC_complement_ca (a b : Word) : (addC (~~~a) b true).ca = decide (a.toNat ≤ b.toNat) := by
  have ha := a.isLt
  rw [addC_ca, decide_eq_decide, BitVec.toNat_not, Bool.toNat_true]
  omega

/-- The overflow of a subtraction is a signed difference that does not fit. -/
theorem addC_complement_ov (a b : Word) : (addC (~~~a) b true).ov = outsideSigned (b.toInt - a.toInt) := by
  rw [addC_ov, if_pos rfl, toInt_complement]
  congr 1
  omega

/-- An instruction that runs as `sumInto` of the complement, with carry 1, subtracts. -/
theorem subtractsInto_of_exec {i : Instr} {rt : Reg} {a b : Word} {oe carries rc : Bool}
    (h : exec i s = sumInto s rt (addC (~~~a) b true) oe carries rc) : subtractsInto s i rt a b oe carries rc := by
  rw [subtractsInto, h, ← addC_complement_r, ← addC_complement_ov, ← addC_complement_ca]
  exact completes_writeResult ..

/-- Settles O7: the subtractions add the complement and 1, the extended forms the complement and CA. -/
theorem subtractResults : Obligations.SubtractResults := fun _ _ _ _ _ _ _ =>
  ⟨subtractsInto_of_exec rfl, subtractsInto_of_exec rfl, subtractsInto_of_exec rfl, subtractsInto_of_exec rfl,
    addsInto_of_exec rfl, addsInto_of_exec rfl, addsInto_of_exec rfl⟩

/-! ### Products -/

/-- The low word of the signed product is the product of the words. -/
theorem ofInt_toInt_mul (a b : Word) : BitVec.ofInt 32 (a.toInt * b.toInt) = a * b := by
  rw [BitVec.ofInt_mul, BitVec.ofInt_toInt, BitVec.ofInt_toInt]

/-- The high word of a 64-bit number. -/
theorem extractHigh_ofInt (p : Int) : (BitVec.ofInt 64 p).extractLsb' 32 32 = BitVec.ofInt 32 (p / 2 ^ 32) := by
  apply BitVec.eq_of_toNat_eq
  rw [BitVec.extractLsb'_toNat, BitVec.toNat_ofInt, BitVec.toNat_ofInt, Nat.shiftRight_eq_div_pow]
  omega

/-- The high word of the signed 64-bit product. -/
theorem extractHigh_signExtend_mul (a b : Word) : (a.signExtend 64 * b.signExtend 64).extractLsb' 32 32 =
    BitVec.ofInt 32 (a.toInt * b.toInt / 2 ^ 32) := by
  rw [← extractHigh_ofInt, BitVec.ofInt_mul]
  rfl

/-- The high word of the unsigned 64-bit product. -/
theorem extractHigh_setWidth_mul (a b : Word) : (a.setWidth 64 * b.setWidth 64).extractLsb' 32 32 =
    BitVec.ofNat 32 (a.toNat * b.toNat / 2 ^ 32) := by
  have h := extractHigh_ofInt (a.toNat * b.toNat : Nat)
  rwa [BitVec.ofInt_natCast, BitVec.ofNat_mul, BitVec.ofNat_toNat, BitVec.ofNat_toNat] at h

/-- Settles O9: the machine's integer products are the words the statement reads off the 64-bit product. -/
theorem multiplyResults : Obligations.MultiplyResults := by
  intro s rt ra rb oe rc
  rw [← ofInt_toInt_mul, extractHigh_signExtend_mul, extractHigh_setWidth_mul]
  exact ⟨completes_writeResult .., completes_writeLogical .., completes_writeLogical ..⟩

/-! ### Immediates -/

/-- A halfword placed in the upper half is any word of that lower half, shifted by 16. -/
theorem shifted16_eq_shiftLeft {x : Half} {w : Word} (h : w.setWidth 16 = x) : shifted16 x = w <<< 16 := by
  refine BitVec.eq_of_getLsbD_eq fun j hj => ?_
  rw [shifted16, ← h, BitVec.getLsbD_append, BitVec.getLsbD_shiftLeft]
  by_cases hlow : j < 16
  · simp [hlow]
  · have : j - 16 < 16 := by omega
    simp [hlow, hj, this]

theorem shifted16_eq_zeroExtend (x : Half) : shifted16 x = x.setWidth 32 <<< 16 :=
  shifted16_eq_shiftLeft (by rw [BitVec.setWidth_setWidth_of_le _ (by decide), BitVec.setWidth_eq])

theorem setWidth_sext16 (x : Half) : (sext16 x).setWidth 16 = x := by
  refine BitVec.eq_of_getLsbD_eq fun j hj => ?_
  have : j < 32 := by omega
  rw [BitVec.getLsbD_setWidth, sext16, BitVec.getLsbD_signExtend]
  simp [hj, this]

theorem shifted16_eq_sext16 (x : Half) : shifted16 x = sext16 x <<< 16 := shifted16_eq_shiftLeft (setWidth_sext16 x)

/-- Settles O8: each instruction writes one general register by `setGpr`. -/
theorem immediateResults : Obligations.ImmediateResults := by
  intro s rt ra si
  rw [← shifted16_eq_zeroExtend, ← shifted16_eq_sext16, ← ofInt_toInt_mul]
  exact ⟨completes_setGpr .., completes_setGpr .., completes_setGpr .., completes_setGpr .., completes_setGpr ..,
    completes_setGpr .., completes_setGpr ..⟩

/-! ### Quotients -/

/-- The remainder of a truncated division is smaller than the divisor. -/
theorem abs_tmod_lt (a : Int) {b : Int} (hb : b ≠ 0) : |a.tmod b| < |b| := by
  rw [Int.abs_eq_natAbs, Int.abs_eq_natAbs, Int.natAbs_tmod]
  exact_mod_cast Nat.mod_lt _ (Int.natAbs_pos.2 hb)

/-- The remainder of a truncated division has the sign of the dividend. -/
theorem tmod_neg_iff {a b : Int} (hm : a.tmod b ≠ 0) : a.tmod b < 0 ↔ a < 0 := by
  have hs : (a.tmod b).sign = a.sign := by
    rw [Int.sign_tmod, if_neg fun hd => hm (Int.tmod_eq_zero_of_dvd hd)]
  rw [← Int.sign_eq_neg_one_iff_neg, hs, Int.sign_eq_neg_one_iff_neg]

/-- The truncated quotient of two words fits a word, but for the most negative number by -1. -/
theorem toInt_ofInt_tdiv {a b : Word} (h : ¬(a = 0x80000000 ∧ b = 0xFFFFFFFF)) :
    (BitVec.ofInt 32 (a.toInt.tdiv b.toInt)).toInt = a.toInt.tdiv b.toInt := by
  rw [← BitVec.toInt_sdiv_of_ne_or_ne a b (not_and_or.1 h), BitVec.ofInt_toInt]

/-- The quotient of two words fits a word. -/
theorem toNat_ofNat_div (a b : Word) : (BitVec.ofNat 32 (a.toNat / b.toNat)).toNat = a.toNat / b.toNat := by
  rw [← BitVec.toNat_udiv, BitVec.ofNat_toNat, BitVec.setWidth_eq]

section Undefined

variable (s : State) (rt : Reg) (oe rc : Bool)

/-- CR after a division whose quotient is not defined: a record form leaves three free bits and SO in CR0. -/
def undefinedQuotientCr : Word :=
  if rc then withCrField s.cr 0 ((s.drawn.freshWord.setWidth 3 : BitVec 3) ++
    BitVec.ofBool (bitAt (overflowXer oe true (s.spr .xer)) 0)) else s.cr

/-- Apart from CR and the free values, a quotient that is not defined is a free word written with overflow. -/
theorem writeUndefinedQuotient_eq : s.writeUndefinedQuotient rt oe rc =
    { s.writeResult rt s.freshWord oe true none false with
      cr := undefinedQuotientCr s oe rc, draws := s.draws + 1 + rc.toNat } := by
  cases oe <;> cases rc <;> rfl

theorem crField_undefinedQuotientCr_ne {f : BitVec 3} (hf : f ≠ 0) :
    crField (undefinedQuotientCr s oe rc) f = crField s.cr f := by
  unfold undefinedQuotientCr
  split
  · rw [crField_withCrField, if_neg hf]
  · rfl

/-- CR0's last bit is SO, as an o form sets it. -/
theorem summary_undefinedQuotientCr (hrc : rc = true) :
    (crField (undefinedQuotientCr s oe rc) 0).getLsbD 0 = (s.xerSO || oe) := by
  rw [undefinedQuotientCr, if_pos hrc, crField_withCrField, if_pos rfl, BitVec.getLsbD_append, if_pos Nat.one_pos]
  cases oe <;> simp [overflowXer, bitAt_withBit, State.xerSO]

/-- What an undefined division does, whole. -/
theorem writeUndefinedQuotient_spec : DividesUndefined s (s.writeUndefinedQuotient rt oe rc).advance rt oe rc := by
  rw [writeUndefinedQuotient_eq]
  have hw := writeResult_spec s rt s.freshWord oe true none false
  have hso := hw.so.trans (congrArg (s.xerSO || ·) (Bool.and_true oe))
  exact {
    so := hso
    overflow := hw.overflow.trans (by cases oe <;> rfl)
    carry := hw.carry
    summary := fun hrc => (summary_undefinedQuotientCr s oe rc hrc).trans hso.symm
    cr0 := fun hrc => by rw [State.cr_advance, undefinedQuotientCr, if_neg (ne_true_of_eq_false hrc)]
    rest := {
      others := hw.rest.others
      next := hw.rest.next
      fields := fun _ hf => crField_undefinedQuotientCr_ne s oe rc hf
      count := hw.rest.count
      sprs := hw.rest.sprs
      system := { hw.rest.system with } } }

end Undefined

theorem divwUndefined_iff (a b : Word) :
    divwUndefined a b = true ↔ b = 0 ∨ (a = 0x80000000 ∧ b = 0xFFFFFFFF) := by
  simp [divwUndefined]

theorem divwuUndefined_iff (b : Word) : divwuUndefined b = true ↔ b = 0 := by
  simp [divwuUndefined]

/-- A division whose quotient is defined writes it. -/
theorem completes_divide_defined {undefined : Bool} (h : ¬undefined = true) (s : State) (rt : Reg) (v : Word)
    (oe rc : Bool) :
    Completes (if undefined then done (s.writeUndefinedQuotient rt oe rc) else done (s.writeResult rt v oe false none rc))
      fun t => WritesResult s t rt v oe false none rc := by
  rw [if_neg h]
  exact completes_writeResult ..

/-- A division whose quotient is not defined completes. -/
theorem completes_divide_undefined {undefined : Bool} (h : undefined = true) (s : State) (rt : Reg) (v : Word)
    (oe rc : Bool) :
    Completes (if undefined then done (s.writeUndefinedQuotient rt oe rc) else done (s.writeResult rt v oe false none rc))
      fun t => DividesUndefined s t rt oe rc := by
  rw [if_pos h]
  exact ⟨_, rfl, writeUndefinedQuotient_spec ..⟩

/-- Settles O10: the quotients are `Int.tdiv` and `Nat` division, the remainders `Int.tmod` and `Nat` remainder. -/
theorem divideResults : Obligations.DivideResults := by
  intro s rt ra rb oe rc a b undef
  refine ⟨fun hdef => ?_, fun hu => ?_, fun hb => ?_, fun hb => ?_⟩
  · obtain ⟨hb, hmost⟩ := not_or.1 hdef
    have hb' : b.toInt ≠ 0 := fun h => hb (BitVec.eq_of_toInt_eq (h.trans BitVec.toInt_zero.symm))
    refine ⟨BitVec.ofInt 32 (a.toInt.tdiv b.toInt), a.toInt.tmod b.toInt,
      completes_divide_defined (mt (divwUndefined_iff a b).1 hdef) s rt _ oe rc, ?_, abs_tmod_lt _ hb', tmod_neg_iff⟩
    rw [toInt_ofInt_tdiv hmost, Int.tdiv_mul_add_tmod]
  · exact completes_divide_undefined ((divwUndefined_iff a b).2 hu) s rt _ oe rc
  · have hb' : 0 < b.toNat := Nat.pos_of_ne_zero fun h => hb (BitVec.eq_of_toNat_eq h)
    refine ⟨BitVec.ofNat 32 (a.toNat / b.toNat), a.toNat % b.toNat,
      completes_divide_defined (mt (divwuUndefined_iff b).1 hb) s rt _ oe rc, ?_, Nat.mod_lt _ hb'⟩
    rw [toNat_ofNat_div, Nat.div_add_mod']
  · exact completes_divide_undefined ((divwuUndefined_iff b).2 hb) s rt _ oe rc

end Sys2Proof.Machine
end

section
/-! SUPPORT. The multiply-accumulate and multiply-halfword instructions (spec/42_mac.md). -/

namespace Sys2Proof.Machine

variable {s : State} {i : Instr} {rt : Reg} {a b : Half} {sat oe rc : Bool}

/-! ### Accumulations (R301, R302) -/

theorem macResult_modulo (unsig : Bool) (t : Int) : macResult false unsig t = BitVec.ofInt 32 t := rfl

/-- Signed saturation clamps to the signed range: an overflowing sum above 0 lies above it, another one below it. -/
theorem toInt_macResult_saturate (t : Int) :
    (macResult true false t).toInt = max (-2 ^ 31) (min (2 ^ 31 - 1) t) := by
  have hov : macOverflow false t = true ↔ t < -2 ^ 31 ∨ 2 ^ 31 ≤ t := by simp [macOverflow, outsideSigned]
  rw [macResult, Bool.true_and]
  split
  next h =>
    have hout := hov.1 h
    rw [if_neg Bool.false_ne_true]
    split
    · have hmax : (0x7FFFFFFF : Word).toInt = 2 ^ 31 - 1 := by decide
      omega
    · have hmin : (0x80000000 : Word).toInt = -2 ^ 31 := by decide
      omega
  next h =>
    have hin := mt hov.2 h
    rw [BitVec.toInt_ofInt_eq_self (by decide) (by omega) (by omega)]
    omega

/-- An unsigned accumulation overflows where the natural sum does not fit a word. -/
theorem macOverflow_natCast (n : Nat) : macOverflow true n = decide (2 ^ 32 ≤ n) := by
  rw [macOverflow, if_pos rfl, decide_eq_decide]
  omega

theorem toNat_macResult_modulo (n : Nat) : (macResult false true n).toNat = n % 2 ^ 32 := by
  rw [macResult_modulo, BitVec.ofInt_natCast, BitVec.toNat_ofNat]

/-- Unsigned saturation clamps to the greatest word. -/
theorem toNat_macResult_saturate (n : Nat) : (macResult true true n).toNat = min (2 ^ 32 - 1) n := by
  rw [macResult, Bool.true_and, macOverflow_natCast]
  split
  next h =>
    have hout := of_decide_eq_true h
    have hmax : (0xFFFFFFFF : Word).toNat = 2 ^ 32 - 1 := rfl
    rw [if_pos rfl]
    omega
  next h =>
    have hin := mt (decide_eq_true (p := 2 ^ 32 ≤ n)) h
    rw [BitVec.ofInt_natCast, BitVec.toNat_ofNat]
    omega

theorem macSum_natCast (a b acc : Nat) : macSum a b acc false = (a * b + acc : Nat) := by
  rw [macSum, if_neg Bool.false_ne_true, Int.natCast_add, Int.natCast_mul]

/-- An instruction that runs as `macSigned` accumulates its product, negated in the negative forms. -/
theorem accumulatesSigned_of_exec {neg : Bool} {p : Int} (h : exec i s = macSigned s rt a b neg sat oe rc)
    (hp : (if neg then -(a.toInt * b.toInt) else a.toInt * b.toInt) = p) : accumulatesSigned s i rt p sat oe rc := by
  rw [accumulatesSigned, h, macSigned, macSum, hp]
  refine ⟨_, completes_writeResult .., ?_⟩
  cases sat with
  | false => exact macResult_modulo ..
  | true => exact toInt_macResult_saturate _

/-- An instruction that runs as `macUnsigned` accumulates its product. -/
theorem accumulatesUnsigned_of_exec (h : exec i s = macUnsigned s rt a b sat oe rc) :
    accumulatesUnsigned s i rt (a.toNat * b.toNat) sat oe rc := by
  rw [accumulatesUnsigned, h, macUnsigned, macSum_natCast, macOverflow_natCast]
  refine ⟨_, completes_writeResult .., ?_⟩
  cases sat with
  | false => exact toNat_macResult_modulo _
  | true => exact toNat_macResult_saturate _

/-- Settles O12: every accumulating instruction is `macSigned` or `macUnsigned` of the halfwords its name selects. -/
theorem macResults : Obligations.MacResults := fun _ _ _ _ _ _ =>
  ⟨accumulatesSigned_of_exec rfl rfl, accumulatesSigned_of_exec rfl rfl, accumulatesSigned_of_exec rfl rfl,
    accumulatesSigned_of_exec rfl rfl, accumulatesSigned_of_exec rfl rfl, accumulatesSigned_of_exec rfl rfl,
    accumulatesSigned_of_exec rfl rfl, accumulatesSigned_of_exec rfl rfl, accumulatesSigned_of_exec rfl rfl,
    accumulatesSigned_of_exec rfl rfl, accumulatesSigned_of_exec rfl rfl, accumulatesSigned_of_exec rfl rfl,
    accumulatesUnsigned_of_exec rfl, accumulatesUnsigned_of_exec rfl, accumulatesUnsigned_of_exec rfl,
    accumulatesUnsigned_of_exec rfl, accumulatesUnsigned_of_exec rfl, accumulatesUnsigned_of_exec rfl⟩

/-! ### Products of halfwords (R300) -/

/-- A product of signed halfwords fits a signed word. -/
theorem toInt_ofInt_mul_half (a b : Half) : (BitVec.ofInt 32 (a.toInt * b.toInt)).toInt = a.toInt * b.toInt := by
  have hlow : -2 ^ 30 ≤ a.toInt * b.toInt := BitVec.le_toInt_mul_toInt
  have hhigh : a.toInt * b.toInt ≤ 2 ^ 30 := BitVec.toInt_mul_toInt_le
  exact BitVec.toInt_ofInt_eq_self (by decide) (by omega) (by omega)

/-- A product of unsigned halfwords fits a word. -/
theorem toNat_ofNat_mul_half (a b : Half) : (BitVec.ofNat 32 (a.toNat * b.toNat)).toNat = a.toNat * b.toNat := by
  rw [BitVec.toNat_ofNat, Nat.mod_eq_of_lt BitVec.toNat_mul_toNat_lt]

/-- An instruction that runs as `mulSigned` writes the exact signed product. -/
theorem multipliesHalf_of_exec_mulSigned (h : exec i s = mulSigned s rt a b rc) :
    multipliesHalf s i rt (a.toInt * b.toInt) true rc := by
  rw [multipliesHalf, h]
  exact ⟨_, completes_writeLogical .., toInt_ofInt_mul_half a b⟩

/-- An instruction that runs as `mulUnsigned` writes the exact unsigned product. -/
theorem multipliesHalf_of_exec_mulUnsigned (h : exec i s = mulUnsigned s rt a b rc) :
    multipliesHalf s i rt (a.toNat * b.toNat) false rc := by
  rw [multipliesHalf, h, ← Int.natCast_mul]
  exact ⟨_, completes_writeLogical .., congrArg Nat.cast (toNat_ofNat_mul_half a b)⟩

/-- Settles O13: every multiply-halfword is `mulSigned` or `mulUnsigned` of the halfwords its name selects. -/
theorem multiplyHalfwordResults : Obligations.MultiplyHalfwordResults := fun _ _ _ _ _ =>
  ⟨multipliesHalf_of_exec_mulSigned rfl, multipliesHalf_of_exec_mulSigned rfl, multipliesHalf_of_exec_mulSigned rfl,
    multipliesHalf_of_exec_mulUnsigned rfl, multipliesHalf_of_exec_mulUnsigned rfl,
    multipliesHalf_of_exec_mulUnsigned rfl⟩

end Sys2Proof.Machine
end

section
/-! SUPPORT. The logical instructions, `cntlzw` and the compares (spec/43_logical_compare.md). -/

namespace Sys2Proof.Machine

variable {s : State} {i : Instr}

/-! ### Counting leading zeros (R345) -/

/-- The count is the place of the first set bit, 32 where there is none. -/
theorem leadingZeros_eq_findIdx (w : Word) : leadingZeros w = (List.range 32).findIdx (bitAt w) := by
  rw [leadingZeros, List.takeWhile_eq_take_findIdx_not, List.length_take, Nat.min_eq_left List.findIdx_le_length]
  simp only [Bool.not_not]

theorem leadingZeros_le (w : Word) : leadingZeros w ≤ 32 := by
  rw [leadingZeros_eq_findIdx]
  exact List.findIdx_le_length

theorem bitAt_of_lt_leadingZeros {w : Word} {k : Nat} (h : k < leadingZeros w) : bitAt w k = false := by
  rw [leadingZeros_eq_findIdx] at h
  simpa only [List.getElem_range] using List.not_of_lt_findIdx h

theorem bitAt_leadingZeros {w : Word} (h : leadingZeros w < 32) : bitAt w (leadingZeros w) = true := by
  rw [leadingZeros_eq_findIdx] at h ⊢
  simpa only [List.getElem_range] using
    List.findIdx_getElem (p := bitAt w) (w := h.trans_eq List.length_range.symm)

/-! ### Logical results -/

/-- An instruction that runs as `writeLogical` is of the logical family. -/
theorem logicalInto_of_exec {ra : Reg} {v : Word} {rc : Bool} (h : exec i s = done (s.writeLogical ra v rc)) :
    logicalInto s i ra v rc := by
  rw [logicalInto, h]
  exact completes_writeLogical ..

/-- Settles O14: every logical instruction is `writeLogical` of its result, and `cntlzw` of the leading zeros. -/
theorem logicalResults : Obligations.LogicalResults := by
  intro s ra rs rb rc ui
  rw [← shifted16_eq_zeroExtend]
  exact ⟨logicalInto_of_exec rfl, logicalInto_of_exec rfl, logicalInto_of_exec rfl, logicalInto_of_exec rfl,
    logicalInto_of_exec rfl, logicalInto_of_exec rfl, logicalInto_of_exec rfl, logicalInto_of_exec rfl,
    logicalInto_of_exec rfl, logicalInto_of_exec rfl, logicalInto_of_exec rfl, logicalInto_of_exec rfl,
    leadingZeros (s.gpr rs), leadingZeros_le _, logicalInto_of_exec rfl, fun _ => bitAt_of_lt_leadingZeros,
    bitAt_leadingZeros⟩

/-! ### Compares (R360) -/

theorem toInt_sext16 (x : Half) : (sext16 x).toInt = x.toInt := BitVec.toInt_signExtend_of_le (by decide)

theorem toNat_zext16 (x : Half) : (zext16 x).toNat = x.toNat := BitVec.toNat_setWidth_of_le (by decide)

/-- A signed comparison with an immediate, as numbers. -/
theorem signedCompare_sext16 (a : Word) (x : Half) (so : Bool) : signedCompare a (sext16 x) so =
    condField (decide (a.toInt < x.toInt)) (decide (x.toInt < a.toInt)) (decide (a.toInt = x.toInt)) so := by
  have heq : a = sext16 x ↔ a.toInt = x.toInt := by rw [← toInt_sext16, BitVec.toInt_inj]
  rw [signedCompare_eq, toInt_sext16, decide_eq_decide.2 heq]

/-- An unsigned comparison with an immediate, as numbers. -/
theorem unsignedCompare_zext16 (a : Word) (x : Half) (so : Bool) : unsignedCompare a (zext16 x) so =
    condField (decide (a.toNat < x.toNat)) (decide (x.toNat < a.toNat)) (decide (a.toNat = x.toNat)) so := by
  have heq : a = zext16 x ↔ a.toNat = x.toNat := by rw [← toNat_zext16, BitVec.toNat_inj]
  rw [unsignedCompare_eq, toNat_zext16, decide_eq_decide.2 heq]

section Compare

variable {bf : BitVec 3} {f : BitVec 4} {lt gt eq : Prop} [Decidable lt] [Decidable gt] [Decidable eq]

/-- Writing one CR field with a comparison is all a compare does. -/
theorem setCrField_compares (hf : f = condField (decide lt) (decide gt) (decide eq) s.xerSO) :
    Compares s (s.setCrField bf f).advance bf lt gt eq where
  field := (crField_withCrField s.cr bf bf f).trans ((if_pos rfl).trans hf)
  fields := fun g hg => (crField_withCrField s.cr bf g f).trans (if_neg hg)
  gprs := fun _ => rfl
  next := rfl
  sprs := fun _ => rfl
  system := keepsSystem_of rfl rfl rfl rfl rfl rfl rfl rfl rfl rfl

/-- An instruction that runs as `compareInto` with L = 0 compares. -/
theorem completes_compare_of_exec (h : exec i s = compareInto s bf false f)
    (hf : f = condField (decide lt) (decide gt) (decide eq) s.xerSO) :
    Completes (exec i s) fun t => Compares s t bf lt gt eq :=
  ⟨_, h.trans (validForm_ok rfl _ _), setCrField_compares hf⟩

/-- With L = 1 no field is written, whatever the comparison's result would be (30_encoding.md R173 (g)). -/
theorem compareInto_refused (s : State) (bf : BitVec 3) (f : BitVec 4) :
    compareInto s bf true f = .refused .invalidCompareLength := validForm_refused Bool.false_ne_true _ _

end Compare

/-- Settles O15: every compare is `compareInto` of a signed or an unsigned comparison. -/
theorem compareResults : Obligations.CompareResults := by
  intro s bf ra rb imm
  refine ⟨completes_compare_of_exec rfl (signedCompare_eq ..),
    completes_compare_of_exec rfl (signedCompare_sext16 ..),
    completes_compare_of_exec rfl (unsignedCompare_eq ..),
    completes_compare_of_exec rfl (unsignedCompare_zext16 ..), fun i hi => ?_⟩
  simp only [List.mem_cons, List.not_mem_nil, or_false] at hi
  obtain rfl | rfl | rfl | rfl := hi
  · exact compareInto_refused s bf (signedCompare (s.gpr ra) (s.gpr rb) s.xerSO)
  · exact compareInto_refused s bf (signedCompare (s.gpr ra) (sext16 imm) s.xerSO)
  · exact compareInto_refused s bf (unsignedCompare (s.gpr ra) (s.gpr rb) s.xerSO)
  · exact compareInto_refused s bf (unsignedCompare (s.gpr ra) (zext16 imm) s.xerSO)

end Sys2Proof.Machine
end

section
/-! SUPPORT. The branches: their condition, their target, and the registers they write (spec/44_branch_crlogical.md R380
to R388). -/

namespace Sys2Proof.Machine

variable {s t : State} {i : Instr} {bo bi : BitVec 5} {ctr : Word}

/-! ### The branch condition (R381) -/

theorem condOk_iff (bo bi : BitVec 5) (cr : Word) :
    condOk bo bi cr = true ↔ boBit bo 0 = true ∨ bitAt cr bi.toNat = boBit bo 1 := by
  simp only [condOk, boBit, Bool.or_eq_true, beq_iff_eq]

theorem ctrOk_iff (bo : BitVec 5) (ctr : Word) :
    ctrOk bo ctr = true ↔ boBit bo 2 = true ∨ (ctr ≠ 0 ↔ boBit bo 3 = false) := by
  have htest : ((ctr != 0) == !bo.getLsbD 1) = true ↔ (ctr ≠ 0 ↔ boBit bo 3 = false) := by
    rw [beq_iff_eq, Bool.eq_iff_iff, bne_iff_ne, Bool.not_eq_true']
    rfl
  exact (Bool.or_eq_true _ _).to_iff.trans (or_congr Iff.rfl htest)

theorem branchCond_iff (s : State) (bo bi : BitVec 5) : s.branchCond bo bi = true ↔ branchHolds s bo bi :=
  Bool.and_eq_true_iff.trans (and_congr (ctrOk_iff bo _) (condOk_iff bo bi s.cr))

/-- A `bcctr` of an allowed form does not test the CTR. -/
theorem condOk_iff_branchHolds (h : branchCtrOk bo = true) : condOk bo bi s.cr = true ↔ branchHolds s bo bi := by
  have hkeep : boBit bo 2 = true := (Bool.and_eq_true_iff.1 h).2
  rw [condOk_iff, branchHolds, and_iff_right (.inl hkeep)]

/-! ### Targets (R163, R388) -/

/-- Two zero bits on the right multiply a displacement by four. -/
theorem signExtend_append_eq_mul {n : Nat} (d : BitVec n) :
    (d ++ (0 : BitVec 2)).signExtend 32 = d.signExtend 32 * (4 : Word) := by
  have h4 : (d ++ (0 : BitVec 2)).toInt = 4 * d.toInt := BitVec.toInt_append_zero
  rw [BitVec.signExtend, h4, Int.mul_comm, BitVec.ofInt_mul]
  rfl

theorem branchTarget_aligned (ha : s.pc &&& 3 = 0) (hi : isBranch i = true) : branchTarget s i &&& 3 = 0 := by
  cases i with
  | b li aa => exact aligned_add (ite_zero_aligned ha aa) (dispLI_aligned li)
  | bc _ _ bd aa => exact aligned_add (ite_zero_aligned ha aa) (dispBD_aligned bd)
  | bclr => exact alignPc_aligned (s.spr .lr)
  | bcctr => exact alignPc_aligned (s.spr .ctr)
  | _ => cases hi

/-! ### The registers a branch writes -/

theorem branches_refl (s : State) : Branches s s false (s.spr .ctr) s.pc :=
  ⟨rfl, rfl, rfl, fun _ _ _ => rfl, fun _ => rfl, rfl, keepsSystem_of rfl rfl rfl rfl rfl rfl rfl rfl rfl rfl⟩

/-- The decrement of the CTR is what a branch does before its target is known. -/
theorem branches_countDown (s : State) (bo : BitVec 5) : Branches s (s.countDown bo) false (ctrAfter s bo) s.pc := by
  cases hbo : bo.getLsbD 2 with
  | true =>
    rw [State.countDown, if_pos hbo, ctrAfter, boBit, if_pos hbo]
    exact branches_refl s
  | false =>
    rw [State.countDown, if_neg (ne_true_of_eq_false hbo), ctrAfter, boBit, if_neg (ne_true_of_eq_false hbo)]
    exact {
      pc := rfl
      lr := State.spr_setSpr_ne s _ (by decide)
      ctr := (State.spr_setSpr_self s .ctr _).trans BitVec.and_allOnes
      sprs := fun _ _ hctr => State.spr_setSpr_ne s _ hctr
      gprs := fun _ => rfl
      cr := rfl
      system := keepsSystem_of rfl rfl rfl rfl rfl rfl rfl rfl rfl rfl }

theorem Branches.setPc {lk : Bool} (h : Branches s t lk ctr s.pc) (a : Word) : Branches s (t.setPc a) lk ctr a :=
  { h with pc := rfl, system := { h.system with } }

/-- The LR gets the address of the next instruction. -/
theorem Branches.setLr (h : Branches s t false ctr s.pc) : Branches s (t.setSpr .lr (s.pc + 4)) true ctr s.pc where
  pc := h.pc
  lr := (State.spr_setSpr_self t .lr _).trans BitVec.and_allOnes
  ctr := (State.spr_setSpr_ne t _ (by decide)).trans h.ctr
  sprs := fun r hlr hctr => (State.spr_setSpr_ne t _ hlr).trans (h.sprs r hlr hctr)
  gprs := h.gprs
  cr := h.cr
  system := { h.system with }

/-! ### Completion -/

/-- What the end of a branch does, from a state in which the CTR alone may have been decremented. -/
theorem completes_branchTo (h : Branches s t false ctr s.pc) (lk taken : Bool) (target : Word) :
    Completes (branchTo t lk taken target) fun u => Branches s u lk ctr (if taken then target else s.pc + 4) := by
  rw [branchTo, h.pc]
  cases lk with
  | false => exact ⟨_, rfl, h.setPc _⟩
  | true =>
    rw [State.link, if_pos rfl, h.pc]
    exact ⟨_, rfl, h.setLr.setPc _⟩

/-- An instruction that runs as `branchTo` goes to its target where its condition holds, else to the next one. -/
theorem completes_branch_of_exec {lk taken : Bool} {target : Word} {p : Prop}
    (hexec : exec i s = branchTo t lk taken target) (h : Branches s t false ctr s.pc) (htaken : taken = true ↔ p) :
    (p → Completes (exec i s) fun u => Branches s u lk ctr target) ∧
      (¬p → Completes (exec i s) fun u => Branches s u lk ctr (s.pc + 4)) := by
  rw [hexec, ← htaken]
  have hend := completes_branchTo h lk taken target
  exact ⟨fun hp => by rwa [if_pos hp] at hend, fun hp => by rwa [if_neg hp] at hend⟩

/-- Settles O18: every branch of an allowed form is `branchTo`, the decrement of the CTR before it. -/
theorem branchResults : Obligations.BranchResults := by
  intro s bo bi li bd aa lk
  rw [← signExtend_append_eq_mul, ← signExtend_append_eq_mul]
  have hcond := branchCond_iff s bo bi
  have hctr := branches_countDown s bo
  refine ⟨completes_branchTo (branches_refl s) lk true _, fun hok => ?_, fun hok => ?_, fun hbad => ?_,
    fun hbad => ?_⟩
  · have hbc := completes_branch_of_exec (i := .bc bo bi bd aa lk) (validForm_ok hok _ _) hctr hcond
    have hbclr := completes_branch_of_exec (i := .bclr bo bi lk) (validForm_ok hok _ _) hctr hcond
    exact ⟨fun hp => ⟨hbc.1 hp, hbclr.1 hp⟩, fun hp => ⟨hbc.2 hp, hbclr.2 hp⟩⟩
  · exact completes_branch_of_exec (i := .bcctr bo bi lk) (validForm_ok hok _ _) (branches_refl s)
      (condOk_iff_branchHolds hok)
  · have hbad' := ne_true_of_eq_false hbad
    exact ⟨validForm_refused hbad' _ _, validForm_refused hbad' _ _⟩
  · exact validForm_refused (ne_true_of_eq_false hbad) _ _

theorem next_of_completes {r : Result} {P : State → Prop} (h : Completes r P) (ht : r = .next t) : P t := by
  obtain ⟨u, hu, hP⟩ := h
  cases hu.symm.trans ht
  exact hP

theorem validForm_next {ok : Bool} {x : Refusal} {k : Result} (h : validForm ok x k = .next t) : k = .next t := by
  unfold validForm at h
  split at h
  · exact h
  · cases h

/-- A branch that completes has branched to its target or to the next instruction. -/
theorem exec_branch_next (hi : isBranch i = true) (ht : exec i s = .next t) :
    ∃ (lk : Bool) (ctr : Word) (taken : Bool),
      Branches s t lk ctr (if taken then branchTarget s i else s.pc + 4) := by
  cases i with
  | b =>
    exact ⟨_, _, true, next_of_completes (completes_branchTo (branches_refl s) _ true _) ht⟩
  | bc bo | bclr bo =>
    exact ⟨_, _, _, next_of_completes (completes_branchTo (branches_countDown s bo) _ _ _) (validForm_next ht)⟩
  | bcctr =>
    exact ⟨_, _, _, next_of_completes (completes_branchTo (branches_refl s) _ _ _) (validForm_next ht)⟩
  | _ => cases hi

/-- Settles O19: a branch writes no register but the LR and the CTR, and both places it may go to are aligned. -/
theorem branchTargetsAligned : Obligations.BranchTargetsAligned := by
  intro i s t hi ha ht
  obtain ⟨lk, ctr, taken, h⟩ := exec_branch_next hi ht
  have htarget := branchTarget_aligned ha hi
  have hplace : t.pc = branchTarget s i ∨ t.pc = s.pc + 4 := by
    rw [h.pc]
    exact ite_eq_or_eq _ _ _
  refine ⟨htarget, hplace, ?_, h.system.msr, h.sprs _ (by decide) (by decide), h.sprs _ (by decide) (by decide)⟩
  obtain hpc | hpc := hplace
  · rwa [hpc]
  · rw [hpc]
    exact aligned_add ha (by decide)

end Sys2Proof.Machine
end

section
/-! SUPPORT. Condition register logic and the moves of CR fields (spec/44_branch_crlogical.md R390 to R399; 48 R494,
R495, R499). -/

namespace Sys2Proof.Machine

/-! ### CR logic -/

/-- Writing the CR is all that an instruction of this family does. -/
theorem setCr_spec (s : State) (cr : Word) : WritesCr s ({ s with cr := cr } : State).advance cr :=
  ⟨rfl, fun _ => rfl, rfl, fun _ => rfl, keepsSystem_of rfl rfl rfl rfl rfl rfl rfl rfl rfl rfl⟩

/-- One CR bit is written by the truth function of two bits. -/
theorem completes_crLogic (s : State) (bt ba bb : BitVec 5) (f : Bool → Bool → Bool) :
    Completes (crLogic s bt ba bb f) fun t => WritesCrBit s t bt (f (bitAt s.cr ba.toNat) (bitAt s.cr bb.toNat)) := by
  have hw := setCr_spec s (withBit s.cr bt.toNat (f (bitAt s.cr ba.toNat) (bitAt s.cr bb.toNat)))
  exact ⟨_, rfl, {
    bit := (bitAt_withBit s.cr _ _ _ bt.isLt bt.isLt).trans (if_pos rfl)
    bits := fun k hk hne => (bitAt_withBit s.cr _ k _ bt.isLt hk).trans (if_neg hne)
    gprs := hw.gprs
    next := hw.next
    sprs := hw.sprs
    system := hw.system }⟩

/-- Settles O20: every CR logical instruction is `crLogic` of its truth function. -/
theorem crLogicResults : Obligations.CrLogicResults := by
  intro s bt ba bb a b
  have heqv : (!(xor a b)) = (a == b) := Bool.not_not _
  rw [heqv]
  exact ⟨completes_crLogic s bt ba bb (· && ·), completes_crLogic s bt ba bb (· && !·),
    completes_crLogic s bt ba bb (· == ·), completes_crLogic s bt ba bb fun a b => !(a && b),
    completes_crLogic s bt ba bb fun a b => !(a || b), completes_crLogic s bt ba bb (· || ·),
    completes_crLogic s bt ba bb (· || !·), completes_crLogic s bt ba bb (· != ·)⟩

/-! ### Fields under a mask (R499) -/

theorem crField_and (v w : Word) (f : BitVec 3) : crField (v &&& w) f = crField v f &&& crField w f := by
  rw [crField, BitVec.ushiftRight_and_distrib, BitVec.setWidth_and]
  rfl

theorem crField_or (v w : Word) (f : BitVec 3) : crField (v ||| w) f = crField v f ||| crField w f := by
  rw [crField, BitVec.ushiftRight_or_distrib, BitVec.setWidth_or]
  rfl

theorem crField_not (w : Word) (f : BitVec 3) : crField (~~~w) f = ~~~crField w f := by
  refine BitVec.eq_of_getLsbD_eq fun j hj => ?_
  have h32 : 28 - 4 * f.toNat + j < 32 := by omega
  rw [getLsbD_crField, BitVec.getLsbD_not, BitVec.getLsbD_not, getLsbD_crField]
  simp only [hj, h32, decide_true, Bool.true_and]

/-- Setting the four bits of a field is writing ones to it. -/
theorem or_ones_eq_withCrField (m : Word) (g : BitVec 3) :
    m ||| ((0xF : Word) <<< (28 - 4 * g.toNat)) = withCrField m g 0xF := by
  apply eq_of_bitAt
  intro b _
  have hones : (0xF : BitVec 4).setWidth 32 = (0xF : Word) := rfl
  rw [withCrField, hones, bitAt_or, bitAt_or, bitAt_and, bitAt_not]
  cases bitAt m b <;> cases bitAt ((0xF : Word) <<< (28 - 4 * g.toNat)) b <;> rfl

/-- The CR fields an FXM selects. -/
def selectedFields (fxm : BitVec 8) : List (BitVec 3) :=
  [0, 1, 2, 3, 4, 5, 6, 7].filter fun g => fxm.getLsbD (7 - g.toNat)

theorem mem_selectedFields {fxm : BitVec 8} {f : BitVec 3} :
    f ∈ selectedFields fxm ↔ fxm.getLsbD (7 - f.toNat) = true := by
  have hall : ∀ g : BitVec 3, g ∈ ([0, 1, 2, 3, 4, 5, 6, 7] : List (BitVec 3)) := by decide
  rw [selectedFields, List.mem_filter, and_iff_right (hall f)]

/-- The mask of an FXM has ones written to the selected fields. -/
theorem fieldMask_eq_foldl (fxm : BitVec 8) :
    fieldMask fxm = (selectedFields fxm).foldl (fun m g => withCrField m g 0xF) 0 := by
  rw [selectedFields, List.foldl_filter]
  simp only [← or_ones_eq_withCrField]
  rfl

/-- A field after the same value was written to several. -/
theorem crField_foldl_withCrField (v : BitVec 4) (f : BitVec 3) (gs : List (BitVec 3)) (m : Word) :
    crField (gs.foldl (fun m g => withCrField m g v) m) f = if f ∈ gs then v else crField m f := by
  induction gs generalizing m with
  | nil => rfl
  | cons g gs ih =>
    rw [List.foldl_cons, ih, crField_withCrField]
    by_cases hmem : f ∈ gs <;> simp [hmem]

theorem crField_fieldMask (fxm : BitVec 8) (f : BitVec 3) :
    crField (fieldMask fxm) f = if fxm.getLsbD (7 - f.toNat) then 0xF else 0#4 := by
  have hzero : crField 0 f = 0#4 := BitVec.eq_of_getLsbD_eq fun j _ => by simp [getLsbD_crField]
  simp only [fieldMask_eq_foldl, crField_foldl_withCrField, hzero, mem_selectedFields]

/-- Under the mask of an FXM a field is the one word's where it is selected, the other's where it is not. -/
theorem crField_select (fxm : BitVec 8) (v cr : Word) (f : BitVec 3) :
    crField ((v &&& fieldMask fxm) ||| (cr &&& ~~~fieldMask fxm)) f =
      if fxm.getLsbD (7 - f.toNat) then crField v f else crField cr f := by
  have hones : (0xF : BitVec 4) = BitVec.allOnes 4 := rfl
  rw [crField_or, crField_and, crField_and, crField_not, crField_fieldMask, hones]
  split
  · rw [BitVec.and_allOnes, BitVec.not_allOnes, BitVec.and_zero, BitVec.or_zero]
  · rw [BitVec.and_zero, BitVec.not_zero, BitVec.and_allOnes, BitVec.zero_or]

/-! ### Moves -/

/-- Writing one field leaves the others. -/
theorem setCrField_spec (s : State) (bf : BitVec 3) (v : BitVec 4) :
    crField (s.setCrField bf v).cr bf = v ∧ ∀ f, f ≠ bf → crField (s.setCrField bf v).cr f = crField s.cr f :=
  ⟨(crField_withCrField s.cr bf bf v).trans (if_pos rfl),
    fun f hf => (crField_withCrField s.cr bf f v).trans (if_neg hf)⟩

/-- The state with SO, OV and CA cleared in the XER (48 R494). -/
def State.clearFlags (s : State) : State := s.setSpr .xer (s.spr .xer &&& 0x1FFFFFFF)

theorem execMcrxr_eq (bf : BitVec 3) (s : State) : execMcrxr bf s =
    done (s.setCrField bf (condField s.xerSO s.xerOV s.xerCA false)).clearFlags := rfl

theorem bitAt_xer_clearFlags (s : State) {b : Nat} (hb : b < 3) : bitAt (s.clearFlags.spr .xer) b = false := by
  have hmask : bitAt 0x1FFFFFFF b = false := by interval_cases b <;> rfl
  rw [State.clearFlags, State.spr_setSpr_self, bitAt_xer _ b hb, bitAt_and, hmask, Bool.and_false]

theorem xerTBC_clearFlags (s : State) : s.clearFlags.xerTBC = s.xerTBC := by
  have hmask : (0x1FFFFFFF : Word).setWidth 7 = BitVec.allOnes 7 := rfl
  rw [State.xerTBC, State.clearFlags, State.spr_setSpr_self, tbc_xer, BitVec.setWidth_and, hmask, BitVec.and_allOnes]
  rfl

/-- Settles O21: each field of the CR is read after a field, or the fields under a mask, are written; `mcrxr` then
clears the flags. -/
theorem crMoves : Obligations.CrMoves := by
  intro s bf bfa r fxm
  refine ⟨⟨_, rfl, setCr_spec s _, setCrField_spec s bf _⟩, completes_setGpr s r s.cr,
    ⟨_, rfl, setCr_spec s _, crField_select fxm (s.gpr r) s.cr⟩, _, execMcrxr_eq bf s, ?_⟩
  obtain ⟨hfield, hfields⟩ := setCrField_spec s bf (condField s.xerSO s.xerOV s.xerCA false)
  exact ⟨hfield, hfields, bitAt_xer_clearFlags _ (by decide), bitAt_xer_clearFlags _ (by decide),
    bitAt_xer_clearFlags _ (by decide), xerTBC_clearFlags _, fun _ hq => State.spr_setSpr_ne _ _ hq, fun _ => rfl, rfl,
    keepsSystem_of rfl rfl rfl rfl rfl rfl rfl rfl rfl rfl⟩

end Sys2Proof.Machine
end

section
/-! SUPPORT. The rotates and the shifts (spec/45_rotate_shift.md). -/

namespace Sys2Proof.Machine

variable {s : State} {i : Instr} {ra rs : Reg} {rc : Bool}

/-! ### Masks (R410) -/

theorem bitAt_ofNat (x k : Nat) : bitAt (BitVec.ofNat 32 x) k = x.testBit (31 - k) := by
  have hk : 31 - k < 32 := by omega
  rw [bitAt, BitVec.getLsbD_ofNat, decide_eq_true hk, Bool.true_and]

theorem testBit_ones (j : Nat) : (0xFFFFFFFF : Nat).testBit j = decide (j < 32) := Nat.testBit_two_pow_sub_one 32 j

/-- Shifting ones right leaves the bits from `n` on. -/
theorem bitAt_ones_shiftRight {n k : Nat} (hk : k < 32) :
    bitAt (BitVec.ofNat 32 (0xFFFFFFFF >>> n)) k = decide (n ≤ k) := by
  rw [bitAt_ofNat, Nat.testBit_shiftRight, testBit_ones, decide_eq_decide]
  omega

/-- Shifting ones left, up to place `n`, leaves the bits through `n`. -/
theorem bitAt_ones_shiftLeft {n k : Nat} (hn : n < 32) (hk : k < 32) :
    bitAt (BitVec.ofNat 32 (0xFFFFFFFF <<< (31 - n))) k = decide (k ≤ n) := by
  rw [bitAt_ofNat, Nat.testBit_shiftLeft, testBit_ones, ← Bool.decide_and, decide_eq_decide]
  omega

/-- The machine's mask has ones exactly under the mask of the statement. -/
theorem bitAt_rotateMask (mb me : BitVec 5) {k : Nat} (hk : k < 32) : bitAt (rotateMask mb me) k = inMask mb me k := by
  simp only [rotateMask, inMask, BitVec.le_def, BitVec.natCast_eq_ofNat]
  split
  · rw [bitAt_and, bitAt_ones_shiftRight hk, bitAt_ones_shiftLeft me.isLt hk, Bool.decide_and]
  · rw [bitAt_or, bitAt_ones_shiftRight hk, bitAt_ones_shiftLeft me.isLt hk, Bool.decide_or]

/-! ### Rotates (R411 to R413) -/

/-- The manual's numbering of bits is the one from the most significant bit down. -/
theorem bitAt_eq_getMsbD (w : Word) {k : Nat} (hk : k < 32) : bitAt w k = w.getMsbD k := by
  rw [BitVec.getMsbD_eq_getLsbD, decide_eq_true hk, Bool.true_and, bitAt]

/-- Rotating left by `n` moves bit k + n, modulo 32, to bit k. -/
theorem bitAt_rotateLeft (w : Word) (n : Nat) {k : Nat} (hk : k < 32) :
    bitAt (w.rotateLeft n) k = bitAt w ((k + n) % 32) := by
  rw [bitAt_eq_getMsbD _ hk, bitAt_eq_getMsbD _ (Nat.mod_lt _ (by decide)), BitVec.getMsbD_rotateLeft,
    decide_eq_true hk, Bool.true_and, Nat.add_comm]

/-- Rotate then AND with the mask, bit by bit. -/
theorem bitAt_rotateLeft_and_rotateMask (w : Word) (n : Nat) (mb me : BitVec 5) {k : Nat} (hk : k < 32) :
    bitAt (w.rotateLeft n &&& rotateMask mb me) k = (inMask mb me k && bitAt w ((k + n) % 32)) := by
  rw [bitAt_and, bitAt_rotateLeft w n hk, bitAt_rotateMask mb me hk, Bool.and_comm]

/-- Rotate then insert under the mask, bit by bit. -/
theorem bitAt_insert_rotateMask (w old : Word) (n : Nat) (mb me : BitVec 5) {k : Nat} (hk : k < 32) :
    bitAt ((w.rotateLeft n &&& rotateMask mb me) ||| (old &&& ~~~rotateMask mb me)) k =
      if inMask mb me k then bitAt w ((k + n) % 32) else bitAt old k := by
  rw [bitAt_or, bitAt_rotateLeft_and_rotateMask w n mb me hk, bitAt_and, bitAt_not, bitAt_rotateMask mb me hk]
  cases inMask mb me k <;> simp

/-- Settles O16: every rotate is `writeLogical` of a word whose bits are read under the mask. -/
theorem rotateResults : Obligations.RotateResults := by
  intro s ra rs rb sh mb me rc
  refine ⟨⟨_, logicalInto_of_exec rfl, fun k hk => bitAt_insert_rotateMask _ _ _ mb me hk⟩,
    ⟨_, logicalInto_of_exec rfl, fun k hk => bitAt_rotateLeft_and_rotateMask _ _ mb me hk⟩,
    ⟨_, logicalInto_of_exec rfl, fun k hk => ?_⟩⟩
  rw [bitAt_rotateLeft_and_rotateMask _ _ mb me hk, Nat.add_mod_mod]

/-! ### Algebraic shifts (R416, R417) -/

theorem toInt_shiftAlgebraic (w : Word) (n : Nat) : (shiftAlgebraic w n).toInt = w.toInt / 2 ^ n := by
  rw [shiftAlgebraic, BitVec.toInt_sshiftRight, Int.shiftRight_eq_div_pow, Int.natCast_pow]
  rfl

/-- From n = 32 on, 2^n divides no number but 0 that is smaller than 2^32. -/
theorem not_two_pow_dvd {x : Int} {n : Nat} (hn : 32 ≤ n) (hx : x ≠ 0) (hlo : -2 ^ 32 < x) (hhi : x < 2 ^ 32) :
    ¬(2 ^ n : Int) ∣ x :=
  fun hd => hx (Int.eq_zero_of_abs_lt_dvd hd ((abs_lt.2 ⟨hlo, hhi⟩).trans_le (pow_le_pow_right₀ (by decide) hn)))

/-- A power of two divides the signed reading of a word where it divides the unsigned one: the readings of a negative
word differ by 2^32, which 2^n divides up to n = 32; from there on 2^n divides neither. -/
theorem two_pow_dvd_toInt_iff (w : Word) (n : Nat) : (2 ^ n : Int) ∣ w.toInt ↔ 2 ^ n ∣ w.toNat := by
  have hw := w.isLt
  have hcast : (2 ^ n : Int) ∣ w.toNat ↔ 2 ^ n ∣ w.toNat := by norm_cast
  rw [← hcast, BitVec.toInt_eq_toNat_cond]
  split
  · rfl
  next hneg =>
    obtain hn | hn := Nat.le_total n 32
    · exact dvd_sub_left (by exact_mod_cast pow_dvd_pow 2 hn)
    · exact iff_of_false (not_two_pow_dvd hn (by omega) (by omega) (by omega))
        (not_two_pow_dvd hn (by omega) (by omega) (by omega))

/-- The carry is set where the source is negative and not divisible by 2^n. -/
theorem shiftCarry_eq (w : Word) (n : Nat) :
    shiftCarry w n = decide (w.toInt < 0 ∧ w.toInt % 2 ^ n ≠ 0) := by
  rw [shiftCarry, BitVec.msb_eq_toInt, Bool.decide_and]
  congr 1
  rw [decide_eq_decide, ne_eq, ne_eq, ← Nat.dvd_iff_mod_eq_zero, ← Int.dvd_iff_emod_eq_zero, two_pow_dvd_toInt_iff]

/-- An instruction that writes `shiftAlgebraic` and carries `shiftCarry` divides rounding down. -/
theorem shiftsAlgebraic_of_exec {n : Nat} (h : exec i s = done (s.writeResult ra (shiftAlgebraic (s.gpr rs) n) false
    false (some (shiftCarry (s.gpr rs) n)) rc)) : shiftsAlgebraic s i ra rs n rc := by
  refine ⟨_, ?_, toInt_shiftAlgebraic (s.gpr rs) n⟩
  rw [h, ← shiftCarry_eq]
  exact completes_writeResult ..

/-- Settles O17: `slw` and `srw` are `writeLogical` of the shifted word, the algebraic shifts also carry `shiftCarry`. -/
theorem shiftResults : Obligations.ShiftResults := by
  intro s ra rs rb sh rc n
  refine ⟨⟨_, logicalInto_of_exec rfl, ?_⟩, ⟨_, logicalInto_of_exec rfl, ?_⟩, shiftsAlgebraic_of_exec rfl,
    shiftsAlgebraic_of_exec rfl⟩
  · rw [BitVec.toNat_shiftLeft, Nat.shiftLeft_eq]
    rfl
  · rw [BitVec.toNat_ushiftRight, Nat.shiftRight_eq_div_pow]
    rfl

end Sys2Proof.Machine
end

section
/-! SUPPORT. The data cache instructions: `dcbst`, `dcbf`, `dcbi`, `dccci`, `dcbz`, `dcbt`, `dcbtst`, `dcba`
(46_cache_management.md R438 to R446). -/

namespace Sys2Proof.Machine

variable {s t : State} {ea : Word} {ra rb : Reg} {store : Bool} {p : Page} {b : Nat}

/-! ### The page of the address (R431) -/

theorem withBlock_ok (h : locate s ea store = .ok p) (k : Page → Result) : withBlock s ea store k = k p := by
  simp only [withBlock, h]

theorem ifAllowed_ok (h : locate s ea store = .ok p) (k : Page → Result) : ifAllowed s ea store k = k p := by
  simp only [ifAllowed, h]

theorem ifAllowed_exc {e : Exc} (h : locate s ea store = .error (.exc e)) (k : Page → Result) :
    ifAllowed s ea store k = done s := by
  simp only [ifAllowed, h]

theorem missOnly_page (h : lookupData s ea = .page p) (k : Page → Result) : missOnly s ea store k = k p := by
  simp only [missOnly, h]

theorem completes_done {P : State → Prop} (h : P t.advance) : Completes (done t) P := ⟨_, rfl, h⟩

/-- A storage operation that ends an instruction and is no access for `sync` to wait for. -/
theorem StorageOnly.dataCacheOp_advance (h : StorageOnly s t) : DataCacheOp s t.advance :=
  have hb := h.dataCacheOp
  ⟨⟨hb.rest.gprs, hb.rest.next, { hb.rest.control with }⟩, hb.cr, hb.reserve⟩

/-! ### Bytes of blocks -/

theorem dataByte_of_dLine (hm : t.mem = s.mem) {a : Word} (h : t.dLine (blockOf a) = s.dLine (blockOf a)) :
    t.dataByte a = s.dataByte a := view_congr (view_of_same h (by rw [hm])) rfl

/-- Where memory holds what the program sees of a block, it does so byte by byte. -/
theorem memGet_of_memBlock (h : memBlock t.mem b = s.view b) {a : Word} (ha : blockOf a = b) :
    memGet t.mem a.toNat = s.dataByte a := by
  subst ha
  rw [dataByte_view, ← h, memBlock_get]
  exact congrArg (memGet t.mem) (Nat.div_add_mod a.toNat 32).symm

/-! ### `dcbst` and `dcbf` (R438, R441) -/

/-- The way that held a flushed block is invalid and otherwise as it was. -/
theorem way_dFlush {k : Way} (h : s.dFind b = some k) :
    ((s.dFlush b).dset b).way k = { (s.dset b).way k with valid := false } := by
  simp only [State.dFlush, h, State.dset_setDset, if_true]
  cases k <;> rfl

/-- After a flush memory holds what the program sees of the block. -/
theorem memBlock_dFlush (h : Coh s) (hb : b < 2 ^ 27) : memBlock (s.dFlush b).mem b = s.view b := by
  obtain ⟨-, hview, hnone, -⟩ := dFlush_spec h hb
  have hv := hview b hb
  simpa only [State.view, hnone] using hv

/-- Settles O36: the line of the block is cleaned or flushed. -/
theorem flushBlocks : Obligations.FlushBlocks := by
  intro s ra rb p hp
  have hst : exec (.dcbst ra rb) s = done (s.dClean (blockOf p.ra)).busy := withBlock_ok hp _
  have hf : exec (.dcbf ra rb) s = done (s.dFlush (blockOf p.ra)).busy := withBlock_ok hp _
  have hb := blockOf_lt p.ra
  rw [hst, hf]
  refine ⟨completes_done ⟨(storageOnly_dClean ..).dataCacheOp, fun h => ?_⟩,
    completes_done ⟨(storageOnly_dFlush ..).dataCacheOp, fun h => ?_⟩⟩
  · obtain ⟨-, hview, hmem, hfind, hclean⟩ := dClean_spec h.coh hb
    exact ⟨dataByte_of_view hview, fun a => memGet_of_memBlock hmem, hfind _, hclean⟩
  · obtain ⟨-, hview, hnone, -⟩ := dFlush_spec h.coh hb
    exact ⟨dataByte_of_view hview, fun a => memGet_of_memBlock (memBlock_dFlush h.coh hb), (dFind_none_iff ..).2 hnone,
      fun k => way_dFlush⟩

/-! ### `dcbi` and `dccci` (R439, R444) -/

theorem fillBufferFor_dropFillBuffer (s : State) (b : Nat) : (s.dropFillBuffer b).fillBufferFor b = none := by
  unfold State.dropFillBuffer
  split
  · rename_i f hf
    split
    · rfl
    · rename_i hne
      simp only [State.fillBufferFor, hf, if_neg hne]
  · rename_i hf
    simp only [State.fillBufferFor, hf]

theorem DSet.line_invalid (x : DSet) (tag : BitVec 20) : x.invalid.line tag = none := rfl

theorem mem_dInvalidate (s : State) (b : Nat) : (s.dInvalidate b).mem = s.mem := by
  unfold State.dInvalidate
  split <;> rfl

/-- A class made invalid: the array with that class replaced, memory as before. -/
theorem dInvalidateClass_arrays (s : State) (i : Nat) :
    (s.dInvalidateClass i).dcache = dsetPut s.dcache i (dsetGet s.dcache i).invalid ∧
      (s.dInvalidateClass i).mem = s.mem := by
  unfold State.dInvalidateClass State.dropFillBufferClass
  split
  · split <;> exact ⟨rfl, rfl⟩
  · exact ⟨rfl, rfl⟩

/-- What is left of a class made invalid: nothing of its blocks, every other block's line. -/
theorem dLine_dInvalidateClass (s : State) (i b : Nat) :
    (s.dInvalidateClass i).dLine b = if dIndex b = i then none else s.dLine b := by
  rw [State.dLine_eq, State.dset, (dInvalidateClass_arrays s i).1, dsetGet_put]
  split
  · exact DSet.line_invalid ..
  · exact (State.dLine_eq s b).symm

/-- `dcbi`: the block has no line and nothing in the fill buffer, memory and every other block are as before. -/
theorem dInvalidate_drop_spec (hd : ∀ i, (dsetGet s.dcache i).distinct) (x : Word) :
    ((s.dInvalidate (blockOf x)).dropFillBuffer (blockOf x)).dFind (blockOf x) = none ∧
      ∀ a, blockOf a ≠ blockOf x →
        ((s.dInvalidate (blockOf x)).dropFillBuffer (blockOf x)).dataByte a = s.dataByte a := by
  obtain ⟨hmem, hnone, hothers⟩ := dInvalidate_spec hd (blockOf_lt x)
  obtain ⟨hline, -, -⟩ := dropFillBuffer_lines (s.dInvalidate (blockOf x)) (blockOf x) (blockOf x)
  refine ⟨(dFind_none_iff ..).2 (hline.trans hnone), fun a ha => ?_⟩
  obtain ⟨-, -, hview⟩ := dropFillBuffer_lines (s.dInvalidate (blockOf x)) (blockOf x) (blockOf a)
  exact (view_congr hview rfl).trans (dataByte_of_dLine hmem (hothers _ (blockOf_lt a) ha))

/-- What `dccci` does where it completes: the class of the address has no line, the block addressed nothing in the fill
buffer, and memory and every other class are as before. -/
def InvalidatesClass (s : State) (ea : Word) (p : Page) (t : State) : Prop :=
  DataCacheOp s t ∧ t.mem = s.mem ∧ t.fillBufferFor (blockOf p.ra) = none ∧
    (∀ a : Word, ea.toNat / 32 % 128 = a.toNat / 32 % 128 → t.dFind (blockOf a) = none) ∧
    ∀ a : Word, ea.toNat / 32 % 128 ≠ a.toNat / 32 % 128 → t.dataByte a = s.dataByte a

/-- The state of a `dccci` that completes. -/
def State.dccciDone (s : State) (ea : Word) (p : Page) : State :=
  (s.dInvalidateClass (dIndex (blockOf ea))).dropFillBuffer (blockOf p.ra)

/-- Free values drawn before it make no difference. -/
theorem invalidatesClass_dccciDone (s : State) (n : Nat) (ea : Word) (p : Page) :
    InvalidatesClass s ea p (State.dccciDone { s with draws := n } ea p).advance := by
  let u : State := { s with draws := n }
  let v := u.dInvalidateClass (dIndex (blockOf ea))
  have hu : StorageOnly s u := rfl
  have hv : StorageOnly u v := storageOnly_dInvalidateClass ..
  have hm : v.mem = s.mem := (dInvalidateClass_arrays ..).2
  have hlines := dropFillBuffer_lines v (blockOf p.ra)
  refine ⟨((hu.trans hv).trans (storageOnly_dropFillBuffer v _)).dataCacheOp_advance, ?_,
    fillBufferFor_dropFillBuffer .., fun a ha => ?_, fun a ha => ?_⟩
  · exact (hlines 0).2.1.trans hm
  · have hnone : v.dLine (blockOf a) = none := (dLine_dInvalidateClass ..).trans (if_pos ha.symm)
    exact (dFind_none_iff ..).2 ((hlines _).1.trans hnone)
  · have hline : v.dLine (blockOf a) = s.dLine (blockOf a) := (dLine_dInvalidateClass ..).trans (if_neg (Ne.symm ha))
    exact (view_congr (hlines _).2.2 rfl).trans (dataByte_of_dLine hm hline)

/-- The Data Storage interrupt, whole. Free values drawn before it make no difference. -/
theorem takeDataStorage_spec (s : State) (n : Nat) (ea : Word) (store zone u0 : Bool) :
    EntersNonCritical s (takeException (.dataStorage ea store zone u0) { s with draws := n }) 0x0300 s.pc
      (s.keptSyndrome ||| (flagAt 8 store ||| flagAt 9 zone ||| flagAt 16 u0)) ea := by
  have hkept : ∀ r, r ≠ .dear → (State.setSpr { s with draws := n } .dear ea).spr r = s.spr r := fun r hr =>
    State.spr_setSpr_ne _ ea hr
  have hdear : (State.setSpr { s with draws := n } .dear ea).spr .dear = ea :=
    (State.spr_setSpr_self _ .dear ea).trans BitVec.and_allOnes
  have hw : (flagAt 8 store ||| flagAt 9 zone ||| flagAt 16 u0) &&& Spr.mask .esr =
      flagAt 8 store ||| flagAt 9 zone ||| flagAt 16 u0 := by
    cases store <;> cases zone <;> cases u0 <;> decide
  have h := takeInterrupt_setSyndrome_spec .dataStorage s.pc (State.setSpr { s with draws := n } .dear ea) rfl hw
  rw [hdear, State.keptSyndrome, hkept .esr (by decide)] at h
  exact { h with
    pc := h.pc.trans (congrArg (fun v : Word => (v &&& 0xFFFF0000) ||| 0x0300) (hkept .evpr (by decide)))
    sprs := fun r h0 h1 he hd => (h.sprs r h0 h1 he hd).trans (hkept r hd) }

theorem execDcbi_ok (hu : s.userMode = false) (hp : locate s (s.eaX ra rb) true = .ok p) :
    execDcbi ra rb s = done ((s.dInvalidate (blockOf p.ra)).dropFillBuffer (blockOf p.ra)) :=
  (privileged_supervisor hu _).trans (withBlock_ok hp _)

theorem execDccci_page (hu : s.userMode = false) (hp : lookupData s (s.eaX ra rb) = .page p) :
    execDccci ra rb s =
      if p.writeDenied s.msrPR then
        if s.freshFlag then .next (takeException (.dataStorage (s.eaX ra rb) true false false) s.drawn)
        else done (s.drawn.dccciDone (s.eaX ra rb) p)
      else done (s.dccciDone (s.eaX ra rb) p) :=
  (privileged_supervisor hu _).trans (missOnly_page hp _)

/-- Settles O37: the line of the block or the class is made invalid, and the fill buffer drops the block. -/
theorem invalidateBlocks : Obligations.InvalidateBlocks := by
  intro s ra rb hu
  refine ⟨fun p hp => ?_, fun p hp hw => ?_, fun p hp hw => ?_⟩
  · have hrest := (storageOnly_dInvalidate s (blockOf p.ra)).trans (storageOnly_dropFillBuffer _ (blockOf p.ra))
    have hmem := (dropFillBuffer_lines (s.dInvalidate (blockOf p.ra)) (blockOf p.ra) 0).2.1
    exact ⟨_, execDcbi_ok hu hp, hrest.dataCacheOp_advance, hmem.trans (mem_dInvalidate ..),
      fillBufferFor_dropFillBuffer .., fun hd => dInvalidate_drop_spec hd p.ra⟩
  · have hexec := (execDccci_page hu hp).trans (if_neg (Bool.eq_false_iff.1 hw))
    exact ⟨_, hexec, invalidatesClass_dccciDone s s.draws _ p⟩
  · have hexec := (execDccci_page hu hp).trans (if_pos hw)
    cases hf : s.freshFlag with
    | true => exact ⟨_, hexec.trans (if_pos hf), .inr (takeDataStorage_spec s (s.draws + 1) _ true false false)⟩
    | false =>
      exact ⟨_, hexec.trans (if_neg (Bool.eq_false_iff.1 hf)), .inl (invalidatesClass_dccciDone s (s.draws + 1) _ p)⟩

/-! ### `dcbz` (R440) -/

/-- Settles O38: the block's line is zeroed. -/
theorem zeroBlock : Obligations.ZeroBlock := by
  intro s ra rb p hp hi hw
  have hexec : exec (.dcbz ra rb) s = done (s.dZero (blockOf p.ra)).busy := by
    refine (withBlock_ok hp _).trans ?_
    simp only [hw, hi, Bool.false_eq_true, if_false]
  exact ⟨_, hexec, (storageOnly_dZero ..).dataCacheOp, fun h =>
    ⟨dataByte_dZero h.coh p.ra, (dZero_spec h.coh (blockOf_lt p.ra)).2⟩⟩

/-! ### `dcbt`, `dcbtst` and `dcba` (R442, R443, R446) -/

/-- A line written where no way held its tag is found in its way. -/
theorem DSet.find_setWay_touch {x : DSet} {tag : BitVec 20} (h : x.find tag = none) (k : Way) (dirty : Bool)
    (bytes : Vector Byte 32) : ((x.setWay k ⟨true, dirty, tag, bytes⟩).touch k).find tag = some k := by
  have hw : (⟨true, dirty, tag, bytes⟩ : DWay).holds tag = true := beq_self_eq_true tag
  cases k with
  | a => simp [DSet.find, DSet.setWay, DSet.touch, hw]
  | b =>
    have ha : x.a.holds tag = false := DSet.find_none h .a
    simp [DSet.find, DSet.setWay, DSet.touch, ha, hw]

theorem dFind_dEstablish (h : s.dFind b = none) (bytes : Vector Byte 32) (dirty : Bool) :
    (s.dEstablish b bytes dirty).dFind b = some (s.dset b).victim := by
  simp only [State.dEstablish, State.dFind, State.dset_setDset, if_true]
  exact DSet.find_setWay_touch h ..

/-- A line fill brings the block in, whatever answers at its addresses. -/
theorem isSome_dFind_dFill (h : s.dFind b = none) : ((s.dFill b).dFind b).isSome = true :=
  Option.isSome_of_eq_some (dFind_dEstablish ((dFind_afterRead ..).trans h) _ false)

theorem dataTouch_ok (h : locate s ea false = .ok p) : dataTouch s ea =
    if p.attrs.i || (s.dFind (blockOf p.ra)).isSome then done s else done (s.dFill (blockOf p.ra)).busy :=
  ifAllowed_ok h _

/-- A touch of cachable storage: the block is in the cache, and coherent storage reads as before. -/
theorem dataTouch_cachable (h : locate s ea false = .ok p) (hi : p.attrs.i = false) :
    Completes (dataTouch s ea) fun t => DataCacheOp s t ∧ (t.dFind (blockOf p.ra)).isSome = true ∧
      (s.coherent → ∀ a, t.dataByte a = s.dataByte a) := by
  rw [dataTouch_ok h, hi, Bool.false_or]
  cases hf : s.dFind (blockOf p.ra) with
  | some k =>
    exact ⟨_, rfl, (StorageOnly.refl s).dataCacheOp_advance, Option.isSome_of_eq_some hf, fun _ _ => rfl⟩
  | none =>
    refine ⟨_, rfl, (storageOnly_dFill ..).dataCacheOp, isSome_dFind_dFill hf, fun hc => ?_⟩
    obtain ⟨-, hview, -⟩ := dFill_spec hc.coh hf (blockOf_lt p.ra)
    exact dataByte_of_view hview

theorem execDcba_ok (h : locate s (s.eaX ra rb) true = .ok p) : execDcba ra rb s =
    if p.attrs.i || p.attrs.w then done s
    else done ((s.dAllocate (blockOf p.ra)).dropFillBuffer (blockOf p.ra)).busy := ifAllowed_ok h _

/-- Settles O39: a touch fills the line of a block that is not cached, `dcba` allocates it. -/
theorem touchBlocks : Obligations.TouchBlocks := by
  intro s ra rb
  refine ⟨fun i hi => ?_, fun e he => ⟨_, ifAllowed_exc he _, advance_spec s⟩, fun p hp => ⟨fun hno => ?_, fun hi hw => ?_⟩⟩
  · have hexec : exec i s = dataTouch s (s.eaX ra rb) := by
      obtain rfl | rfl : i = .dcbt ra rb ∨ i = .dcbtst ra rb := by simpa using hi
      · rfl
      · rfl
    rw [hexec]
    refine ⟨fun e he => ⟨_, ifAllowed_exc he _, advance_spec s⟩, fun p hp => ⟨fun hi => ?_, dataTouch_cachable hp⟩⟩
    exact ⟨_, (dataTouch_ok hp).trans (if_pos (by simp [hi])), advance_spec s⟩
  · refine ⟨_, (execDcba_ok hp).trans (if_pos ?_), advance_spec s⟩
    rwa [Bool.or_eq_true]
  · have hexec : exec (.dcba ra rb) s = _ := (execDcba_ok hp).trans (if_neg (by simp [hi, hw]))
    have hrest := (storageOnly_dAllocate s (blockOf p.ra)).trans (storageOnly_dropFillBuffer _ (blockOf p.ra))
    refine ⟨_, hexec, hrest.dataCacheOp, fun h => ?_⟩
    obtain ⟨hview, w, hline, hdirty⟩ := dAllocate_spec h.coh (blockOf_lt p.ra)
    have hdrop := dropFillBuffer_lines (s.dAllocate (blockOf p.ra)) (blockOf p.ra)
    exact ⟨fun a ha => view_congr ((hdrop _).2.2.trans (hview _ (blockOf_lt a) ha)) rfl, w,
      (hdrop _).1.trans hline, hdirty⟩

end Sys2Proof.Machine
end

section
/-! SUPPORT. The instruction cache instructions: `icbi`, `iccci`, `icbt` (46_cache_management.md R432 to R434). -/

namespace Sys2Proof.Machine

variable {s t : State} {ea : Word} {ra rb : Reg} {p : Page}

/-! ### What they leave alone -/

/-- A state but for the instruction cache, the old fetch contexts, the mark of a pending fill and the free values. -/
def State.besidesICache (s : State) : State :=
  { s with icache := [], oldContexts := [], icbtPending := false, draws := 0 }

/-- Two states that differ in those alone. -/
def ICacheOnly (s t : State) : Prop := t.besidesICache = s.besidesICache

/-- Any part of the state that those are not part of, after such an operation. -/
theorem ICacheOnly.part {α : Sort _} (h : ICacheOnly s t) (f : State → α) : f t.besidesICache = f s.besidesICache :=
  congrArg f h

theorem FetchOnly.iCacheOnly (h : FetchOnly s t) : ICacheOnly s t := h.part State.besidesICache

/-- An instruction cache operation that ends an instruction, whole. -/
theorem ICacheOnly.onlyICache (h : ICacheOnly s t) : OnlyICache s t.advance where
  gprs r := h.part (·.gpr r)
  next := congrArg (· + 4) (h.part State.pc)
  cr := h.part State.cr
  msr := h.part State.msr
  sprs r := h.part (·.spr r)
  tb := h.part State.tb
  pitReload := h.part State.pitReload
  reserve := h.part State.reserve
  tlb := h.part State.tlb
  dcrs := h.part State.dcrs
  memMap := h.part State.memMap
  mem := h.part State.mem
  dcache := h.part State.dcache
  fillBuffer := h.part State.fillBuffer
  bytes a := h.part (·.dataByte a)

/-! ### `icbi` (R432) -/

/-- A class that lost a tag does not hold it. -/
theorem ISet.find_drop (x : ISet) (tag : BitVec 22) : (x.drop tag).find tag = none := by
  have hway : ∀ w : IWay, (if w.holds tag then { w with valid := false } else w).holds tag = false := by
    intro w
    split
    · rfl
    · rename_i h
      exact Bool.eq_false_iff.2 h
  simp only [ISet.find, ISet.drop, hway, Bool.false_eq_true, if_false]

/-- Classes dropped one after the other do not bring a tag back. -/
theorem find_iDropAll {tag : BitVec 22} {c : List (Nat × ISet)} {j : Nat} (h : (isetGet c j).find tag = none) (low : Nat)
    (l : List (Nat × ISet)) : (isetGet (iDropAll tag low c l) j).find tag = none := by
  induction l generalizing c with
  | nil => exact h
  | cons e l ih =>
    refine ih ?_
    split
    · rw [isetGet_put]
      split
      · exact ISet.find_drop ..
      · exact h
    · exact h

theorem find_iDropBlock (s : State) (ea x : Word) :
    (isetGet (s.iDropBlock ea x).icache (iIndex ea)).find (iTag x) = none := by
  have h : (isetGet (s.setIset (iIndex ea) ((isetGet s.icache (iIndex ea)).drop (iTag x))).icache (iIndex ea)).find
      (iTag x) = none := by
    rw [State.icache_setIset, isetGet_put, if_pos rfl]
    exact ISet.find_drop ..
  unfold State.iDropBlock
  dsimp only
  split
  · exact find_iDropAll h ..
  · exact h

theorem fetchOnly_iDropBlock (s : State) (ea x : Word) : FetchOnly s (s.iDropBlock ea x) := by
  unfold State.iDropBlock
  dsimp only
  split <;> rfl

/-- Once the window is open, an operation on the array alone leaves it open and the rest of the machine as it was. -/
theorem FetchOnly.of_openWindow (h : FetchOnly s.openWindow t) :
    OnlyICache s t.advance ∧ t.advance.oldContexts = s.fetchContext :: s.oldContexts :=
  ⟨ICacheOnly.onlyICache h.iCacheOnly, h.part State.oldContexts⟩

/-! ### `iccci` (R434) -/

/-- Both ways of a class are invalid. -/
def ISet.allInvalid (x : ISet) : Prop := x.a.valid = false ∧ x.b.valid = false

theorem isetGet_of_not_mem {c : List (Nat × ISet)} {j : Nat} (h : j ∉ c.map (·.1)) : isetGet c j = ISet.empty := by
  induction c with
  | nil => rfl
  | cons e c ih =>
    rw [List.map_cons, List.mem_cons, not_or] at h
    exact (if_neg (Ne.symm h.1)).trans (ih h.2)

/-- Every class that is listed, or invalid already, ends invalid. -/
theorem allInvalid_iInvalidateAll {c l : List (Nat × ISet)} {j : Nat} (h : j ∈ l.map (·.1) ∨ (isetGet c j).allInvalid) :
    (isetGet (iInvalidateAll c l) j).allInvalid := by
  induction l generalizing c with
  | nil => exact h.resolve_left List.not_mem_nil
  | cons e l ih =>
    refine ih ?_
    rw [isetGet_put]
    by_cases hj : j = e.1
    · rw [if_pos hj]
      exact .inr ⟨rfl, rfl⟩
    · rw [if_neg hj]
      exact h.imp_left fun hm => (List.mem_cons.1 hm).resolve_left hj

/-- The whole array made invalid: the classes that are not listed are empty. -/
theorem iInvalidateAll_self (c : List (Nat × ISet)) (j : Nat) : (isetGet (iInvalidateAll c c) j).allInvalid := by
  refine allInvalid_iInvalidateAll ((em _).imp_right fun h => ?_)
  rw [isetGet_of_not_mem h]
  exact ⟨rfl, rfl⟩

/-! ### `icbt` (R433) -/

theorem blockErrs_eq_false {map : List Region} {b : Nat} (h : ∀ a, a / 32 = b → regionAt map a ≠ some .unbacked) :
    blockErrs map b = false := by
  refine List.any_eq_false.2 fun a ha => ?_
  obtain ⟨i, hi, rfl⟩ := List.mem_map.1 ha
  have hblock : (32 * b + i) / 32 = b := by
    have := List.mem_range.1 hi
    omega
  simpa [isUnbacked] using h _ hblock

theorem icache_afterFetch (s : State) (map : List Region) (ras : List Nat) : (s.afterFetch map ras).icache = s.icache := by
  unfold State.afterFetch
  split <;> rfl

/-- A line fill from where something answers at all addresses leaves the line in its class. -/
theorem find_iFill {map : List Region} {x : Word} (hb : blockErrs map (blockOf x) = false)
    (hn : (isetGet s.icache (iIndex ea)).find (iTag x) = none) (e : Bool) :
    ((isetGet (s.iFill map ea x e).icache (iIndex ea)).find (iTag x)).isSome = true := by
  simp only [State.iFill, hb, Bool.false_eq_true, if_false, State.icache_setIset, isetGet_put, if_true]
  exact Option.isSome_of_eq_some (ISet.find_setWay_touch hn ..)

/-- A touch changes the instruction cache alone, and leaves the line there where something answers at all its
addresses. -/
theorem iTouch_spec (s : State) (ea : Word) (p : Page) : ICacheOnly s (s.iTouch ea p) ∧
    ((∀ a, a / 32 = blockOf p.ra → regionAt s.memMap a ≠ some .unbacked) →
      ((isetGet (s.iTouch ea p).icache (iIndex ea)).find (iTag p.ra)).isSome = true) := by
  unfold State.iTouch
  split
  · rename_i hf
    exact ⟨rfl, fun _ => hf⟩
  · rename_i hf
    have hn : (isetGet s.icache (iIndex ea)).find (iTag p.ra) = none := by simpa using hf
    exact ⟨(fetchOnly_iFill s s.memMap ea p.ra p.attrs.e).iCacheOnly, fun hb => find_iFill (blockErrs_eq_false hb) hn _⟩

theorem execIcbt_page (hu : s.userMode = false) (hp : lookupData s (s.eaX ra rb) = .page p) : execIcbt ra rb s =
    if p.zoneDenied s.msrPR || p.attrs.i then done s else done (s.iTouch (s.eaX ra rb) p) :=
  (privileged_supervisor hu _).trans (missOnly_page hp _)

theorem execIccci_page (hu : s.userMode = false) (hp : lookupData s (s.eaX ra rb) = .page p) :
    execIccci ra rb s = done { s.openWindow with icache := iInvalidateAll s.icache s.icache } :=
  (privileged_supervisor hu _).trans (missOnly_page hp _)

/-- Settles O40: the class loses the block, the array every line; a touch fills the line. -/
theorem instructionCacheOps : Obligations.InstructionCacheOps := by
  intro s ra rb
  refine ⟨fun p hp => ?_, fun hu p hp => ⟨?_, fun hno => ?_, fun hz hi => ?_⟩⟩
  · have hexec : exec (.icbi ra rb) s = done (s.openWindow.iDropBlock (s.eaX ra rb) p.ra) := withBlock_ok hp _
    obtain ⟨honly, hwindow⟩ := (fetchOnly_iDropBlock s.openWindow (s.eaX ra rb) p.ra).of_openWindow
    exact ⟨_, hexec, honly, hwindow, find_iDropBlock ..⟩
  · have hfetch : FetchOnly s.openWindow { s.openWindow with icache := iInvalidateAll s.icache s.icache } := rfl
    obtain ⟨honly, hwindow⟩ := hfetch.of_openWindow
    exact ⟨_, execIccci_page hu hp, honly, hwindow, iInvalidateAll_self s.icache⟩
  · exact ⟨_, (execIcbt_page hu hp).trans (if_pos ((Bool.or_eq_true ..).mpr hno)), advance_spec s⟩
  · have hexec : exec (.icbt ra rb) s = _ := (execIcbt_page hu hp).trans (if_neg (by simp [hz, hi]))
    obtain ⟨honly, hfind⟩ := iTouch_spec s (s.eaX ra rb) p
    exact ⟨_, hexec, honly.onlyICache, hfind⟩

end Sys2Proof.Machine
end

section
/-! SUPPORT. The cache arrays read by `icread` and `dcread` (46_cache_management.md R435, R437, R445, R447). -/

namespace Sys2Proof.Machine

variable {s : State} {rt ra rb : Reg} {p : Page}

/-! ### The way and the word (R435) -/

theorem ISet.way_debugWay (x : ISet) (s : State) :
    x.way s.debugWay = if bitAt (s.spr .ccr0) 31 then x.b else x.a := by
  unfold State.debugWay
  split <;> rfl

theorem DSet.way_debugWay (x : DSet) (s : State) :
    x.way s.debugWay = if bitAt (s.spr .ccr0) 31 then x.b else x.a := by
  unfold State.debugWay
  split <;> rfl

/-- A word of a line, byte by byte. -/
theorem lineWord_eq (w : DWay) (n : Fin 8) :
    lineWord w n = wordOf ((List.range 4).map fun k => (w.bytes[4 * n.val + k]?).getD 0) := by
  have hfull : 4 - (w.bytes.toList.drop (4 * n.val)).length = 0 := by
    rw [List.length_drop, Vector.length_toList]
    omega
  have hfilled : filledWord (w.bytes.toList.drop (4 * n.val)) = lineWord w n := by
    rw [filledWord, hfull, List.replicate_zero, List.append_nil]
    rfl
  rw [← hfilled, filledWord_eq]
  simp only [List.getElem?_drop, Vector.getElem?_toList]

/-! ### Tag words (R437, R445) -/

theorem getLsbD_flagAt {b : Nat} (hb : b < 32) (v : Bool) (j : Nat) :
    (flagAt b v).getLsbD j = (v && decide (j = 31 - b)) := by
  cases v with
  | false => exact BitVec.getLsbD_zero
  | true => exact getLsbD_bitMask b j hb

theorem getLsbD_fieldTo (w : Word) (c : Nat) {n j : Nat} (hj : j < n) :
    (fieldTo w c n).getLsbD j = w.getLsbD (31 - c + j) := by
  simp only [fieldTo, BitVec.getLsbD_setWidth, BitVec.getLsbD_ushiftRight, hj, decide_true, Bool.true_and]

theorem getLsbD_iTagWord (x : ISet) (k : Way) (j : Nat) : (iTagWord x k).getLsbD j =
    ((if j < 10 then false else (x.way k).tag.getLsbD (j - 10)) || ((x.way k).valid && decide (j = 4)) ||
      (x.lru && decide (j = 0))) := by
  simp only [iTagWord, BitVec.getLsbD_or, BitVec.getLsbD_append, BitVec.ofNat_eq_ofNat, BitVec.getLsbD_zero,
    getLsbD_flagAt (show 27 < 32 by decide), getLsbD_flagAt (show 31 < 32 by decide), Nat.reduceSub]

theorem getLsbD_dTagWord (x : DSet) (k : Way) (j : Nat) : (dTagWord x k).getLsbD j =
    ((if j < 12 then false else (x.way k).tag.getLsbD (j - 12)) || ((x.way k).dirty && decide (j = 5)) ||
      ((x.way k).valid && decide (j = 4)) || (x.lru && decide (j = 0))) := by
  simp only [dTagWord, BitVec.getLsbD_or, BitVec.getLsbD_append, BitVec.ofNat_eq_ofNat, BitVec.getLsbD_zero,
    getLsbD_flagAt (show 26 < 32 by decide), getLsbD_flagAt (show 27 < 32 by decide),
    getLsbD_flagAt (show 31 < 32 by decide), Nat.reduceSub]

/-- ICDBDR with a tag word, field by field. -/
theorem iTagWord_fields (x : ISet) (k : Way) : fieldTo (iTagWord x k) 21 22 = (x.way k).tag ∧
    bitAt (iTagWord x k) 27 = (x.way k).valid ∧ bitAt (iTagWord x k) 31 = x.lru ∧ iTagWord x k &&& 0x000003EE = 0 := by
  refine ⟨BitVec.eq_of_getLsbD_eq fun j hj => ?_, ?_, ?_, BitVec.eq_of_getLsbD_eq fun j hj => ?_⟩
  · have hvalid : 10 + j ≠ 4 := by omega
    refine (getLsbD_fieldTo _ _ hj).trans ((getLsbD_iTagWord x k (10 + j)).trans ?_)
    simp [hvalid]
  · exact (getLsbD_iTagWord x k 4).trans (by simp)
  · exact (getLsbD_iTagWord x k 0).trans (by simp)
  · simp only [BitVec.getLsbD_and, getLsbD_iTagWord, BitVec.ofNat_eq_ofNat, BitVec.getLsbD_zero]
    by_cases hlow : j < 10
    · interval_cases j <;> simp
    · have hmask : (0x3EE#32).getLsbD j = false :=
        Nat.testBit_lt_two_pow ((by decide : 0x3EE < 2 ^ 10).trans_le (Nat.pow_le_pow_right (by decide) (not_lt.1 hlow)))
      rw [hmask, Bool.and_false]

/-- A read with free reserved bits keeps each stored bit. -/
theorem getLsbD_readMasked (s : State) (v : Word) {mask : Word} {j : Nat} (h : mask.getLsbD j = true) :
    (s.readMasked v mask).getLsbD j = v.getLsbD j := by
  have hand := congrArg (·.getLsbD j) (readMasked_and s v mask)
  simpa only [BitVec.getLsbD_and, h, Bool.and_true] using hand

theorem dTagMask_tag {j : Nat} (hj : j < 20) : dTagMask.getLsbD (12 + j) = true := by
  interval_cases j <;> decide

/-- RT with a tag word, field by field, whatever its reserved bits. -/
theorem readMasked_dTagWord_fields (s : State) (x : DSet) (k : Way) :
    let v := s.readMasked (dTagWord x k) dTagMask
    fieldTo v 19 20 = (x.way k).tag ∧ bitAt v 26 = (x.way k).dirty ∧ bitAt v 27 = (x.way k).valid ∧
      bitAt v 31 = x.lru := by
  refine ⟨BitVec.eq_of_getLsbD_eq fun j hj => ?_, ?_, ?_, ?_⟩
  · have hdirty : 12 + j ≠ 5 := by omega
    have hvalid : 12 + j ≠ 4 := by omega
    refine (getLsbD_fieldTo _ _ hj).trans ((getLsbD_readMasked s _ (dTagMask_tag hj)).trans ?_)
    rw [getLsbD_dTagWord]
    simp [hdirty, hvalid]
  · exact (getLsbD_readMasked s _ (by decide)).trans ((getLsbD_dTagWord ..).trans (by simp))
  · exact (getLsbD_readMasked s _ (by decide)).trans ((getLsbD_dTagWord ..).trans (by simp))
  · exact (getLsbD_readMasked s _ (by decide)).trans ((getLsbD_dTagWord ..).trans (by simp))

/-! ### `icread` and `dcread` -/

/-- What `icread` puts into ICDBDR. -/
def State.icreadValue (s : State) (ea : Word) : Word :=
  if s.debugTag then iTagWord (isetGet s.icache (iIndex ea)) s.debugWay
  else ((isetGet s.icache (iIndex ea)).way s.debugWay).words[iWord ea]

/-- The state of an `icread` that completes. -/
def State.icreadDone (s : State) (ea : Word) : State :=
  { s.setSpr .icdbdr (s.icreadValue ea) with icdbdrPending := true, icdbdrTag := s.debugTag }

theorem icdbdr_icreadDone (s : State) (ea : Word) : (s.icreadDone ea).spr .icdbdr = s.icreadValue ea :=
  (State.spr_setSpr_self s .icdbdr _).trans BitVec.and_allOnes

theorem execIcread_page (hu : s.userMode = false) (hp : lookupData s (s.eaX ra rb) = .page p) :
    execIcread ra rb s = done (s.icreadDone (s.eaX ra rb)) :=
  (privileged_supervisor hu _).trans (missOnly_page hp _)

theorem execDcread_page (hu : s.userMode = false) (hp : lookupData s (s.eaX ra rb) = .page p)
    (ha : s.eaX ra rb &&& 3 = 0) : execDcread rt ra rb s =
      let x := dsetGet s.dcache (dIndex (blockOf (s.eaX ra rb)))
      if s.debugTag then
        done ((s.afterMasked dTagMask).setGpr rt (s.readMasked (dTagWord x s.debugWay) dTagMask))
      else done (s.setGpr rt (lineWord (x.way s.debugWay) (iWord (s.eaX ra rb)))) :=
  (privileged_supervisor hu _).trans ((missOnly_page hp _).trans (if_neg fun hm => misaligned_iff.1 hm ha))

/-- Settles O41: the value read is a word of the line, or the tag word, field by field. -/
theorem cacheReads : Obligations.CacheReads := by
  intro s rt ra rb p hu hp ea n x iw y dw tags
  have hiw : x.way s.debugWay = iw := ISet.way_debugWay x s
  have hdw : y.way s.debugWay = dw := DSet.way_debugWay y s
  refine ⟨⟨_, execIcread_page hu hp, fun ht => ?_, fun ht => ?_, rfl, fun r hr => State.spr_setSpr_ne s _ hr,
    fun _ => rfl, rfl, rfl, keepsSystem_of rfl rfl rfl rfl rfl rfl rfl rfl rfl rfl⟩, fun ha => ?_⟩
  · have hv : (s.icreadDone ea).spr .icdbdr = (x.way s.debugWay).words[iWord ea] :=
      (icdbdr_icreadDone s ea).trans (if_neg (Bool.eq_false_iff.1 ht))
    rw [hiw] at hv
    exact (Vector.getElem?_eq_getElem (iWord ea).isLt).trans (congrArg some hv.symm)
  · have hv : (s.icreadDone ea).spr .icdbdr = iTagWord x s.debugWay := (icdbdr_icreadDone s ea).trans (if_pos ht)
    have hfields := iTagWord_fields x s.debugWay
    rw [← hv, hiw] at hfields
    exact hfields
  · have hexec : exec (.dcread rt ra rb) s = _ := execDcread_page hu hp ha
    cases ht : tags with
    | true =>
      have hw := writesGpr_afterMasked s dTagMask rt (s.readMasked (dTagWord y s.debugWay) dTagMask)
      have hfields := readMasked_dTagWord_fields s y s.debugWay
      dsimp only at hfields
      rw [← hw.result, hdw] at hfields
      exact ⟨_, hexec.trans (if_pos ht), { hw with result := rfl }, nofun, fun _ => hfields⟩
    | false =>
      have hw := setGpr_spec s rt (lineWord (y.way s.debugWay) (iWord ea))
      have hv := hw.result.trans ((congrArg (lineWord · (iWord ea)) hdw).trans (lineWord_eq ..))
      exact ⟨_, hexec.trans (if_neg (Bool.eq_false_iff.1 ht)), { hw with result := rfl }, fun _ => hv, nofun⟩

end Sys2Proof.Machine
end

section
/-! SUPPORT. Moves to and from the MSR and the returns from interrupts (47_interrupt_control_tlb.md R461 to R466). -/

namespace Sys2Proof.Machine

variable {s : State}

/-! ### Instructions that complete -/

/-- A privileged instruction completes in supervisor mode as what it guards does. -/
theorem completes_privileged (hu : s.userMode = false) {k : Result} {P : State → Prop} (h : Completes k P) :
    Completes (privileged s k) P := (privileged_supervisor hu k).symm ▸ h

/-! ### Writing the MSR -/

theorem and_bitMask (w : Word) {b : Nat} (hb : b < 32) : w &&& bitMask b = flagAt b (bitAt w b) := by
  refine BitVec.eq_of_getLsbD_eq fun j _ => ?_
  rw [BitVec.getLsbD_and, getLsbD_bitMask b j hb, getLsbD_flagAt hb]
  by_cases h : j = 31 - b
  · rw [h]
    rfl
  · simp [h]

/-- Writing one bit is clearing it and setting it as asked. -/
theorem withBit_eq (w : Word) {b : Nat} (hb : b < 32) (v : Bool) :
    withBit w b v = (w &&& ~~~bitMask b) ||| flagAt b v := by
  refine eq_of_bitAt _ _ fun c hc => ?_
  have hm : ∀ u, bitAt (flagAt b u) c = (u && decide (c = b)) := fun u => by
    have he : (31 - c = 31 - b) ↔ c = b := by omega
    rw [bitAt, getLsbD_flagAt hb, decide_eq_decide.2 he]
  have hone : bitAt (bitMask b) c = decide (c = b) := (hm true).trans (Bool.true_and _)
  rw [bitAt_withBit w b c v hb hc, bitAt_or, bitAt_and, bitAt_not, hone, hm]
  by_cases h : c = b <;> simp [h]

/-- A write of the MSR, whatever becomes of the old contexts and of the interval `wrtee` opens. -/
theorem writesMsr_setMsr (s : State) (windows : List FetchContext) (n : Nat) (v : Word) :
    WritesMsr s ({ s.setMsr v with oldContexts := windows, eeWindow := n } : State).advance (v &&& msrMask) :=
  ⟨rfl, rfl, fun _ => rfl, rfl, ⟨fun _ => rfl, rfl, rfl, rfl, fun _ => rfl⟩, ⟨rfl, rfl, rfl⟩⟩

/-- `wrtee` and `wrteei` write EE, bit 16, alone. -/
theorem writesMsr_writeEE (s : State) (v : Bool) :
    WritesMsr s (s.writeEE v).advance (((s.msr &&& ~~~0x8000) ||| flagAt 16 v) &&& msrMask) :=
  withBit_eq s.msr (by decide : 16 < 32) v ▸ writesMsr_setMsr s s.oldContexts _ (withBit s.msr 16 v)

theorem returns_returnFrom (s : State) (addr msr : Word) : Returns s (returnFrom addr msr s) addr msr :=
  ⟨rfl, rfl, fun _ => rfl, rfl, ⟨fun _ => rfl, rfl, rfl, rfl, fun _ => rfl⟩, ⟨rfl, rfl, rfl⟩, rfl, rfl⟩

/-- Settles O42. -/
theorem msrMovesAndReturns : Obligations.MsrMovesAndReturns := by
  intro s r e hu
  have hread := writesGpr_afterMasked s msrMask r (s.readMasked s.msr msrMask)
  refine ⟨completes_privileged hu (completes_done ⟨{ hread with result := rfl }, ?_⟩),
    completes_privileged hu (completes_done (writesMsr_setMsr s _ 0 (s.gpr r))),
    completes_privileged hu (completes_done ?_), completes_privileged hu (completes_done (writesMsr_writeEE s e)),
    completes_privileged hu ⟨_, rfl, returns_returnFrom ..⟩, completes_privileged hu ⟨_, rfl, returns_returnFrom ..⟩⟩
  · rw [hread.result]
    exact readMasked_and ..
  · have hee : s.gpr r &&& 0x8000 = flagAt 16 (bitAt (s.gpr r) 16) := and_bitMask (s.gpr r) (b := 16) (by decide)
    rw [hee]
    exact writesMsr_writeEE s _

end Sys2Proof.Machine
end

section
/-! SUPPORT. Synchronisation, the system call and the traps (48_processor_management.md R491 to R493, R502 to R504). -/

namespace Sys2Proof.Machine

variable {s : State}

theorem onlyAdvances_contextSync (s : State) : OnlyAdvances s s.contextSync.advance :=
  ⟨fun _ => rfl, rfl, rfl, fun _ => rfl, keepsSystem_of rfl rfl rfl rfl rfl rfl rfl rfl rfl rfl⟩

theorem onlyAdvances_complete (s : State) : OnlyAdvances s s.complete.advance :=
  ⟨fun _ => rfl, rfl, rfl, fun _ => rfl, keepsSystem_of rfl rfl rfl rfl rfl rfl rfl rfl rfl rfl⟩

/-- The bus error reported once every write of the core has arrived. -/
theorem busError_arrived_iff (s : State) : (s.arrived s.unsettled).busError = true ↔ errsOnArrival s := by
  simp [errsOnArrival, isUnbacked]

/-- Settles O46: both `sync` and `eieio` leave the completed state. -/
theorem synchronization : Obligations.Synchronization := by
  refine fun s => ⟨completes_done ⟨onlyAdvances_contextSync s, rfl, rfl, rfl, rfl, rfl, rfl⟩, fun i hi => ?_⟩
  have hexec : exec i s = done s.complete := by
    obtain rfl | rfl : i = .sync ∨ i = .eieio := by simpa using hi
    · rfl
    · rfl
  rw [hexec]
  exact completes_done ⟨onlyAdvances_complete s, rfl, rfl, rfl, rfl, rfl, rfl, rfl, busError_arrived_iff s⟩

theorem trapHolds_iff (tocond : BitVec 5) (a b : Word) : trapHolds tocond a b = true ↔ trapCondition tocond a b := by
  simp only [trapHolds, trapCondition, Bool.or_eq_true, Bool.and_eq_true, BitVec.slt_iff_toInt_lt, BitVec.ult_iff_lt,
    BitVec.lt_def, beq_iff_eq, or_assoc]

/-- A trap enters the Program interrupt or does nothing. -/
theorem completes_trapIf {c : Bool} {p : Prop} (hc : c = true ↔ p) (s : State) :
    (p → Completes (trapIf c s) fun t =>
      EntersNonCritical s t 0x0700 s.pc (s.keptSyndrome ||| 0x02000000) (s.spr .dear)) ∧
    (¬p → Completes (trapIf c s) fun t => OnlyAdvances s t) :=
  ⟨fun h => ⟨_, if_pos (hc.2 h), takeProgram_spec .trap s⟩, fun h => ⟨_, if_neg (mt hc.1 h), advance_spec s⟩⟩

/-- Settles O51. -/
theorem systemCallAndTraps : Obligations.SystemCallAndTraps := by
  intro s tocond ra rb si enters
  obtain ⟨htw, hno⟩ := completes_trapIf (trapHolds_iff tocond (s.gpr ra) (s.gpr rb)) s
  obtain ⟨htwi, hnoi⟩ := completes_trapIf (trapHolds_iff tocond (s.gpr ra) (sext16 si)) s
  exact ⟨⟨_, rfl, takeInterrupt_spec .systemCall (s.pc + 4) s rfl, rfl, rfl⟩, htw, hno, htwi, hnoi⟩

end Sys2Proof.Machine
end

section
/-! SUPPORT. The TLB's own instructions: the entries a search finds, and the words of an entry field by field
(47_interrupt_control_tlb.md R468 to R472). -/

namespace Sys2Proof.Machine

variable {s : State} {ea : Word}

/-! ### What a search finds (20_memory.md R114) -/

theorem tlbHits_eq_nil : tlbHits s.tlb (s.spr .pid) ea = [] ↔ noEntry s ea := by
  simp only [List.eq_nil_iff_forall_not_mem, mem_tlbHits, not_exists, not_and]
  exact ⟨fun h k => Bool.eq_false_iff.2 (h _ k rfl), fun h _ k _ => Bool.eq_false_iff.1 (h k)⟩

/-- Two entries that match are both found. -/
theorem tlbHits_of_two {j k : Fin 64} (hjk : j ≠ k) (hj : tlbMatches ((s.spr .pid).setWidth 8) ea s.tlb[j] = true)
    (hk : tlbMatches ((s.spr .pid).setWidth 8) ea s.tlb[k] = true) :
    ∃ a b l, tlbHits s.tlb (s.spr .pid) ea = a :: b :: l := by
  match hh : tlbHits s.tlb (s.spr .pid) ea with
  | [] => cases hj.symm.trans (tlbHits_eq_nil.1 hh j)
  | [e] =>
    obtain ⟨i, -, hi, hothers⟩ := tlbHits_eq_singleton.1 hh
    have only_i : ∀ l : Fin 64, tlbMatches ((s.spr .pid).setWidth 8) ea s.tlb[l] = true → l = i := fun l hl =>
      by_contra fun hne => Bool.eq_false_iff.1 (hothers l hne) hl
    exact absurd ((only_i j hj).trans (only_i k hk).symm) hjk
  | a :: b :: l => exact ⟨a, b, l, rfl⟩

theorem tlbLookup_miss (h : noEntry s ea) : tlbLookup s.tlb (s.spr .pid) (s.spr .zpr) ea = .miss := by
  rw [tlbLookup, tlbHits_eq_nil.2 h]

theorem tlbLookup_multiple {j k : Fin 64} (hjk : j ≠ k)
    (hj : tlbMatches ((s.spr .pid).setWidth 8) ea s.tlb[j] = true)
    (hk : tlbMatches ((s.spr .pid).setWidth 8) ea s.tlb[k] = true) :
    tlbLookup s.tlb (s.spr .pid) (s.spr .zpr) ea = .multiple := by
  obtain ⟨a, b, l, hh⟩ := tlbHits_of_two hjk hj hk
  rw [tlbLookup, hh]

/-! ### `tlbsx` (R468) -/

/-- RT and, with Rc, CR0 after a search, whatever free values it drew. -/
theorem setFound_spec (s : State) (n : Nat) (rt : Reg) (v : Word) (rc found : Bool) :
    let t := ((({ s with draws := n } : State).setGpr rt v).setFound rc found).advance
    t.gpr rt = v ∧ OnlyInteger s t rt ∧ t.spr .xer = s.spr .xer ∧
      crField t.cr 0 = if rc then condField false false found s.xerSO else crField s.cr 0 := by
  have hself : (({ s with draws := n } : State).setGpr rt v).gpr rt = v := State.gpr_setGpr_self _ rt v
  have hothers : ∀ r, r ≠ rt → (({ s with draws := n } : State).setGpr rt v).gpr r = s.gpr r := fun _ hr =>
    State.gpr_setGpr_ne { s with draws := n } v hr
  cases rc with
  | false =>
    exact ⟨hself, ⟨hothers, rfl, fun _ _ => rfl, rfl, fun _ _ => rfl,
      keepsSystem_of rfl rfl rfl rfl rfl rfl rfl rfl rfl rfl⟩, rfl, rfl⟩
  | true =>
    have hfield : ∀ f, crField (withCrField s.cr 0 (condField false false found s.xerSO)) f =
        if f = 0 then condField false false found s.xerSO else crField s.cr f := fun f => crField_withCrField s.cr 0 f _
    exact ⟨hself, ⟨hothers, rfl, fun f hf => (hfield f).trans (if_neg hf), rfl, fun _ _ => rfl,
      keepsSystem_of rfl rfl rfl rfl rfl rfl rfl rfl rfl rfl⟩, rfl, (hfield 0).trans (if_pos rfl)⟩

/-- Settles O45: the search finds one entry, none, or more. -/
theorem tlbSearch : Obligations.TlbSearch := by
  intro s rt ra rb rc hu hit
  refine ⟨fun k hk hothers => completes_privileged hu ?_, fun hnone => completes_privileged hu ?_,
    fun j k hjk hj hk => (privileged_supervisor hu _).trans ?_⟩
  · have hh : tlbHits s.tlb (s.spr .pid) (s.eaX ra rb) = [(s.tlb[k], k.val)] :=
      tlbHits_eq_singleton.2 ⟨k, rfl, hk, hothers⟩
    rw [hh]
    exact completes_done (setFound_spec s s.draws rt _ rc true)
  · have hh : tlbHits s.tlb (s.spr .pid) (s.eaX ra rb) = [] := tlbHits_eq_nil.2 hnone
    rw [hh]
    exact completes_done (setFound_spec s (s.draws + 1) rt s.freshWord rc false).2
  · obtain ⟨a, b, l, hh⟩ := tlbHits_of_two (s := s) (ea := s.eaX ra rb) hjk hj hk
    rw [hh]

/-! ### The words of an entry (R470) -/

theorem getLsbD_tlbHi (t : TlbEntry) (j : Nat) : (tlbHi t).getLsbD j =
    ((if j < 7 then false else if j - 7 < 3 then t.size.getLsbD (j - 7) else t.epn.getLsbD (j - 7 - 3)) ||
      (t.v && decide (j = 6)) || (t.e && decide (j = 5)) || (t.u0 && decide (j = 4))) := by
  simp only [tlbHi, BitVec.getLsbD_or, BitVec.getLsbD_append, BitVec.ofNat_eq_ofNat, BitVec.getLsbD_zero,
    getLsbD_flagAt (show 25 < 32 by decide), getLsbD_flagAt (show 26 < 32 by decide),
    getLsbD_flagAt (show 27 < 32 by decide), Nat.reduceSub]

theorem getLsbD_tlbLo (t : TlbEntry) (j : Nat) : (tlbLo t).getLsbD j =
    ((if j < 4 then false else if j - 4 < 4 then t.zsel.getLsbD (j - 4) else if j - 4 - 4 < 2 then false else
        t.rpn.getLsbD (j - 4 - 4 - 2)) || (t.ex && decide (j = 9)) || (t.wr && decide (j = 8)) ||
      (t.w && decide (j = 3)) || (t.i && decide (j = 2)) || (t.m && decide (j = 1)) || (t.g && decide (j = 0))) := by
  simp only [tlbLo, BitVec.getLsbD_or, BitVec.getLsbD_append, BitVec.ofNat_eq_ofNat, BitVec.getLsbD_zero,
    getLsbD_flagAt (show 22 < 32 by decide), getLsbD_flagAt (show 23 < 32 by decide),
    getLsbD_flagAt (show 28 < 32 by decide), getLsbD_flagAt (show 29 < 32 by decide),
    getLsbD_flagAt (show 30 < 32 by decide), getLsbD_flagAt (show 31 < 32 by decide), Nat.reduceSub]

/-- The tag word, field by field; bits 28 to 31 are zeros. -/
theorem tlbHi_fields (t : TlbEntry) : fieldTo (tlbHi t) 21 22 = t.epn ∧ fieldTo (tlbHi t) 24 3 = t.size ∧
    bitAt (tlbHi t) 25 = t.v ∧ bitAt (tlbHi t) 26 = t.e ∧ bitAt (tlbHi t) 27 = t.u0 ∧ tlbHi t &&& 0xF = 0 := by
  refine ⟨BitVec.eq_of_getLsbD_eq fun j hj => ?_, BitVec.eq_of_getLsbD_eq fun j hj => ?_, ?_, ?_, ?_,
    BitVec.eq_of_getLsbD_eq fun j hj => ?_⟩
  · refine (getLsbD_fieldTo _ _ hj).trans ((getLsbD_tlbHi t (10 + j)).trans ?_)
    grind
  · refine (getLsbD_fieldTo _ _ hj).trans ((getLsbD_tlbHi t (7 + j)).trans ?_)
    grind
  · exact (getLsbD_tlbHi t 6).trans (by simp)
  · exact (getLsbD_tlbHi t 5).trans (by simp)
  · exact (getLsbD_tlbHi t 4).trans (by simp)
  · have hmask : (0xF : Word).getLsbD j = decide (j < 4) := by interval_cases j <;> rfl
    have hnone : (0 : Word).getLsbD j = false := BitVec.getLsbD_zero
    rw [BitVec.getLsbD_and, getLsbD_tlbHi, hmask, hnone]
    grind

/-- The data word, field by field. -/
theorem tlbLo_fields (t : TlbEntry) : fieldTo (tlbLo t) 21 22 = t.rpn ∧ bitAt (tlbLo t) 22 = t.ex ∧
    bitAt (tlbLo t) 23 = t.wr ∧ fieldTo (tlbLo t) 27 4 = t.zsel ∧ bitAt (tlbLo t) 28 = t.w ∧ bitAt (tlbLo t) 29 = t.i ∧
    bitAt (tlbLo t) 30 = t.m ∧ bitAt (tlbLo t) 31 = t.g := by
  refine ⟨BitVec.eq_of_getLsbD_eq fun j hj => ?_, ?_, ?_, BitVec.eq_of_getLsbD_eq fun j hj => ?_, ?_, ?_, ?_, ?_⟩
  · refine (getLsbD_fieldTo _ _ hj).trans ((getLsbD_tlbLo t (10 + j)).trans ?_)
    grind
  · exact (getLsbD_tlbLo t 9).trans (by simp)
  · exact (getLsbD_tlbLo t 8).trans (by simp)
  · refine (getLsbD_fieldTo _ _ hj).trans ((getLsbD_tlbLo t (4 + j)).trans ?_)
    grind
  · exact (getLsbD_tlbLo t 3).trans (by simp)
  · exact (getLsbD_tlbLo t 2).trans (by simp)
  · exact (getLsbD_tlbLo t 1).trans (by simp)
  · exact (getLsbD_tlbLo t 0).trans (by simp)

/-! ### Reading and writing entries (R469 to R472) -/

/-- An instruction that writes the TLB and opens a context-change window. -/
theorem writesTlb_window (s : State) (tlb : Vector TlbEntry 64) :
    WritesTlb s ({ s.openWindow with tlb := tlb } : State).advance :=
  ⟨rfl, rfl, fun _ => rfl, ⟨fun _ => rfl, rfl, rfl, rfl, fun _ => rfl⟩, ⟨rfl, rfl, rfl⟩⟩

/-- What `tlbre` of the tag word leaves besides RT's fields: RT, the PID with the entry's TID, and the rest. -/
theorem tlbreHi_spec (s : State) (rt : Reg) (v : Word) (tid : Byte) :
    let t := ((s.openWindow.setGpr rt v).setSpr .pid (tid.setWidth 32)).advance
    t.gpr rt = v ∧ t.spr .pid = tid.setWidth 32 ∧ (∀ q, q ≠ rt → t.gpr q = s.gpr q) ∧
      (∀ q, q ≠ .pid → t.spr q = s.spr q) ∧ t.cr = s.cr ∧ t.pc = s.pc + 4 ∧ KeepsSystem s t := by
  have hmask : (tid.setWidth 32 : Word) &&& Spr.mask .pid = tid.setWidth 32 := by
    refine BitVec.eq_of_getLsbD_eq fun j hj => ?_
    have hone : (Spr.mask .pid).getLsbD j = decide (j < 8) := by interval_cases j <;> rfl
    rw [BitVec.getLsbD_and, BitVec.getLsbD_setWidth, hone]
    by_cases h : j < 8
    · simp [h]
    · simp [h, BitVec.getLsbD_of_ge tid j (not_lt.1 h)]
  refine ⟨State.gpr_setGpr_self _ rt v, ?_, fun q hq => State.gpr_setGpr_ne s.openWindow v hq,
    fun q hq => State.spr_setSpr_ne (s.openWindow.setGpr rt v) _ hq, rfl, rfl,
    keepsSystem_of rfl rfl rfl rfl rfl rfl rfl rfl rfl rfl⟩
  exact (State.spr_setSpr_self (s.openWindow.setGpr rt v) .pid _).trans hmask

/-- An entry written, and the others as before. -/
theorem tlb_set (tlb : Vector TlbEntry 64) (k : Fin 64) (e : TlbEntry) :
    (∀ j : Fin 64, j ≠ k → (tlb.set k e)[j] = tlb[j]) ∧ (tlb.set k e)[k] = e :=
  ⟨fun _ hj => Vector.getElem_set_ne _ _ fun h => hj (Fin.ext h.symm), Vector.getElem_set_self _⟩

theorem getElem_tlbInvalid (tlb : Vector TlbEntry 64) (j : Fin 64) :
    (tlbInvalid tlb)[j] = { tlb[j] with v := false } := by
  simp [tlbInvalid]

theorem tlbWordOk_refused {ws : BitVec 5} (h : 1 < ws.toNat) (k : Result) :
    validForm (tlbWordOk ws) .invalidTlbWordSelect k = .refused .invalidTlbWordSelect := by
  have hws : ¬tlbWordOk ws = true := by
    simp only [tlbWordOk, Bool.or_eq_true, beq_iff_eq]
    rintro (rfl | rfl) <;> exact absurd h (by decide)
  exact validForm_refused hws _ k

/-- Settles O44. -/
theorem tlbMoves : Obligations.TlbMoves := by
  intro s r ra ws hu k e v
  refine ⟨completes_privileged hu (completes_done ?_), completes_privileged hu (completes_done ?_),
    completes_privileged hu (completes_done ⟨writesTlb_window s _, tlb_set s.tlb k _⟩),
    completes_privileged hu (completes_done ⟨writesTlb_window s _, tlb_set s.tlb k _⟩),
    fun hws => ⟨(privileged_supervisor hu _).trans (tlbWordOk_refused hws _),
      (privileged_supervisor hu _).trans (tlbWordOk_refused hws _)⟩,
    completes_privileged hu (completes_done ⟨writesTlb_window s _, getElem_tlbInvalid s.tlb⟩),
    completes_privileged hu (completes_done (advance_spec s))⟩
  · obtain ⟨hv, hrest⟩ := tlbreHi_spec s r (tlbHi e) e.tid
    obtain ⟨hepn, hsize, hvalid, he, hu0, hzero⟩ := hv.symm ▸ tlbHi_fields e
    exact ⟨hepn, hsize, hvalid, he, hu0, hzero, hrest⟩
  · have hw := setGpr_spec s r (tlbLo e)
    exact ⟨{ hw with result := rfl }, hw.result.symm ▸ tlbLo_fields e⟩

end Sys2Proof.Machine
end

section
/-! SUPPORT. The data exceptions: the stop of the first byte of an access, whatever instruction makes it
(60_exceptions.md R533, R545; 46_cache_management.md R431). -/

namespace Sys2Proof.Machine

variable {s : State} {i : Instr} {ea : Word} {store : Bool} {e : Stop}

/-! ### Why the first byte stops -/

theorem lookupData_miss (hd : s.msrDR = true) (h : noEntry s ea) : lookupData s ea = .miss :=
  (lookupData_translated hd ea).trans (tlbLookup_miss h)

theorem lookupData_entry (hd : s.msrDR = true) {k : Fin 64} (hk : onlyEntry s ea k) :
    lookupData s ea = .page (entryPage s s.tlb[k] ea) :=
  (lookupData_translated hd ea).trans (tlbLookup_page_iff.2 ⟨k, hk, rfl⟩)

theorem locate_miss (h : lookupData s ea = .miss) (store : Bool) :
    locate s ea store = .error (.exc (.dataTlbMiss ea store)) := by
  simp only [locate, h]

variable {p : Page}

theorem locate_zoneDenied (h : lookupData s ea = .page p) (hz : p.zoneDenied s.msrPR = true) (store : Bool) :
    locate s ea store = .error (.exc (.dataStorage ea store true false)) := by
  simp only [locate, h, hz, if_true]

theorem locate_writeDenied (h : lookupData s ea = .page p) (hz : p.zoneDenied s.msrPR = false)
    (hw : p.writeDenied s.msrPR = true) : locate s ea true = .error (.exc (.dataStorage ea true false false)) := by
  simp only [locate, h, hz, hw, Bool.false_eq_true, if_false, Bool.and_self, if_true]

theorem locate_u0Denied (h : lookupData s ea = .page p) (hz : p.zoneDenied s.msrPR = false)
    (hw : p.writeDenied s.msrPR = false) (hu : s.u0Denied p = true) :
    locate s ea true = .error (.exc (.dataStorage ea true false true)) := by
  simp only [locate, h, hz, hw, hu, Bool.false_eq_true, if_false, Bool.and_false, Bool.and_self, if_true]

/-! ### The instruction stops with its first byte (40_storage_reference.md R241) -/

/-- An access whose first byte stops is that stop. -/
theorem access_first_error (h : locate s ea store = .error e) {n : Nat} (hn : 0 < n) :
    access s ea n store = .error e := by
  obtain ⟨m, rfl⟩ := Nat.exists_eq_add_of_lt hn
  simp only [access, locateBytes, h]

/-- The cache instructions that check access to a whole block. -/
def blockAccess (s : State) : Instr → Option (Word × Bool)
  | .dcbf ra rb | .dcbst ra rb | .icbi ra rb => some (s.eaX ra rb, false)
  | .dcbz ra rb | .dcbi ra rb => some (s.eaX ra rb, true)
  | _ => none

theorem stringCount_pos (nb : BitVec 5) : 0 < stringCount nb := by
  unfold stringCount
  split
  · decide
  · rename_i h
    exact Nat.pos_of_ne_zero fun h0 => h (BitVec.eq_of_toNat_eq h0)

/-- The first byte accessed is that of a load's or a store's whole access, or of a cache instruction's block. -/
theorem firstAccess_cases (h : firstAccess s i = some (ea, store)) :
    (∃ n, 0 < n ∧ wholeAccess s i = some (ea, n, store)) ∨ blockAccess s i = some (ea, store) := by
  cases i with
  | dcbf | dcbst | icbi | dcbz | dcbi => exact .inr h
  | lmw rt | stmw rt => cases h; exact .inl ⟨4 * (32 - rt.toNat), by have := rt.isLt; omega, rfl⟩
  | lswi _ _ nb | stswi _ _ nb => cases h; exact .inl ⟨_, stringCount_pos nb, rfl⟩
  | lswx =>
    obtain ⟨hc, heq⟩ := Option.ite_none_right_eq_some.1 h
    cases heq
    exact .inl ⟨_, Nat.pos_of_ne_zero hc.2, if_pos hc⟩
  | stswx =>
    obtain ⟨hc, heq⟩ := Option.ite_none_right_eq_some.1 h
    cases heq
    exact .inl ⟨_, Nat.pos_of_ne_zero hc, if_pos hc⟩
  | stwcxDot =>
    obtain ⟨hc, heq⟩ := Option.ite_none_right_eq_some.1 h
    cases heq
    exact .inl ⟨4, by decide, if_pos hc⟩
  | lbz | lbzu | lbzx | lbzux | stb | stbu | stbx | stbux | lhz | lhzu | lhzx | lhzux | lha | lhau | lhax | lhaux | sth
  | sthu | sthx | sthux | lwz | lwzu | lwzx | lwzux | stw | stwu | stwx | stwux | lhbrx | lwbrx | sthbrx | stwbrx
  | lwarx =>
    cases h
    exact .inl ⟨_, by decide, rfl⟩
  | _ => cases h

theorem withBlock_error (h : locate s ea store = .error e) (k : Page → Result) :
    withBlock s ea store k = stopWith s e := by
  simp only [withBlock, h]

theorem exec_of_blockAccess_error (hb : blockAccess s i = some (ea, store))
    (hp : privilegedInstr i = true → s.userMode = false) (h : locate s ea store = .error e) :
    exec i s = stopWith s e := by
  cases i with
  | dcbf | dcbst | icbi | dcbz => cases hb; exact withBlock_error h _
  | dcbi => cases hb; exact (privileged_supervisor (hp rfl) _).trans (withBlock_error h _)
  | _ => cases hb

/-- An instruction whose first byte may not be accessed is that stop, from the state it found. -/
theorem exec_of_firstAccess_error (hf : firstAccess s i = some (ea, store)) (hok : i.wf = true)
    (hp : privilegedInstr i = true → s.userMode = false) (h : locate s ea store = .error e) :
    exec i s = stopWith s e := by
  obtain ⟨n, hn, hw⟩ | hb := firstAccess_cases hf
  · exact exec_of_wholeAccess_error hw hok (access_first_error h hn)
  · exact exec_of_blockAccess_error hb hp h

theorem missOnly_miss (h : lookupData s ea = .miss) (store : Bool) (k : Page → Result) :
    missOnly s ea store k = .next (takeException (.dataTlbMiss ea store) s) := by
  simp only [missOnly, h]

/-- An instruction whose address no entry translates takes the Data TLB Miss. -/
theorem exec_of_missAccess (hm : missAccess s i = some (ea, store)) (hok : i.wf = true)
    (hp : privilegedInstr i = true → s.userMode = false) (h : lookupData s ea = .miss) :
    exec i s = .next (takeException (.dataTlbMiss ea store) s) := by
  unfold missAccess at hm
  split at hm
  case h_6 => exact exec_of_firstAccess_error hm hok hp (locate_miss h store)
  all_goals
    cases hm
    exact (privileged_supervisor (hp rfl) _).trans (missOnly_miss h _ _)

/-! ### Entering the interrupts -/

theorem flagAt_store (store : Bool) : flagAt 8 store = storeSyndrome store := by cases store <;> rfl

/-- The Data TLB Miss interrupt, whole. -/
theorem takeDataTlbMiss_spec (s : State) (ea : Word) (store : Bool) :
    EntersNonCritical s (takeException (.dataTlbMiss ea store) s) 0x1100 s.pc
      (s.keptSyndrome ||| storeSyndrome store) ea := by
  have hkept : ∀ r, r ≠ .dear → (s.setSpr .dear ea).spr r = s.spr r := fun r hr => State.spr_setSpr_ne _ ea hr
  have hdear : (s.setSpr .dear ea).spr .dear = ea := (State.spr_setSpr_self _ .dear ea).trans BitVec.and_allOnes
  have hw : flagAt 8 store &&& Spr.mask .esr = flagAt 8 store := by cases store <;> decide
  have h := takeInterrupt_setSyndrome_spec .dataTlbMiss s.pc (s.setSpr .dear ea) rfl hw
  rw [hdear, State.keptSyndrome, hkept .esr (by decide), flagAt_store] at h
  exact { h with
    pc := h.pc.trans (congrArg (fun v : Word => (v &&& 0xFFFF0000) ||| 0x1100) (hkept .evpr (by decide)))
    sprs := fun r h0 h1 he hd => (h.sprs r h0 h1 he hd).trans (hkept r hd) }

/-- An instruction whose first byte raises a data storage exception enters the Data Storage interrupt. -/
theorem completes_dataStorage (hf : firstAccess s i = some (ea, store)) (hok : i.wf = true)
    (hp : privilegedInstr i = true → s.userMode = false) {zone u0 : Bool}
    (h : locate s ea store = .error (.exc (.dataStorage ea store zone u0))) {w : Word}
    (hw : storeSyndrome store ||| flagAt 9 zone ||| flagAt 16 u0 = w) :
    Completes (exec i s) fun t => EntersNonCritical s t 0x0300 s.pc (s.keptSyndrome ||| w) ea :=
  ⟨_, exec_of_firstAccess_error hf hok hp h,
    hw ▸ flagAt_store store ▸ takeDataStorage_spec s s.draws ea store zone u0⟩

/-- Settles O34: each clause names why the first byte stops. -/
theorem dataExceptions : Obligations.DataExceptions := by
  intro s i ea store hok hp
  refine ⟨fun hm hd hno => ⟨_, exec_of_missAccess hm hok hp (lookupData_miss hd hno), takeDataTlbMiss_spec s ea store⟩,
    fun hf hd k hk => ?_, fun hf hd hu hx => ?_⟩
  · intro e
    have hl := lookupData_entry hd hk
    have zoneFree : ¬zoneDenies s e → (entryPage s e ea).zoneDenied s.msrPR = false := fun hz =>
      Bool.eq_false_iff.2 fun h => hz ((entryPage_zoneDenied s e ea).1 h)
    refine ⟨fun hz => ?_, fun hz hs hwr hno => ?_, fun hz hs hw hu hx => ?_⟩
    · rw [BitVec.or_assoc]
      exact completes_dataStorage hf hok hp (locate_zoneDenied hl ((entryPage_zoneDenied s e ea).2 hz) store)
        BitVec.or_zero
    · subst hs
      refine completes_dataStorage hf hok hp (locate_writeDenied hl (zoneFree hz) ?_) rfl
      exact (entryPage_writeDenied s e ea).2 fun h => h.elim (Bool.eq_false_iff.1 hwr) hno
    · subst hs
      rw [BitVec.or_assoc]
      refine completes_dataStorage hf hok hp (locate_u0Denied hl (zoneFree hz) ?_ ?_) rfl
      · exact Bool.eq_false_iff.2 fun h => (entryPage_writeDenied s e ea).1 h hw
      · exact Bool.and_eq_true_iff.2 ⟨hx, hu⟩
  · rw [BitVec.or_assoc]
    exact completes_dataStorage hf hok hp
      (locate_u0Denied (lookupData_real hd ea) rfl rfl (Bool.and_eq_true_iff.2 ⟨hx, hu⟩)) rfl

end Sys2Proof.Machine
end

section
/-! SUPPORT. Taking an interrupt, of any class, and which one is taken at a quiet boundary (60_exceptions.md R521 to
R523, R550 to R552). -/

namespace Sys2Proof.Machine

/-! ### Taking an interrupt -/

theorem saveContext_eq (s : State) (c : InterruptClass) (ret : Word) : s.saveContext c ret =
    { s with sprs := (s.saveContext c ret).sprs, draws := (s.saveContext c ret).draws } := by
  have hm : msrMask ≠ 0xFFFFFFFF := by decide
  cases c <;>
    · simp only [State.saveContext, State.afterMasked, hm, if_false]
      rfl

/-- An entry synchronises context and changes the registers it saves, the MSR and the program counter, nothing else. -/
theorem takeInterrupt_eq (k : Interrupt) (ret : Word) (s : State) : takeInterrupt k ret s =
    { s.contextSync with
      sprs := (takeInterrupt k ret s).sprs, msr := (takeInterrupt k ret s).msr, pc := (takeInterrupt k ret s).pc,
      draws := (takeInterrupt k ret s).draws } :=
  congrArg (fun u => ((u.setMsr (s.msr &&& k.kind.keptMsr)).setPc (s.vector k)).contextSync)
    (saveContext_eq s k.kind ret)

/-- Any part of the state that is no register an entry writes, after the entry. -/
theorem takeInterrupt_part {α : Sort _} (k : Interrupt) (ret : Word) (s : State) (f : State → α) :
    f (takeInterrupt k ret s) = f { s.contextSync with
      sprs := (takeInterrupt k ret s).sprs, msr := (takeInterrupt k ret s).msr, pc := (takeInterrupt k ret s).pc,
      draws := (takeInterrupt k ret s).draws } := congrArg f (takeInterrupt_eq k ret s)

/-- The special purpose registers after an entry: the return address and the MSR's image in the pair of its class. -/
theorem spr_takeInterrupt (k : Interrupt) (ret : Word) (s : State) (r : Spr) : (takeInterrupt k ret s).spr r =
    if r = (if k.kind = .nonCritical then .srr1 else .srr3) then s.readMasked s.msr msrMask
    else if r = (if k.kind = .nonCritical then .srr0 else .srr2) then ret else s.spr r :=
  spr_saveContext s k.kind ret r

/-- The MSR bits a class keeps are the defined ones that it does not clear. -/
theorem bitAt_keptMsr (c : InterruptClass) : (∀ b ∈ clearedBits c, bitAt c.keptMsr b = false) ∧
    ∀ b < 32, bitAt msrMask b = true → b ∉ clearedBits c → bitAt c.keptMsr b = true := by
  cases c <;> decide

theorem vectorTable_entry {e : Interrupt × Word × InterruptClass} (he : e ∈ vectorTable) :
    e.1.kind = e.2.2 ∧ e.1.offset = e.2.1 := by
  revert e
  decide

/-- Settles O54. -/
theorem interruptEntry : Obligations.InterruptEntry := by
  refine ⟨fun k => by cases k <;> decide, fun e he ret s => ?_⟩
  obtain ⟨k, offset, c⟩ := e
  obtain ⟨rfl, rfl⟩ : k.kind = c ∧ k.offset = offset := vectorTable_entry he
  intro t addr image
  have hspr : ∀ r, t.spr r = if r = image then s.readMasked s.msr msrMask else if r = addr then ret else s.spr r :=
    spr_takeInterrupt k ret s
  have hne : addr ≠ image := by
    dsimp only [addr, image]
    split <;> decide
  have hmsr : ∀ b, bitAt t.msr b = (bitAt s.msr b && bitAt k.kind.keptMsr b && bitAt msrMask b) := fun b => by
    rw [← bitAt_and, ← bitAt_and]
    rfl
  obtain ⟨hcleared, hkept⟩ := bitAt_keptMsr k.kind
  have part : ∀ {α : Type} (f : State → α), f t = f { s.contextSync with
    sprs := t.sprs, msr := t.msr, pc := t.pc, draws := t.draws } := takeInterrupt_part k ret s
  refine ⟨?_, ?_, rfl, fun b hb => ?_, fun b hb hm hnot => ?_, fun r hr hi => ?_, part State.gprs, part State.cr,
    part State.reserve, part State.tlb, part State.mem, part State.dcache, part State.icache, part State.fillBuffer,
    part State.tb, part State.pitReload, part State.dcrs, part State.memMap, part State.unsettled, part State.busError,
    rfl, rfl, rfl⟩
  · rw [hspr, if_neg hne, if_pos rfl]
  · rw [hspr, if_pos rfl]
    exact readMasked_and ..
  · rw [hmsr, hcleared b hb, Bool.and_false, Bool.false_and]
  · rw [hmsr, hkept b hb hm hnot, hm, Bool.and_true, Bool.and_true]
  · rw [hspr, if_neg hi, if_neg hr]

/-! ### Which one is pending -/

open Classical in
/-- The pending interrupt once every bus write of the core has arrived, in the order of R551 and R552. -/
theorem pendingInterrupt_settle (s : State) : pendingInterrupt (s.settle 0) false =
    if errsOnArrival s ∧ s.msrME = true then some .machineCheck
    else if s.spr .dbsr &&& 0xFFFC0000 ≠ 0 ∧ s.msrDE = true ∧ bitAt (s.spr .dbcr0) 1 = true then some .debug
    else if s.criticalLine = true ∧ s.msrCE = true then some .criticalInput
    else if bitAt (s.spr .tsr) 1 = true ∧ s.msrCE = true ∧ bitAt (s.spr .tcr) 4 = true then some .watchdog
    else if s.externalLine = true ∧ s.msrEE = true then some .external
    else if bitAt (s.spr .tsr) 5 = true ∧ s.msrEE = true ∧ bitAt (s.spr .tcr) 8 = true then some .fit
    else if bitAt (s.spr .tsr) 4 = true ∧ s.msrEE = true ∧ bitAt (s.spr .tcr) 5 = true then some .pit
    else none := by
  have herr : (s.settle 0).busError = true ↔ errsOnArrival s := busError_arrived_iff s
  obtain ⟨hme, hde, hce, hee⟩ : (s.settle 0).msrME = s.msrME ∧ (s.settle 0).msrDE = s.msrDE ∧
      (s.settle 0).msrCE = s.msrCE ∧ (s.settle 0).msrEE = s.msrEE := ⟨rfl, rfl, rfl, rfl⟩
  simp only [pendingInterrupt, hme, hde, hce, hee, State.spr_settle, State.criticalLine_settle,
    State.externalLine_settle, Bool.and_eq_true, herr, bne_iff_ne, Bool.false_and, Bool.not_false, and_true, and_assoc]
  cases s.msrEE <;> simp

variable {s : State}

/-- A quiet step that finds an interrupt pending takes it in place of the next instruction. -/
theorem step_of_pending (hin : s.inputs = []) (hfree : s.stuck = false) {k : Interrupt}
    (hk : pendingInterrupt (s.settle 0) false = some k) : step s = .next (takeInterrupt k s.pc (quietBoundary s)) := by
  rw [step_quiet s hin hfree, hk]
  rfl

/-- A quiet step with nothing pending waits where MSR[WE] is set. -/
theorem step_of_waiting (hin : s.inputs = []) (hfree : s.stuck = false)
    (hnone : pendingInterrupt (s.settle 0) false = none) (hwe : s.msrWE = true) : step s = .next (quietBoundary s) := by
  rw [step_quiet s hin hfree, hnone]
  simp only [hwe, if_true, passBoundary_settle]

/-- Settles O55: each clause is one place of the order. -/
theorem asynchronousInterrupts : Obligations.AsynchronousInterrupts := by
  classical
  intro s hin hfree takes mc dbg crit wdog ext fit pit
  have hp : pendingInterrupt (s.settle 0) false = if mc then some .machineCheck else if dbg then some .debug
      else if crit then some .criticalInput else if wdog then some .watchdog else if ext then some .external
      else if fit then some .fit else if pit then some .pit else none := by
    exact pendingInterrupt_settle s
  have take : ∀ {k}, pendingInterrupt (s.settle 0) false = some k → takes k := step_of_pending hin hfree
  refine ⟨fun h => take ?_, fun h1 h => take ?_, fun h1 h2 h => take ?_, fun h1 h2 h3 h => take ?_,
    fun h1 h2 h3 h4 h => take ?_, fun h1 h2 h3 h4 h5 h => take ?_, fun h1 h2 h3 h4 h5 h6 h => take ?_,
    fun h1 h2 h3 h4 h5 h6 h7 => step_of_waiting hin hfree ?_⟩
  · rw [hp, if_pos h]
  · rw [hp, if_neg h1, if_pos h]
  · rw [hp, if_neg h1, if_neg h2, if_pos h]
  · rw [hp, if_neg h1, if_neg h2, if_neg h3, if_pos h]
  · rw [hp, if_neg h1, if_neg h2, if_neg h3, if_neg h4, if_pos h]
  · rw [hp, if_neg h1, if_neg h2, if_neg h3, if_neg h4, if_neg h5, if_pos h]
  · rw [hp, if_neg h1, if_neg h2, if_neg h3, if_neg h4, if_neg h5, if_neg h6, if_pos h]
  · rw [hp, if_neg h1, if_neg h2, if_neg h3, if_neg h4, if_neg h5, if_neg h6, if_neg h7]

end Sys2Proof.Machine
end

section
/-! SUPPORT. Reset (70_reset_and_hazards.md R600 to R602) and the timers (60_exceptions.md R570 to R574). -/

namespace Sys2Proof.Machine

variable {s : State}

/-! ### Reset -/

theorem fieldTo_and (v w : Word) (c n : Nat) : fieldTo (v &&& w) c n = fieldTo v c n &&& fieldTo w c n := by
  simp only [fieldTo, BitVec.ushiftRight_and_distrib, BitVec.setWidth_and]

theorem fieldTo_or (v w : Word) (c n : Nat) : fieldTo (v ||| w) c n = fieldTo v c n ||| fieldTo w c n := by
  simp only [fieldTo, BitVec.ushiftRight_or_distrib, BitVec.setWidth_or]

/-- The registers after a reset in a run that R602 defines, and those whose fields it changes. -/
theorem spr_resetFrom (k : ResetKind) (wrs : BitVec 2) (s : State) :
    (resetFrom k wrs s).spr .esr = 0 ∧ (resetFrom k wrs s).spr .iccr = 0 ∧ (resetFrom k wrs s).spr .dccr = 0 ∧
    (resetFrom k wrs s).spr .sgr = 0xFFFFFFFF ∧ (resetFrom k wrs s).spr .sler = 0 ∧
    (resetFrom k wrs s).spr .su0r = 0 ∧
    (resetFrom k wrs s).spr .tcr = s.spr .tcr &&& 0xCFFFFFFF &&& Spr.mask .tcr ∧
    (resetFrom k wrs s).spr .tsr =
      ((s.spr .tsr &&& (0xCFFFFFFF : Word)) ||| (wrs.setWidth 32 <<< 28)) &&& Spr.mask .tsr ∧
    (resetFrom k wrs s).spr .dbsr =
      ((s.spr .dbsr &&& (0xFFFFFCFF : Word)) ||| (k.code.setWidth 32 <<< 8)) &&& Spr.mask .dbsr := by
  simp only [resetFrom, State.spr_setSpr, reduceCtorEq, if_true, if_false]
  exact ⟨rfl, rfl, rfl, rfl, rfl, rfl, rfl, rfl, rfl⟩

/-- A two-bit code put into TSR[WRS] is read back there. -/
theorem fieldTo_wrs (w : Word) (wrs : BitVec 2) :
    fieldTo (((w &&& (0xCFFFFFFF : Word)) ||| (wrs.setWidth 32 <<< 28)) &&& Spr.mask .tsr) 3 2 = wrs := by
  have hcode : ∀ x : BitVec 2, fieldTo (x.setWidth 32 <<< 28) 3 2 = x := by decide
  have hclear : fieldTo 0xCFFFFFFF 3 2 = 0#2 := by decide
  have hmask : fieldTo (Spr.mask .tsr) 3 2 = BitVec.allOnes 2 := by decide
  rw [fieldTo_and, fieldTo_or, fieldTo_and, hcode, hclear, hmask, BitVec.and_zero, BitVec.zero_or, BitVec.and_allOnes]

/-- A kind of reset put into DBSR[MRR] is read back there. -/
theorem fieldTo_mrr (w : Word) (x : BitVec 2) :
    fieldTo (((w &&& (0xFFFFFCFF : Word)) ||| (x.setWidth 32 <<< 8)) &&& Spr.mask .dbsr) 23 2 = x := by
  have hcode : ∀ y : BitVec 2, fieldTo (y.setWidth 32 <<< 8) 23 2 = y := by decide
  have hclear : fieldTo 0xFFFFFCFF 23 2 = 0#2 := by decide
  have hmask : fieldTo (Spr.mask .dbsr) 23 2 = BitVec.allOnes 2 := by decide
  rw [fieldTo_and, fieldTo_or, fieldTo_and, hcode, hclear, hmask, BitVec.and_zero, BitVec.zero_or, BitVec.and_allOnes]

/-- A reset in a run leaves the defined values. -/
theorem resetValues_resetFrom (k : ResetKind) (wrs : BitVec 2) (s : State) :
    ResetValues (resetFrom k wrs s) k wrs := by
  obtain ⟨hesr, hiccr, hdccr, hsgr, hsler, hsu0r, htcr, htsr, hdbsr⟩ := spr_resetFrom k wrs s
  refine ⟨rfl, rfl, hesr, hiccr, hdccr, hsgr, hsler, hsu0r, ?_, ?_, ?_, ⟨rfl, rfl⟩, rfl⟩
  · have hclear : fieldTo 0xCFFFFFFF 3 2 = 0#2 := by decide
    rw [htcr, fieldTo_and, fieldTo_and, hclear, BitVec.and_zero, BitVec.zero_and]
    rfl
  · rw [htsr, fieldTo_wrs]
  · rw [hdbsr, fieldTo_mrr]

theorem resetValues_reset : ResetValues State.reset .system 0 := by
  constructor <;> decide

/-- Every code but zero names a reset, the one with that code. -/
theorem code_of_resetKindOf {c : BitVec 2} (hc : c ≠ 0) : ∃ k, resetKindOf c = some k ∧ k.code = c := by
  have key : ∀ x : BitVec 2, x ≠ 0 → x = 1 ∨ x = 2 ∨ x = 3 := by decide
  obtain rfl | rfl | rfl := key c hc
  · exact ⟨.core, rfl, rfl⟩
  · exact ⟨.chip, rfl, rfl⟩
  · exact ⟨.system, rfl, rfl⟩

/-- A pure reset request in DBCR0[RST] resets. -/
theorem mtsprReg_resetRequest (k : ResetKind) (s : State) :
    mtsprReg .dbcr0 (k.code.setWidth 32 <<< 28) s = .next (resetFrom k 0 s) := by
  cases k <;> rfl

/-- Settles O58. -/
theorem resetState : Obligations.ResetState := by
  refine ⟨resetValues_reset, resetValues_resetFrom, fun s rs k hu hrs =>
    ⟨_, (exec_mtspr_reg (r := .dbcr0) (.inl hu) (by decide) rs).trans ?_, resetValues_resetFrom k 0 s⟩⟩
  rw [hrs, mtsprReg_resetRequest]

/-! ### Status bits -/

/-- TSR after a status bit is set. -/
theorem bitAt_setTsrBit (s : State) {b c : Nat} (hb : b < 32) (hc : c < 6) :
    bitAt ((s.setTsrBit b).spr .tsr) c = (bitAt (s.spr .tsr) c || decide (c = b)) := by
  have hmask : bitAt (Spr.mask .tsr) c = true := by interval_cases c <;> decide
  have hbit : bitAt (bitMask b) c = decide (c = b) :=
    (getLsbD_bitMask b _ hb).trans (decide_eq_decide.2 (by omega))
  rw [State.setTsrBit, State.spr_setSpr_self, bitAt_and, bitAt_or, hmask, hbit, Bool.and_true]

theorem spr_setTsrBit (s : State) (b : Nat) {r : Spr} (hr : r ≠ .tsr) : (s.setTsrBit b).spr r = s.spr r :=
  State.spr_setSpr_ne s _ hr

theorem rises_iff {b : Nat} {old new : Word} : rises b old new = true ↔ bitAt old b = false ∧ bitAt new b = true := by
  simp [rises]

/-! ### The PIT (R571) -/

/-- The PIT stands still at 0, expires at 1 and else counts down. -/
theorem pitStep_cases (s : State) :
    (s.spr .pit = 0 ∧ pitStep s = s) ∨
    (s.spr .pit = 1 ∧ pitStep s = (s.setTsrBit 4).setSpr .pit (if bitAt (s.spr .tcr) 9 then s.pitReload else 0)) ∨
    (s.spr .pit ≠ 0 ∧ s.spr .pit ≠ 1 ∧ pitStep s = s.setSpr .pit (s.spr .pit - 1)) := by
  unfold pitStep
  split
  · exact .inl ⟨‹_›, rfl⟩
  · split
    · exact .inr (.inl ⟨‹_›, rfl⟩)
    · exact .inr (.inr ⟨‹_›, ‹_›, rfl⟩)

/-- What the PIT does in one tick: its count, its status bit, no other register and no other part of the machine. -/
structure PitSteps (s t : State) : Prop where
  pit : t.spr .pit = if s.spr .pit = 0 then 0
    else if s.spr .pit = 1 then (if bitAt (s.spr .tcr) 9 then s.pitReload else 0)
    else s.spr .pit - 1
  tsr : ∀ b < 6, bitAt (t.spr .tsr) b = (bitAt (s.spr .tsr) b || (decide (b = 4) && decide (s.spr .pit = 1)))
  sprs : ∀ r, r ≠ .tsr → r ≠ .pit → t.spr r = s.spr r
  rest : t = { s with sprs := t.sprs }

theorem pitSteps_pitStep (s : State) : PitSteps s (pitStep s) := by
  have written : ∀ (u : State) v, (u.setSpr .pit v).spr .pit = v := fun u v =>
    (State.spr_setSpr_self u .pit v).trans BitVec.and_allOnes
  have kept : ∀ (u : State) v r, r ≠ .pit → (u.setSpr .pit v).spr r = u.spr r := fun u v _ hr =>
    State.spr_setSpr_ne u v hr
  obtain ⟨h0, h⟩ | ⟨h1, h⟩ | ⟨h0, h1, h⟩ := pitStep_cases s
  · refine h.symm ▸ ⟨by rw [if_pos h0, h0], fun b _ => ?_, fun _ _ _ => rfl, rfl⟩
    simp [h0]
  · refine h.symm ▸ ⟨?_, fun b hb => ?_, fun r ht hp => (kept _ _ r hp).trans (spr_setTsrBit s 4 ht), rfl⟩
    · rw [written, h1]
      rfl
    · rw [kept _ _ _ (by decide), bitAt_setTsrBit s (by decide) hb, decide_eq_true h1, Bool.and_true]
  · refine h.symm ▸ ⟨?_, fun b _ => ?_, fun r _ hp => kept s _ r hp, rfl⟩
    · rw [written, if_neg h0, if_neg h1]
    · rw [kept _ _ _ (by decide), decide_eq_false h1, Bool.and_false, Bool.or_false]

/-! ### The FIT (R572) and the watchdog (R573) -/

/-- The FIT's part of a change of TBL. -/
def fitStep (old new : Word) (s : State) : State :=
  if rises (fitBit (s.spr .tcr)) old new then s.setTsrBit 5 else s

/-- A change of TBL is the FIT's part, then a time-out where the watchdog's bit rises. -/
theorem tbEvents_eq (old new : Word) (s : State) : tbEvents old new s =
    if rises (watchdogBit (s.spr .tcr)) old new then watchdogTimeOut (fitStep old new s) else fitStep old new s := rfl

/-- What the FIT does: its status bit, no other register and no other part of the machine. -/
structure FitSteps (s t : State) (rise : Bool) : Prop where
  tsr : ∀ b < 6, bitAt (t.spr .tsr) b = (bitAt (s.spr .tsr) b || (decide (b = 5) && rise))
  sprs : ∀ r, r ≠ .tsr → t.spr r = s.spr r
  rest : t = { s with sprs := t.sprs }

theorem fitSteps_fitStep (old new : Word) (s : State) :
    FitSteps s (fitStep old new s) (rises (fitBit (s.spr .tcr)) old new) := by
  unfold fitStep
  cases rises (fitBit (s.spr .tcr)) old new with
  | true =>
    exact ⟨fun b hb => (bitAt_setTsrBit s (by decide) hb).trans (by rw [Bool.and_true]), fun r => spr_setTsrBit s 5,
      rfl⟩
  | false => exact ⟨fun b _ => by simp, fun _ _ => rfl, rfl⟩

/-! ### One tick (R570) -/

/-- The state of a tick before the watchdog's part. -/
def tickBase (s : State) : State := fitStep s.tbl ((s.tb + 1).setWidth 32) (pitStep { s with tb := s.tb + 1 })

theorem ticked_tickBase (s : State) : Ticked s (tickBase s) := by
  let counted : State := { s with tb := s.tb + 1 }
  have hp : PitSteps counted (pitStep counted) := pitSteps_pitStep counted
  have htcr : (pitStep counted).spr .tcr = s.spr .tcr := hp.sprs .tcr (by decide) (by decide)
  have hf := fitSteps_fitStep s.tbl ((s.tb + 1).setWidth 32) (pitStep counted)
  rw [htcr] at hf
  have hpit : (tickBase s).spr .pit = _ := (hf.sprs .pit (by decide)).trans hp.pit
  have htsr : ∀ b < 6, bitAt ((tickBase s).spr .tsr) b = (bitAt (s.spr .tsr) b ||
      (decide (b = 4) && decide (s.spr .pit = 1)) || (decide (b = 5) && rises (fitBit (s.spr .tcr)) s.tbl
        ((s.tb + 1).setWidth 32))) := fun b hb => (hf.tsr b hb).trans (congrArg (· || _) (hp.tsr b hb))
  have hrest : tickBase s = { s with tb := s.tb + 1, sprs := (tickBase s).sprs } :=
    hf.rest.trans (congrArg (fun u : State => { u with sprs := (tickBase s).sprs }) hp.rest)
  refine ⟨congrArg State.tb hrest, fun h => ?_, fun h => ?_, fun h => ?_, ?_, ?_, fun b hb => ?_,
    fun r ht hpr => (hf.sprs r ht).trans (hp.sprs r ht hpr), ?_⟩
  · exact hpit.trans (if_pos h)
  · have h0 : s.spr .pit ≠ 0 := fun h0 => by rw [h0] at h; exact absurd h (by decide)
    have h1 : s.spr .pit ≠ 1 := fun h1 => by rw [h1] at h; exact absurd h (by decide)
    exact hpit.trans ((if_neg h0).trans (if_neg h1))
  · have h0 : s.spr .pit ≠ 0 := h.symm ▸ by decide
    exact hpit.trans ((if_neg h0).trans (if_pos h))
  · rw [htsr 4 (by decide)]
    simp
  · rw [htsr 5 (by decide), Bool.or_eq_true, Bool.or_eq_true, Bool.and_eq_true, Bool.and_eq_true, rises_iff]
    simp [fitBit, State.tbl]
  · have h4 : b ≠ 4 := by omega
    have h5 : b ≠ 5 := by omega
    rw [htsr b (by omega)]
    simp [h4, h5]
  · rw [hrest]

/-- A tick of running timers: the time-out follows where the watchdog's bit rises. -/
theorem tick_eq (h : s.timersFrozen = false) : tick s =
    if rises (watchdogBit (s.spr .tcr)) s.tbl ((s.tb + 1).setWidth 32) then watchdogTimeOut (tickBase s)
    else tickBase s := by
  have htcr : (pitStep { s with tb := s.tb + 1 }).spr .tcr = s.spr .tcr :=
    (pitSteps_pitStep { s with tb := s.tb + 1 }).sprs .tcr (by decide) (by decide)
  refine (if_neg (Bool.eq_false_iff.1 h)).trans ((tbEvents_eq ..).trans ?_)
  rw [htcr]
  rfl

theorem rises_watchdogBit_iff {new : Word} :
    rises (watchdogBit (s.spr .tcr)) s.tbl new = true ↔ watchdogRises s new := rises_iff

/-- Settles O56. -/
theorem timerTick : Obligations.TimerTick := fun s =>
  ⟨fun h => if_pos h,
    fun h hw => (tick_eq h).trans (if_neg (mt rises_watchdogBit_iff.1 hw)) ▸ ticked_tickBase s,
    fun h hw => ⟨tickBase s, ticked_tickBase s, (tick_eq h).trans (if_pos (rises_watchdogBit_iff.2 hw))⟩⟩

/-! ### Time-outs and writes of TBL -/

theorem watchdogTimeOut_arms (h : bitAt (s.spr .tsr) 0 = false) : watchdogTimeOut s = s.setTsrBit 0 := by
  simp only [watchdogTimeOut, h, Bool.not_false, if_true]

theorem watchdogTimeOut_interrupts (h0 : bitAt (s.spr .tsr) 0 = true) (h1 : bitAt (s.spr .tsr) 1 = false) :
    watchdogTimeOut s = s.setTsrBit 1 := by
  simp only [watchdogTimeOut, h0, h1, Bool.not_true, Bool.false_eq_true, if_false, Bool.not_false, if_true]

/-- A third time-out does what TCR[WRC] asks. -/
theorem watchdogTimeOut_last (h0 : bitAt (s.spr .tsr) 0 = true) (h1 : bitAt (s.spr .tsr) 1 = true) :
    (fieldTo (s.spr .tcr) 3 2 = 0 → watchdogTimeOut s = s) ∧
    ∀ k, resetKindOf (fieldTo (s.spr .tcr) 3 2) = some k →
      watchdogTimeOut s = resetFrom k (fieldTo (s.spr .tcr) 3 2) s := by
  refine ⟨fun hc => ?_, fun k hk => ?_⟩
  · have hnone : resetKindOf (fieldTo (s.spr .tcr) 3 2) = none := by rw [hc]; rfl
    simp only [watchdogTimeOut, h0, h1, hnone, Bool.not_true, Bool.false_eq_true, if_false]
  · simp only [watchdogTimeOut, h0, h1, hk, Bool.not_true, Bool.false_eq_true, if_false]

/-- `mtspr` to TBL: the FIT's part, then a time-out where the watchdog's bit rises. -/
theorem exec_mtspr_tbl_events (hu : s.userMode = false) (r : Reg) : exec (.mtspr 0x11C r) s =
    .next (tbEvents s.tbl (s.gpr r) { s.advance with tb := s.tbu ++ s.gpr r }) :=
  sprAccess_supervisor hu _ _

/-- Settles O57. -/
theorem watchdog : Obligations.Watchdog := by
  refine fun s => ⟨watchdogTimeOut_arms, watchdogTimeOut_interrupts, fun h0 h1 => (watchdogTimeOut_last h0 h1).1,
    fun h0 h1 hc => ?_, fun r hu => ?_⟩
  · obtain ⟨k, hk, hcode⟩ := code_of_resetKindOf hc
    have hreset := resetValues_resetFrom k (fieldTo (s.spr .tcr) 3 2) s
    rw [(watchdogTimeOut_last h0 h1).2 k hk]
    exact ⟨hreset.pc, hreset.wrs, hreset.mrr.trans hcode⟩
  · intro v fp written u
    have hu' : fitStep s.tbl v written = u := if_congr rises_iff rfl rfl
    have hexec : exec (.mtspr 0x11C r) s =
        .next (if rises (watchdogBit (s.spr .tcr)) s.tbl v then watchdogTimeOut u else u) :=
      (exec_mtspr_tbl_events hu r).trans (hu' ▸ rfl)
    exact ⟨fun h => hexec.trans (congrArg _ (if_pos (rises_watchdogBit_iff.2 h))),
      fun h => hexec.trans (congrArg _ (if_neg (mt rises_watchdogBit_iff.1 h)))⟩

end Sys2Proof.Machine
end

section
/-! SUPPORT. The fetch exceptions: what a fetch that its checks stop, or whose word nothing answers for, makes of the
step (60_exceptions.md R532, R534, R546; 20_memory.md R114, R122). -/

namespace Sys2Proof.Machine

variable {s : State}

/-! ### A fetch its checks stop -/

section Checks

variable {c : FetchContext} {ea : Word} {p : Page}

theorem fetchAt_miss (h : lookupFetch c ea = .miss) : s.fetchAt c ea = (.tlbMiss, s) := by
  simp only [State.fetchAt, h]

theorem fetchAt_multiple (h : lookupFetch c ea = .multiple) : s.fetchAt c ea = (.refused .tlbMultipleMatch, s) := by
  simp only [State.fetchAt, h]

theorem fetchAt_zoneDenied (h : lookupFetch c ea = .page p) (hz : p.zoneDenied (bitAt c.msr 17) = true) :
    s.fetchAt c ea = (.denied true, s) := by
  simp only [State.fetchAt, h, hz, if_true]

theorem fetchAt_fetchDenied (h : lookupFetch c ea = .page p) (hz : p.zoneDenied (bitAt c.msr 17) = false)
    (hf : p.fetchDenied (bitAt c.msr 17) = true) : s.fetchAt c ea = (.denied false, s) := by
  simp only [State.fetchAt, h, hz, hf, Bool.false_eq_true, if_false, if_true]

theorem fetchAt_writeThroughInhibited (h : lookupFetch c ea = .page p) (hz : p.zoneDenied (bitAt c.msr 17) = false)
    (hf : p.fetchDenied (bitAt c.msr 17) = false) (hw : p.attrs.w = true) (hi : p.attrs.i = true) :
    s.fetchAt c ea = (.refused .writeThroughInhibited, s) := by
  simp only [State.fetchAt, h, hz, hf, hw, hi, Bool.false_eq_true, if_false, Bool.and_self, if_true]

end Checks

/-! ### The step (R520) -/

/-- A quiet step is what becomes of the word it fetches. -/
theorem step_of_fetchAt (h : RunsNext s) : step s =
    runFetched ((fetchState s).fetchAt s.fetchContext s.pc).1 ((fetchState s).fetchAt s.fetchContext s.pc).2.resolve :=
  step_of_runsNext h

/-- The state a stopped fetch leaves differs from the step's first in the fetcher's own parts alone. -/
theorem EntersNonCritical.of_fetchState {t : State} {offset ret esr dear : Word}
    (h : EntersNonCritical (fetchState s).resolve t offset ret esr dear) : EntersNonCritical s t offset ret esr dear :=
  { h with }

/-- A translated fetch address is looked up in the TLB. -/
theorem lookupFetch_translated (h : s.msrIR = true) (ea : Word) :
    lookupFetch s.fetchContext ea = tlbLookup s.tlb (s.spr .pid) (s.spr .zpr) ea := if_pos h

theorem lookupFetch_entry (h : s.msrIR = true) {ea : Word} {k : Fin 64} (hk : onlyEntry s ea k) :
    lookupFetch s.fetchContext ea = .page (entryPage s s.tlb[k] ea) :=
  (lookupFetch_translated h ea).trans (tlbLookup_page_iff.2 ⟨k, hk, rfl⟩)

/-- A step whose fetch misses enters the Instruction TLB Miss interrupt. -/
theorem step_fetchMiss (h : RunsNext s) (hir : s.msrIR = true) (hno : noEntry s s.pc) : Completes (step s) fun t =>
    EntersNonCritical s t 0x1200 s.pc (s.spr .esr) (s.spr .dear) := by
  rw [step_of_fetchAt h, fetchAt_miss ((lookupFetch_translated hir s.pc).trans (tlbLookup_miss hno))]
  exact ⟨_, rfl, (takeInterrupt_spec .instructionTlbMiss s.pc (fetchState s).resolve rfl).of_fetchState⟩

/-- A step whose fetch is denied enters the Instruction Storage interrupt. -/
theorem step_fetchDenied (h : RunsNext s) {zone : Bool}
    (hf : (fetchState s).fetchAt s.fetchContext s.pc = (.denied zone, fetchState s)) : Completes (step s) fun t =>
    EntersNonCritical s t 0x0400 s.pc (s.keptSyndrome ||| flagAt 9 zone) (s.spr .dear) := by
  have hw : flagAt 9 zone &&& Spr.mask .esr = flagAt 9 zone := by cases zone <;> decide
  rw [step_of_fetchAt h, hf]
  exact ⟨_, rfl,
    (takeInterrupt_setSyndrome_spec .instructionStorage s.pc (fetchState s).resolve rfl hw).of_fetchState⟩

/-! ### The instruction machine check (R532) -/

theorem fetchBus_unbacked {map : List Region} {p : Page}
    (h : ∃ j < 4, regionAt map (p.ra.toNat + j) = some .unbacked) : s.fetchBus map p = (.busError, s) := by
  obtain ⟨j, hj, hr⟩ := h
  have hany : (((List.range 4).map fun i => p.ra.toNat + i).any (isUnbacked map)) = true :=
    List.any_eq_true.2 ⟨_, List.mem_map.2 ⟨j, List.mem_range.2 hj, rfl⟩, by simp [isUnbacked, hr]⟩
  simp only [State.fetchBus, hany, if_true]

/-- A fetch that no line answers goes over the bus, where it may meet a bus error. -/
theorem fetchPage_busError {c : FetchContext} {ea : Word} {p : Page}
    (hc : (isetGet c.icache (iIndex ea)).find (iTag p.ra) = none)
    (hs : (isetGet s.icache (iIndex ea)).find (iTag p.ra) = none)
    (h : ∃ j < 4, regionAt c.memMap (p.ra.toNat + j) = some .unbacked) : (s.fetchPage c ea p).1 = .busError := by
  have hbus := fetchBus_unbacked (s := s) h
  by_cases hno : p.attrs.i = true ∨ bitAt (s.spr .ccr0) 23 = true
  · rw [fetchPage_bus hc hs hno, hbus]
  · obtain ⟨hi, hf⟩ := not_or.1 hno
    rw [fetchPage_fill hc hs (Bool.eq_false_iff.2 hi) (Bool.eq_false_iff.2 hf), hbus]

/-- A stuck machine has no next step. -/
theorem step_stuck (hin : s.inputs = []) (hstuck : s.stuck = true) : step s = .fault .instructionMachineCheck := by
  rw [step, applyInput_quiet s hin]
  exact if_pos hstuck

/-- ESR with MCI set. -/
def State.setMci (s : State) : State := s.setSpr .esr (s.spr .esr ||| 0x80000000)

theorem instructionBusError_enabled (h : s.msrME = true) :
    instructionBusError s = takeInterrupt .machineCheck s.pc s.setMci := if_pos h

theorem instructionBusError_disabled (h : s.msrME = false) :
    instructionBusError s = { s.setMci with stuck := true } := if_neg (Bool.eq_false_iff.1 h)

theorem spr_setMci : s.setMci.spr .esr = (s.spr .esr ||| 0x80000000) &&& Spr.mask .esr := State.spr_setSpr_self ..

theorem spr_setMci_ne {r : Spr} (hr : r ≠ .esr) : s.setMci.spr r = s.spr r := State.spr_setSpr_ne _ _ hr

/-- The entry of the instruction machine check, from the state that met it. -/
theorem takeMachineCheck_spec (s : State) : let t := takeInterrupt .machineCheck s.pc s.setMci
    t.pc = (s.spr .evpr &&& 0xFFFF0000) ||| 0x0200 ∧ t.spr .srr2 = s.pc ∧ t.spr .srr3 &&& msrMask = s.msr &&& msrMask ∧
      t.msr = 0 ∧ t.spr .esr = (s.spr .esr ||| 0x80000000) &&& Spr.mask .esr ∧
      ∀ r, r ≠ .srr2 → r ≠ .srr3 → r ≠ .esr → t.spr r = s.spr r := by
  have hspr := spr_takeInterrupt .machineCheck s.pc s.setMci
  refine ⟨congrArg (fun v : Word => (v &&& 0xFFFF0000) ||| 0x0200) (spr_setMci_ne (by decide)), hspr .srr2, ?_, ?_,
    (hspr .esr).trans spr_setMci, fun r h2 h3 he => ?_⟩
  · exact (congrArg (· &&& msrMask) (hspr .srr3)).trans (readMasked_and s.setMci s.msr msrMask)
  · show s.msr &&& 0#32 &&& msrMask = 0#32
    rw [BitVec.and_zero, BitVec.zero_and]
  · exact (hspr r).trans ((if_neg h3).trans ((if_neg h2).trans (spr_setMci_ne he)))

/-- An instruction machine check, taken or not, sets ESR[MCI]. -/
theorem esr_instructionBusError (s : State) :
    (instructionBusError s).spr .esr = (s.spr .esr ||| 0x80000000) &&& Spr.mask .esr := by
  cases hme : s.msrME with
  | false =>
    rw [instructionBusError_disabled hme]
    exact spr_setMci
  | true =>
    obtain ⟨-, -, -, -, hesr, -⟩ := takeMachineCheck_spec s
    rw [instructionBusError_enabled hme]
    exact hesr

/-- What an instruction machine check, taken or not, leaves alone. -/
structure KeptByFetchFault (s t : State) : Prop where
  gprs : t.gprs = s.gprs
  cr : t.cr = s.cr
  reserve : t.reserve = s.reserve
  tlb : t.tlb = s.tlb
  tb : t.tb = s.tb
  dcrs : t.dcrs = s.dcrs
  mem : t.mem = s.mem
  dcache : t.dcache = s.dcache

theorem keptByFetchFault_instructionBusError (s : State) : KeptByFetchFault s (instructionBusError s) := by
  cases hme : s.msrME with
  | false =>
    rw [instructionBusError_disabled hme]
    constructor <;> rfl
  | true =>
    have hpart := fun {α : Type} (f : State → α) => takeInterrupt_part .machineCheck s.pc s.setMci f
    rw [instructionBusError_enabled hme]
    exact ⟨hpart State.gprs, hpart State.cr, hpart State.reserve, hpart State.tlb, hpart State.tb, hpart State.dcrs,
      hpart State.mem, hpart State.dcache⟩

theorem keptByFetchFault_of_fetchedFrom {q t : State} (hq : FetchedFrom s q) (h : KeptByFetchFault q t) :
    KeptByFetchFault s t :=
  ⟨h.gprs.trans hq.gprs, h.cr.trans hq.cr, h.reserve.trans hq.reserve, h.tlb.trans hq.tlb, h.tb.trans hq.tb,
    h.dcrs.trans hq.dcrs, h.mem.trans hq.mem, h.dcache.trans hq.dcache⟩

theorem spr_fetchedFrom {q : State} (hq : FetchedFrom s q) (r : Spr) : q.spr r = s.spr r :=
  congrArg (fun f => State.spr { s with sprs := f } r) hq.sprs

theorem msrME_fetchedFrom {q : State} (hq : FetchedFrom s q) : q.msrME = s.msrME := congrArg (bitAt · 19) hq.msr

/-- The state a step hands to what becomes of the fetched word has the inputs the step began with. -/
theorem inputs_fetchNow (s : State) : ((quietBoundary s).fetchNow 0).2.resolve.inputs = s.inputs :=
  (fetchOnly_fetchAt (fetchState s) s.fetchContext s.pc).part State.inputs

/-- A step whose fetch meets a bus error is the instruction machine check, taken or not. -/
theorem step_busError (h : RunsNext s) {ra : Word} {inhibited little : Bool} (hf : FetchesFrom s ra inhibited little)
    (hc : (isetGet s.icache (iIndex s.pc)).find (iTag ra) = none)
    (hu : ∃ j < 4, regionAt s.memMap (ra.toNat + j) = some .unbacked) :
    step s = .next (instructionBusError ((quietBoundary s).fetchNow 0).2.resolve) := by
  obtain ⟨p, rfl, _, _, hnow⟩ := fetchNow_of_fetchesFrom hf
  have hbus : ((quietBoundary s).fetchNow 0).1 = .busError :=
    (congrArg Prod.fst hnow).trans (fetchPage_busError hc hc hu)
  rw [step_of_runsNext h]
  show runFetched ((quietBoundary s).fetchNow 0).1 _ = _
  rw [hbus]
  rfl

/-! ### The obligation -/

/-- Settles O50. -/
theorem fetchExceptions : Obligations.FetchExceptions := by
  intro s h
  refine ⟨step_fetchMiss h, fun hir k hk => ?_, fun hir j k hjk hj hk => ?_, fun ra inhibited little hf hc hu => ?_⟩
  · have hlook : lookupFetch s.fetchContext s.pc = .page (entryPage s s.tlb[k] s.pc) := lookupFetch_entry hir hk
    have hzone := entryPage_zoneDenied s s.tlb[k] s.pc
    have hdeny := entryPage_fetchDenied s s.tlb[k] s.pc
    refine ⟨fun hz => step_fetchDenied h (fetchAt_zoneDenied hlook (hzone.2 hz)), fun hz hd => ?_,
      fun hz hx hg hw hi => ?_⟩
    · have hd' : ¬(s.tlb[k].ex = true ∨ zoneAllows s s.tlb[k]) ∨ s.tlb[k].g = true :=
        hd.imp_left fun hx => not_or.2 ⟨Bool.eq_false_iff.1 hx.1, hx.2⟩
      have hdenied := step_fetchDenied h
        (fetchAt_fetchDenied hlook (Bool.eq_false_iff.2 (hz ∘ hzone.1)) (hdeny.2 hd'))
      rwa [show flagAt 9 false = 0#32 from rfl, BitVec.or_zero] at hdenied
    · have hallowed : ¬(¬(s.tlb[k].ex = true ∨ zoneAllows s s.tlb[k]) ∨ s.tlb[k].g = true) :=
        not_or.2 ⟨not_not_intro hx, Bool.eq_false_iff.1 hg⟩
      rw [step_of_fetchAt h, fetchAt_writeThroughInhibited hlook (Bool.eq_false_iff.2 (hz ∘ hzone.1))
        (Bool.eq_false_iff.2 (hallowed ∘ hdeny.1)) hw hi]
      rfl
  · rw [step_of_fetchAt h, fetchAt_multiple ((lookupFetch_translated hir s.pc).trans (tlbLookup_multiple hjk hj hk))]
    rfl
  · have hq : FetchedFrom s ((quietBoundary s).fetchNow 0).2.resolve := fetchedFrom_fetchNow s
    have hin := inputs_fetchNow s
    refine ⟨_, step_busError h hf hc hu, ?_⟩
    generalize ((quietBoundary s).fetchNow 0).2.resolve = q at hq hin
    obtain ⟨hgprs, hcr, hreserve, htlb, htb, hdcrs, hmem, hdcache⟩ :=
      keptByFetchFault_of_fetchedFrom hq (keptByFetchFault_instructionBusError q)
    refine ⟨?_, hgprs, hcr, hreserve, htlb, htb, hdcrs, dataByte_congr hmem hdcache, fun hme => ?_, fun hme => ?_⟩
    · rw [esr_instructionBusError, spr_fetchedFrom hq]
    · rw [instructionBusError_enabled ((msrME_fetchedFrom hq).trans hme)]
      obtain ⟨hpc, hsrr2, hsrr3, hmsr, -, hother⟩ := takeMachineCheck_spec q
      rw [spr_fetchedFrom hq] at hpc
      rw [hq.msr] at hsrr3
      exact ⟨hpc, hsrr2.trans hq.pc, hsrr3, hmsr, fun r h2 h3 he => (hother r h2 h3 he).trans (spr_fetchedFrom hq r)⟩
    · rw [instructionBusError_disabled ((msrME_fetchedFrom hq).trans hme)]
      exact ⟨hq.pc, hq.msr, fun r hr => (spr_setMci_ne hr).trans (spr_fetchedFrom hq r),
        step_stuck (hin.trans h.inputs) rfl⟩

end Sys2Proof.Machine
end
